-- ==== Sys2Proof/Word.lean ====
section
/-! DEFINITION. The widths of the data paths: bytes of 8 bits, words and addresses of 16 bits (R8, R11). -/

namespace Sys2Proof

/-- A byte, 8 bits (R8). Bit 7 is the most significant (R10). -/
abbrev Byte := BitVec 8

/-- A data word or a memory address, 16 bits (R8, R200). Bit 15 is the most significant (R10). -/
abbrev Word := BitVec 16

/-- A workspace register number, the 4-bit R, S, D or W field of an instruction word (R301 to R310). -/
abbrev RegNo := BitVec 4

/-- A CRU bit address, 12 bits (R650). -/
abbrev CruAddr := BitVec 12

/-- A video RAM address, 14 bits (R150, R860). -/
abbrev VramAddr := BitVec 14

end Sys2Proof
end

