-- ==== Sys2Proof/Config.lean ====
section
/-! DEFINITION. The parameters of R9. Those the spec fixes are definitions; those it leaves OPEN are constants without a
body (`opaque`), so that nothing can be proved of their value, with the constraints the spec states built into the names the
machine uses. Parameters that configure one device are data of that device in State instead (R812, R763, R766, R931). -/

namespace Sys2Proof.Config

/-! ## Choices the spec makes -/

/-- ACCESS_PROFILE (R425, D6): which bus accesses an instruction makes. -/
inductive AccessProfile where
  /-- The data sheet's accesses, those whose value is not used included. -/
  | tms9900
  /-- Without the accesses marked [T]. -/
  | architectural
deriving DecidableEq, Repr

/-- R425: "Under `tms9900` (the spec's choice)". -/
def accessProfile : AccessProfile := .tms9900

/-- PC_LSB (R101, D9): whether bit 0 of PC is kept. -/
inductive PcLsb where
  /-- PC holds all 16 bits as written. -/
  | keep
  /-- Every write of PC clears bit 0. -/
  | clear
deriving DecidableEq, Repr

/-- R101: "`PC_LSB = keep` (the spec's choice)". -/
def pcLsb : PcLsb := .keep

/-- IDLE_MODE (R700, D14). -/
inductive IdleMode where
  /-- IDLE stops the processor until an interrupt is taken. -/
  | waitForInterrupt
  /-- IDLE only emits its event. -/
  | nop
deriving DecidableEq, Repr

/-- R700: "`IDLE_MODE = wait_for_interrupt` (the spec's choice)". -/
def idleMode : IdleMode := .waitForInterrupt

/-- ALIAS_DECODE (R331, D12), with the model's default beside the two readings. -/
inductive AliasDecode where
  /-- An alias word is the instruction whose `alias_mask` it matches. -/
  | decodes
  /-- An alias word is illegal (R330). -/
  | illegal
  /-- An alias word is refused by name: neither reading is taken. -/
  | refuse
deriving DecidableEq, Repr

/-- R331: "The model's decoder refuses these words (names them and gives no step) until the parameter is fixed". -/
def aliasDecode : AliasDecode := .refuse

/-- BANK_ADDR_SHIFT (R760, D23): the write at 0x6000 + 2k selects index k. -/
def bankAddrShift : Nat := 1

/-- BANK_SIZE (R751, D23): the size of a cartridge ROM bank. -/
def bankSize : Nat := 0x2000

/-- The bound of the illegal-opcode log (R8, R412, C7). -/
def illegalLogBound : Nat := 256

/-! ## OPEN cycle numbers (log 6) -/

/-- ILLEGAL_CYCLES (R412): OPEN. -/
opaque illegalCycles : Nat

/-- INT_CYCLES (R960): OPEN. -/
opaque intCycles : Nat

/-- How far IDLE_CYCLES lies above its bound. -/
opaque idleExtra : Nat

/-- IDLE_CYCLES (R700): OPEN "and must be >= 1". -/
def idleCycles : Nat := idleExtra + 1

/-- WAIT_ROM (R241): OPEN. -/
opaque waitRom : Nat

/-- WAIT_PAD (R241): OPEN. -/
opaque waitPad : Nat

/-- WAIT_RAM (R241): OPEN, one constant. -/
opaque waitRam : Nat

/-- WAIT_DSR (R241): OPEN. -/
opaque waitDsr : Nat

/-- WAIT_CART (R241): OPEN. -/
opaque waitCart : Nat

/-- WAIT_UNMAPPED (R241): OPEN. -/
opaque waitUnmapped : Nat

/-- How far WAIT_SOUND lies above its bound. -/
opaque soundExtra : Nat

/-- How far WAIT_VDP lies above its bound. -/
opaque vdpExtra : Nat

/-- How far WAIT_SPEECH lies above its bound. -/
opaque speechExtra : Nat

/-- How far WAIT_GROM lies above its bound. -/
opaque gromExtra : Nat

/-- WAIT_SOUND, greater than WAIT_RAM (R241). -/
def waitSound : Nat := waitRam + 1 + soundExtra

/-- WAIT_VDP, greater than WAIT_RAM (R241). -/
def waitVdp : Nat := waitRam + 1 + vdpExtra

/-- WAIT_SPEECH, greater than WAIT_RAM (R241). -/
def waitSpeech : Nat := waitRam + 1 + speechExtra

/-- WAIT_GROM, greater than WAIT_RAM (R241). -/
def waitGrom : Nat := waitRam + 1 + gromExtra

/-! ## Free values, one per use: the first argument counts the uses (logs 7 and 8) -/

/-- How far the base cycles of the n-th drawn DIV lie above 92, for the dividend `hi`, `lo` and the divisor `s`
(R474: "a draw in 92..124"). -/
opaque divDraw (n : Nat) (hi lo s : Word) : Fin 33

/-- DIV_CYCLES (R474): between 92 and 124 inclusive. -/
def divCycles (n : Nat) (hi lo s : Word) : Nat := 92 + (divDraw n hi lo s).val

/-- SPEECH_READ (R237): the byte of the n-th drawn speech-port read. -/
opaque speechRead (n : Nat) : Byte

/-! ## What lies outside the block (R6, R651, R957; logs 15 and 16) -/

/-- A CRU bit of a device outside the block (R650): "a read returns an input bit, a write sets an output bit; a device may make
them the same storage or not". -/
inductive CruBit where
  /-- An input bit, which the host drives, and the output bit last written. -/
  | separate (input output : Bool)
  /-- One bit, written and read back. -/
  | shared (level : Bool)
deriving DecidableEq, Repr

/-- The state of a CRU device outside the block. DESIGN CHOICE, log 16, unsafe: it changes only by a bit write and by the host
between run calls; it does not act on the RSET event, which R702 allows (nor on another event of R706). -/
inductive OutsideDevice where
  /-- A device that holds bits, the bit at offset `i` being entry `i`. -/
  | bits (l : List CruBit)
  /-- Any other device, named by the number `model`: what it answers is its own (`outsideBit`), from the inputs the host drives
  and the bit writes (offset and value, oldest first) it has received. -/
  | platform (model : Nat) (inputs : List Bool) (writes : List (Nat × Bool))
deriving DecidableEq, Repr

/-- `readBit(offset)` of the platform's device `model`: OPEN, its bits "are those devices' own" (I10). -/
opaque outsideBit (model : Nat) (inputs : List Bool) (writes : List (Nat × Bool)) (offset : Nat) : Bool

/-- INT_CONTROLLER (R957) of the platform's controller `model`: OPEN, the function from `vdpInt`, `timerInt` and the states of the
CRU devices outside the block, each with its base address, to the level presented (the value k stands for level k + 1). -/
opaque intController (model : Nat) (vdpInt timerInt : Bool) (outside : List (Nat × OutsideDevice)) : Option (Fin 15)

/-! ## OPEN choices with no value here (logs 9 to 12) -/

/-- ST_RESERVED (R104, D11). -/
inductive StReserved where
  /-- Bits 8:4 of ST hold what RTWP loads. -/
  | stored
  /-- Bits 8:4 of ST read as 0 and RTWP discards them. -/
  | zero
deriving DecidableEq, Repr, Inhabited

/-- ST_RESERVED: OPEN. -/
opaque stReserved : StReserved

/-- FIFTH_SPRITE_RESET (R905). -/
inductive FifthSpriteReset where
  /-- 5S is cleared at the start of each frame's pass. -/
  | perFrame
  /-- 5S is left to status reads. -/
  | never
deriving DecidableEq, Repr, Inhabited

/-- FIFTH_SPRITE_RESET: OPEN. -/
opaque fifthSpriteReset : FifthSpriteReset

/-- SPRITE_DUP_RULE (R903): OPEN. Whether sprite `i` with top row `top` is on display row `r`, for registers `vr`, in the one
case the defect is about. -/
opaque spriteDupRule (i r : Nat) (top : Int) (vr : Vector Byte 8) : Bool

/-- The pattern row, before magnification, of a sprite that SPRITE_DUP_RULE puts on a display row outside its span: R902 has
`dy = r - top` for 0..span-1 and states nothing for such a row (log 11). -/
opaque spriteDupRow (i r : Nat) (top : Int) (vr : Vector Byte 8) : Nat

/-- HORIZON_CART_PAGE (R815): OPEN. The cartridge-space page for the card's bank count, its page and the address. -/
opaque horizonCartPage (banks page : Nat) (a : Word) : Nat

end Sys2Proof.Config
end

