-- ==== Sys2Proof/Syntax.lean ====
section
/-! DEFINITION. The abstract syntax of the 69 instructions (30_encoding.md). An instruction is ONE 16-bit word: extension
words and immediates are fetched from PC while the operands are evaluated (R311, R333, R420), so they are not part of it. -/

namespace Sys2Proof

/-- A general operand (T, R) of R310. -/
inductive Operand where
  /-- T = 0: the workspace register `Rn` itself. -/
  | reg (r : RegNo)
  /-- T = 1: the word or byte that `Rn` points at. -/
  | ind (r : RegNo)
  /-- T = 2 and R = 0: symbolic, the extension word is the address. -/
  | sym
  /-- T = 2 and R ≠ 0: indexed, the extension word plus `Rn`; there is no indexing by R0 (R310). -/
  | idx (r : RegNo)
  /-- T = 3: indirect with auto-increment. -/
  | inc (r : RegNo)
deriving DecidableEq, Repr

/-- The count field C of a shift (R305, R313): a count 1..15 in the instruction, or 0 for "from R0". -/
inductive ShiftCount where
  /-- C ≠ 0: the count itself. -/
  | imm (n : BitVec 4)
  /-- C = 0: the count is in bits 3:0 of R0. -/
  | fromR0
deriving DecidableEq, Repr

/-- The 69 instructions, one constructor per row of the opcode map (R320), in the table's order.
`src` and `dst` are general operands, `w` and `d` register numbers, `disp` the signed displacement of format II, and
`count` the number of CRU bits, 1 to 16 (R314). -/
inductive Instr where
  /-- Format VIII-a (R308): LI, R556. -/
  | li (w : RegNo)
  /-- AI, R462. -/
  | ai (w : RegNo)
  /-- ANDI, R514. -/
  | andi (w : RegNo)
  /-- ORI, R515. -/
  | ori (w : RegNo)
  /-- CI, R502. -/
  | ci (w : RegNo)
  /-- STWP, R559. -/
  | stwp (w : RegNo)
  /-- STST, R558. -/
  | stst (w : RegNo)
  /-- Format VIII-b (R308): LWPI, R557. -/
  | lwpi
  /-- LIMI, R555. -/
  | limi
  /-- Format VII (R307): IDLE, R700. -/
  | idle
  /-- RSET, R702. -/
  | rset
  /-- RTWP, R605. -/
  | rtwp
  /-- CKON, R703. -/
  | ckon
  /-- CKOF, R704. -/
  | ckof
  /-- LREX, R705. -/
  | lrex
  /-- Format VI (R306): BLWP, R604. -/
  | blwp (src : Operand)
  /-- B, R601. -/
  | b (src : Operand)
  /-- X, R612. -/
  | x (src : Operand)
  /-- CLR, R518. -/
  | clr (src : Operand)
  /-- NEG, R467. -/
  | neg (src : Operand)
  /-- INV, R517. -/
  | inv (src : Operand)
  /-- INC, R463. -/
  | inc (src : Operand)
  /-- INCT, R464. -/
  | inct (src : Operand)
  /-- DEC, R465. -/
  | dec (src : Operand)
  /-- DECT, R466. -/
  | dect (src : Operand)
  /-- BL, R602. -/
  | bl (src : Operand)
  /-- SWPB, R554. -/
  | swpb (src : Operand)
  /-- SETO, R519. -/
  | seto (src : Operand)
  /-- ABS, R468. -/
  | abs (src : Operand)
  /-- Format V (R305): SRA, R581. -/
  | sra (c : ShiftCount) (w : RegNo)
  /-- SRL, R582. -/
  | srl (c : ShiftCount) (w : RegNo)
  /-- SLA, R583. -/
  | sla (c : ShiftCount) (w : RegNo)
  /-- SRC, R584. -/
  | src (c : ShiftCount) (w : RegNo)
  /-- Format II (R302): JMP, R630. -/
  | jmp (disp : Byte)
  /-- JLT, R631. -/
  | jlt (disp : Byte)
  /-- JLE, R632. -/
  | jle (disp : Byte)
  /-- JEQ, R633. -/
  | jeq (disp : Byte)
  /-- JHE, R634. -/
  | jhe (disp : Byte)
  /-- JGT, R635. -/
  | jgt (disp : Byte)
  /-- JNE, R636. -/
  | jne (disp : Byte)
  /-- JNC, R637. -/
  | jnc (disp : Byte)
  /-- JOC, R638. -/
  | joc (disp : Byte)
  /-- JNO, R639. -/
  | jno (disp : Byte)
  /-- JL, R640. -/
  | jl (disp : Byte)
  /-- JH, R641. -/
  | jh (disp : Byte)
  /-- JOP, R642. -/
  | jop (disp : Byte)
  /-- SBO, R660. -/
  | sbo (disp : Byte)
  /-- SBZ, R661. -/
  | sbz (disp : Byte)
  /-- TB, R662. -/
  | tb (disp : Byte)
  /-- Format III (R303): COC, R503. -/
  | coc (src : Operand) (d : RegNo)
  /-- CZC, R504. -/
  | czc (src : Operand) (d : RegNo)
  /-- XOR, R516. -/
  | xor (src : Operand) (d : RegNo)
  /-- Format IX (R309): XOP with its number, R615. -/
  | xop (src : Operand) (n : BitVec 4)
  /-- Format IV (R304): LDCR, R663. -/
  | ldcr (src : Operand) (count : Nat)
  /-- STCR, R664. -/
  | stcr (src : Operand) (count : Nat)
  /-- Format IX (R309): MPY, R472. -/
  | mpy (src : Operand) (d : RegNo)
  /-- DIV, R473. -/
  | div (src : Operand) (d : RegNo)
  /-- Format I (R301): SZC, R510. -/
  | szc (src dst : Operand)
  /-- SZCB, R511. -/
  | szcb (src dst : Operand)
  /-- S, R452. -/
  | s (src dst : Operand)
  /-- SB, R453. -/
  | sb (src dst : Operand)
  /-- C, R500. -/
  | c (src dst : Operand)
  /-- CB, R501. -/
  | cb (src dst : Operand)
  /-- A, R450. -/
  | a (src dst : Operand)
  /-- AB, R451. -/
  | ab (src dst : Operand)
  /-- MOV, R550. -/
  | mov (src dst : Operand)
  /-- MOVB, R551. -/
  | movb (src dst : Operand)
  /-- SOC, R512. -/
  | soc (src dst : Operand)
  /-- SOCB, R513. -/
  | socb (src dst : Operand)
deriving DecidableEq, Repr

end Sys2Proof
end

