-- ==== Sys2Proof/Machine/Cycles.lean ====
section
/-! DEFINITION. CYCLE_TABLE: the base clock cycles of R430 to R433. -/

namespace Sys2Proof.Machine

/-- Operand widths: 1 or 2 bytes (R316). -/
inductive Width where
  | byte
  | word
deriving DecidableEq, Repr

/-- The auto-increment step (R310, R426). -/
def Width.step : Width → Word
  | .byte => 1
  | .word => 2

/-- R431: address-modification cycles of a general operand. -/
def addrCycles (o : Operand) (n : Width) : Nat :=
  match o with
  | .reg _ => 0
  | .ind _ => 4
  | .sym | .idx _ => 8
  | .inc _ => match n with
    | .byte => 6
    | .word => 8

/-- R432: A, AB, S, SB, SOC, SOCB, SZC, SZCB, MOV, MOVB, C and CB. -/
def cyclesDual : Nat := 14
/-- R432: AI, ANDI, ORI and CI. -/
def cyclesImmediate : Nat := 14
/-- R432: COC, CZC and XOR. -/
def cyclesSourceReg : Nat := 14
/-- R432: CLR, SETO, INV, INC, INCT, DEC, DECT and SWPB. -/
def cyclesSingle : Nat := 10
/-- R432: NEG. -/
def cyclesNeg : Nat := 12
/-- R432: ABS of an operand whose bit 15 is `neg`. -/
def cyclesAbs (neg : Bool) : Nat := if neg then 14 else 12
/-- R432: B. -/
def cyclesB : Nat := 8
/-- R432: BL. -/
def cyclesBl : Nat := 12
/-- R432: BLWP. -/
def cyclesBlwp : Nat := 26
/-- R432: CKOF, CKON, IDLE, LREX and RSET. -/
def cyclesControl : Nat := 12
/-- R432: DIV on overflow. -/
def cyclesDivOverflow : Nat := 16
/-- R432: MPY. -/
def cyclesMpy : Nat := 52
/-- R432, R620: a jump, taken or not. -/
def cyclesJump (taken : Bool) : Nat := if taken then 10 else 8
/-- R432: LDCR of c bits. -/
def cyclesLdcr (c : Nat) : Nat := 20 + 2 * c
/-- R432: STCR of c bits. -/
def cyclesStcr (c : Nat) : Nat := if c ≤ 7 then 42 else if c = 8 then 44 else if c ≤ 15 then 58 else 60
/-- R432: LI. -/
def cyclesLi : Nat := 12
/-- R432: LIMI. -/
def cyclesLimi : Nat := 16
/-- R432: LWPI. -/
def cyclesLwpi : Nat := 10
/-- R432: RTWP. -/
def cyclesRtwp : Nat := 14
/-- R432: SBO, SBZ and TB. -/
def cyclesCruBit : Nat := 12
/-- R432: a shift by `n`, with the count in the instruction or from R0. -/
def cyclesShift (c : ShiftCount) (n : Nat) : Nat :=
  match c with
  | .imm _ => 12 + 2 * n
  | .fromR0 => 20 + 2 * n
/-- R432: STST and STWP. -/
def cyclesStore : Nat := 8
/-- R433: X's own part, 8 - 4, beside the executed instruction's base cycles. -/
def cyclesX : Nat := 4
/-- R432: XOP. -/
def cyclesXop : Nat := 36

end Sys2Proof.Machine
end

