-- ==== Sys2Proof/Machine/Bits.lean ====
section
/-! DEFINITION. Bit fields, byte order and sign extension, each decided once (R10, R11, R201). -/

namespace Sys2Proof.Machine

/-- Bits 15:8 of a word: the byte at the even address (R201). -/
def hiByte (w : Word) : Byte := w.extractLsb' 8 8

/-- Bits 7:0 of a word: the byte at the odd address (R201). -/
def loByte (w : Word) : Byte := w.extractLsb' 0 8

/-- Big-endian packing, `byte(a) ++ byte(a+1)` (R201). -/
def wordOf (hi lo : Byte) : Word := hi ++ lo

/-- The word `byte ++ 0x00` that a port read puts on the bus (R231, R233, R237). -/
def portWord (b : Byte) : Word := wordOf b 0

/-- Word accesses are forced to even addresses: `addr & 0xFFFE` (R210, R211). -/
def even (a : Word) : Word := a &&& 0xFFFE

/-- The addressed half of a word: bits 15:8 when the address is even, bits 7:0 when it is odd (R212). -/
def byteOf (a w : Word) : Byte := if a.getLsbD 0 then loByte w else hiByte w

/-- The word `old` with its half at address `a` replaced by `b` (R213, R423). -/
def mergeByte (a : Word) (b : Byte) (old : Word) : Word :=
  if a.getLsbD 0 then wordOf (hiByte old) b else wordOf b (loByte old)

/-- `sext_16` of a signed 8-bit displacement (R302, R312). -/
def sext16 (d : Byte) : Word := d.signExtend 16

/-- `w` with bit `i` set to `v`. -/
def putBit (w : Word) (i : Nat) (v : Bool) : Word :=
  if v then w ||| (1#16 <<< i) else w &&& ~~~(1#16 <<< i)

/-- The workspace register address `(WP + 2n) & 0xFFFF` (R12, R110). -/
def regAddrAt (wp : Word) (r : RegNo) : Word := wp + 2 * r.setWidth 16

end Sys2Proof.Machine
end

