-- ==== Sys2Proof/WellFormed.lean ====
section
/-! DEFINITION. Which terms of the syntax stand for an encodable instruction: no indexing by R0 (R310), an immediate shift
count is not 0 (R313), a CRU count is 1 to 16 (R314). Field widths are kept by the types. -/

namespace Sys2Proof

/-- R310: T = 2 with R = 0 is symbolic, so an indexed operand names a register other than R0. -/
def Operand.wf : Operand → Bool
  | .idx r => r != 0
  | _ => true

/-- R313: field C = 0 means "from R0", so an immediate count is 1..15. -/
def ShiftCount.wf : ShiftCount → Bool
  | .imm n => n != 0
  | .fromR0 => true

/-- R314: a CRU instruction moves 1 to 16 bits. -/
def cruCountWf (n : Nat) : Bool := decide (1 ≤ n) && decide (n ≤ 16)

/-- A well-formed instruction: one that some instruction word stands for. -/
def Instr.wf : Instr → Bool
  | .blwp o | .b o | .x o | .clr o | .neg o | .inv o | .inc o | .inct o | .dec o | .dect o
  | .bl o | .swpb o | .seto o | .abs o => o.wf
  | .sra k _ | .srl k _ | .sla k _ | .src k _ => k.wf
  | .coc o _ | .czc o _ | .xor o _ | .xop o _ | .mpy o _ | .div o _ => o.wf
  | .ldcr o n | .stcr o n => o.wf && cruCountWf n
  | .szc o p | .szcb o p | .s o p | .sb o p | .c o p | .cb o p | .a o p | .ab o p
  | .mov o p | .movb o p | .soc o p | .socb o p => o.wf && p.wf
  | .li _ | .ai _ | .andi _ | .ori _ | .ci _ | .stwp _ | .stst _ | .lwpi | .limi | .idle | .rset
  | .rtwp | .ckon | .ckof | .lrex | .jmp _ | .jlt _ | .jle _ | .jeq _ | .jhe _ | .jgt _ | .jne _
  | .jnc _ | .joc _ | .jno _ | .jl _ | .jh _ | .jop _ | .sbo _ | .sbz _ | .tb _ => true

end Sys2Proof
end

