-- ==== Sys2Proof/Decode.lean ====
section
/-! DEFINITION. The decoder, total on every instruction word, and the encoder, both from the formats R301 to R309 and the
opcode map R320. Illegal words are R330's, alias words R331's. -/

namespace Sys2Proof

/-- What an instruction word is (R333): exactly one row of the opcode map, an alias of a row, or illegal. -/
inductive Decoded where
  /-- A canonical word of R320. -/
  | instr (i : Instr)
  /-- A word of formats VII or VIII whose unused bits are not 0 (R331), with the instruction whose `alias_mask` it matches. -/
  | alternate (i : Instr)
  /-- A word of the ranges of R330. -/
  | illegal
deriving DecidableEq, Repr

/-- A general operand from its mode and register fields (R310). -/
def decodeOperand (t : BitVec 2) (r : RegNo) : Operand :=
  match t.toNat with
  | 0 => .reg r
  | 1 => .ind r
  | 2 => if r = 0 then .sym else .idx r
  | _ => .inc r

/-- The source operand Ts, S in bits 5:4 and 3:0 (R301, R303, R304, R306, R309). -/
def srcOf (w : Word) : Operand := decodeOperand (w.extractLsb' 4 2) (w.extractLsb' 0 4)

/-- The destination operand Td, D in bits 11:10 and 9:6 (R301). -/
def dstOf (w : Word) : Operand := decodeOperand (w.extractLsb' 10 2) (w.extractLsb' 6 4)

/-- The register or XOP number D in bits 9:6 (R303, R309). -/
def dOf (w : Word) : BitVec 4 := w.extractLsb' 6 4

/-- The register number W in bits 3:0 (R305, R308). -/
def wOf (w : Word) : RegNo := w.extractLsb' 0 4

/-- The CRU bit count in bits 9:6; 0 means 16 (R304, R314). -/
def cruCountOf (w : Word) : Nat :=
  let c := (dOf w).toNat
  if c = 0 then 16 else c

/-- The shift count in bits 7:4; 0 means "from R0" (R305, R313). -/
def shiftCountOf (w : Word) : ShiftCount :=
  let c : BitVec 4 := w.extractLsb' 4 4
  if c = 0 then .fromR0 else .imm c

/-- The displacement in bits 7:0 (R302). -/
def dispOf (w : Word) : Byte := w.extractLsb' 0 8

/-- Words 0x0200..0x03FF, formats VII and VIII, by bits 8:5 of the word (R307, R308): canonical when the unused bits are 0,
an alias otherwise (R331); 0x0320..0x033F is illegal (R330). -/
def decodeControl (w : Word) : Decoded :=
  let withReg (i : Instr) : Decoded := if w.getLsbD 4 then .alternate i else .instr i
  let bare (i : Instr) : Decoded := if w.extractLsb' 0 5 = 0 then .instr i else .alternate i
  match (w.extractLsb' 5 4 : BitVec 4).toNat with
  | 0 => withReg (.li (wOf w))
  | 1 => withReg (.ai (wOf w))
  | 2 => withReg (.andi (wOf w))
  | 3 => withReg (.ori (wOf w))
  | 4 => withReg (.ci (wOf w))
  | 5 => withReg (.stwp (wOf w))
  | 6 => withReg (.stst (wOf w))
  | 7 => bare .lwpi
  | 8 => bare .limi
  | 9 => .illegal
  | 10 => bare .idle
  | 11 => bare .rset
  | 12 => bare .rtwp
  | 13 => bare .ckon
  | 14 => bare .ckof
  | _ => bare .lrex

/-- Words 0x0400..0x07FF, format VI, by bits 9:6 (R306); 0x0780..0x07FF is illegal (R330). -/
def decodeSingle (w : Word) : Decoded :=
  let o := srcOf w
  match (w.extractLsb' 6 4 : BitVec 4).toNat with
  | 0 => .instr (.blwp o)
  | 1 => .instr (.b o)
  | 2 => .instr (.x o)
  | 3 => .instr (.clr o)
  | 4 => .instr (.neg o)
  | 5 => .instr (.inv o)
  | 6 => .instr (.inc o)
  | 7 => .instr (.inct o)
  | 8 => .instr (.dec o)
  | 9 => .instr (.dect o)
  | 10 => .instr (.bl o)
  | 11 => .instr (.swpb o)
  | 12 => .instr (.seto o)
  | 13 => .instr (.abs o)
  | _ => .illegal

/-- Words 0x0000..0x0FFF by bits 11:8: format V (R305), formats VI to VIII, and the illegal ranges of R330. -/
def decodeLow (w : Word) : Decoded :=
  match (w.extractLsb' 8 4 : BitVec 4).toNat with
  | 2 | 3 => decodeControl w
  | 4 | 5 | 6 | 7 => decodeSingle w
  | 8 => .instr (.sra (shiftCountOf w) (wOf w))
  | 9 => .instr (.srl (shiftCountOf w) (wOf w))
  | 10 => .instr (.sla (shiftCountOf w) (wOf w))
  | 11 => .instr (.src (shiftCountOf w) (wOf w))
  | _ => .illegal

/-- Words 0x1000..0x1FFF, format II, by bits 11:8 (R302). -/
def decodeJump (w : Word) : Instr :=
  let d := dispOf w
  match (w.extractLsb' 8 4 : BitVec 4).toNat with
  | 0 => .jmp d
  | 1 => .jlt d
  | 2 => .jle d
  | 3 => .jeq d
  | 4 => .jhe d
  | 5 => .jgt d
  | 6 => .jne d
  | 7 => .jnc d
  | 8 => .joc d
  | 9 => .jno d
  | 10 => .jl d
  | 11 => .jh d
  | 12 => .jop d
  | 13 => .sbo d
  | 14 => .sbz d
  | _ => .tb d

/-- Words 0x2000..0x3FFF, formats III, IV and IX, by bits 12:10 (R303, R304, R309). -/
def decodeSourceReg (w : Word) : Instr :=
  let o := srcOf w
  match (w.extractLsb' 10 3 : BitVec 3).toNat with
  | 0 => .coc o (dOf w)
  | 1 => .czc o (dOf w)
  | 2 => .xor o (dOf w)
  | 3 => .xop o (dOf w)
  | 4 => .ldcr o (cruCountOf w)
  | 5 => .stcr o (cruCountOf w)
  | 6 => .mpy o (dOf w)
  | _ => .div o (dOf w)

/-- Decoding one instruction word (R320, R330, R331, R333): total, and it reads nothing but the word. -/
def decodeWord (w : Word) : Decoded :=
  let o := srcOf w
  let p := dstOf w
  match (w.extractLsb' 12 4 : BitVec 4).toNat with
  | 0 => decodeLow w
  | 1 => .instr (decodeJump w)
  | 2 | 3 => .instr (decodeSourceReg w)
  | 4 => .instr (.szc o p)
  | 5 => .instr (.szcb o p)
  | 6 => .instr (.s o p)
  | 7 => .instr (.sb o p)
  | 8 => .instr (.c o p)
  | 9 => .instr (.cb o p)
  | 10 => .instr (.a o p)
  | 11 => .instr (.ab o p)
  | 12 => .instr (.mov o p)
  | 13 => .instr (.movb o p)
  | 14 => .instr (.soc o p)
  | _ => .instr (.socb o p)

/-- Decoding the bytes at an instruction's address, high byte first (R201): the word read and the bytes after it, or `none`
where fewer than two bytes are given. -/
def decode : List Byte → Option (Decoded × List Byte)
  | hi :: lo :: rest => some (decodeWord (Machine.wordOf hi lo), rest)
  | _ => none

/-! ## The encoder -/

/-- The T field of a general operand (R310). -/
def Operand.mode : Operand → BitVec 2
  | .reg _ => 0
  | .ind _ => 1
  | .sym => 2
  | .idx _ => 2
  | .inc _ => 3

/-- The R field of a general operand (R310). -/
def Operand.regNo : Operand → RegNo
  | .reg r | .ind r | .idx r | .inc r => r
  | .sym => 0

/-- The C field of a shift (R305, R313). -/
def ShiftCount.field : ShiftCount → BitVec 4
  | .imm n => n
  | .fromR0 => 0

/-- Format I (R301): opcode with B, Td, D, Ts, S. -/
def formatI (op : BitVec 4) (o p : Operand) : Word :=
  op ++ (p.mode ++ (p.regNo ++ (o.mode ++ o.regNo)))

/-- Format II (R302): opcode, displacement. -/
def formatII (op : BitVec 8) (d : Byte) : Word := op ++ d

/-- Formats III, IV and IX (R303, R304, R309): opcode, D or C, Ts, S. -/
def formatIII (op : BitVec 6) (d : BitVec 4) (o : Operand) : Word :=
  op ++ (d ++ (o.mode ++ o.regNo))

/-- Format V (R305): opcode, C, W. -/
def formatV (op : BitVec 8) (c : ShiftCount) (w : RegNo) : Word := op ++ (c.field ++ w)

/-- Format VI (R306): opcode, Ts, S. -/
def formatVI (op : BitVec 10) (o : Operand) : Word := op ++ (o.mode ++ o.regNo)

/-- Formats VII and VIII-b (R307, R308): opcode, unused bits 0. -/
def formatVII (op : BitVec 11) : Word := op ++ (0 : BitVec 5)

/-- Format VIII-a (R308): opcode, unused bit 0, W. -/
def formatVIII (op : BitVec 11) (w : RegNo) : Word := op ++ ((0 : BitVec 1) ++ w)

/-- The instruction word of an instruction (R320). -/
def encodeWord : Instr → Word
  | .li w => formatVIII 0x10 w
  | .ai w => formatVIII 0x11 w
  | .andi w => formatVIII 0x12 w
  | .ori w => formatVIII 0x13 w
  | .ci w => formatVIII 0x14 w
  | .stwp w => formatVIII 0x15 w
  | .stst w => formatVIII 0x16 w
  | .lwpi => formatVII 0x17
  | .limi => formatVII 0x18
  | .idle => formatVII 0x1A
  | .rset => formatVII 0x1B
  | .rtwp => formatVII 0x1C
  | .ckon => formatVII 0x1D
  | .ckof => formatVII 0x1E
  | .lrex => formatVII 0x1F
  | .blwp o => formatVI 0x10 o
  | .b o => formatVI 0x11 o
  | .x o => formatVI 0x12 o
  | .clr o => formatVI 0x13 o
  | .neg o => formatVI 0x14 o
  | .inv o => formatVI 0x15 o
  | .inc o => formatVI 0x16 o
  | .inct o => formatVI 0x17 o
  | .dec o => formatVI 0x18 o
  | .dect o => formatVI 0x19 o
  | .bl o => formatVI 0x1A o
  | .swpb o => formatVI 0x1B o
  | .seto o => formatVI 0x1C o
  | .abs o => formatVI 0x1D o
  | .sra c w => formatV 0x08 c w
  | .srl c w => formatV 0x09 c w
  | .sla c w => formatV 0x0A c w
  | .src c w => formatV 0x0B c w
  | .jmp d => formatII 0x10 d
  | .jlt d => formatII 0x11 d
  | .jle d => formatII 0x12 d
  | .jeq d => formatII 0x13 d
  | .jhe d => formatII 0x14 d
  | .jgt d => formatII 0x15 d
  | .jne d => formatII 0x16 d
  | .jnc d => formatII 0x17 d
  | .joc d => formatII 0x18 d
  | .jno d => formatII 0x19 d
  | .jl d => formatII 0x1A d
  | .jh d => formatII 0x1B d
  | .jop d => formatII 0x1C d
  | .sbo d => formatII 0x1D d
  | .sbz d => formatII 0x1E d
  | .tb d => formatII 0x1F d
  | .coc o d => formatIII 0x08 d o
  | .czc o d => formatIII 0x09 d o
  | .xor o d => formatIII 0x0A d o
  | .xop o n => formatIII 0x0B n o
  | .ldcr o n => formatIII 0x0C (BitVec.ofNat 4 n) o
  | .stcr o n => formatIII 0x0D (BitVec.ofNat 4 n) o
  | .mpy o d => formatIII 0x0E d o
  | .div o d => formatIII 0x0F d o
  | .szc o p => formatI 0x4 o p
  | .szcb o p => formatI 0x5 o p
  | .s o p => formatI 0x6 o p
  | .sb o p => formatI 0x7 o p
  | .c o p => formatI 0x8 o p
  | .cb o p => formatI 0x9 o p
  | .a o p => formatI 0xA o p
  | .ab o p => formatI 0xB o p
  | .mov o p => formatI 0xC o p
  | .movb o p => formatI 0xD o p
  | .soc o p => formatI 0xE o p
  | .socb o p => formatI 0xF o p

/-- The instruction words of an instruction: one. Its extension words are data of the program (R311). -/
def encode (i : Instr) : List Word := [encodeWord i]

/-- The number of extension words a general operand fetches (R300, R310): one for mode 2, none otherwise. -/
def Operand.extWords : Operand → Nat
  | .sym | .idx _ => 1
  | _ => 0

/-- How many words the instruction takes in memory, its extension words and immediates included (R300). -/
def instrWords : Instr → Nat
  | .li _ | .ai _ | .andi _ | .ori _ | .ci _ | .lwpi | .limi => 2
  | .stwp _ | .stst _ | .idle | .rset | .rtwp | .ckon | .ckof | .lrex => 1
  | .blwp o | .b o | .x o | .clr o | .neg o | .inv o | .inc o | .inct o | .dec o | .dect o | .bl o | .swpb o
  | .seto o | .abs o => 1 + o.extWords
  | .sra _ _ | .srl _ _ | .sla _ _ | .src _ _ => 1
  | .jmp _ | .jlt _ | .jle _ | .jeq _ | .jhe _ | .jgt _ | .jne _ | .jnc _ | .joc _ | .jno _ | .jl _ | .jh _
  | .jop _ | .sbo _ | .sbz _ | .tb _ => 1
  | .coc o _ | .czc o _ | .xor o _ | .xop o _ | .mpy o _ | .div o _ | .ldcr o _ | .stcr o _ => 1 + o.extWords
  | .szc o p | .szcb o p | .s o p | .sb o p | .c o p | .cb o p | .a o p | .ab o p | .mov o p | .movb o p
  | .soc o p | .socb o p => 1 + o.extWords + p.extWords

/-- The instruction the decoder reads from an instruction whose bits are `w`, bit 0 the least significant bit of its first
word: the low 16 bits are laid out as two bytes, high byte first (R201), and given to `decode`. `none` for illegal and alias
words. Every row of the table is one word, so bits above `nbits` do not arise. -/
def decodeTableWord (nbits w : Nat) : Option Instr :=
  let first : Word := BitVec.ofNat 16 (w % 2 ^ nbits)
  match decode [Machine.hiByte first, Machine.loByte first] with
  | some (.instr i, _) => some i
  | _ => none

end Sys2Proof
end

