-- ==== Sys2Proof/Machine/State.lean ====
section
/-! DEFINITION. Everything the spec gives the machine to hold (10_state.md), as plain data, and the machine after reset. -/

namespace Sys2Proof.Machine

/-! ## Memories -/

/-- A byte memory: the listed (address, byte) pairs, every other address reading 0. In canonical form (`Memory.wf`) the
addresses rise strictly and no byte listed is 0, so equal memories are equal data. INIT_MEMORY is 0 (R1004, log 1). -/
structure Memory where
  cells : List Host.Cell
deriving DecidableEq, Repr

/-- A byte array of a given length: an image or a RAM whose size is configuration (R140, R145, R810). -/
structure Block where
  len : Nat
  mem : Memory
deriving DecidableEq, Repr

/-! ## GROM (R132, R140, R780) -/

/-- The address, buffer byte and phase flag of one GROM set (R780). `phase = false`: the next address-port access is the
high byte. -/
structure GromLatch where
  addr : Word
  buf : Byte
  phase : Bool
deriving DecidableEq, Repr

/-! ## Cartridge (R140) -/

/-- PAGED_RAM_WINDOW (R763): the sub-range `first..last` of 0x6000..0x7FFF. -/
structure PagedWindow where
  first : Word
  last : Word
deriving DecidableEq, Repr

/-- The inserted cartridge (R140). `pagedWindow` and `ramBankSize` are the OPEN parameters PAGED_RAM_WINDOW and
RAM_BANK_SIZE (R763), configuration of the cartridge. -/
structure Cartridge where
  rom : Block
  ram : Option Block
  bankCount : Nat
  romBank : Nat
  ramBank : Nat
  inverted : Bool
  cruBankSwitched : Bool
  ramPaged : Bool
  groms : List Memory
  cg : GromLatch
  pagedWindow : PagedWindow
  ramBankSize : Nat
deriving DecidableEq, Repr

/-! ## Peripheral cards (R145, R800, R810) -/

/-- An optional DSR ROM window with its bank offset (R800, R801). -/
structure DsrRom where
  image : Block
  bank : Nat
deriving DecidableEq, Repr

/-- The Horizon RAM disk's own state (R810) and its HORIZON_* parameters (R812), configuration of the card.
`reg` is the paging register, one Boolean per entry of `pageBits` (R813). `pagedRam` holds the contents of the paged RAM, whose
length is `banks * bankSize` and nothing else (`Horizon.paged`). -/
structure Horizon where
  page : Nat
  reg : List Bool
  rambo : Bool
  dsrPage : Bool
  dsrRam : Block
  pagedRam : Memory
  pageBits : List Nat
  ramboBit : Nat
  dsrPageBit : Nat
  banks : Nat
  bankSize : Nat
  split : Word
  dsrPageSize : Nat
deriving DecidableEq, Repr

/-- R810: `pagedRam` is an array of HORIZON_BANKS * HORIZON_BANK_SIZE bytes. -/
def Horizon.paged (h : Horizon) : Block := ⟨h.banks * h.bankSize, h.pagedRam⟩

/-- A peripheral card (R800). Its capabilities are read off the parts it has: `dsr` when it has a DSR ROM, `mapped` and
`cartOverride` when it is a Horizon card, the one memory-mapped card the spec describes. -/
structure Card where
  id : Nat
  enabled : Bool
  dsr : Option DsrRom
  horizon : Option Horizon
deriving DecidableEq, Repr

/-! ## The CRU bus (R135, R651) -/

/-- A device on the bit bus (R651): the cartridge's bank bits, the card named, or a device outside the block with its state. -/
inductive CruDevice where
  | cartridge
  | card (id : Nat)
  | outside (d : Config.OutsideDevice)
deriving DecidableEq, Repr

/-- An entry of CRU_DEVICES: device, base bit address, bit count (R135). -/
structure CruEntry where
  dev : CruDevice
  base : Nat
  size : Nat
deriving DecidableEq, Repr

/-! ## Video chip (R150, R851, R852) -/

/-- A palette entry (R931). -/
structure Rgb where
  r : Byte
  g : Byte
  b : Byte
deriving DecidableEq, Repr

/-- The TMS9918A's state (R150). -/
structure Vdp where
  vr : Vector Byte 8
  vram : Memory
  vAddr : VramAddr
  vLatch : Bool
  vLatchByte : Byte
  vBuffer : Byte
  vStatus : Byte
  palette : Vector Rgb 16
deriving DecidableEq, Repr

/-! ## Interrupts (R955 to R957) -/

/-- A maskable interrupt level 1..15 (R955): the value k stands for level k + 1. -/
abbrev IntLevel := Fin 15

/-- How a controller presents one source: its level, and the CRU bit address whose output bit must be true for it, if one masks
it (log 15). -/
structure IntSource where
  level : IntLevel
  mask : Option Nat
deriving DecidableEq, Repr

/-- INT_CONTROLLER (R957) as data (log 15). -/
inductive IntWiring where
  /-- The spec's default, `(vdpInt or timerInt) ? 1 : none`. -/
  | default
  /-- Each source presented as its entry says, or never; the output bits of the CRU devices outside the block mask. -/
  | masked (vdp timer : Option IntSource)
  /-- The platform's controller of that number: any function of R957's arguments (`Config.intController`). -/
  | platform (model : Nat)
deriving DecidableEq, Repr

/-! ## Outputs (R14, R1010) -/

/-- The external-control instructions' codes (R700 to R705). -/
inductive ExternalOp where
  | idle | rset | ckon | ckof | lrex
deriving DecidableEq, Repr

/-- An event of the output trace (R14, R1010). -/
inductive Event where
  /-- R412: an illegal opcode, its address and the word. -/
  | log (addr word : Word)
  /-- R236: a byte for the sound chip. -/
  | sound (b : Byte)
  /-- R237: a byte for the speech chip. -/
  | speech (b : Byte)
  /-- R700 to R705: the code of an external-control instruction. -/
  | external (op : ExternalOp)
  /-- R820: a write to the RAM of the card named. -/
  | persist (card : Nat)
deriving DecidableEq, Repr

/-! ## Why a step can stop -/

/-- The reasons a step can stop with a fault: NONE. "The hardware raises no synchronous exception. No instruction, operand,
address or bus access traps" (R950); every failure has a defined result (R951). -/
inductive Fault where
deriving DecidableEq, Repr

/-- The reasons a step has no meaning. -/
inductive Refusal where
  /-- Raised by an arm of `exec` whose instruction has no meaning yet. Safe: nothing is claimed of such a step. -/
  | notModelled (mnemonic : String)
  /-- Raised by the step, and by X, on an alias word while ALIAS_DECODE is not fixed: R331 says that the model "refuses these
  words (names them and gives no step)" (log 5). Safe: no claim rests on either reading. -/
  | aliasWord (word : Word)
deriving DecidableEq, Repr

/-! ## The state -/

/-- The whole machine (10_state.md, R160). -/
structure State where
  /-- R100. -/
  pc : Word
  /-- R102. -/
  wp : Word
  /-- R103, R104. -/
  st : Word
  /-- R125: true after IDLE until an interrupt is taken. -/
  idle : Bool
  /-- R120: the cycles of the current run call. -/
  consumed : Nat
  /-- R121. -/
  stopped : Bool
  /-- R122. -/
  breakpoint : Option Word
  /-- R123. -/
  auxBreakpoint : Option Word
  /-- R124. -/
  illegalCount : Nat
  /-- R130: the 32 KiB expansion RAM is attached. -/
  expRamPresent : Bool
  /-- R130, R226: the RAM-overlay flags of windows 0 to 3. -/
  overlay0 : Bool
  overlay1 : Bool
  overlay2 : Bool
  overlay3 : Bool
  /-- R131: console ROM, offsets 0..0x1FFF. -/
  rom : Memory
  /-- R131, R224: scratchpad, offsets 0..0xFF. -/
  pad : Memory
  /-- R131, R223: expansion RAM, offsets 0..0x7FFF. -/
  exp : Memory
  /-- R131, R226: overlay RAM 0, offsets 0..0x1FFF. -/
  ovl0 : Memory
  /-- R131, R226: overlay RAM 1, offsets 0..0x1FFF. -/
  ovl1 : Memory
  /-- R132: the console GROM port state. -/
  grom : GromLatch
  /-- R131, R780: the console GROM contents, addresses 0..0xFFFF. -/
  gromMem : Memory
  /-- GROM_WRITABLE (R782, log 14). -/
  gromWritable : Bool
  /-- R130, R140: the inserted cartridge or none. -/
  cart : Option Cartridge
  /-- R130, R145: the ordered list of attached cards. -/
  cards : List Card
  /-- R135: the device list of the CRU bus, in registration order. -/
  cru : List CruEntry
  /-- R150. -/
  vdp : Vdp
  /-- R957: the timer interrupt input. -/
  timerInt : Bool
  /-- R957: INT_CONTROLLER (log 15). -/
  wiring : IntWiring
  /-- R14: the output trace, oldest event first. -/
  trace : List Event
  /-- The MODEL's own: how many free values have been drawn (log 8). -/
  draws : Nat
  /-- The MODEL's own: the word an X executed by an X has still to execute (R612, log 18). -/
  xPending : Option Word
deriving DecidableEq, Repr

/-- A memory with nothing listed. -/
def Memory.empty : Memory := ⟨[]⟩

/-- GROM latches after reset and insertion (R780). -/
def GromLatch.reset : GromLatch := ⟨0, 0, false⟩

/-- The spec's default PALETTE (R931, log 25). -/
def defaultPalette : Vector Rgb 16 :=
  #v[⟨0, 0, 0⟩, ⟨0, 0, 0⟩, ⟨33, 200, 66⟩, ⟨94, 220, 120⟩, ⟨84, 85, 237⟩, ⟨125, 118, 252⟩, ⟨212, 82, 77⟩, ⟨66, 235, 245⟩,
     ⟨252, 85, 84⟩, ⟨255, 121, 120⟩, ⟨212, 193, 84⟩, ⟨230, 206, 128⟩, ⟨33, 176, 59⟩, ⟨201, 91, 186⟩, ⟨204, 204, 204⟩,
     ⟨255, 255, 255⟩]

/-- The video chip after power-on and reset (R150, R1000). -/
def Vdp.reset : Vdp where
  vr := Vector.replicate 8 0
  vram := .empty
  vAddr := 0
  vLatch := false
  vLatchByte := 0
  vBuffer := 0
  vStatus := 0
  palette := defaultPalette

/-- The machine right after power-on and reset (R170, R1000, R1004), with nothing configured but the expansion RAM (log 2):
WP and PC are the words at 0 and 2, which read 0 because no system image is loaded (R222). -/
def State.reset : State where
  pc := 0
  wp := 0
  st := 0
  idle := false
  consumed := 0
  stopped := false
  breakpoint := none
  auxBreakpoint := none
  illegalCount := 0
  expRamPresent := true
  overlay0 := false
  overlay1 := false
  overlay2 := false
  overlay3 := false
  rom := .empty
  pad := .empty
  exp := .empty
  ovl0 := .empty
  ovl1 := .empty
  grom := .reset
  gromMem := .empty
  gromWritable := false
  cart := none
  cards := []
  cru := []
  vdp := .reset
  timerInt := false
  wiring := .default
  trace := []
  draws := 0
  xPending := none

end Sys2Proof.Machine
end

