-- ==== Sys2Proof/Machine/Memory.lean ====
section
/-! DEFINITION. Reading and writing the sparse byte memories of State, and their canonical form. -/

namespace Sys2Proof.Machine

/-- What an address that no cell lists reads as: 0, the INIT_MEMORY of this model (R1004, log 1) and the byte beyond an
image: of a cartridge, a GROM or a card (R751, R780, R801), and of the console ROM by the model's choice (log 41). -/
def unlistedByte : Byte := 0

/-- The byte at `a`. -/
def Memory.read (m : Memory) (a : Nat) : Byte :=
  match m.cells.find? (fun c => c.1 == a) with
  | some c => c.2
  | none => unlistedByte

/-- A cell put in its place in a list with rising addresses. -/
def insertCell (c : Host.Cell) : List Host.Cell → List Host.Cell
  | [] => [c]
  | d :: rest => if c.1 < d.1 then c :: d :: rest else d :: insertCell c rest

/-- Storing `b` at `a`. Storing the value of an unlisted address removes the entry, which keeps the canonical form. -/
def Memory.write (m : Memory) (a : Nat) (b : Byte) : Memory :=
  let others := m.cells.filter (fun c => c.1 != a)
  if b = unlistedByte then ⟨others⟩ else ⟨insertCell (a, b) others⟩

/-- Addresses rise strictly. -/
def risingAddrs : List Host.Cell → Bool
  | c :: d :: rest => decide (c.1 < d.1) && risingAddrs (d :: rest)
  | _ => true

/-- The canonical form of a memory of `size` bytes: addresses rise strictly and stay below `size`, and no entry equals what an
unlisted address reads as. -/
def Memory.wf (size : Nat) (m : Memory) : Bool :=
  risingAddrs m.cells && m.cells.all (fun c => decide (c.1 < size) && c.2 != unlistedByte)

/-- The bytes of an image stored from address `base` up. -/
def Memory.store (m : Memory) (base : Nat) : List Byte → Memory
  | [] => m
  | b :: rest => (m.write base b).store (base + 1) rest

/-- A byte of an array: 0 beyond its end (R751). -/
def Block.read (m : Block) (i : Nat) : Byte := if i < m.len then m.mem.read i else unlistedByte

/-- Storing a byte of an array; beyond its end nothing is stored. -/
def Block.write (m : Block) (i : Nat) (b : Byte) : Block :=
  if i < m.len then { m with mem := m.mem.write i b } else m

/-- The canonical form of an array: that of its memory, all of it below the length. -/
def Block.wf (m : Block) : Bool := m.mem.wf m.len

/-- The array holding an image. -/
def Block.ofBytes (bytes : List Byte) : Block := ⟨bytes.length, Memory.empty.store 0 bytes⟩

/-- A RAM of `n` bytes at power-on (R1004, log 1). -/
def Block.ram (n : Nat) : Block := ⟨n, .empty⟩

end Sys2Proof.Machine
end

