-- ==== Sys2Proof/Machine/Cards.lean ====
section
/-! DEFINITION. Peripheral cards: capabilities, CRU bits, and the Horizon RAM disk (51_peripherals.md). -/

namespace Sys2Proof.Machine

/-- The place of one byte of a Horizon card: in `dsrRam` (`false`) or `pagedRam` (`true`), and its offset. -/
abbrev HorizonLoc := Bool × Nat

/-- The offset `x + k` modulo the array's length; `none` for an array of length 0 (log 21). -/
def Block.place (m : Block) (x k : Nat) : Option Nat := if m.len = 0 then none else some ((x + k) % m.len)

/-- `horizonLoc` of R811, for the byte `k` (0 or 1) of the word at the even address `e` of 0x4000..0x5FFF. -/
def Horizon.dsrLoc (h : Horizon) (e : Word) (k : Nat) : Option HorizonLoc :=
  if h.rambo || decide (e.toNat < h.split.toNat) then
    (h.dsrRam.place (h.dsrPage.toNat * h.dsrPageSize + (e.toNat - 0x4000)) k).map fun o => (false, o)
  else
    (h.paged.place (h.page * h.bankSize + (e.toNat - h.split.toNat)) k).map fun o => (true, o)

/-- The cartridge-space place of R815, for the byte `k` of the word at the even address `e` of 0x6000..0x7FFF. The page is
HORIZON_CART_PAGE (log 12). -/
def Horizon.cartLoc (h : Horizon) (e : Word) (k : Nat) : Option HorizonLoc :=
  (h.paged.place (Config.horizonCartPage h.banks h.page e * h.bankSize + (e.toNat - 0x6000) % h.bankSize) k).map
    fun o => (true, o)

/-- HORIZON_CART_CONDITION: the spec's default, `rambo = true` (R815, D47, log 12). -/
def Horizon.cartCondition (h : Horizon) : Bool := h.rambo

/-- The paging register as a number, entry j being bit j (R813). -/
def pagingNumber : List Bool → Nat
  | [] => 0
  | b :: rest => b.toNat + 2 * pagingNumber rest

/-- Horizon CRU bits other than bit 0 (R813). With HORIZON_BANKS 0 the mask HORIZON_BANKS - 1 is 0: DESIGN CHOICE, log 42, unsafe. -/
def Horizon.writeBit (h : Horizon) (bit : Nat) (v : Bool) : Horizon :=
  match h.pageBits.findIdx? (· == bit) with
  | some j =>
    let reg := h.reg.set j v
    { h with reg := reg, page := pagingNumber reg &&& (h.banks - 1) }
  | none =>
    if bit = h.ramboBit then { h with rambo := v }
    else if bit = h.dsrPageBit then { h with dsrPage := v }
    else h

/-- A card's CRU bit write (R802, R813): bit 0 is the enable flag; the Horizon bits act whether or not it is enabled. -/
def Card.writeBit (c : Card) (bit : Nat) (v : Bool) : Card :=
  if bit = 0 then { c with enabled := v } else { c with horizon := c.horizon.map fun h => h.writeBit bit v }

/-- R225: the card takes DSR-window accesses: enabled, with a DSR or memory-mapped capability. -/
def Card.servesDsr (c : Card) : Bool := c.enabled && (c.dsr.isSome || c.horizon.isSome)

/-- R227, R804: the card takes cartridge-window accesses: enabled, with the override capability and its condition. -/
def Card.servesCart (c : Card) : Bool :=
  c.enabled && (match c.horizon with | some h => h.cartCondition | none => false)

/-- R810: the Horizon card's reset: paging state 0, RAM unchanged. -/
def Horizon.reset (h : Horizon) : Horizon :=
  { h with page := 0, reg := h.pageBits.map (fun _ => false), rambo := false, dsrPage := false }

/-- R812: the CRU bit offsets of a Horizon card "are distinct, non-zero and below the card's CRU size". -/
def Horizon.bitsOk (h : Horizon) (size : Nat) : Bool :=
  let bits := h.ramboBit :: h.dsrPageBit :: h.pageBits
  decide bits.Nodup && bits.all fun b => b != 0 && decide (b < size)

/-- R812: the card's CRU bits fit a CRU range of `size` bits. -/
def Card.bitsOk (c : Card) (size : Nat) : Bool :=
  match c.horizon with
  | some h => h.bitsOk size
  | none => true

/-- R1000: a card's reset: disabled, device paging state at its reset value (the bank offset of a DSR ROM stays: log 24). -/
def Card.reset (c : Card) : Card := { c with enabled := false, horizon := c.horizon.map Horizon.reset }

/-- R801: the DSR ROM offset of the byte `k` of the word at the even address `e`. -/
def DsrRom.offset (d : DsrRom) (e : Word) (k : Nat) : Nat := d.bank * 0x2000 + (e.toNat - 0x4000) + k

end Sys2Proof.Machine
end

