-- ==== Sys2Proof/Machine/Cartridge.lean ====
section
/-! DEFINITION. The cartridge's ROM and RAM offsets and its bank switching (R750 to R766). -/

namespace Sys2Proof.Machine

/-- R751: the ROM offset of the even address `e` of 0x6000..0x7FFF. -/
def Cartridge.romOffset (c : Cartridge) (e : Word) : Nat := c.romBank * Config.bankSize + (e.toNat - 0x6000)

/-- R752: the offset before the reduction modulo the RAM's length. -/
def Cartridge.ramOffset (c : Cartridge) (e : Word) : Nat := c.ramBank * c.ramBankSize + (e.toNat - 0x6000)

/-- R760: the ROM bank that a write at `a` selects; 0 for a bank count of 0, which R140 does not have (DESIGN CHOICE, log 42,
unsafe). -/
def Cartridge.bankFromAddress (c : Cartridge) (a : Word) : Nat :=
  let index := ((a.toNat - 0x6000) >>> Config.bankAddrShift) &&& (c.bankCount - 1)
  if c.inverted then c.bankCount - 1 - index else index

/-- R763: the number of RAM banks; 1 with no RAM or with RAM_BANK_SIZE 0 (DESIGN CHOICE, log 13, unsafe). -/
def Cartridge.ramBankCount (c : Cartridge) : Nat :=
  match c.ram with
  | some m => max 1 (m.len / c.ramBankSize)
  | none => 1

/-- R763: the RAM bank that a write at `a` selects. -/
def Cartridge.pagedRamIndex (c : Cartridge) (a : Word) : Nat :=
  ((a.toNat - c.pagedWindow.first.toNat) >>> Config.bankAddrShift) &&& (c.ramBankCount - 1)

/-- R763: whether `a` lies in PAGED_RAM_WINDOW. -/
def PagedWindow.contains (p : PagedWindow) (a : Word) : Bool :=
  decide (p.first.toNat ≤ a.toNat) && decide (a.toNat ≤ p.last.toNat)

/-- `romWrite(a)` of R753: a write routed to ROM selects a bank and stores nothing. -/
def Cartridge.romWrite (c : Cartridge) (a : Word) : Cartridge :=
  if c.cruBankSwitched then c
  else if c.ramPaged && c.pagedWindow.contains a then { c with ramBank := c.pagedRamIndex a }
  else { c with romBank := c.bankFromAddress a }

/-- `writeBit(bit, v)` of R766: any nonzero bit with value true selects a bank, without inversion; bank 0 for a bank count of 0
(DESIGN CHOICE, log 42, unsafe). -/
def Cartridge.writeBit (c : Cartridge) (bit : Nat) (v : Bool) : Cartridge :=
  if bit ≠ 0 ∧ v = true then { c with romBank := ((bit - 1) >>> 1) &&& (c.bankCount - 1) } else c

/-- What reset and insertion do to a cartridge (R767, R1000): bank 0 and GROM latches as reset. -/
def Cartridge.reset (c : Cartridge) : Cartridge := { c with romBank := 0, ramBank := 0, cg := .reset }

end Sys2Proof.Machine
end

