-- ==== Sys2Proof/Machine/Control.lean ====
section
/-! DEFINITION. The control primitives of R14: writing PC, ST and WP, `charge` and `emit`. -/

namespace Sys2Proof.Machine

/-- `charge(n)` (R14, R401). -/
def State.charge (s : State) (n : Nat) : State := { s with consumed := s.consumed + n }

/-- `emit(event)` (R14): appended to the trace. -/
def State.emit (s : State) (e : Event) : State := { s with trace := s.trace ++ [e] }

/-- What PC holds after `v` is written to it (R101). -/
def pcValue (v : Word) : Word :=
  match Config.pcLsb with
  | .keep => v
  | .clear => v &&& 0xFFFE

/-- `pc <- v` (R14, R101). -/
def State.setPc (s : State) (v : Word) : State := { s with pc := pcValue v }

/-- `WP <- v`: all 16 bits are kept as written (R102). -/
def State.setWp (s : State) (v : Word) : State := { s with wp := v }

/-- ST as an instruction's flag computation leaves it (R103). -/
def State.setSt (s : State) (v : Word) : State := { s with st := v }

/-- What ST holds after the word `v` is loaded into all of it (R104): bits 8:4 by ST_RESERVED. -/
def stValue (v : Word) : Word :=
  match Config.stReserved with
  | .stored => v
  | .zero => v &&& 0xFE0F

/-- The next free value's number, and the state in which it has been drawn (R14 `draw`, log 8). -/
def State.draw (s : State) : Nat × State := (s.draws, { s with draws := s.draws + 1 })

end Sys2Proof.Machine
end

