-- ==== Sys2Proof/Machine/Grom.lean ====
section
/-! DEFINITION. The GROM port protocol of one set and of the two sets together (R780 to R786). -/

namespace Sys2Proof.Machine

/-- R781: the address wraps within its 8 KiB chip. -/
def gromInc (g : Word) : Word := (g &&& 0xE000) ||| ((g + 1) &&& 0x1FFF)

/-- `buf <- mem(g); g <- inc(g)` (R782), for a set whose memory reads as `mem`. -/
def GromLatch.prefetch (l : GromLatch) (mem : Word → Byte) : GromLatch :=
  { l with buf := mem l.addr, addr := gromInc l.addr }

/-- `addressWrite(b)` of R782. -/
def GromLatch.addressWrite (l : GromLatch) (mem : Word → Byte) (b : Byte) : GromLatch :=
  if l.phase then
    ({ l with addr := wordOf (hiByte l.addr) b, phase := false } : GromLatch).prefetch mem
  else
    { l with addr := wordOf b (loByte l.addr), phase := true }

/-- The byte `addressRead()` returns (R782). -/
def GromLatch.addressByte (l : GromLatch) : Byte := if l.phase then loByte l.addr else hiByte l.addr

/-- `addressRead()` of R782: only the phase changes. -/
def GromLatch.addressRead (l : GromLatch) : GromLatch := { l with phase := !l.phase }

/-- What `dataRead()` and `dataWrite(b)` of R782 do to the latches. -/
def GromLatch.dataAccess (l : GromLatch) (mem : Word → Byte) : GromLatch :=
  { l.prefetch mem with phase := false }

/-- R784: the index of the cartridge chip that a port access selects; `sel` is ignored with one chip. -/
def Cartridge.gromIndex (c : Cartridge) (sel : Nat) : Nat := if c.groms.length ≤ 1 then 0 else sel

/-- R780, R784: the cartridge set's memory: 0 below 0x6000, beyond the image, and where `sel` selects no chip. -/
def Cartridge.gromByte (c : Cartridge) (sel : Nat) (g : Word) : Byte :=
  if g.toNat < 0x6000 then unlistedByte
  else
    match c.groms[c.gromIndex sel]? with
    | some m => m.read (g.toNat - 0x6000)
    | none => unlistedByte

/-- R782, R784: a GROM data write that stores, in the cartridge set; discarded below 0x6000 and where no chip is selected. -/
def Cartridge.gromStore (c : Cartridge) (sel : Nat) (g : Word) (b : Byte) : Cartridge :=
  if g.toNat < 0x6000 then c
  else { c with groms := c.groms.modify (c.gromIndex sel) (fun m => m.write (g.toNat - 0x6000) b) }

/-- R780: a cartridge set exists when the inserted cartridge has pictorial memory. -/
def Cartridge.hasGrom (c : Cartridge) : Bool := !c.groms.isEmpty

/-- The console set's memory (R780). -/
def State.gromByte (s : State) (g : Word) : Byte := s.gromMem.read g.toNat

/-- R783: one operation on the latches of the console set and, when present, of the cartridge set. `sel` selects the
cartridge chip (R784); the console set ignores it. -/
def State.gromBoth (s : State) (sel : Nat) (f : GromLatch → (Word → Byte) → GromLatch) : State :=
  { s with
    grom := f s.grom s.gromByte
    cart := s.cart.map fun c => if c.hasGrom then { c with cg := f c.cg (c.gromByte sel) } else c }

/-- The buffer byte of the cartridge set, 0 where there is none (R785). -/
def State.cartGromBuf (s : State) : Byte :=
  match s.cart with
  | some c => if c.hasGrom then c.cg.buf else 0
  | none => 0

/-- R785: the byte of a GROM data read, the OR of the sets' buffers. -/
def State.gromDataByte (s : State) : Byte := s.grom.buf ||| s.cartGromBuf

/-- `mem((g - 1) & 0xFFFF) <- b` in both sets, when GROM_WRITABLE (R782). A byte beyond the loaded image is stored too and reads
back, the model's choice (log 14): R780 has such bytes read 0, R782 stores without looking at the image. -/
def State.gromStore (s : State) (sel : Nat) (b : Byte) : State :=
  if s.gromWritable then
    { s with
      gromMem := s.gromMem.write (s.grom.addr - 1).toNat b
      cart := s.cart.map fun c => if c.hasGrom then c.gromStore sel (c.cg.addr - 1) b else c }
  else s

/-- GROM data read (R782, R783, R785). -/
def State.gromDataRead (s : State) (sel : Nat) : Byte × State :=
  (s.gromDataByte, s.gromBoth sel GromLatch.dataAccess)

/-- GROM address read: the console set's byte, both phases advance (R782, R783, R785). -/
def State.gromAddressRead (s : State) (sel : Nat) : Byte × State :=
  (s.grom.addressByte, s.gromBoth sel fun l _ => l.addressRead)

/-- GROM data write (R782, R783). -/
def State.gromDataWrite (s : State) (sel : Nat) (b : Byte) : State :=
  (s.gromStore sel b).gromBoth sel GromLatch.dataAccess

/-- GROM address write (R782, R783). -/
def State.gromAddressWrite (s : State) (sel : Nat) (b : Byte) : State :=
  s.gromBoth sel fun l mem => l.addressWrite mem b

/-- `sel = (a >> 2) & 0xF` (R233, R784). -/
def gromSelect (a : Word) : Nat := (a.extractLsb' 2 4 : BitVec 4).toNat

end Sys2Proof.Machine
end

