-- ==== Sys2Proof/Machine/VdpPorts.lean ====
section
/-! DEFINITION. The video chip's ports, registers and interrupt request (R860 to R868). -/

namespace Sys2Proof.Machine

/-- `VRAM[a]` (R13, R150). -/
def Vdp.vramAt (v : Vdp) (a : VramAddr) : Byte := v.vram.read a.toNat

/-- `vBuffer <- VRAM[vAddr]; vAddr <- vAddr + 1` modulo 2^14 (R860, R861, R864). -/
def Vdp.prefetch (v : Vdp) : Vdp := { v with vBuffer := v.vramAt v.vAddr, vAddr := v.vAddr + 1 }

/-- Data read (R861): the CPU receives the read-ahead byte. -/
def Vdp.dataRead (v : Vdp) : Byte × Vdp := (v.vBuffer, { v.prefetch with vLatch := false })

/-- Status read (R862): F, 5S and C are cleared, FSN is kept. -/
def Vdp.statusRead (v : Vdp) : Byte × Vdp := (v.vStatus, { v with vStatus := v.vStatus &&& 0x1F, vLatch := false })

/-- Data write (R863). -/
def Vdp.dataWrite (v : Vdp) (b : Byte) : Vdp :=
  { v with vram := v.vram.write v.vAddr.toNat b, vBuffer := b, vAddr := v.vAddr + 1, vLatch := false }

/-- `registerWrite(n, v)` (R865). -/
def Vdp.registerWrite (v : Vdp) (n : Fin 8) (b : Byte) : Vdp := { v with vr := v.vr.set n b }

/-- Address write (R864). -/
def Vdp.addressWrite (v : Vdp) (b : Byte) : Vdp :=
  if v.vLatch then
    if b.getLsbD 7 then
      ({ v with vLatch := false } : Vdp).registerWrite (b.extractLsb' 0 3 : BitVec 3).toFin v.vLatchByte
    else
      let t : Vdp := { v with vLatch := false, vAddr := (b.extractLsb' 0 6 : BitVec 6) ++ v.vLatchByte }
      if b.getLsbD 6 then t else t.prefetch
  else
    { v with vLatchByte := b, vAddr := (v.vAddr.extractLsb' 8 6 : BitVec 6) ++ b, vLatch := true }

/-- R868: the interrupt request, F and IE. -/
def Vdp.interrupt (v : Vdp) : Bool := v.vStatus.getLsbD 7 && (v.vr[1]).getLsbD 5

/-- R1000: the video chip's reset; VRAM and the palette are unchanged. -/
def Vdp.clear (v : Vdp) : Vdp :=
  { v with vr := Vector.replicate 8 0, vAddr := 0, vLatch := false, vLatchByte := 0, vBuffer := 0, vStatus := 0 }

end Sys2Proof.Machine
end

