-- ==== Sys2Proof/Machine/Bus.lean ====
section
/-! DEFINITION. The memory bus: the region table, the store behind each address, word and byte accesses with their side
effects and wait cycles, and the inspection path (20_memory.md). -/

namespace Sys2Proof.Machine

/-! ## The region table (R220, R221) -/

/-- The regions an address can belong to. `dsrCard i` and `cartCard i` name the card by its place in the card list. -/
inductive Region where
  /-- Console ROM (R222). -/
  | rom
  /-- Overlay RAM 0 (R222). -/
  | overlay0
  /-- Expansion RAM (R223). -/
  | expansion
  /-- Expansion RAM range with none attached: unmapped (R223, R228). -/
  | unmapped
  /-- Overlay RAM 1 in the DSR window (R225). -/
  | overlay1
  /-- The first enabled card of the DSR window (R225). -/
  | dsrCard (i : Nat)
  /-- The DSR window with nothing in it (R225). -/
  | dsrNone
  /-- A card that overrides the cartridge window (R227). -/
  | cartCard (i : Nat)
  /-- The cartridge (R227). -/
  | cartridge
  /-- The cartridge window with no cartridge (R227). -/
  | cartNone
  /-- Scratchpad mirror (R224). -/
  | scratchpad
  /-- Sound port (R236). -/
  | sound
  /-- Video read ports (R231). -/
  | vdpRead
  /-- Video write ports (R232). -/
  | vdpWrite
  /-- Speech read port (R237). -/
  | speechRead
  /-- Speech write port (R237). -/
  | speechWrite
  /-- GROM read ports (R233). -/
  | gromRead
  /-- GROM write ports (R234). -/
  | gromWrite
deriving DecidableEq, Repr

/-- R223: the expansion RAM range, attached or not. -/
def expansionRegion (s : State) : Region := if s.expRamPresent then .expansion else .unmapped

/-- R225: who serves the DSR window. -/
def dsrRegion (s : State) : Region :=
  if s.overlay1 then .overlay1
  else
    match s.cards.findIdx? Card.servesDsr with
    | some i => .dsrCard i
    | none => .dsrNone

/-- R227: who serves the cartridge window. -/
def cartRegion (s : State) : Region :=
  match s.cards.findIdx? Card.servesCart with
  | some i => .cartCard i
  | none => if s.cart.isSome then .cartridge else .cartNone

/-- The region table of R220 and R221: a function of the bus configuration and the cards' enable flags, so every rebuild
(R229, R1001) is in force for the next access and nothing of it is stored (R1020, log 19). -/
def regionOf (s : State) (a : Word) : Region :=
  let n := a.toNat
  if n < 0x2000 then (if s.overlay0 then .overlay0 else .rom)
  else if n < 0x4000 then expansionRegion s
  else if n < 0x6000 then dsrRegion s
  else if n < 0x8000 then cartRegion s
  else if n < 0x8400 then .scratchpad
  else if n < 0x8800 then .sound
  else if n < 0x8C00 then .vdpRead
  else if n < 0x9000 then .vdpWrite
  else if n < 0x9400 then .speechRead
  else if n < 0x9800 then .speechWrite
  else if n < 0x9C00 then .gromRead
  else if n < 0xA000 then .gromWrite
  else expansionRegion s

/-- The wait cycles of a region's accesses (R240, R241). The cartridge window with no cartridge is unmapped (R227), so R228's
WAIT_UNMAPPED is charged (R951 (3); log 20). -/
def waitOf : Region → Nat
  | .rom | .overlay0 => Config.waitRom
  | .expansion => Config.waitRam
  | .unmapped | .cartNone => Config.waitUnmapped
  | .overlay1 | .dsrCard _ | .dsrNone => Config.waitDsr
  | .cartCard _ | .cartridge => Config.waitCart
  | .scratchpad => Config.waitPad
  | .sound => Config.waitSound
  | .vdpRead | .vdpWrite => Config.waitVdp
  | .speechRead | .speechWrite => Config.waitSpeech
  | .gromRead | .gromWrite => Config.waitGrom

/-! ## The stores behind the addresses -/

/-- The byte stores that addresses are backed by. A card's store names the card by its place in the card list. -/
inductive Store where
  | rom
  | overlay0
  | overlay1
  | expansion
  | scratchpad
  | cartRom
  | cartRam
  | dsrRom (i : Nat)
  | horizonDsr (i : Nat)
  | horizonPaged (i : Nat)
deriving DecidableEq, Repr

/-- The RAM-backed stores (R256). -/
def Store.isRam : Store → Bool
  | .rom | .cartRom | .dsrRom _ => false
  | _ => true

/-- The card whose RAM the store is (R820). -/
def Store.cardIndex : Store → Option Nat
  | .horizonDsr i | .horizonPaged i => some i
  | _ => none

/-- R750: whether the half that the address lies in is routed to the cartridge's RAM. -/
def cartRoutesRam (s : State) (c : Cartridge) (e : Word) : Bool :=
  (if e.toNat < 0x7000 then s.overlay2 else s.overlay3) &&
    (match c.ram with | some m => decide (0 < m.len) | none => false)

/-- A Horizon place as a store of the card at index `i`. -/
def horizonStore (i : Nat) (l : HorizonLoc) : Store × Nat :=
  (if l.1 then .horizonPaged i else .horizonDsr i, l.2)

/-- The store and offset of the byte `k` (0 or 1) of the word at the even address `e`; `none` for a port or unmapped. -/
def locateIn (s : State) (e : Word) (k : Nat) : Region → Option (Store × Nat)
  | .rom => some (.rom, e.toNat + k)
  | .overlay0 => some (.overlay0, e.toNat + k)
  | .expansion => some (.expansion, (if e.toNat < 0x4000 then e.toNat - 0x2000 else e.toNat - 0x8000) + k)
  | .overlay1 => some (.overlay1, e.toNat - 0x4000 + k)
  | .scratchpad => some (.scratchpad, e.toNat % 0x100 + k)
  | .dsrCard i =>
    match s.cards[i]? with
    | none => none
    | some c =>
      match c.horizon with
      | some h => (h.dsrLoc e k).map (horizonStore i)
      | none => c.dsr.map fun d => (.dsrRom i, d.offset e k)
  | .cartCard i =>
    match s.cards[i]? with
    | none => none
    | some c => c.horizon.bind fun h => (h.cartLoc e k).map (horizonStore i)
  | .cartridge =>
    match s.cart with
    | none => none
    | some c =>
      if cartRoutesRam s c e then
        c.ram.bind fun m => (m.place (c.ramOffset e) k).map fun o => (.cartRam, o)
      else some (.cartRom, c.romOffset e + k)
  | _ => none

/-- The store and offset behind the byte address `a`. -/
def locate (s : State) (a : Word) : Option (Store × Nat) :=
  locateIn s (even a) (a.getLsbD 0).toNat (regionOf s (even a))

/-- The byte of a store. -/
def readStore (s : State) (o : Nat) : Store → Byte
  | .rom => s.rom.read o
  | .overlay0 => s.ovl0.read o
  | .overlay1 => s.ovl1.read o
  | .expansion => s.exp.read o
  | .scratchpad => s.pad.read o
  | .cartRom => match s.cart with | some c => c.rom.read o | none => 0
  | .cartRam =>
    match s.cart with
    | some c => (match c.ram with | some m => m.read o | none => 0)
    | none => 0
  | .dsrRom i =>
    match s.cards[i]? with
    | some c => (match c.dsr with | some d => d.image.read o | none => 0)
    | none => 0
  | .horizonDsr i =>
    match s.cards[i]? with
    | some c => (match c.horizon with | some h => h.dsrRam.read o | none => 0)
    | none => 0
  | .horizonPaged i =>
    match s.cards[i]? with
    | some c => (match c.horizon with | some h => h.paged.read o | none => 0)
    | none => 0

/-- The cartridge with `f` applied to it, if one is inserted. -/
def State.mapCart (s : State) (f : Cartridge → Cartridge) : State := { s with cart := s.cart.map f }

/-- The card at place `i` with `f` applied to it. -/
def State.mapCard (s : State) (i : Nat) (f : Card → Card) : State := { s with cards := s.cards.modify i f }

/-- A byte put into a store. Only the RAM stores are reached by a bus write (R222, R801); the others by configuration. -/
def writeStore (s : State) (o : Nat) (b : Byte) : Store → State
  | .rom => { s with rom := s.rom.write o b }
  | .overlay0 => { s with ovl0 := s.ovl0.write o b }
  | .overlay1 => { s with ovl1 := s.ovl1.write o b }
  | .expansion => { s with exp := s.exp.write o b }
  | .scratchpad => { s with pad := s.pad.write o b }
  | .cartRom => s.mapCart fun c => { c with rom := c.rom.write o b }
  | .cartRam => s.mapCart fun c => { c with ram := c.ram.map fun m => m.write o b }
  | .dsrRom i => s.mapCard i fun c => { c with dsr := c.dsr.map fun d => { d with image := d.image.write o b } }
  | .horizonDsr i =>
    s.mapCard i fun c => { c with horizon := c.horizon.map fun h => { h with dsrRam := h.dsrRam.write o b } }
  | .horizonPaged i =>
    s.mapCard i fun c => { c with horizon := c.horizon.map fun h => { h with pagedRam := (h.paged.write o b).mem } }

/-- The byte that backs address `a`; 0 for an unmapped address (R228) and for a port. -/
def backedByte (s : State) (a : Word) : Byte :=
  match locate s a with
  | some (st, o) => readStore s o st
  | none => 0

/-- The word at the even address `e`, big-endian (R201). -/
def backedWord (s : State) (e : Word) : Word := wordOf (backedByte s e) (backedByte s (e + 1))

/-- A byte stored at `a` if a RAM backs it. -/
def storeByte (s : State) (a : Word) (b : Byte) : State :=
  match locate s a with
  | some (st, o) => if st.isRam then writeStore s o b st else s
  | none => s

/-- A word stored at the even address `e` where a RAM backs it, high byte at the even address (R201). -/
def storeWord (s : State) (e v : Word) : State := storeByte (storeByte s e (hiByte v)) (e + 1) (loByte v)

/-- `emit(persist(card))` for a store to the RAM of the card at place `i` (R811, R815, R820). -/
def emitPersist (s : State) (i : Nat) : State :=
  match s.cards[i]? with
  | some c => s.emit (.persist c.id)
  | none => s

/-- What a word write at the even address `e` does where no port takes it: RAM stores, cartridge ROM switches banks (R753),
console and card ROM and unmapped addresses discard (R222, R228, R801). -/
def writeBacked (s : State) (e v : Word) : State :=
  match locate s e with
  | some (.cartRom, _) => s.mapCart fun c => c.romWrite e
  | some (st, _) =>
    if st.isRam then
      match st.cardIndex with
      | some i => emitPersist (storeWord s e v) i
      | none => storeWord s e v
    else s
  | none => s

/-! ## Word accesses with side effects -/

/-- The video chip's read ports (R231): data read, else status read. -/
def vdpPortRead (v : Vdp) (e : Word) : Byte × Vdp := if e.getLsbD 1 then v.statusRead else v.dataRead

/-- The video chip's write ports (R232): data, address; the palette and indirect-register ports are discarded (R866). -/
def vdpPortWrite (v : Vdp) (e : Word) (b : Byte) : Vdp :=
  match ((e.extractLsb' 1 2 : BitVec 2)).toNat with
  | 0 => v.dataWrite b
  | 1 => v.addressWrite b
  | _ => v

/-- The value and effect of a word read at the even address `e` of region `r`, without the charge. -/
def readRegion (s : State) (e : Word) (r : Region) : Word × State :=
  match r with
  | .vdpRead =>
    let p := vdpPortRead s.vdp e
    (portWord p.1, { s with vdp := p.2 })
  | .gromRead =>
    let p := if e.getLsbD 1 then s.gromAddressRead (gromSelect e) else s.gromDataRead (gromSelect e)
    (portWord p.1, p.2)
  | .speechRead =>
    let d := s.draw
    (portWord (Config.speechRead d.1), d.2)
  | .sound | .vdpWrite | .speechWrite | .gromWrite => (0, s)
  | _ => (backedWord s e, s)

/-- The effect of a word write at the even address `e` of region `r`, without the charge. The ports take the high byte. -/
def writeRegion (s : State) (e v : Word) (r : Region) : State :=
  match r with
  | .sound => s.emit (.sound (hiByte v))
  | .speechWrite => s.emit (.speech (hiByte v))
  | .vdpWrite => { s with vdp := vdpPortWrite s.vdp e (hiByte v) }
  | .gromWrite =>
    if e.getLsbD 1 then s.gromAddressWrite (gromSelect e) (hiByte v) else s.gromDataWrite (gromSelect e) (hiByte v)
  | .vdpRead | .speechRead | .gromRead => s
  | _ => writeBacked s e v

/-- `MemRead(addr, 2)` (R13, R210, R240). -/
def busRead (s : State) (a : Word) : Word × State :=
  let r := regionOf s (even a)
  let p := readRegion s (even a) r
  (p.1, p.2.charge (waitOf r))

/-- `MemWrite(addr, 2, v)` (R13, R210, R240). -/
def busWrite (s : State) (a v : Word) : State :=
  let r := regionOf s (even a)
  (writeRegion s (even a) v r).charge (waitOf r)

/-- `MemRead(addr, 1)` (R212): one word access, half of it selected. -/
def busReadByte (s : State) (a : Word) : Byte × State :=
  let p := busRead s a
  (byteOf a p.1, p.2)

/-- `MemWrite(addr, 1, b)` (R213): a word read, then a word write. -/
def busWriteByte (s : State) (a : Word) (b : Byte) : State :=
  let p := busRead s a
  busWrite p.2 a (mergeByte a b p.1)

/-! ## The inspection path (R216) -/

/-- `FastRead(addr, 2)`: what a word read would deliver, with no effect and no charge (R216, R786, R867). -/
def fastRead (s : State) (a : Word) : Word := (readRegion s (even a) (regionOf s (even a))).1

/-- `FastRead(addr, 1)` (R216). -/
def fastReadByte (s : State) (a : Word) : Byte := byteOf a (fastRead s a)

/-! ## Configuration stores -/

/-- A byte put behind address `a`, ROM included: an image loaded from outside, no bus access. `none` where no store backs the
address. -/
def pokeByte (s : State) (a : Word) (b : Byte) : Option State := (locate s a).map fun p => writeStore s p.2 b p.1

end Sys2Proof.Machine
end

