-- ==== Sys2Proof/Machine/Cru.lean ====
section
/-! DEFINITION. The CRU bit bus (R650 to R654). -/

namespace Sys2Proof.Machine

/-- R652: the entry's range contains the bit address. -/
def CruEntry.covers (e : CruEntry) (a : CruAddr) : Bool :=
  decide (e.base ≤ a.toNat) && decide (a.toNat < e.base + e.size)

/-- What a read of the bit returns (R650). -/
def bitInput : Config.CruBit → Bool
  | .separate i _ => i
  | .shared v => v

/-- The output level of the bit (R650). -/
def bitOutput : Config.CruBit → Bool
  | .separate _ o => o
  | .shared v => v

/-- A write of `v` to the bit (R650). -/
def bitWritten (v : Bool) : Config.CruBit → Config.CruBit
  | .separate i _ => .separate i v
  | .shared _ => .shared v

/-- `readBit(offset)` of a device outside the block (R650, R651; log 16). -/
def outsideRead : Config.OutsideDevice → Nat → Bool
  | .bits l, off => (l[off]?.map bitInput).getD false
  | .platform model inputs writes, off => Config.outsideBit model inputs writes off

/-- `writeBit(offset, v)` of a device outside the block (R650, R651; log 16). -/
def outsideWrite (off : Nat) (v : Bool) : Config.OutsideDevice → Config.OutsideDevice
  | .bits l => .bits (l.modify off (bitWritten v))
  | .platform model inputs writes => .platform model inputs (writes ++ [(off, v)])

/-- The output bit at an offset: as last written. A platform device's bit that was never written, and a bit a device does not hold,
count as false: the model's choice, the spec gives them no level (log 16). -/
def outsideOutput : Config.OutsideDevice → Nat → Bool
  | .bits l, off => (l[off]?.map bitOutput).getD false
  | .platform _ _ writes, off => ((writes.reverse.find? fun w => w.1 == off).map (·.2)).getD false

/-- `readBit(offset)` of a device: the cartridge and the cards read false (R766, R802, R813). -/
def CruDevice.readBit : CruDevice → Nat → Bool
  | .cartridge, _ => false
  | .card _, _ => false
  | .outside d, off => outsideRead d off

/-- `CruRead(a)` (R652): false when unmapped, else the OR over the entries that contain the bit. -/
def cruRead (s : State) (a : CruAddr) : Bool :=
  s.cru.any fun e => e.covers a && e.dev.readBit (a.toNat - e.base)

/-- A device outside the block takes a bit write (R650). -/
def CruEntry.latch (e : CruEntry) (a : CruAddr) (v : Bool) : CruEntry :=
  match e.dev with
  | .outside d => if e.covers a then { e with dev := .outside (outsideWrite (a.toNat - e.base) v d) } else e
  | _ => e

/-- `writeBit` of the device of one entry on the devices of the block: the cartridge bank bits (R766) and the cards (R802). -/
def cruDeliver (a : CruAddr) (v : Bool) (s : State) (e : CruEntry) : State :=
  if e.covers a then
    match e.dev with
    | .cartridge => s.mapCart fun c => c.writeBit (a.toNat - e.base) v
    | .card id => { s with cards := s.cards.map fun c => if c.id = id then c.writeBit (a.toNat - e.base) v else c }
    | .outside _ => s
  else s

/-- `CruWrite(a, v)` (R652): every entry that contains the bit receives it, in registration order. -/
def cruWrite (s : State) (a : CruAddr) (v : Bool) : State :=
  let t := s.cru.foldl (cruDeliver a v) s
  { t with cru := s.cru.map fun e => e.latch a v }

/-- The CRU devices outside the block, with their base addresses: what INT_CONTROLLER sees of the bit bus (R651, R957). -/
def outsideDevices (s : State) : List (Nat × Config.OutsideDevice) :=
  s.cru.filterMap fun e =>
    match e.dev with
    | .outside d => some (e.base, d)
    | _ => none

/-- The output level at a CRU bit address: the OR over the outside devices that contain it. The spec gives the OR for reads only
(R652, D21); for output levels it is the model's choice (log 15). -/
def cruOutput (s : State) (a : Nat) : Bool :=
  s.cru.any fun e =>
    match e.dev with
    | .outside d => decide (e.base ≤ a) && decide (a < e.base + e.size) && outsideOutput d (a - e.base)
    | _ => false

/-- R653: the first bit address, `(R12 >> 1) & 0xFFF`. -/
def cruBase (r12 : Word) : CruAddr := r12.extractLsb' 1 12

/-- R653: the bit address of SBO, SBZ and TB, `((R12 >> 1) + sext_16(disp)) & 0xFFF`. -/
def cruBitAddr (r12 : Word) (disp : Byte) : CruAddr := cruBase r12 + disp.signExtend 12

/-- `for i in i0 .. i0+c-1: CruWrite((a0 + i) & 0xFFF, v[i])`, least significant bit first (R663). -/
def cruSend (a0 : CruAddr) (v : Word) : Nat → Nat → State → State
  | 0, _, s => s
  | c + 1, i, s => cruSend a0 v c (i + 1) (cruWrite s (a0 + BitVec.ofNat 12 i) (v.getLsbD i))

/-- `v <- v | (CruRead((a0 + i) & 0xFFF) << i)` for i in 0 .. c-1 (R664). A CRU read changes no state. -/
def cruReceive (s : State) (a0 : CruAddr) : Nat → Word
  | 0 => 0
  | c + 1 => cruReceive s a0 c ||| (if cruRead s (a0 + BitVec.ofNat 12 c) then 1#16 <<< c else 0)

end Sys2Proof.Machine
end

