-- ==== Sys2Proof/Machine/Flags.lean ====
section
/-! DEFINITION. The status register's fields and every flag computation (R103, R440 to R445). A flag computation takes ST and
gives the new ST; the bits it does not name are those of the old ST. -/

namespace Sys2Proof.Machine

/-! ## Fields of ST (R103) -/

/-- ST.L, bit 15. -/
def stL (st : Word) : Bool := st.getLsbD 15
/-- ST.A, bit 14. -/
def stA (st : Word) : Bool := st.getLsbD 14
/-- ST.EQ, bit 13. -/
def stEQ (st : Word) : Bool := st.getLsbD 13
/-- ST.C, bit 12. -/
def stC (st : Word) : Bool := st.getLsbD 12
/-- ST.OV, bit 11. -/
def stOV (st : Word) : Bool := st.getLsbD 11
/-- ST.OP, bit 10. -/
def stOP (st : Word) : Bool := st.getLsbD 10
/-- ST.X, bit 9. -/
def stX (st : Word) : Bool := st.getLsbD 9
/-- ST.MASK, bits 3:0. -/
def stMask (st : Word) : BitVec 4 := st.extractLsb' 0 4

/-- ST.EQ written. -/
def putEQ (st : Word) (v : Bool) : Word := putBit st 13 v
/-- ST.C written. -/
def putC (st : Word) (v : Bool) : Word := putBit st 12 v
/-- ST.OV written. -/
def putOV (st : Word) (v : Bool) : Word := putBit st 11 v
/-- ST.OP written. -/
def putOP (st : Word) (v : Bool) : Word := putBit st 10 v
/-- ST.X written. -/
def putX (st : Word) (v : Bool) : Word := putBit st 9 v
/-- L, A and EQ written. -/
def putLAE (st : Word) (l a e : Bool) : Word := putEQ (putBit (putBit st 15 l) 14 a) e
/-- C and OV written. -/
def putCOV (st : Word) (c v : Bool) : Word := putOV (putC st c) v
/-- MASK written. -/
def putMask (st : Word) (m : BitVec 4) : Word := (st.extractLsb' 4 12 : BitVec 12) ++ m

/-! ## Comparisons (R440 to R444) -/

/-- R444: the number of one bits. -/
def popcount8 (b : Byte) : Nat := (List.range 8).countP fun i => b.getLsbD i

/-- R444: an odd number of one bits. -/
def parity8 (b : Byte) : Bool := popcount8 b % 2 == 1

/-- R440. -/
def cmpZero16 (st : Word) (r : Word) : Word :=
  putLAE st (decide (r ≠ 0)) (decide (r ≠ 0) && !r.getLsbD 15) (decide (r = 0))

/-- R441: L, A, EQ and OP. -/
def cmpZero8 (st : Word) (b : Byte) : Word :=
  putOP (putLAE st (decide (b ≠ 0)) (decide (b ≠ 0) && !b.getLsbD 7) (decide (b = 0))) (parity8 b)

/-- R442. -/
def cmp16 (st : Word) (x y : Word) : Word := putLAE st (y.ult x) (y.slt x) (decide (x = y))

/-- R443: OP is not written. -/
def cmp8 (st : Word) (x y : Byte) : Word := putLAE st (y.ult x) (y.slt x) (decide (x = y))

/-! ## Addition and subtraction (R445) -/

/-- A result with its carry and overflow (R445). -/
structure Sum (n : Nat) where
  val : BitVec n
  carry : Bool
  ovf : Bool
deriving DecidableEq, Repr

/-- `add_N(x, y)` of R445. -/
def addN {n : Nat} (x y : BitVec n) : Sum n :=
  ⟨x + y, decide (2 ^ n ≤ x.toNat + y.toNat), x.msb == y.msb && (x + y).msb != x.msb⟩

/-- `sub_N(d, s)` of R445: d - s, carry is "no borrow". -/
def subN {n : Nat} (d s : BitVec n) : Sum n :=
  ⟨d - s, decide (s.toNat ≤ d.toNat), d.msb != s.msb && (d - s).msb != d.msb⟩

/-- ST after a word addition or subtraction: `cmpZero16(r); ST.C <- c; ST.OV <- v`. -/
def sumFlags16 (st : Word) (r : Sum 16) : Word := putCOV (cmpZero16 st r.val) r.carry r.ovf

/-- ST after a byte addition or subtraction: `cmpZero8(r); ST.C <- c; ST.OV <- v`. -/
def sumFlags8 (st : Word) (r : Sum 8) : Word := putCOV (cmpZero8 st r.val) r.carry r.ovf

/-! ## Shifts (R581 to R584): the value, the last bit shifted out, and for SLA whether the sign changed at any step -/

/-- SRA's loop (R581). -/
def sraLoop : Nat → Word → Bool → Word × Bool
  | 0, x, c => (x, c)
  | n + 1, x, _ => sraLoop n ((x >>> 1) ||| (x &&& 0x8000)) (x.getLsbD 0)

/-- SRL's loop (R582). -/
def srlLoop : Nat → Word → Bool → Word × Bool
  | 0, x, c => (x, c)
  | n + 1, x, _ => srlLoop n (x >>> 1) (x.getLsbD 0)

/-- SLA's loop (R583). -/
def slaLoop : Nat → Word → Bool → Bool → Word × Bool × Bool
  | 0, x, c, v => (x, c, v)
  | n + 1, x, _, v => slaLoop n (x <<< 1) (x.getLsbD 15) (v || ((x <<< 1).getLsbD 15 != x.getLsbD 15))

/-- SRC's loop (R584). -/
def srcLoop : Nat → Word → Bool → Word × Bool
  | 0, x, c => (x, c)
  | n + 1, x, _ => srcLoop n ((x >>> 1) ||| (if x.getLsbD 0 then 0x8000 else 0)) (x.getLsbD 0)

/-- ST after SRA, SRL or SRC: `ST.C <- c; cmpZero16(x)`. -/
def shiftFlags (st : Word) (r : Word × Bool) : Word := cmpZero16 (putC st r.2) r.1

/-- ST after SLA: `ST.C <- c; ST.OV <- v; cmpZero16(x)` (R583). -/
def slaFlags (st : Word) (r : Word × Bool × Bool) : Word := cmpZero16 (putCOV st r.2.1 r.2.2) r.1

end Sys2Proof.Machine
end

