-- ==== Sys2Proof/Machine/Ops.lean ====
section
/-! DEFINITION. The named operations over registers, the context switch, taking an interrupt and the return from one, the
illegal-opcode path, and the fetch (R404, R412, R420, R424, R600, R605, R956 to R960). -/

namespace Sys2Proof.Machine

/-! ## Workspace registers (R110, R424) -/

/-- The address of workspace register `r` with the WP of the moment (R12, R421). -/
def regAddr (s : State) (r : RegNo) : Word := regAddrAt s.wp r

/-- A read of a workspace register: an ordinary bus access (R110). -/
def readReg (s : State) (r : RegNo) : Word × State := busRead s (regAddr s r)

/-- A write of a workspace register: an ordinary bus access (R110). -/
def writeReg (s : State) (r : RegNo) (v : Word) : State := busWrite s (regAddr s r) v

/-- The word after register D, W[D+1] of MPY and DIV: at WP + 2D + 2, also for D = 15 (R112). -/
def pairAddr (s : State) (d : RegNo) : Word := regAddr s d + 2

/-! ## Fetching (R404, R420) -/

/-- A word read at PC, PC advanced by 2: the instruction fetch and `fetchExt()` (R404, R420). -/
def fetchWord (s : State) : Word × State :=
  let p := busRead s s.pc
  (p.1, p.2.setPc (p.2.pc + 2))

/-- An access made only under ACCESS_PROFILE = tms9900, its value unused (R425). -/
def dummyRead (s : State) (a : Word) : State :=
  match Config.accessProfile with
  | .tms9900 => (busRead s a).2
  | .architectural => s

/-! ## The context switch and interrupts -/

/-- `contextSwitch(nwp, npc)` (R600): the old WP, PC and ST into R13, R14 and R15 of the new workspace, in that order. -/
def contextSwitch (s : State) (nwp npc : Word) : State :=
  let s1 := s.setWp nwp
  let s2 := busWrite s1 (nwp + 26) s.wp
  let s3 := busWrite s2 (nwp + 28) s.pc
  let s4 := busWrite s3 (nwp + 30) s.st
  s4.setPc npc

/-- The two words of a vector, WP at `a` and PC at `a + 2` (R604, R615, R955), and the state after both reads. -/
def readVector (s : State) (a : Word) : Word × Word × State :=
  let p := busRead s a
  let q := busRead p.2 (a + 2)
  (p.1, q.1, q.2)

/-- The context switch through the vector at `a`: both words are read before any save (R604). -/
def switchThrough (s : State) (a : Word) : State :=
  let v := readVector s a
  contextSwitch v.2.2 v.1 v.2.1

/-- The level at which a controller presents a source that is asserted, `none` where a CRU output bit masks it (log 15). -/
def presented (s : State) (src : Option IntSource) : Option IntLevel :=
  src.bind fun x => if x.mask.all (cruOutput s) then some x.level else none

/-- Of two levels presented, the lowest number (R963). -/
def lowestLevel : Option IntLevel → Option IntLevel → Option IntLevel
  | some a, some b => some (if a.val ≤ b.val then a else b)
  | some a, none => some a
  | none, l => l

/-- `intReq = INT_CONTROLLER(vdpInt, timerInt, the CRU devices outside the block)` (R956, R957; log 15). -/
def intReq (s : State) : Option IntLevel :=
  match s.wiring with
  | .default => if s.vdp.interrupt || s.timerInt then some 0 else none
  | .masked vdp timer =>
    lowestLevel (if s.vdp.interrupt then presented s vdp else none) (if s.timerInt then presented s timer else none)
  | .platform model => Config.intController model s.vdp.interrupt s.timerInt (outsideDevices s)

/-- The number of a level, 1..15 (R955). -/
def levelNumber (l : IntLevel) : Nat := l.val + 1

/-- R955: level n has its vector at bus address 4n. -/
def vectorAddr (l : IntLevel) : Word := BitVec.ofNat 16 (4 * levelNumber l)

/-- `acknowledge(l)` (R960): taking an interrupt. The saved R15 holds ST as it was before the mask change. -/
def acknowledge (s : State) (l : IntLevel) : State :=
  let t := switchThrough s (vectorAddr l)
  ({ t with st := putMask t.st (BitVec.ofNat 4 (levelNumber l - 1)), idle := false } : State).charge Config.intCycles

/-- `interruptCheck()` (R958). -/
def interruptCheck (s : State) : State :=
  match intReq s with
  | some l => if levelNumber l ≤ (stMask s.st).toNat then acknowledge s l else s
  | none => s

/-- The return from a context switch, RTWP's reload of ST, PC and WP from R15, R14 and R13 (R605, R962). -/
def returnSwitch (s : State) : State :=
  let p := busRead s (s.wp + 30)
  let q := busRead p.2 (s.wp + 28)
  let r := busRead q.2 (s.wp + 26)
  ((r.2.setSt (stValue p.1)).setPc q.1).setWp r.1

/-! ## Illegal opcodes and idle passes -/

/-- `illegal(w)` (R412): logged while the count is below the bound, counted, charged. -/
def illegalOpcode (s : State) (w : Word) : State :=
  let t := if s.illegalCount < Config.illegalLogBound then s.emit (.log (s.pc - 2) w) else s
  ({ t with illegalCount := t.illegalCount + 1 } : State).charge Config.illegalCycles

/-- The idle pass of R400 before its interrupt check: IDLE_CYCLES and nothing else (R700, R966). -/
def idlePass (s : State) : State := s.charge Config.idleCycles

/-- R331: a decoded word under an ALIAS_DECODE policy. `none`: the word is refused. -/
def resolveAlias (p : Config.AliasDecode) : Decoded → Option Decoded
  | .alternate i =>
    match p with
    | .decodes => some (.instr i)
    | .illegal => some .illegal
    | .refuse => none
  | d => some d

end Sys2Proof.Machine
end

