-- ==== Sys2Proof/Machine/Operands.lean ====
section
/-! DEFINITION. Every operand form (R310, R420 to R426) and the shapes the meanings share: evaluate the operands in the order
of R422, compute, write, set the flags, charge. -/

namespace Sys2Proof.Machine

/-! ## Effective addresses (R421) -/

/-- `EA(T, R, n)` of R421, and the state after its extension fetch, register read and auto-increment write. A source's
auto-increment write so comes before the destination's extension fetch, as R311 and R422 order them. DEDUCED, log 40,
unsafe: R253's "its writes", which come after the extension words are fetched, are the writes of results. -/
def ea (o : Operand) (n : Width) (s : State) : Word × State :=
  match o with
  | .reg r => (regAddr s r, s)
  | .ind r => readReg s r
  | .sym => fetchWord s
  | .idx r =>
    let x := fetchWord s
    let p := readReg x.2 r
    (x.1 + p.1, p.2)
  | .inc r =>
    let p := readReg s r
    (p.1, writeReg p.2 r (p.1 + n.step))

/-! ## Operand reads and writes (R423) -/

/-- A word operand evaluated and read: its address, its value, the state after. -/
structure WordOperand where
  addr : Word
  val : Word
  after : State

/-- A byte operand evaluated and read: its address, its byte, the word it stands in, the state after. -/
structure ByteOperand where
  addr : Word
  val : Byte
  old : Word
  after : State

/-- `EA(T, R, 2)` then `readOp(ea, 2)`. -/
def readWordOp (o : Operand) (s : State) : WordOperand :=
  let a := ea o .word s
  let p := busRead a.2 a.1
  ⟨a.1, p.1, p.2⟩

/-- `EA(T, R, 1)` then `readOp(ea, 1)`. -/
def readByteOp (o : Operand) (s : State) : ByteOperand :=
  let a := ea o .byte s
  let p := busRead a.2 a.1
  ⟨a.1, byteOf a.1 p.1, p.1, p.2⟩

/-- `writeOp(ea, 1, b, old)` with the word the instruction has read (R213, R423). -/
def writeByteOp (s : State) (a : Word) (b : Byte) (old : Word) : State := busWrite s a (mergeByte a b old)

/-! ## Shapes -/

/-- What a step answers. -/
abbrev Result := Host.Outcome State Fault Refusal

/-- ST written, base cycles charged: the end of a meaning. -/
def finishWith (s : State) (st : Word) (cycles : Nat) : Result := .next ((s.setSt st).charge cycles)

/-- A two-operand word instruction that writes its destination (R450): `op s d ST` is the result and the new ST. -/
def dualWord (src dst : Operand) (op : Word → Word → Word → Word × Word) (s : State) : Result :=
  let p := readWordOp src s
  let q := readWordOp dst p.after
  let r := op p.val q.val s.st
  finishWith (busWrite q.after q.addr r.1) r.2 (cyclesDual + addrCycles src .word + addrCycles dst .word)

/-- A two-operand byte instruction that writes its destination (R451). -/
def dualByte (src dst : Operand) (op : Byte → Byte → Word → Byte × Word) (s : State) : Result :=
  let p := readByteOp src s
  let q := readByteOp dst p.after
  let r := op p.val q.val s.st
  finishWith (writeByteOp q.after q.addr r.1 q.old) r.2 (cyclesDual + addrCycles src .byte + addrCycles dst .byte)

/-- A two-operand word compare: neither operand is written (R500). -/
def compareWord (src dst : Operand) (op : Word → Word → Word → Word) (s : State) : Result :=
  let p := readWordOp src s
  let q := readWordOp dst p.after
  finishWith q.after (op p.val q.val s.st) (cyclesDual + addrCycles src .word + addrCycles dst .word)

/-- A two-operand byte compare (R501). -/
def compareByte (src dst : Operand) (op : Byte → Byte → Word → Word) (s : State) : Result :=
  let p := readByteOp src s
  let q := readByteOp dst p.after
  finishWith q.after (op p.val q.val s.st) (cyclesDual + addrCycles src .byte + addrCycles dst .byte)

/-- A single-operand word instruction that reads and writes its operand (R463): `op x ST` is the result and the new ST. -/
def singleWord (o : Operand) (cycles : Nat) (op : Word → Word → Word × Word) (s : State) : Result :=
  let p := readWordOp o s
  let r := op p.val s.st
  finishWith (busWrite p.after p.addr r.1) r.2 (cycles + addrCycles o .word)

/-- A single-operand instruction that stores a constant after the [T] read (R518, R519); ST is unchanged. -/
def storeConst (o : Operand) (v : Word) (s : State) : Result :=
  let a := ea o .word s
  finishWith (busWrite (dummyRead a.2 a.1) a.1 v) s.st (cyclesSingle + addrCycles o .word)

/-- An immediate instruction that reads and writes register W (R462): `op x i ST`. -/
def immediateWord (w : RegNo) (op : Word → Word → Word → Word × Word) (s : State) : Result :=
  let i := fetchWord s
  let p := readReg i.2 w
  let r := op p.1 i.1 s.st
  finishWith (writeReg p.2 w r.1) r.2 cyclesImmediate

/-- A source operand compared with register D, which is not written (R503). -/
def compareReg (src : Operand) (d : RegNo) (op : Word → Word → Word → Word) (s : State) : Result :=
  let p := readWordOp src s
  let q := readReg p.after d
  finishWith q.2 (op p.val q.1 s.st) (cyclesSourceReg + addrCycles src .word)

/-- `shiftCount(C)` of R580, and the state after its R0 read when C = 0. -/
def shiftAmount (c : ShiftCount) (s : State) : Nat × State :=
  match c with
  | .imm n => (n.toNat, s)
  | .fromR0 =>
    let p := readReg s 0
    let n := (p.1.extractLsb' 0 4 : BitVec 4).toNat
    (if n = 0 then 16 else n, p.2)

/-- A shift of register W (R581): `op n x ST` is the result and the new ST. -/
def shiftReg (c : ShiftCount) (w : RegNo) (op : Nat → Word → Word → Word × Word) (s : State) : Result :=
  let n := shiftAmount c s
  let p := readReg n.2 w
  let r := op n.1 p.1 s.st
  finishWith (writeReg p.2 w r.1) r.2 (cyclesShift c n.1)

/-- A jump (R620): PC is already past the jump word. -/
def jumpIf (cond : Word → Bool) (disp : Byte) (s : State) : Result :=
  let t := if cond s.st then s.setPc (s.pc + 2 * sext16 disp) else s
  .next (t.charge (cyclesJump (cond s.st)))

/-- An external-control instruction: the event, nothing else (R703, R706). -/
def externalControl (op : ExternalOp) (s : State) : Result := .next ((s.emit (.external op)).charge cyclesControl)

/-- The operand width of LDCR and STCR (R314). -/
def cruWidth (c : Nat) : Width := if c ≤ 8 then .byte else .word

end Sys2Proof.Machine
end

