-- ==== Sys2Proof/Machine/Arithmetic.lean ====
section
/-! DEFINITION. A AB S SB AI INC INCT DEC DECT NEG ABS MPY DIV (41_arithmetic.md). -/

namespace Sys2Proof.Machine

/-- Result and ST of a word addition of `x` to `d` (R445, R450). -/
def addWord (d x st : Word) : Word × Word := ((addN d x).val, sumFlags16 st (addN d x))

/-- Result and ST of a word subtraction of `x` from `d` (R445, R452). -/
def subWord (d x st : Word) : Word × Word := ((subN d x).val, sumFlags16 st (subN d x))

/-- Result and ST of a byte addition (R445, R451). -/
def addByte (d x : Byte) (st : Word) : Byte × Word := ((addN d x).val, sumFlags8 st (addN d x))

/-- Result and ST of a byte subtraction (R445, R453). -/
def subByte (d x : Byte) (st : Word) : Byte × Word := ((subN d x).val, sumFlags8 st (subN d x))

/-- A (R450). -/
def execA (src dst : Operand) (s : State) : Result := dualWord src dst (fun x d st => addWord d x st) s

/-- AB (R451). -/
def execAb (src dst : Operand) (s : State) : Result := dualByte src dst (fun x d st => addByte d x st) s

/-- S (R452): destination minus source. -/
def execS (src dst : Operand) (s : State) : Result := dualWord src dst (fun x d st => subWord d x st) s

/-- SB (R453): destination minus source. -/
def execSb (src dst : Operand) (s : State) : Result := dualByte src dst (fun x d st => subByte d x st) s

/-- AI (R462). -/
def execAi (w : RegNo) (s : State) : Result := immediateWord w (fun x i st => addWord x i st) s

/-- INC (R463). -/
def execInc (o : Operand) (s : State) : Result := singleWord o cyclesSingle (fun x st => addWord x 1 st) s

/-- INCT (R464). -/
def execInct (o : Operand) (s : State) : Result := singleWord o cyclesSingle (fun x st => addWord x 2 st) s

/-- DEC (R465). -/
def execDec (o : Operand) (s : State) : Result := singleWord o cyclesSingle (fun x st => subWord x 1 st) s

/-- DECT (R466). -/
def execDect (o : Operand) (s : State) : Result := singleWord o cyclesSingle (fun x st => subWord x 2 st) s

/-- NEG (R467). -/
def execNeg (o : Operand) (s : State) : Result := singleWord o cyclesNeg (fun x st => subWord 0 x st) s

/-- ABS (R468): L, A and EQ from the original value, C cleared, a write only when the operand is negative. -/
def execAbs (o : Operand) (s : State) : Result :=
  let p := readWordOp o s
  let neg := p.val.getLsbD 15
  let t := if neg then busWrite p.after p.addr (0 - p.val) else p.after
  finishWith t (putCOV (cmpZero16 s.st p.val) false (decide (p.val = 0x8000))) (cyclesAbs neg + addrCycles o .word)

/-- MPY (R472): the 32-bit unsigned product into W[D] and W[D+1]. -/
def execMpy (src : Operand) (d : RegNo) (s : State) : Result :=
  let p := readWordOp src s
  let q := readReg p.after d
  let prod : BitVec 32 := q.1.setWidth 32 * p.val.setWidth 32
  let t1 := writeReg q.2 d (prod.extractLsb' 16 16)
  let t2 := busWrite t1 (pairAddr t1 d) (prod.extractLsb' 0 16)
  finishWith t2 s.st (cyclesMpy + addrCycles src .word)

/-- DIV (R473): overflow, or quotient and remainder of W[D], W[D+1] by the source. DIV_CYCLES is a draw (R474, log 7). -/
def execDiv (src : Operand) (d : RegNo) (s : State) : Result :=
  let p := readWordOp src s
  let q := readReg p.after d
  if p.val.toNat ≤ q.1.toNat then
    finishWith q.2 (putOV s.st true) (cyclesDivOverflow + addrCycles src .word)
  else
    let r := busRead q.2 (pairAddr q.2 d)
    let n := q.1.toNat * 65536 + r.1.toNat
    let t1 := writeReg r.2 d (BitVec.ofNat 16 (n / p.val.toNat))
    let t2 := busWrite t1 (pairAddr t1 d) (BitVec.ofNat 16 (n % p.val.toNat))
    let k := t2.draw
    finishWith k.2 (putOV s.st false) (Config.divCycles k.1 q.1 r.1 p.val + addrCycles src .word)

end Sys2Proof.Machine
end

