-- ==== Sys2Proof/Machine/CompareLogic.lean ====
section
/-! DEFINITION. C CB CI COC CZC SZC SZCB SOC SOCB ANDI ORI XOR INV CLR SETO (42_compare_logic.md). -/

namespace Sys2Proof.Machine

/-- A word result with `cmpZero16` of it (R440). -/
def logicWord (r st : Word) : Word × Word := (r, cmpZero16 st r)

/-- A byte result with `cmpZero8` of it (R441). -/
def logicByte (r : Byte) (st : Word) : Byte × Word := (r, cmpZero8 st r)

/-- C (R500): source compared with destination. -/
def execC (src dst : Operand) (s : State) : Result := compareWord src dst (fun x d st => cmp16 st x d) s

/-- CB (R501): OP from the source byte. -/
def execCb (src dst : Operand) (s : State) : Result :=
  compareByte src dst (fun x d st => putOP (cmp8 st x d) (parity8 x)) s

/-- CI (R502): register compared with immediate. -/
def execCi (w : RegNo) (s : State) : Result :=
  let i := fetchWord s
  let p := readReg i.2 w
  finishWith p.2 (cmp16 s.st p.1 i.1) cyclesImmediate

/-- COC (R503). -/
def execCoc (src : Operand) (d : RegNo) (s : State) : Result :=
  compareReg src d (fun x w st => putEQ st (decide (x &&& w = x))) s

/-- CZC (R504). -/
def execCzc (src : Operand) (d : RegNo) (s : State) : Result :=
  compareReg src d (fun x w st => putEQ st (decide (x &&& w = 0))) s

/-- SZC (R510). -/
def execSzc (src dst : Operand) (s : State) : Result := dualWord src dst (fun x d st => logicWord (d &&& ~~~x) st) s

/-- SZCB (R511). -/
def execSzcb (src dst : Operand) (s : State) : Result := dualByte src dst (fun x d st => logicByte (d &&& ~~~x) st) s

/-- SOC (R512). -/
def execSoc (src dst : Operand) (s : State) : Result := dualWord src dst (fun x d st => logicWord (d ||| x) st) s

/-- SOCB (R513). -/
def execSocb (src dst : Operand) (s : State) : Result := dualByte src dst (fun x d st => logicByte (d ||| x) st) s

/-- ANDI (R514). -/
def execAndi (w : RegNo) (s : State) : Result := immediateWord w (fun x i st => logicWord (x &&& i) st) s

/-- ORI (R515). -/
def execOri (w : RegNo) (s : State) : Result := immediateWord w (fun x i st => logicWord (x ||| i) st) s

/-- XOR (R516). -/
def execXor (src : Operand) (d : RegNo) (s : State) : Result :=
  let p := readWordOp src s
  let q := readReg p.after d
  let r := q.1 ^^^ p.val
  finishWith (writeReg q.2 d r) (cmpZero16 s.st r) (cyclesSourceReg + addrCycles src .word)

/-- INV (R517). -/
def execInv (o : Operand) (s : State) : Result := singleWord o cyclesSingle (fun x st => logicWord (~~~x) st) s

/-- CLR (R518). -/
def execClr (o : Operand) (s : State) : Result := storeConst o 0x0000 s

/-- SETO (R519). -/
def execSeto (o : Operand) (s : State) : Result := storeConst o 0xFFFF s

end Sys2Proof.Machine
end

