-- ==== Sys2Proof/Machine/ControlTransfer.lean ====
section
/-! DEFINITION. B BL BLWP RTWP XOP and the thirteen jumps (45_control_transfer.md). X is in Execute.lean. -/

namespace Sys2Proof.Machine

/-- B (R601). -/
def execB (o : Operand) (s : State) : Result :=
  let a := ea o .word s
  .next (((dummyRead a.2 a.1).setPc a.1).charge (cyclesB + addrCycles o .word))

/-- BL (R602): the effective address is computed before R11 is written. -/
def execBl (o : Operand) (s : State) : Result :=
  let a := ea o .word s
  let t := dummyRead a.2 a.1
  .next (((writeReg t 11 t.pc).setPc a.1).charge (cyclesBl + addrCycles o .word))

/-- BLWP (R604). -/
def execBlwp (o : Operand) (s : State) : Result :=
  let a := ea o .word s
  .next ((switchThrough a.2 a.1).charge (cyclesBlwp + addrCycles o .word))

/-- RTWP (R605). -/
def execRtwp (s : State) : Result := .next ((returnSwitch s).charge cyclesRtwp)

/-- The XOP vector of number n: 0x0040 + 4n (R615). -/
def xopVector (n : BitVec 4) : Word := 0x0040 + 4 * n.setWidth 16

/-- XOP (R615): R11 of the new workspace after R13 to R15, then ST.X. -/
def execXop (o : Operand) (n : BitVec 4) (s : State) : Result :=
  let a := ea o .word s
  let t := switchThrough (dummyRead a.2 a.1) (xopVector n)
  let u := writeReg t 11 a.1
  finishWith u (putX u.st true) (cyclesXop + addrCycles o .word)

/-- JMP (R630). -/
def execJmp (d : Byte) (s : State) : Result := jumpIf (fun _ => true) d s

/-- JLT (R631): A = 0 and EQ = 0. -/
def execJlt (d : Byte) (s : State) : Result := jumpIf (fun st => !stA st && !stEQ st) d s

/-- JLE (R632): L = 0 or EQ = 1. -/
def execJle (d : Byte) (s : State) : Result := jumpIf (fun st => !stL st || stEQ st) d s

/-- JEQ (R633): EQ = 1. -/
def execJeq (d : Byte) (s : State) : Result := jumpIf (fun st => stEQ st) d s

/-- JHE (R634): L = 1 or EQ = 1. -/
def execJhe (d : Byte) (s : State) : Result := jumpIf (fun st => stL st || stEQ st) d s

/-- JGT (R635): A = 1. -/
def execJgt (d : Byte) (s : State) : Result := jumpIf (fun st => stA st) d s

/-- JNE (R636): EQ = 0. -/
def execJne (d : Byte) (s : State) : Result := jumpIf (fun st => !stEQ st) d s

/-- JNC (R637): C = 0. -/
def execJnc (d : Byte) (s : State) : Result := jumpIf (fun st => !stC st) d s

/-- JOC (R638): C = 1. -/
def execJoc (d : Byte) (s : State) : Result := jumpIf (fun st => stC st) d s

/-- JNO (R639): OV = 0. -/
def execJno (d : Byte) (s : State) : Result := jumpIf (fun st => !stOV st) d s

/-- JL (R640): L = 0 and EQ = 0. -/
def execJl (d : Byte) (s : State) : Result := jumpIf (fun st => !stL st && !stEQ st) d s

/-- JH (R641): L = 1 and EQ = 0. -/
def execJh (d : Byte) (s : State) : Result := jumpIf (fun st => stL st && !stEQ st) d s

/-- JOP (R642): OP = 1. -/
def execJop (d : Byte) (s : State) : Result := jumpIf (fun st => stOP st) d s

end Sys2Proof.Machine
end

