-- ==== Sys2Proof/Machine/CruInstr.lean ====
section
/-! DEFINITION. SBO SBZ TB LDCR STCR (46_cru.md). -/

namespace Sys2Proof.Machine

/-- SBO and SBZ: one CRU write at R12's base plus the displacement (R653, R660, R661). -/
def setCruBit (disp : Byte) (v : Bool) (s : State) : Result :=
  let p := readReg s 12
  .next ((cruWrite p.2 (cruBitAddr p.1 disp) v).charge cyclesCruBit)

/-- SBO (R660). -/
def execSbo (disp : Byte) (s : State) : Result := setCruBit disp true s

/-- SBZ (R661). -/
def execSbz (disp : Byte) (s : State) : Result := setCruBit disp false s

/-- TB (R662). -/
def execTb (disp : Byte) (s : State) : Result :=
  let p := readReg s 12
  finishWith p.2 (putEQ s.st (cruRead p.2 (cruBitAddr p.1 disp))) cyclesCruBit

/-- LDCR (R663): a byte source for 1 to 8 bits, a word source otherwise; the flags describe the whole source value. -/
def execLdcr (o : Operand) (c : Nat) (s : State) : Result :=
  match cruWidth c with
  | .byte =>
    let p := readByteOp o s
    let r := readReg p.after 12
    finishWith (cruSend (cruBase r.1) (p.val.setWidth 16) c 0 r.2) (cmpZero8 s.st p.val)
      (cyclesLdcr c + addrCycles o .byte)
  | .word =>
    let p := readWordOp o s
    let r := readReg p.after 12
    finishWith (cruSend (cruBase r.1) p.val c 0 r.2) (cmpZero16 s.st p.val) (cyclesLdcr c + addrCycles o .word)

/-- STCR (R664). -/
def execStcr (o : Operand) (c : Nat) (s : State) : Result :=
  match cruWidth c with
  | .byte =>
    let a := ea o .byte s
    let r := readReg a.2 12
    let v := loByte (cruReceive r.2 (cruBase r.1) c)
    finishWith (busWriteByte r.2 a.1 v) (cmpZero8 s.st v) (cyclesStcr c + addrCycles o .byte)
  | .word =>
    let a := ea o .word s
    let r := readReg (dummyRead a.2 a.1) 12
    let v := cruReceive r.2 (cruBase r.1) c
    finishWith (busWrite r.2 a.1 v) (cmpZero16 s.st v) (cyclesStcr c + addrCycles o .word)

end Sys2Proof.Machine
end

