-- ==== Sys2Proof/Machine/ExternalControl.lean ====
section
/-! DEFINITION. IDLE RSET CKON CKOF LREX (47_external_control.md). -/

namespace Sys2Proof.Machine

/-- IDLE (R700): the event, then no instruction until an interrupt is taken. -/
def execIdle (s : State) : Result :=
  match Config.idleMode with
  | .waitForInterrupt => externalControl .idle { s with idle := true }
  | .nop => externalControl .idle s

/-- RSET (R702): MASK is cleared; no machine reset. The event is recorded. DESIGN CHOICE, log 16, unsafe: no CRU device outside the
block acts on it, which R702 allows one to do; `cru` is unchanged. -/
def execRset (s : State) : Result := externalControl .rset (s.setSt (putMask s.st 0))

/-- CKON (R703). -/
def execCkon (s : State) : Result := externalControl .ckon s

/-- CKOF (R704). -/
def execCkof (s : State) : Result := externalControl .ckof s

/-- LREX (R705). -/
def execLrex (s : State) : Result := externalControl .lrex s

end Sys2Proof.Machine
end

