-- ==== Sys2Proof/Machine/MoveLoad.lean ====
section
/-! DEFINITION. MOV MOVB SWPB LIMI LI LWPI STST STWP (43_move_load.md). -/

namespace Sys2Proof.Machine

/-- MOV (R550): the destination is read, unused, under the tms9900 profile. -/
def execMov (src dst : Operand) (s : State) : Result :=
  let p := readWordOp src s
  let a := ea dst .word p.after
  finishWith (busWrite (dummyRead a.2 a.1) a.1 p.val) (cmpZero16 s.st p.val)
    (cyclesDual + addrCycles src .word + addrCycles dst .word)

/-- MOVB (R551): the destination word is read for the merge under both profiles. -/
def execMovb (src dst : Operand) (s : State) : Result :=
  let p := readByteOp src s
  let a := ea dst .byte p.after
  finishWith (busWriteByte a.2 a.1 p.val) (cmpZero8 s.st p.val) (cyclesDual + addrCycles src .byte + addrCycles dst .byte)

/-- SWPB (R554): ST unchanged. -/
def execSwpb (o : Operand) (s : State) : Result :=
  singleWord o cyclesSingle (fun x st => (wordOf (loByte x) (hiByte x), st)) s

/-- LIMI (R555): bits 15:4 of the immediate are ignored. -/
def execLimi (s : State) : Result :=
  let i := fetchWord s
  finishWith i.2 (putMask s.st (i.1.extractLsb' 0 4)) cyclesLimi

/-- LI (R556). -/
def execLi (w : RegNo) (s : State) : Result :=
  let i := fetchWord s
  finishWith (writeReg i.2 w i.1) (cmpZero16 s.st i.1) cyclesLi

/-- LWPI (R557): all 16 bits are kept. -/
def execLwpi (s : State) : Result :=
  let i := fetchWord s
  .next ((i.2.setWp i.1).charge cyclesLwpi)

/-- STST (R558). -/
def execStst (w : RegNo) (s : State) : Result := .next ((writeReg s w s.st).charge cyclesStore)

/-- STWP (R559). -/
def execStwp (w : RegNo) (s : State) : Result := .next ((writeReg s w s.wp).charge cyclesStore)

end Sys2Proof.Machine
end

