-- ==== Sys2Proof/Machine/Shift.lean ====
section
/-! DEFINITION. SRA SRL SLA SRC (44_shift.md). -/

namespace Sys2Proof.Machine

/-- SRA (R581). -/
def execSra (c : ShiftCount) (w : RegNo) (s : State) : Result :=
  shiftReg c w (fun n x st => ((sraLoop n x false).1, shiftFlags st (sraLoop n x false))) s

/-- SRL (R582). -/
def execSrl (c : ShiftCount) (w : RegNo) (s : State) : Result :=
  shiftReg c w (fun n x st => ((srlLoop n x false).1, shiftFlags st (srlLoop n x false))) s

/-- SLA (R583). -/
def execSla (c : ShiftCount) (w : RegNo) (s : State) : Result :=
  shiftReg c w (fun n x st => ((slaLoop n x false false).1, slaFlags st (slaLoop n x false false))) s

/-- SRC (R584). -/
def execSrc (c : ShiftCount) (w : RegNo) (s : State) : Result :=
  shiftReg c w (fun n x st => ((srcLoop n x false).1, shiftFlags st (srcLoop n x false))) s

end Sys2Proof.Machine
end

