-- ==== Sys2Proof/Machine/Execute.lean ====
section
/-! DEFINITION. X, and the execution of a word that X has read (R612). The executed instruction's extension words come from PC.
X may execute X without a depth limit: an X that X reads is left in `xPending`, and the next step goes on with it, with no
fetch, breakpoint check or interrupt check between (R612, D43, log 18). -/

namespace Sys2Proof.Machine

/-- `execute(d)` of R612 for the word `w` that decodes to `i`. -/
def executeRead (w : Word) (i : Instr) (s : State) : Result :=
  match i with
  | .li w => execLi w s
  | .ai w => execAi w s
  | .andi w => execAndi w s
  | .ori w => execOri w s
  | .ci w => execCi w s
  | .stwp w => execStwp w s
  | .stst w => execStst w s
  | .lwpi => execLwpi s
  | .limi => execLimi s
  | .idle => execIdle s
  | .rset => execRset s
  | .rtwp => execRtwp s
  | .ckon => execCkon s
  | .ckof => execCkof s
  | .lrex => execLrex s
  | .blwp src => execBlwp src s
  | .b src => execB src s
  | .x _ => .next { s with xPending := some w }
  | .clr src => execClr src s
  | .neg src => execNeg src s
  | .inv src => execInv src s
  | .inc src => execInc src s
  | .inct src => execInct src s
  | .dec src => execDec src s
  | .dect src => execDect src s
  | .bl src => execBl src s
  | .swpb src => execSwpb src s
  | .seto src => execSeto src s
  | .abs src => execAbs src s
  | .sra cnt w => execSra cnt w s
  | .srl cnt w => execSrl cnt w s
  | .sla cnt w => execSla cnt w s
  | .src cnt w => execSrc cnt w s
  | .jmp disp => execJmp disp s
  | .jlt disp => execJlt disp s
  | .jle disp => execJle disp s
  | .jeq disp => execJeq disp s
  | .jhe disp => execJhe disp s
  | .jgt disp => execJgt disp s
  | .jne disp => execJne disp s
  | .jnc disp => execJnc disp s
  | .joc disp => execJoc disp s
  | .jno disp => execJno disp s
  | .jl disp => execJl disp s
  | .jh disp => execJh disp s
  | .jop disp => execJop disp s
  | .sbo disp => execSbo disp s
  | .sbz disp => execSbz disp s
  | .tb disp => execTb disp s
  | .coc src d => execCoc src d s
  | .czc src d => execCzc src d s
  | .xor src d => execXor src d s
  | .xop src n => execXop src n s
  | .ldcr src count => execLdcr src count s
  | .stcr src count => execStcr src count s
  | .mpy src d => execMpy src d s
  | .div src d => execDiv src d s
  | .szc src dst => execSzc src dst s
  | .szcb src dst => execSzcb src dst s
  | .s src dst => execS src dst s
  | .sb src dst => execSb src dst s
  | .c src dst => execC src dst s
  | .cb src dst => execCb src dst s
  | .a src dst => execA src dst s
  | .ab src dst => execAb src dst s
  | .mov src dst => execMov src dst s
  | .movb src dst => execMovb src dst s
  | .soc src dst => execSoc src dst s
  | .socb src dst => execSocb src dst s

/-- The word `w` read by X: executed, or the illegal-opcode path (R412), or refused as an alias word (R331). -/
def executeWord (w : Word) (s : State) : Result :=
  match resolveAlias Config.aliasDecode (decodeWord w) with
  | some (.instr i) => executeRead w i s
  | some _ => .next (illegalOpcode s w)
  | none => .refused (.aliasWord w)

/-- X (R612): the word at the effective address is executed as an instruction. X's own part of the cycles is 8 - 4 and its
operand's (R433). -/
def execX (src : Operand) (s : State) : Result :=
  let p := readWordOp src s
  executeWord p.val (p.after.charge (cyclesX + addrCycles src .word))

end Sys2Proof.Machine
end

