-- ==== Sys2Proof/Machine/Dispatch.lean ====
section
/-! DEFINITION. The meaning of every instruction: one arm per constructor, one direct call each. -/

namespace Sys2Proof.Machine

def exec (i : Instr) (s : State) : Host.Outcome State Fault Refusal :=
  match i with
  | .li w => Sys2Proof.Machine.execLi w s
  | .ai w => Sys2Proof.Machine.execAi w s
  | .andi w => Sys2Proof.Machine.execAndi w s
  | .ori w => Sys2Proof.Machine.execOri w s
  | .ci w => Sys2Proof.Machine.execCi w s
  | .stwp w => Sys2Proof.Machine.execStwp w s
  | .stst w => Sys2Proof.Machine.execStst w s
  | .lwpi => Sys2Proof.Machine.execLwpi s
  | .limi => Sys2Proof.Machine.execLimi s
  | .idle => Sys2Proof.Machine.execIdle s
  | .rset => Sys2Proof.Machine.execRset s
  | .rtwp => Sys2Proof.Machine.execRtwp s
  | .ckon => Sys2Proof.Machine.execCkon s
  | .ckof => Sys2Proof.Machine.execCkof s
  | .lrex => Sys2Proof.Machine.execLrex s
  | .blwp src => Sys2Proof.Machine.execBlwp src s
  | .b src => Sys2Proof.Machine.execB src s
  | .x src => Sys2Proof.Machine.execX src s
  | .clr src => Sys2Proof.Machine.execClr src s
  | .neg src => Sys2Proof.Machine.execNeg src s
  | .inv src => Sys2Proof.Machine.execInv src s
  | .inc src => Sys2Proof.Machine.execInc src s
  | .inct src => Sys2Proof.Machine.execInct src s
  | .dec src => Sys2Proof.Machine.execDec src s
  | .dect src => Sys2Proof.Machine.execDect src s
  | .bl src => Sys2Proof.Machine.execBl src s
  | .swpb src => Sys2Proof.Machine.execSwpb src s
  | .seto src => Sys2Proof.Machine.execSeto src s
  | .abs src => Sys2Proof.Machine.execAbs src s
  | .sra cnt w => Sys2Proof.Machine.execSra cnt w s
  | .srl cnt w => Sys2Proof.Machine.execSrl cnt w s
  | .sla cnt w => Sys2Proof.Machine.execSla cnt w s
  | .src cnt w => Sys2Proof.Machine.execSrc cnt w s
  | .jmp disp => Sys2Proof.Machine.execJmp disp s
  | .jlt disp => Sys2Proof.Machine.execJlt disp s
  | .jle disp => Sys2Proof.Machine.execJle disp s
  | .jeq disp => Sys2Proof.Machine.execJeq disp s
  | .jhe disp => Sys2Proof.Machine.execJhe disp s
  | .jgt disp => Sys2Proof.Machine.execJgt disp s
  | .jne disp => Sys2Proof.Machine.execJne disp s
  | .jnc disp => Sys2Proof.Machine.execJnc disp s
  | .joc disp => Sys2Proof.Machine.execJoc disp s
  | .jno disp => Sys2Proof.Machine.execJno disp s
  | .jl disp => Sys2Proof.Machine.execJl disp s
  | .jh disp => Sys2Proof.Machine.execJh disp s
  | .jop disp => Sys2Proof.Machine.execJop disp s
  | .sbo disp => Sys2Proof.Machine.execSbo disp s
  | .sbz disp => Sys2Proof.Machine.execSbz disp s
  | .tb disp => Sys2Proof.Machine.execTb disp s
  | .coc src d => Sys2Proof.Machine.execCoc src d s
  | .czc src d => Sys2Proof.Machine.execCzc src d s
  | .xor src d => Sys2Proof.Machine.execXor src d s
  | .xop src n => Sys2Proof.Machine.execXop src n s
  | .ldcr src count => Sys2Proof.Machine.execLdcr src count s
  | .stcr src count => Sys2Proof.Machine.execStcr src count s
  | .mpy src d => Sys2Proof.Machine.execMpy src d s
  | .div src d => Sys2Proof.Machine.execDiv src d s
  | .szc src dst => Sys2Proof.Machine.execSzc src dst s
  | .szcb src dst => Sys2Proof.Machine.execSzcb src dst s
  | .s src dst => Sys2Proof.Machine.execS src dst s
  | .sb src dst => Sys2Proof.Machine.execSb src dst s
  | .c src dst => Sys2Proof.Machine.execC src dst s
  | .cb src dst => Sys2Proof.Machine.execCb src dst s
  | .a src dst => Sys2Proof.Machine.execA src dst s
  | .ab src dst => Sys2Proof.Machine.execAb src dst s
  | .mov src dst => Sys2Proof.Machine.execMov src dst s
  | .movb src dst => Sys2Proof.Machine.execMovb src dst s
  | .soc src dst => Sys2Proof.Machine.execSoc src dst s
  | .socb src dst => Sys2Proof.Machine.execSocb src dst s

end Sys2Proof.Machine
end

