-- ==== Sys2Proof/Machine/Step.lean ====
section
/-! DEFINITION. One step: a pass of the run loop's body with no breakpoint hit (R400): an idle pass or one instruction, then the
interrupt check. -/

namespace Sys2Proof.Machine

/-- The instruction word `w`, already fetched, executed: decode, then its meaning, the illegal-opcode path, or a refusal
(R404, R331). -/
def runWord (w : Word) (s : State) : Host.Outcome State Fault Refusal :=
  match resolveAlias Config.aliasDecode (decodeWord w) with
  | some (.instr i) => exec i s
  | some _ => .next (illegalOpcode s w)
  | none => .refused (.aliasWord w)

/-- The interrupt check after an instruction (R958). An X that still executes an X has not completed, so no check is made
(R612). -/
def afterInstr (s : State) : State := if s.xPending.isSome then s else interruptCheck s

/-- `afterInstr` on a next state; a refusal stays as it is. -/
def completeStep : Host.Outcome State Fault Refusal → Host.Outcome State Fault Refusal
  | .next s => .next (afterInstr s)
  | .fault r => .fault r
  | .refused r => .refused r

/-- One step (R400, R404, R700, R958). -/
def step (s : State) : Host.Outcome State Fault Refusal :=
  match s.xPending with
  | some w => completeStep (runWord w { s with xPending := none })
  | none =>
    if s.idle then .next (interruptCheck (idlePass s))
    else completeStep (runWord (fetchWord s).1 (fetchWord s).2)

/-- The word of an instruction's bits `w`, counted from bit `16 k` (the host's numbering: the first word's bits lie lowest). -/
def tableWord (nbits w k : Nat) : Word := BitVec.ofNat 16 (w % 2 ^ nbits / 2 ^ (16 * k))

/-- A word put behind the addresses `a` and `a + 1`, where a store backs both. -/
def pokeWord (s : State) (a v : Word) : Option State :=
  (pokeByte s (even a) (hiByte v)).bind fun t => pokeByte t (even a + 1) (loByte v)

/-- Three words put at `a`, `a + 2` and `a + 4`, the longest instruction (R300), where stores back them. -/
def pokeThree (s : State) (a v0 v1 v2 : Word) : Option State :=
  ((pokeWord s a v0).bind fun t => pokeWord t (a + 2) v1).bind fun t => pokeWord t (a + 4) v2

/-- Whether the three words at PC read as given. -/
def fetchesThree (s : State) (v0 v1 v2 : Word) : Bool :=
  fastRead s s.pc == v0 && fastRead s (s.pc + 2) == v1 && fastRead s (s.pc + 4) == v2

/-- `s` with the instruction of bits `w` stored where the next step fetches (log 4): behind PC, ROM included, and ready to
fetch. Where no store backs PC (a port, an unmapped window), PC is moved to expansion RAM at 0xA000, attached for it. -/
def State.withFetchWord (s : State) (nbits w : Nat) : State :=
  let v0 := tableWord nbits w 0
  let v1 := tableWord nbits w 1
  let v2 := tableWord nbits w 2
  let ready : State := { s with idle := false, xPending := none }
  let moved : State := { ready with pc := 0xA000, expRamPresent := true }
  match pokeThree ready ready.pc v0 v1 v2 with
  | some t => if fetchesThree t v0 v1 v2 then t else (pokeThree moved 0xA000 v0 v1 v2).getD moved
  | none => (pokeThree moved 0xA000 v0 v1 v2).getD moved

end Sys2Proof.Machine
end

