-- ==== Sys2Proof/Machine/Video.lean ====
section
/-! DEFINITION. The scanline renderer: tables, modes, geometry, per-mode colours, sprites and the status it returns (R870 to R906,
R931, R940, R941). It is called by the host between run calls; no instruction calls it. -/

namespace Sys2Proof.Machine

/-- A colour index, 0..15 (R883). -/
abbrev Colour := BitVec 4

/-- An output pixel (R884). -/
structure Rgba where
  r : Byte
  g : Byte
  b : Byte
  a : Byte
deriving DecidableEq, Repr

/-! ## Registers and tables (R851, R870) -/

/-- `VRAM[n]`, the address taken to 14 bits (R870). -/
def Vdp.at (v : Vdp) (n : Nat) : Byte := v.vramAt (BitVec.ofNat 14 n)

/-- BD, the backdrop colour (R851, R881). -/
def Vdp.backdrop (v : Vdp) : Colour := (v.vr[7]).extractLsb' 0 4

/-- TC, the text foreground colour (R851). -/
def Vdp.textColour (v : Vdp) : Colour := (v.vr[7]).extractLsb' 4 4

/-- NT (R870). -/
def Vdp.nameTable (v : Vdp) : Nat := ((v.vr[2]).toNat &&& 0x0F) <<< 10

/-- CT (R870). -/
def Vdp.colourTable (v : Vdp) : Nat := (v.vr[3]).toNat <<< 6

/-- PG (R870). -/
def Vdp.patternTable (v : Vdp) : Nat := ((v.vr[4]).toNat &&& 0x07) <<< 11

/-- `pOff` of the bitmap modes (R870). -/
def Vdp.patternOffset (v : Vdp) : Nat := ((v.vr[4]).toNat &&& 0x04) <<< 11

/-- `pMask` of the bitmap modes (R870). -/
def Vdp.patternMask (v : Vdp) : Nat := (((v.vr[4]).toNat &&& 0x03) <<< 11) ||| 0x07FF

/-- `cOff` of the bitmap modes (R870). -/
def Vdp.colourOffset (v : Vdp) : Nat := ((v.vr[3]).toNat &&& 0x80) <<< 6

/-- `cMask` of the bitmap modes (R870). -/
def Vdp.colourMask (v : Vdp) : Nat := (((v.vr[3]).toNat &&& 0x7F) <<< 6) ||| 0x003F

/-- SA (R870). -/
def Vdp.spriteAttrTable (v : Vdp) : Nat := ((v.vr[5]).toNat &&& 0x7F) <<< 7

/-- SP (R870). -/
def Vdp.spritePatternTable (v : Vdp) : Nat := ((v.vr[6]).toNat &&& 0x07) <<< 11

/-! ## Modes (R871) -/

/-- The display modes (R871). -/
inductive VideoMode where
  | graphics | bitmap | multicolor | text | bitmapText | bitmapMulticolor | illegal
deriving DecidableEq, Repr

/-- The mode from M1, M2 and M3 (R871). -/
def Vdp.mode (v : Vdp) : VideoMode :=
  match (v.vr[1]).getLsbD 4, (v.vr[1]).getLsbD 3, (v.vr[0]).getLsbD 1 with
  | false, false, false => .graphics
  | false, false, true => .bitmap
  | false, true, false => .multicolor
  | true, false, false => .text
  | true, false, true => .bitmapText
  | false, true, true => .bitmapMulticolor
  | true, true, _ => .illegal

/-- Whether the mode has sprites: every mode with M1 = 0 (R871). -/
def VideoMode.hasSprites : VideoMode → Bool
  | .graphics | .bitmap | .multicolor | .bitmapMulticolor => true
  | .text | .bitmapText | .illegal => false

/-! ## Geometry (R872) -/

/-- R872: the caller's W and H, and the row. Outside these the rule gives no line. -/
def geometryOk (y w h : Nat) : Bool :=
  decide (256 ≤ w) && decide (192 ≤ h) && (w - 256) % 2 == 0 && (h - 192) % 2 == 0 && decide (y < h)

/-- `left` of R872. -/
def leftBorder (w : Nat) : Nat := (w - 256) / 2

/-- `top` of R872. -/
def topBorder (h : Nat) : Nat := (h - 192) / 2

/-- The display row of output row `y`, for an active row (R872). -/
def Vdp.displayRow (v : Vdp) (y h : Nat) : Option Nat :=
  if topBorder h ≤ y ∧ y < topBorder h + 192 ∧ (v.vr[1]).getLsbD 6 = true then some (y - topBorder h) else none

/-- The display column of output column `x`, for an active column (R872). -/
def displayColumn (x w : Nat) : Option Nat :=
  if leftBorder w ≤ x ∧ x < leftBorder w + 256 then some (x - leftBorder w) else none

/-! ## Per-mode colours (R890 to R896) -/

/-- Bit `b` of a pattern byte, bit 0 the leftmost pixel. -/
def patternBit (p : Byte) (b : Nat) : Bool := p.getLsbD (7 - b)

/-- The high nibble of a colour byte. -/
def hiNibble (b : Byte) : Colour := b.extractLsb' 4 4

/-- The low nibble of a colour byte. -/
def loNibble (b : Byte) : Colour := b.extractLsb' 0 4

/-- `nameAt(i)`. -/
def Vdp.nameAt (v : Vdp) (i : Nat) : Nat := (v.at (v.nameTable + i)).toNat

/-- The two colours of a colour byte by a pattern bit. -/
def pickColour (p : Byte) (b : Nat) (col : Byte) : Colour := if patternBit p b then hiNibble col else loNibble col

/-- R890. -/
def Vdp.graphicsColour (v : Vdp) (r c : Nat) : Colour :=
  let n := v.nameAt (r / 8 * 32 + c / 8)
  pickColour (v.at (v.patternTable + n * 8 + r % 8)) (c % 8) (v.at (v.colourTable + n / 8))

/-- R891. -/
def Vdp.bitmapColour (v : Vdp) (r c : Nat) : Colour :=
  let n := v.nameAt (r / 8 * 32 + c / 8) + r / 64 * 256
  let i := n * 8 + r % 8
  pickColour (v.at (v.patternOffset + (i &&& v.patternMask))) (c % 8) (v.at (v.colourOffset + (i &&& v.colourMask)))

/-- The half of a multicolor byte at column `c` (R892, R895). -/
def multiColour (b : Byte) (c : Nat) : Colour := if c % 8 < 4 then hiNibble b else loNibble b

/-- R892. -/
def Vdp.multicolorColour (v : Vdp) (r c : Nat) : Colour :=
  let n := v.nameAt (r / 8 * 32 + c / 8)
  multiColour (v.at (v.patternTable + n * 8 + r / 4 % 8)) c

/-- The text column of a display column, none in the margins (R893). -/
def textColumn (c : Nat) : Option Nat := if c < 8 ∨ 248 ≤ c then none else some (c - 8)

/-- The text colours by a Boolean (R893, R894, R896). -/
def Vdp.textPick (v : Vdp) (on : Bool) : Colour := if on then v.textColour else v.backdrop

/-- R893. -/
def Vdp.textModeColour (v : Vdp) (r c : Nat) : Colour :=
  match textColumn c with
  | none => v.backdrop
  | some t =>
    let n := v.nameAt (r / 8 * 40 + t / 6)
    v.textPick (patternBit (v.at (v.patternTable + n * 8 + r % 8)) (t % 6))

/-- R894. -/
def Vdp.bitmapTextColour (v : Vdp) (r c : Nat) : Colour :=
  match textColumn c with
  | none => v.backdrop
  | some t =>
    let n := v.nameAt (r / 8 * 40 + t / 6) + r / 64 * 256
    v.textPick (patternBit (v.at (v.patternOffset + ((n * 8 + r % 8) &&& v.patternMask))) (t % 6))

/-- R895. -/
def Vdp.bitmapMulticolorColour (v : Vdp) (r c : Nat) : Colour :=
  let n := v.nameAt (r / 8 * 32 + c / 8) + r / 64 * 256
  multiColour (v.at (v.patternOffset + ((n * 8 + r / 4 % 8) &&& v.patternMask))) c

/-- R896. -/
def Vdp.illegalModeColour (v : Vdp) (c : Nat) : Colour :=
  match textColumn c with
  | none => v.backdrop
  | some t => v.textPick (decide (t % 6 < 4))

/-- `modeColour(mode, r, c)` of R880. -/
def Vdp.modeColour (v : Vdp) (r c : Nat) : Colour :=
  match v.mode with
  | .graphics => v.graphicsColour r c
  | .bitmap => v.bitmapColour r c
  | .multicolor => v.multicolorColour r c
  | .text => v.textModeColour r c
  | .bitmapText => v.bitmapTextColour r c
  | .bitmapMulticolor => v.bitmapMulticolorColour r c
  | .illegal => v.illegalModeColour c

/-! ## Sprites (R900 to R906) -/

/-- The scratch of one line: `sprCol` and `occupied` by display column, the columns absent being "none" and false, and the
status. -/
structure SpriteLine where
  cols : List (Nat × Colour)
  occupied : List Nat
  status : Byte
deriving DecidableEq, Repr

/-- Sprite size in pattern pixels: 16 or 8 (R901). -/
def Vdp.spriteSize (v : Vdp) : Nat := if (v.vr[1]).getLsbD 1 then 16 else 8

/-- Magnification shift: 1 or 0 (R901). -/
def Vdp.spriteMag (v : Vdp) : Nat := if (v.vr[1]).getLsbD 0 then 1 else 0

/-- `span` of R901. -/
def Vdp.spriteSpan (v : Vdp) : Nat := v.spriteSize <<< v.spriteMag

/-- R901's test. -/
def Vdp.spanHolds (v : Vdp) (r : Nat) (top : Int) : Bool := decide (top ≤ r) && decide ((r : Int) < top + v.spriteSpan)

/-- `isOnLine(i, r, top)`: R901, but R903's OPEN rule in the case of the duplication defect (log 11). -/
def Vdp.isOnLine (v : Vdp) (i r : Nat) (top : Int) : Bool :=
  if v.mode = .bitmap ∧ (v.vr[4]).toNat &&& 3 ≠ 3 ∧ 8 ≤ i then Config.spriteDupRule i r top v.vr else v.spanHolds r top

/-- One opaque pixel of a sprite of colour `colr` at display column `px` (R902, R904, R906). -/
def SpriteLine.plot (l : SpriteLine) (px : Nat) (colr : Colour) : SpriteLine :=
  { cols := if (l.cols.lookup px).isNone && colr != 0 then (px, colr) :: l.cols else l.cols
    occupied := if l.occupied.contains px then l.occupied else px :: l.occupied
    status := if l.occupied.contains px then l.status ||| 0x20 else l.status }

/-- The pixel loop of R902: `n` pixels from `dx` up, of the sprite at `x` with colour `colr`, its pattern row at `base`. -/
def Vdp.plotSprite (v : Vdp) (x : Int) (colr : Colour) (base : Nat) : Nat → Nat → SpriteLine → SpriteLine
  | 0, _, l => l
  | n + 1, dx, l =>
    let px := x + dx
    let p := dx >>> v.spriteMag
    let on := patternBit (v.at (base + if 8 ≤ p then 16 else 0)) (p % 8)
    v.plotSprite x colr base n (dx + 1) (if 0 ≤ px ∧ px ≤ 255 ∧ on = true then l.plot px.toNat colr else l)

/-- `renderSprite(i, dy, ...)` of R902. -/
def Vdp.renderSprite (v : Vdp) (i dy : Nat) (l : SpriteLine) : SpriteLine :=
  let e := v.spriteAttrTable + 4 * i
  let attr := v.at (e + 3)
  let x : Int := (v.at (e + 1)).toNat - (if attr.getLsbD 7 then 32 else 0)
  let name := if v.spriteSize = 16 then (v.at (e + 2)).toNat &&& 0xFC else (v.at (e + 2)).toNat
  v.plotSprite x (loNibble attr) (v.spritePatternTable + name * 8 + (dy >>> v.spriteMag)) v.spriteSpan 0 l

/-- `fifth(i, s)` of R905. -/
def fifthSprite (i : Nat) (s : Byte) : Byte :=
  if s.getLsbD 6 then s else (s &&& 0xE0) ||| 0x40 ||| BitVec.ofNat 8 i

/-- The true top row of a sprite whose vertical byte is `yb` (R900). -/
def spriteTop (yb : Byte) : Int := (if 0xD0 < yb.toNat then (yb.toNat : Int) - 256 else yb.toNat) + 1

/-- `dy` of R902: `r - top` within the sprite's span. A row outside it, where only SPRITE_DUP_RULE can put the sprite, has no
stated `dy`: a free value, the model's choice (log 11). -/
def Vdp.spriteRow (v : Vdp) (i r : Nat) (top : Int) : Nat :=
  if v.spanHolds r top then ((r : Int) - top).toNat else Config.spriteDupRow i r top v.vr

/-- The scan of R900: `n` entries from `i` up, `onLine` sprites rendered so far. -/
def Vdp.scanSprites (v : Vdp) (r : Nat) : Nat → Nat → Nat → SpriteLine → SpriteLine
  | 0, _, _, l => l
  | n + 1, i, onLine, l =>
    let yb := v.at (v.spriteAttrTable + 4 * i)
    if yb = 0xD0 then l
    else if v.isOnLine i r (spriteTop yb) then
      if onLine < 4 then
        v.scanSprites r n (i + 1) (onLine + 1) (v.renderSprite i (v.spriteRow i r (spriteTop yb)) l)
      else { l with status := fifthSprite i l.status }
    else v.scanSprites r n (i + 1) onLine l

/-- `spriteLine(r, s)` of R900, and the empty scratch in a mode without sprites (R880). -/
def Vdp.spriteLine (v : Vdp) (r : Nat) (s : Byte) : SpriteLine :=
  if v.mode.hasSprites then v.scanSprites r 32 0 0 ⟨[], [], s⟩ else ⟨[], [], s⟩

/-! ## One line (R880 to R885) -/

/-- `rgba(k)` (R884). -/
def Vdp.rgba (v : Vdp) (k : Colour) : Rgba :=
  let c := v.palette[k.toFin]
  ⟨c.r, c.g, c.b, 0xFF⟩

/-- The colour shown for colour index `k`: index 0 shows the backdrop (R883). -/
def Vdp.shown (v : Vdp) (k : Colour) : Colour := if k = 0 then v.backdrop else k

/-- The pixel of display row `r` at output column `x` (R880, R881, R906). -/
def Vdp.linePixel (v : Vdp) (r w : Nat) (cols : List (Nat × Colour)) (x : Nat) : Rgba :=
  match displayColumn x w with
  | none => v.rgba v.backdrop
  | some c => v.rgba (v.shown ((cols.lookup c).getD (v.modeColour r c)))

/-- R885: F is set by the call for the row after the active display. -/
def frameFlag (y h : Nat) (s : Byte) : Byte := if y = topBorder h + 192 then s ||| 0x80 else s

/-- R905: 5S is cleared at row 0 under FIFTH_SPRITE_RESET = per_frame (log 10). -/
def frameStart (y : Nat) (s : Byte) : Byte :=
  if y = 0 then
    match Config.fifthSpriteReset with
    | .perFrame => s &&& ~~~(0x40 : Byte)
    | .never => s
  else s

/-- `drawScanline(y, W, H, vr, VRAM, statusIn)` of R880: the pixels, one for every column, and `statusOut`. -/
def Vdp.drawLine (v : Vdp) (y w h : Nat) (statusIn : Byte) : List Rgba × Byte :=
  let s := frameFlag y h (frameStart y statusIn)
  match v.displayRow y h with
  | none => (List.replicate w (v.rgba v.backdrop), s)
  | some r =>
    let l := v.spriteLine r s
    ((List.range w).map (v.linePixel r w l.cols), l.status)

end Sys2Proof.Machine
end

