-- ==== Sys2Proof/Machine/HostInterface.lean ====
section
/-! DEFINITION. The host's operations (R1010): reset, the run call, the renderer call, the timer input, breakpoints, configuration,
inspection, snapshot and restore. Each is called between run calls; the region table needs no rebuilding (log 19). -/

namespace Sys2Proof.Machine

/-! ## Reset (R1000) -/

/-- Everything `reset()` sets before the two vector reads. -/
def State.resetDevices (s : State) : State :=
  { s with
    st := 0
    idle := false
    stopped := false
    xPending := none
    vdp := s.vdp.clear
    grom := .reset
    cart := s.cart.map Cartridge.reset
    cards := s.cards.map Card.reset }

/-- `reset()` (R1000): the devices, then WP from the word at 0 and PC from the word at 2 of the region table then in force. -/
def hostReset (s : State) : State :=
  let v := readVector s.resetDevices 0
  (v.2.2.setWp v.1).setPc v.2.1

/-! ## The run call (R400 to R405) -/

/-- How a run call ends. -/
inductive RunResult where
  /-- The call returned, with `consumed - budget` (R403). -/
  | returned (overshoot : Int) (s : State)
  /-- A step refused (R331): the run has no meaning from here on. -/
  | refused (r : Refusal) (s : State)
  /-- The passes allowed were used up before the call returned (log 30). -/
  | more (s : State)
deriving DecidableEq, Repr

/-- R400: PC is a breakpoint address. -/
def breakpointHit (s : State) : Bool := s.breakpoint == some s.pc || s.auxBreakpoint == some s.pc

/-- R400, R402: what a breakpoint hit changes. -/
def takeBreakpoint (s : State) : State :=
  { s with stopped := true, auxBreakpoint := if s.auxBreakpoint = some s.pc then none else s.auxBreakpoint }

/-- `consumed - budget` (R403). -/
def overshoot (budget : Int) (s : State) : Int := (s.consumed : Int) - budget

/-- The loop of R400: at most `fuel` passes; `checked` is false only for a first pass with `skip`. An X in progress goes on
before anything else is looked at (R405, R612). -/
def runLoop (budget : Int) : Nat → Bool → State → RunResult
  | 0, _, s => .more s
  | fuel + 1, checked, s =>
    if s.xPending.isNone && decide (budget ≤ s.consumed) then .returned (overshoot budget s) s
    else if s.xPending.isNone && !s.idle && checked && breakpointHit s then
      .returned (overshoot budget s) (takeBreakpoint s)
    else
      match step s with
      | .next t => runLoop budget fuel true t
      | .fault r => nomatch r
      | .refused r => .refused r s

/-- `run(cycleBudget, skipBreakpointOnce)` (R400), of at most `fuel` passes. -/
def run (fuel : Nat) (budget : Int) (skip : Bool) (s : State) : RunResult :=
  runLoop budget fuel (!skip) { s with consumed := 0, stopped := false }

/-! ## The renderer call (R880, R1010) -/

/-- `drawScanline(y, W, H)`: the pixels, `statusOut` stored in `vStatus`. `none` outside the geometry of R872. -/
def drawScanline (s : State) (y w h : Nat) : Option (List Rgba × State) :=
  if geometryOk y w h then
    let p := s.vdp.drawLine y w h s.vdp.vStatus
    some (p.1, { s with vdp := { s.vdp with vStatus := p.2 } })
  else none

/-! ## Inputs and breakpoints -/

/-- `setTimerInt(b)` (R957). -/
def setTimerInt (s : State) (b : Bool) : State := { s with timerInt := b }

/-- INT_CONTROLLER chosen by the platform (R957). -/
def setWiring (s : State) (w : IntWiring) : State := { s with wiring := w }

/-- `setBreakpoint` (R122). -/
def setBreakpoint (s : State) (a : Option Word) : State := { s with breakpoint := a }

/-- `setAuxBreakpoint` (R123). -/
def setAuxBreakpoint (s : State) (a : Option Word) : State := { s with auxBreakpoint := a }

/-- An input bit of an outside device driven from its outside: a shared bit takes the level, a separate one as its input. -/
def driveInput (bit : Nat) (v : Bool) : Config.OutsideDevice → Config.OutsideDevice
  | .bits l =>
    .bits (l.modify bit fun
      | .separate _ o => .separate v o
      | .shared _ => .shared v)
  | .platform model inputs writes => .platform model (inputs.set bit v) writes

/-- Input bit `bit` of the outside devices registered at `base` changes (R651, log 16). -/
def setCruInput (s : State) (base bit : Nat) (v : Bool) : State :=
  { s with
    cru := s.cru.map fun e =>
      match e.dev with
      | .outside d => if e.base = base then { e with dev := .outside (driveInput bit v d) } else e
      | _ => e }

/-! ## Bus configuration (R130, R226, R651, R767, R801) -/

/-- The overlay flags (R226). -/
def setOverlays (s : State) (o0 o1 o2 o3 : Bool) : State :=
  { s with overlay0 := o0, overlay1 := o1, overlay2 := o2, overlay3 := o3 }

/-- `expRamPresent` (R223). -/
def setExpRam (s : State) (b : Bool) : State := { s with expRamPresent := b }

/-- A device registered, last in order (R651). -/
def registerCru (s : State) (e : CruEntry) : State := { s with cru := s.cru ++ [e] }

/-- A device outside the block deregistered by its base address (R135, R651; two registered at one base: log 36). -/
def deregisterCru (s : State) (base : Nat) : State :=
  { s with
    cru := s.cru.filter fun e =>
      match e.dev with
      | .outside _ => e.base != base
      | _ => true }

/-- The entry of the cartridge, or of a card, deregistered at the base it was registered with (R767, R801). -/
def deregisterOwn (s : State) (d : CruDevice) : State := { s with cru := s.cru.filter fun e => e.dev != d }

/-- `removeCartridge` (R767). -/
def removeCartridge (s : State) : State := { deregisterOwn s .cartridge with cart := none }

/-- The size of the cartridge's CRU range (R766). -/
def Cartridge.cruSize (c : Cartridge) : Nat := 2 * c.bankCount + 1

/-- `insertCartridge` (R767): `base` is CART_CRU_BASE (R766). Insertion resets the latches of both GROM sets (R780), so their
addresses are equal from then on (R783). A cartridge that is still inserted is removed first, as by `removeCartridge`: the model's
choice (log 37). A cartridge with `bankCount` 0, which R140 does not have, is inserted too: DESIGN CHOICE, log 42, unsafe. -/
def insertCartridge (s : State) (c : Cartridge) (base : Nat) : State :=
  let t : State := { removeCartridge s with cart := some c.reset, grom := .reset }
  if c.cruBankSwitched then registerCru t ⟨.cartridge, base, c.cruSize⟩ else t

/-- `attachCard`: appended to the card list, its CRU range registered (R801). `none` for a card whose CRU bits R812 does not allow
(log 39). The card is attached in its reset state, disabled and with its Horizon paging state at 0: the model's choice (log 38). So is
a Horizon card with HORIZON_BANKS 0 (R810): DESIGN CHOICE, log 42, unsafe. -/
def attachCard (s : State) (c : Card) (base size : Nat) : Option State :=
  if c.bitsOk size then some (registerCru { s with cards := s.cards ++ [c.reset] } ⟨.card c.id, base, size⟩) else none

/-- `detachCard` (R801, R821). -/
def detachCard (s : State) (id : Nat) : State :=
  { deregisterOwn s (.card id) with cards := s.cards.filter fun c => c.id != id }

/-! ## The software descriptor (R1003) -/

/-- The software kinds (R1003); `other` is "memory-dump/etc.". -/
inductive SoftwareKind where
  | system | cart | invertedCart | other
deriving DecidableEq, Repr

/-- The software descriptor (R1003). `pagedWindow`, `ramBankSize`, `ramBankCount` and `cruBase` are the cartridge's OPEN
parameters (R763, R766, log 28). -/
structure Descriptor where
  kind : SoftwareKind
  rom : Option (List Byte)
  groms : List (List Byte)
  blocks : List (Word × List Byte)
  overlay0 : Bool
  overlay1 : Bool
  overlay2 : Bool
  overlay3 : Bool
  start : Option Word
  cruBankSwitched : Bool
  ramPaged : Bool
  pagedWindow : PagedWindow
  ramBankSize : Nat
  ramBankCount : Nat
  cruBase : Nat
deriving DecidableEq, Repr

/-- The console images of a `system` descriptor (R131, R1003). DESIGN CHOICE, log 41, unsafe: the bytes of the 8 KiB ROM beyond a
shorter image are not listed and so read 0. -/
def configureSystem (s : State) (d : Descriptor) : State :=
  { s with
    rom := match d.rom with | some bytes => Memory.empty.store 0 (bytes.take 0x2000) | none => s.rom
    gromMem := match d.groms with | bytes :: _ => Memory.empty.store 0 (bytes.take 0x10000) | [] => s.gromMem }

/-- The RAM of a descriptor's cartridge (R1003). -/
def Descriptor.cartRam (d : Descriptor) : Option Block :=
  if d.ramPaged then some (.ram (d.ramBankCount * d.ramBankSize))
  else if d.overlay2 || d.overlay3 then some (.ram 0x2000)
  else none

/-- `max(1, ceil(len / 0x2000))` (R1003). -/
def bankCountOf (len : Nat) : Nat := max 1 ((len + 0x1FFF) / 0x2000)

/-- The cartridge of a `cart` or `invertedCart` descriptor (R1003). -/
def Descriptor.cartridge (d : Descriptor) : Cartridge where
  rom := .ofBytes (d.rom.getD [])
  ram := d.cartRam
  bankCount := bankCountOf (d.rom.getD []).length
  romBank := 0
  ramBank := 0
  inverted := d.kind == .invertedCart
  cruBankSwitched := d.cruBankSwitched
  ramPaged := d.ramPaged
  groms := d.groms.map fun bytes => Memory.empty.store 0 (bytes.take 0xA000)
  cg := .reset
  pagedWindow := d.pagedWindow
  ramBankSize := d.ramBankSize

/-- One memory block: byte i at `(base + i) & 0xFFFF`, into RAM only (R1003). -/
def storeBlock (s : State) (a : Word) : List Byte → State
  | [] => s
  | b :: rest => storeBlock (storeByte s a b) (a + 1) rest

/-- `configure(descriptor)` (R1003), the start address apart. -/
def configure (s : State) (d : Descriptor) : State :=
  let t :=
    match d.kind with
    | .system => configureSystem s d
    | .cart | .invertedCart => insertCartridge s d.cartridge d.cruBase
    | .other => s
  d.blocks.foldl (fun u b => storeBlock u b.1 b.2) (setOverlays t d.overlay0 d.overlay1 d.overlay2 d.overlay3)

/-- Configuration, the reset that follows it, and the start address written to PC (R1003). -/
def boot (s : State) (d : Descriptor) : State :=
  let t := hostReset (configure s d)
  match d.start with
  | some a => t.setPc a
  | none => t

/-! ## Snapshots (R1020) -/

/-- `snapshot()`: everything but the event trace and `consumed` (R1020, log 29). -/
def snapshot (s : State) : State := { s with trace := [], consumed := 0 }

/-- `restore(x)` into the machine `s`: the trace already emitted stays the host's (R1020). -/
def restore (s x : State) : State := { x with trace := s.trace, consumed := 0 }

end Sys2Proof.Machine
end

