-- ==== Sys2Proof/Safety.lean ====
section
/-! DEFINITION. The terms claims are stated in: what a run never does, the invariants the spec states, and which parts of the
machine an operation leaves alone. -/

namespace Sys2Proof.Machine

/-! ## What no bus access touches -/

/-- The state with everything a bus access can change blanked out: cycles, the RAMs, the GROM latches and contents, cartridge,
cards, video chip, trace and draws. Two states with equal `offBus` agree on the rest: PC, WP, ST, the run-control state, the bus
configuration flags, the console ROM, the CRU list and the inputs. -/
def State.offBus (s : State) : State :=
  { s with
    consumed := 0, pad := .empty, exp := .empty, ovl0 := .empty, ovl1 := .empty, grom := .reset, gromMem := .empty
    cart := none, cards := [], vdp := .reset, trace := [], draws := 0 }

/-- The state with only the cycles and the bus-owned RAMs blanked out: two states with equal `offRam` agree on every device
too. -/
def State.offRam (s : State) : State :=
  { s with consumed := 0, pad := .empty, exp := .empty, ovl0 := .empty, ovl1 := .empty }

/-! ## Bytes of memory -/

/-- One byte cell: a store and an offset in it. -/
abbrev CellRef := Store × Nat

/-- The byte in a cell. -/
def cellAt (s : State) (c : CellRef) : Byte := readStore s c.2 c.1

/-- The RAM cells behind the word at address `a`: the only ones a word write there can store to (R201, R210, R256). -/
def storedCells (s : State) (a : Word) : List CellRef :=
  ((locate s (even a)).toList ++ (locate s (even a + 1)).toList).filter fun c => c.1.isRam

/-- The address lies in a port region, 0x8400..0x9FFF (R221). -/
def isPort (a : Word) : Bool := decide (0x8400 ≤ (even a).toNat) && decide ((even a).toNat < 0xA000)

/-- Every byte cell outside `stored` holds in `t` what it held in `s`; and every byte address that is no port, reaches the
same cell in both states and does not reach `stored`, reads the same. -/
def MemoryKept (s t : State) (stored : List CellRef) : Prop :=
  (∀ c : CellRef, c ∉ stored → cellAt t c = cellAt s c) ∧
  (∀ a : Word, isPort a = false → locate t a = locate s a → (∀ c, locate s a = some c → c ∉ stored) →
    fastReadByte t a = fastReadByte s a)

/-- Which byte cell every address reaches is the same in both states. -/
def SameMap (s t : State) : Prop := ∀ a : Word, regionOf t a = regionOf s a ∧ locate t a = locate s a

/-- The word at `a` is in bus-owned RAM: a read of it has no effect and a write stores, and does nothing else (R222 to R226). -/
def plainRam (s : State) (a : Word) : Bool :=
  match regionOf s (even a) with
  | .overlay0 | .overlay1 | .expansion | .scratchpad => true
  | _ => false

/-- The wait cycles that an access at `a` charges: R241's row for its address range, and R228's WAIT_UNMAPPED in the cartridge
window that no cartridge and no overriding card takes (log 20). -/
def waitAt (s : State) (a : Word) : Nat :=
  if a.toNat < 0x2000 then Config.waitRom
  else if a.toNat < 0x4000 ∨ 0xA000 ≤ a.toNat then (if s.expRamPresent then Config.waitRam else Config.waitUnmapped)
  else if a.toNat < 0x6000 then Config.waitDsr
  else if a.toNat < 0x8000 then
    (if s.cart.isSome || s.cards.any Card.servesCart then Config.waitCart else Config.waitUnmapped)
  else if a.toNat < 0x8400 then Config.waitPad
  else if a.toNat < 0x8800 then Config.waitSound
  else if a.toNat < 0x9000 then Config.waitVdp
  else if a.toNat < 0x9800 then Config.waitSpeech
  else Config.waitGrom

/-- A read of the word at `a` changes nothing but the cycles (R230). -/
def quietRead (s : State) (a : Word) : Bool :=
  match regionOf s (even a) with
  | .vdpRead | .gromRead | .speechRead => false
  | _ => true

/-- All sixteen workspace registers are in bus-owned RAM (R1005). -/
def PlainWorkspace (s : State) : Prop := ∀ r : RegNo, plainRam s (regAddr s r) = true

/-- The value of a workspace register, by the inspection path (R110, R216). -/
def regValue (s : State) (r : RegNo) : Word := fastRead s (regAddr s r)

/-- The cells an operand's auto-increment stores to: its register, in mode 3 (R421). -/
def incCells (o : Operand) (s : State) : List CellRef :=
  match o with
  | .inc r => storedCells s (regAddr s r)
  | _ => []

/-- The accesses of the operand's address evaluation have no effect but storing an auto-increment in plain RAM (R421). -/
def operandCalm (o : Operand) (s : State) : Bool :=
  match o with
  | .reg _ => true
  | .ind r => quietRead s (regAddr s r)
  | .sym => quietRead s s.pc
  | .idx r => quietRead s s.pc && quietRead s (regAddr s r)
  | .inc r => plainRam s (regAddr s r)

/-- The accesses of an operand's evaluation and the read of the operand at `a` have no other effect either. -/
def readCalm (o : Operand) (a : Word) (s : State) : Bool := operandCalm o s && quietRead s a

/-- `t` is `u` with some other ST and `k` cycles more: how most instructions end. -/
def endsAs (u : State) (k : Nat) (t : State) : Prop := t = (u.setSt t.st).charge k

/-- The frame of an instruction that fetches `words` extension words and stores to the cells `stored`: every other byte of
memory is kept; PC has passed the words; of what no bus access touches only PC and ST changed; and where its accesses are calm,
no device changed either. -/
def Framed (s t : State) (words : Nat) (stored : List CellRef) (calm : Bool) : Prop :=
  MemoryKept s t stored ∧
  t.offBus = { s.offBus with pc := s.pc + BitVec.ofNat 16 (2 * words), st := t.st } ∧
  (calm = true → t.offRam = { s.offRam with pc := t.pc, st := t.st })

/-! ## Status bits -/

/-- The bits of ST an instruction other than X writes (R105). -/
def stWritten : Instr → Word
  | .mov _ _ | .soc _ _ | .szc _ _ | .inv _ | .xor _ _ | .andi _ | .ori _ | .li _ | .c _ _ | .ci _ => 0xE000
  | .movb _ _ | .socb _ _ | .szcb _ _ | .cb _ _ => 0xE400
  | .ldcr _ n | .stcr _ n => if n ≤ 8 then 0xE400 else 0xE000
  | .sra _ _ | .srl _ _ | .src _ _ => 0xF000
  | .a _ _ | .s _ _ | .ai _ | .inc _ | .inct _ | .dec _ | .dect _ | .neg _ | .abs _ | .sla _ _ => 0xF800
  | .ab _ _ | .sb _ _ => 0xFC00
  | .coc _ _ | .czc _ _ | .tb _ => 0x2000
  | .div _ _ => 0x0800
  | .limi | .rset => 0x000F
  | .xop _ _ => 0x0200
  | .rtwp => 0xFFFF
  | .b _ | .bl _ | .blwp _ | .x _ | .clr _ | .seto _ | .swpb _ | .mpy _ _ | .sbo _ | .sbz _ | .stst _ | .stwp _ | .lwpi
  | .idle | .ckon | .ckof | .lrex | .jmp _ | .jlt _ | .jle _ | .jeq _ | .jhe _ | .jgt _ | .jne _ | .jnc _ | .joc _ | .jno _
  | .jl _ | .jh _ | .jop _ => 0x0000

/-- `new` agrees with `old` on the bits outside `mask`. -/
def agreeOff (mask old new : Word) : Prop := new &&& ~~~mask = old &&& ~~~mask

/-- L, A and EQ of `new` are as given (R103). -/
def laeAre (new : Word) (l a e : Prop) : Prop :=
  (stL new = true ↔ l) ∧ (stA new = true ↔ a) ∧ (stEQ new = true ↔ e)

/-- The flags that describe a 16-bit result against 0 (R440). -/
def laeOf16 (new : Word) (r : Word) : Prop := laeAre new (r ≠ 0) (0 < r.toInt) (r = 0)

/-- The flags that describe an 8-bit result against 0, odd parity included (R441, R444). -/
def laeOf8 (new : Word) (b : Byte) : Prop :=
  laeAre new (b ≠ 0) (0 < b.toInt) (b = 0) ∧ (stOP new = true ↔ popcount8 b % 2 = 1)

/-- C and OV of `new` are as given (R445). -/
def carryOverflow (new : Word) (c v : Prop) : Prop := (stC new = true ↔ c) ∧ (stOV new = true ↔ v)

/-- An integer outside the signed range of `n` bits. -/
def outOfRange (n : Nat) (x : Int) : Prop := x < -(2 ^ (n - 1)) ∨ (2 ^ (n - 1) : Int) ≤ x

/-- The instructions that write WP (R102). -/
def writesWp : Instr → Bool
  | .lwpi | .blwp _ | .xop _ _ | .rtwp => true
  | _ => false

/-- The instruction's word has the fixed bits `bits` under `mask`: its row of the opcode map (R320). -/
def rowBits (i : Instr) (bits mask : Word) : Prop := encodeWord i &&& mask = bits

/-- X is the one instruction whose effect is that of another word (R612). -/
def isX : Instr → Bool
  | .x _ => true
  | _ => false

/-! ## Invariants -/

/-- The canonical form of a cartridge's memories. -/
def Cartridge.memoriesOk (c : Cartridge) : Bool :=
  c.rom.wf && (match c.ram with | some m => m.wf | none => true) && c.groms.all (Memory.wf 0xA000)

/-- The canonical form of a Horizon card's memories. -/
def Horizon.memoriesOk (h : Horizon) : Bool := h.dsrRam.wf && h.paged.wf

/-- The canonical form of a card's memories. -/
def Card.memoriesOk (c : Card) : Bool :=
  (match c.dsr with | some d => d.image.wf | none => true) &&
    (match c.horizon with | some h => h.memoriesOk | none => true)

/-- Every memory of the machine is in canonical form, within its size (R131, R150, R780). -/
def State.memoriesOk (s : State) : Bool :=
  s.rom.wf 0x2000 && s.pad.wf 0x100 && s.exp.wf 0x8000 && s.ovl0.wf 0x2000 && s.ovl1.wf 0x2000 && s.gromMem.wf 0x10000 &&
    s.vdp.vram.wf 0x4000 && (match s.cart with | some c => c.memoriesOk | none => true) && s.cards.all Card.memoriesOk

/-- "bank index always `< bankCount`" (R140), of the ROM and the RAM bank (R763). -/
def Cartridge.banksOk (c : Cartridge) : Bool :=
  decide (c.romBank < c.bankCount) && decide (c.ramBank < c.ramBankCount)

/-- `page` is below HORIZON_BANKS (R810). -/
def Card.pageOk (c : Card) : Bool := match c.horizon with | some h => decide (h.page < h.banks) | none => true

/-- Every bank and page index is in range (R140, R810). -/
def State.banksOk (s : State) : Bool :=
  (match s.cart with | some c => c.banksOk | none => true) && s.cards.all Card.pageOk

/-- Every CRU range registered for a card holds the card's CRU bits (R812). -/
def State.cardBitsOk (s : State) : Bool :=
  s.cru.all fun e =>
    match e.dev with
    | .card id => s.cards.all fun c => c.id != id || c.bitsOk e.size
    | _ => true

/-- The GROM addresses and phases of the two sets are equal (R783). -/
def State.gromSetsAgree (s : State) : Bool :=
  match s.cart with
  | some c => !c.hasGrom || (s.grom.addr == c.cg.addr && s.grom.phase == c.cg.phase)
  | none => true

end Sys2Proof.Machine
end

