-- ==== Sys2Proof/Certificates/Slice0/Obligations.lean ====
section
/-! DEFINITION. The statements for the provers. `p`, `q` are the operands evaluated and read in the order of R422, by the functions
the meanings use; `Framed` is the frame of an instruction, `endsAs u k t` says that `t` is `u` with another ST and `k` more
cycles. -/

open Sys2Proof Sys2Proof.Machine

/-! ## Encoding -/

/-- Words written out from R342 and R320 decode to the instructions they stand for. -/
def Obligations.DecodeSamples : Prop :=
  decodeWord 0x0201 = .instr (.li 1) ∧ decodeWord 0xC081 = .instr (.mov (.reg 1) (.reg 2)) ∧
  decodeWord 0xD060 = .instr (.movb .sym (.reg 1)) ∧ decodeWord 0xA8B1 = .instr (.a (.inc 1) (.idx 2)) ∧
  decodeWord 0x10FF = .instr (.jmp 0xFF) ∧ decodeWord 0x0A41 = .instr (.sla (.imm 4) 1) ∧
  decodeWord 0x0420 = .instr (.blwp .sym) ∧ decodeWord 0x2C60 = .instr (.xop .sym 1) ∧
  decodeWord 0x3201 = .instr (.ldcr (.reg 1) 8) ∧ decodeWord 0x0380 = .instr .rtwp ∧
  decodeWord 0x0341 = .alternate .idle ∧ decodeWord 0x0C00 = .illegal

/-- Decoding the word of a well-formed instruction gives the instruction back, with every operand (R320). -/
def Obligations.DecodeEncode : Prop := ∀ i : Instr, i.wf = true → decodeWord (encodeWord i) = .instr i

/-- An instruction word is the encoding of what it decodes to: no two words stand for one instruction, and what a word decodes
to is well formed (R320, R333). -/
def Obligations.EncodeDecode : Prop :=
  ∀ (w : Word) (i : Instr), decodeWord w = .instr i → i.wf = true ∧ encodeWord i = w

/-- The illegal words are exactly the four ranges of R330. -/
def Obligations.IllegalWords : Prop :=
  ∀ w : Word, decodeWord w = .illegal ↔
    w.toNat ≤ 0x01FF ∨ (0x0320 ≤ w.toNat ∧ w.toNat ≤ 0x033F) ∨ (0x0780 ≤ w.toNat ∧ w.toNat ≤ 0x07FF) ∨
      (0x0C00 ≤ w.toNat ∧ w.toNat ≤ 0x0FFF)

/-- The alias words are the words of formats VII and VIII with an unused bit set, and clearing the unused bits gives the
instruction named (R331). -/
def Obligations.AliasWords : Prop :=
  ∀ (w : Word) (i : Instr), decodeWord w = .alternate i ↔
    (0x0200 ≤ w.toNat ∧ w.toNat < 0x02E0 ∧ w.getLsbD 4 = true ∧ decodeWord (w &&& 0xFFEF) = .instr i) ∨
    (0x02E0 ≤ w.toNat ∧ w.toNat < 0x0400 ∧ w &&& 0x001F ≠ 0 ∧ decodeWord (w &&& 0xFFE0) = .instr i)

/-! ## The step -/

/-- When the word at PC decodes to a well-formed instruction, the step fetches it, moves PC past it and runs `exec` of it, with
the interrupt check after it (R404, R958). -/
def Obligations.StepRunsInstruction : Prop :=
  ∀ (s : State) (i : Instr), s.xPending = none → s.idle = false → i.wf = true →
    decodeWord (fetchWord s).1 = .instr i →
    step s = completeStep (exec i (fetchWord s).2) ∧ (fetchWord s).1 = fastRead s s.pc ∧
      (fetchWord s).2 = (busRead s s.pc).2.setPc (s.pc + 2)

/-- An illegal word at PC: PC moves past it, it is counted, logged while fewer than 256 were counted, charged, and nothing else
changes but what its fetch does; the interrupt check follows (R412). -/
def Obligations.StepIllegalWord : Prop :=
  ∀ s : State, s.xPending = none → s.idle = false → decodeWord (fetchWord s).1 = .illegal →
    ∃ t, step s = .next (interruptCheck t) ∧
      t.pc = s.pc + 2 ∧ t.illegalCount = s.illegalCount + 1 ∧
      t.trace = (busRead s s.pc).2.trace ++
        (if s.illegalCount < 256 then [Event.log s.pc (fetchWord s).1] else []) ∧
      t.consumed = (busRead s s.pc).2.consumed + Config.illegalCycles ∧
      t = { (busRead s s.pc).2 with
            pc := t.pc, illegalCount := t.illegalCount, trace := t.trace, consumed := t.consumed }

/-- An alias word at PC is refused by name, while ALIAS_DECODE is not fixed (R331; log 5). -/
def Obligations.StepAliasRefused : Prop :=
  ∀ (s : State) (i : Instr), s.xPending = none → s.idle = false → decodeWord (fetchWord s).1 = .alternate i →
    step s = .refused (.aliasWord (fetchWord s).1)

/-- While `idle` is set a step executes nothing: it charges IDLE_CYCLES, at least 1, and makes the interrupt check, whether or not
that takes an interrupt; only an interrupt that is taken, or a reset, ends the idle state (R966). -/
def Obligations.StepIdle : Prop :=
  ∀ s : State, s.xPending = none → s.idle = true →
    let u := { s with consumed := s.consumed + Config.idleCycles }
    ∃ t, step s = .next t ∧ t = interruptCheck u ∧ 1 ≤ Config.idleCycles ∧
      ((∀ l, intReq s = some l → (stMask s.st).toNat < levelNumber l) → t = u) ∧
      (∀ l, intReq s = some l → levelNumber l ≤ (stMask s.st).toNat →
        t = acknowledge u l ∧ t.idle = false ∧ stMask t.st = BitVec.ofNat 4 l.val) ∧
      (hostReset s).idle = false

/-! ## Interrupts and context switches -/

/-- The video chip requests when F and IE are set. Under the spec's default INT_CONTROLLER a request is presented, at level 1,
exactly when the video chip requests or the timer input is set. The other controllers are the model's choice (log 15): a platform's
is an open function of the two sources and of the CRU devices outside the block; a masking one presents the lowest level of the
sources that are asserted and whose CRU output bit, if they have one, is true (R868, R957). -/
def Obligations.InterruptSource : Prop :=
  ∀ s : State,
    (s.vdp.interrupt = true ↔ s.vdp.vStatus &&& 0x80 ≠ 0 ∧ s.vdp.vr[1] &&& 0x20 ≠ 0) ∧
    (s.wiring = .default →
      (intReq s = some 0 ↔ s.vdp.interrupt = true ∨ s.timerInt = true) ∧ (∀ l, intReq s = some l → levelNumber l = 1)) ∧
    (∀ m, s.wiring = .platform m →
      intReq s = Config.intController m s.vdp.interrupt s.timerInt (outsideDevices s) ∧
      ∀ (b : Nat) (d : Config.OutsideDevice), (b, d) ∈ outsideDevices s ↔ ∃ n, ⟨.outside d, b, n⟩ ∈ s.cru) ∧
    (∀ v t, s.wiring = .masked v t →
      let shows := fun (l : IntLevel) (src : Option IntSource) =>
        ∃ x, src = some x ∧ x.level = l ∧ ∀ m, x.mask = some m → cruOutput s m = true
      let presents := fun l => (s.vdp.interrupt = true ∧ shows l v) ∨ (s.timerInt = true ∧ shows l t)
      ∀ l, intReq s = some l ↔ presents l ∧ ∀ k, presents k → l ≤ k)

/-- The interrupt check: nothing without a request at or below MASK; otherwise WP and PC come from the vector at four times the
level, both words read before the old WP, PC and ST are saved in R13, R14 and R15 of the new workspace in that order; MASK becomes
the level less 1 and no other bit of ST changes, `idle` is cleared, INT_CYCLES are charged; with the save slots in plain RAM the only
bytes stored to are theirs (R958, R960). -/
def Obligations.InterruptCheck : Prop :=
  ∀ s : State,
    ((∀ l, intReq s = some l → (stMask s.st).toNat < levelNumber l) → interruptCheck s = s) ∧
    (∀ l, intReq s = some l → levelNumber l ≤ (stMask s.st).toNat →
      let t := interruptCheck s
      let v := BitVec.ofNat 16 (4 * levelNumber l)
      let r1 := busRead s v
      let r2 := busRead r1.2 (v + 2)
      let u := (busWrite (busWrite (busWrite (r2.2.setWp r1.1) (r1.1 + 26) s.wp) (r1.1 + 28) s.pc) (r1.1 + 30) s.st).setPc r2.1
      t = { u with st := t.st, idle := false, consumed := u.consumed + Config.intCycles } ∧
      t.wp = fastRead s v ∧ t.pc = fastRead s (v + 2) ∧
      (stMask t.st).toNat = levelNumber l - 1 ∧ agreeOff 0x000F s.st t.st ∧
      (plainRam s (t.wp + 26) = true → plainRam s (t.wp + 28) = true → plainRam s (t.wp + 30) = true →
        fastRead t (t.wp + 26) = s.wp ∧ fastRead t (t.wp + 28) = s.pc ∧ fastRead t (t.wp + 30) = s.st ∧
        MemoryKept s t (storedCells s (t.wp + 26) ++ storedCells s (t.wp + 28) ++ storedCells s (t.wp + 30))))

/-- BLWP completes for every operand: WP and PC from the vector at the effective address, both read before any save; R13, R14 and
R15 of the new workspace take the old WP, the PC after the operand's words, and ST; ST is unchanged (R600, R604). -/
def Obligations.BlwpSwitches : Prop :=
  ∀ (o : Operand) (s : State),
    let e := ea o .word s
    let r1 := busRead e.2 e.1
    let r2 := busRead r1.2 (e.1 + 2)
    rowBits (.blwp o) 0x0400 0xFFC0 ∧
    ∃ t, exec (.blwp o) s = .next t ∧
      t = ((busWrite (busWrite (busWrite (r2.2.setWp r1.1) (r1.1 + 26) s.wp) (r1.1 + 28)
        (s.pc + BitVec.ofNat 16 (2 * o.extWords))) (r1.1 + 30) s.st).setPc r2.1).charge (26 + addrCycles o .word) ∧
      t.wp = r1.1 ∧ t.pc = r2.1 ∧ t.st = s.st ∧ t.idle = s.idle ∧
      (plainRam r2.2 (r1.1 + 26) = true → plainRam r2.2 (r1.1 + 28) = true → plainRam r2.2 (r1.1 + 30) = true →
        MemoryKept s t (incCells o s ++ (storedCells r2.2 (r1.1 + 26) ++ storedCells r2.2 (r1.1 + 28) ++
          storedCells r2.2 (r1.1 + 30))))

/-- XOP n completes for every operand: WP and PC from the words at 0x0040 + 4n and the next, the save of BLWP, then R11 of the new
workspace takes the effective address, then X is set and no other bit of ST changes (R600, R615). -/
def Obligations.XopSwitches : Prop :=
  ∀ (o : Operand) (n : BitVec 4) (s : State),
    let e := ea o .word s
    let d := (busRead e.2 e.1).2
    let r1 := busRead d (BitVec.ofNat 16 (0x0040 + 4 * n.toNat))
    let r2 := busRead r1.2 (BitVec.ofNat 16 (0x0042 + 4 * n.toNat))
    rowBits (.xop o n) 0x2C00 0xFC00 ∧
    ∃ t, exec (.xop o n) s = .next t ∧
      endsAs (busWrite ((busWrite (busWrite (busWrite (r2.2.setWp r1.1) (r1.1 + 26) s.wp) (r1.1 + 28)
        (s.pc + BitVec.ofNat 16 (2 * o.extWords))) (r1.1 + 30) s.st).setPc r2.1) (r1.1 + 22) e.1)
        (36 + addrCycles o .word) t ∧
      t.wp = r1.1 ∧ t.pc = r2.1 ∧ stX t.st = true ∧ agreeOff 0x0200 s.st t.st ∧ t.idle = s.idle

/-- RTWP completes: ST from R15 (bits 8:4 as ST_RESERVED says), PC from R14, WP from R13, read in that order, and no byte of memory
changes (R104, R605). -/
def Obligations.RtwpReloads : Prop :=
  ∀ s : State,
    let r15 := busRead s (s.wp + 30)
    let r14 := busRead r15.2 (s.wp + 28)
    let r13 := busRead r14.2 (s.wp + 26)
    rowBits .rtwp 0x0380 0xFFFF ∧
    ∃ t, exec .rtwp s = .next t ∧ t.pc = r14.1 ∧ t.wp = r13.1 ∧ agreeOff 0x01F0 r15.1 t.st ∧
      (Config.stReserved = .stored → t.st = r15.1) ∧ (Config.stReserved = .zero → t.st &&& 0x01F0 = 0) ∧
      t = { r13.2 with pc := t.pc, wp := t.wp, st := t.st, consumed := r13.2.consumed + 14 } ∧ MemoryKept s t []

/-- RTWP undoes BLWP: where the new workspace's save slots are in plain RAM, the two together restore WP, bring PC back to the
instruction after the BLWP, and restore every bit of ST that RTWP is sure to load (R604, R605). -/
def Obligations.BlwpThenRtwp : Prop :=
  ∀ (o : Operand) (s t : State), exec (.blwp o) s = .next t →
    plainRam t (t.wp + 26) = true → plainRam t (t.wp + 28) = true → plainRam t (t.wp + 30) = true →
    ∃ u, exec .rtwp t = .next u ∧ u.wp = s.wp ∧ u.pc = s.pc + BitVec.ofNat 16 (2 * o.extWords) ∧
      agreeOff 0x01F0 s.st u.st ∧ (s.st &&& 0x01F0 = 0 → u.st = s.st)

/-- RTWP returns from an interrupt: where the handler's save slots are in plain RAM, it restores WP, PC and ST as they were when the
interrupt was taken (R961, R962). -/
def Obligations.InterruptThenRtwp : Prop :=
  ∀ (s : State) (l : IntLevel), intReq s = some l → levelNumber l ≤ (stMask s.st).toNat →
    let t := interruptCheck s
    plainRam t (t.wp + 26) = true → plainRam t (t.wp + 28) = true → plainRam t (t.wp + 30) = true →
    ∃ u, exec .rtwp t = .next u ∧ u.wp = s.wp ∧ u.pc = s.pc ∧
      agreeOff 0x01F0 s.st u.st ∧ (s.st &&& 0x01F0 = 0 → u.st = s.st)

/-! ## Reset -/

/-- What `reset()` leaves: WP and PC are the words at 0 and 2 of console ROM or overlay RAM 0, ST is 0, the video registers and
latches, the GROM latches, the bank indices, the enable flags and the Horizon paging state are at their reset values, the two vector
reads are charged, and everything else is as it was: memory, VRAM, the bus configuration with the cartridge and its images and the
card list, breakpoints, the illegal count. The model's choices: the outside CRU devices stay, as R1000 has it though R170 calls them
unspecified (log 16); the trace (log 22), the bank offset of a DSR ROM (log 24), the palette (log 25) and the counter `draws` (log 8)
stay; an X still pending is dropped (log 18) (R170, R1000). -/
def Obligations.ResetValues : Prop :=
  ∀ s : State,
    hostReset s = { s with
      wp := fastRead s 0
      pc := fastRead s 2
      st := 0
      idle := false
      stopped := false
      xPending := none
      consumed := s.consumed + 2 * Config.waitRom
      vdp := { s.vdp with
        vr := Vector.replicate 8 0, vAddr := 0, vLatch := false, vLatchByte := 0, vBuffer := 0, vStatus := 0 }
      grom := ⟨0, 0, false⟩
      cart := s.cart.map fun c => { c with romBank := 0, ramBank := 0, cg := ⟨0, 0, false⟩ }
      cards := s.cards.map fun c => { c with
        enabled := false
        horizon := c.horizon.map fun h =>
          { h with page := 0, reg := h.pageBits.map fun _ => false, rambo := false, dsrPage := false } } } ∧
    MemoryKept s (hostReset s) []

/-! ## Memory -/

/-- A word read after a word write of the same word returns the written value, for every RAM-backed word; and an address of
0x8000..0x83FF reaches the scratchpad byte of its low eight bits, so a word written is read at every mirror (R224, R256). -/
def Obligations.ReadAfterWrite : Prop :=
  (∀ (s : State) (a v : Word) (c d : CellRef), isPort a = false → locate s (even a) = some c →
    locate s (even a + 1) = some d → c.1.isRam = true → d.1.isRam = true → c ≠ d →
    fastRead (busWrite s a v) a = v ∧ (busRead (busWrite s a v) a).1 = v) ∧
  (∀ (s : State) (a b v : Word), 0x8000 ≤ a.toNat → a.toNat < 0x8400 → 0x8000 ≤ b.toNat → b.toNat < 0x8400 →
    a.toNat % 256 = b.toNat % 256 →
    locate s a = some (.scratchpad, a.toNat % 256) ∧ fastRead (busWrite s a v) b = v)

/-- The frame of a bus write: bytes outside the word stored to keep their values, PC, WP, ST and the configuration stay, the wait
cycles of the address are charged, the memory map stays unless the write selects a cartridge bank, and in plain RAM no device changes
(R217, R222 to R228, R240, R241). That the cartridge window with no cartridge charges WAIT_UNMAPPED, against the row of R241's
table, is the model's choice (log 20). -/
def Obligations.BusWriteFrame : Prop :=
  ∀ (s : State) (a v : Word),
    MemoryKept s (busWrite s a v) (storedCells s a) ∧ (busWrite s a v).offBus = s.offBus ∧
    (busWrite s a v).consumed = s.consumed + waitAt s a ∧
    ((∀ o, locate s (even a) ≠ some (.cartRom, o)) → SameMap s (busWrite s a v)) ∧
    (plainRam s a = true → (busWrite s a v).offRam = s.offRam)

/-- The frame of a bus read: no byte of memory and no map entry changes, and outside the video, GROM and speech read ports nothing
but the cycles does, which grow by the wait cycles of the address; a port's are more than WAIT_RAM; the word, or the byte, read is the
one the inspection path shows (R216, R230, R240, R241). The model's choices: the empty cartridge window charges WAIT_UNMAPPED
(log 20), and at the speech read port the inspection path shows the byte the next read would deliver (log 35). -/
def Obligations.BusReadFrame : Prop :=
  ∀ (s : State) (a : Word),
    MemoryKept s (busRead s a).2 [] ∧ (busRead s a).2.offBus = s.offBus ∧ SameMap s (busRead s a).2 ∧
    (busRead s a).1 = fastRead s a ∧ (busReadByte s a).1 = fastReadByte s a ∧
    (busRead s a).2.consumed = s.consumed + waitAt s a ∧ (isPort a = true → Config.waitRam < waitAt s a) ∧
    (quietRead s a = true → (busRead s a).2 = { s with consumed := s.consumed + waitAt s a })

/-- Writes to console ROM and to unmapped addresses are discarded, and unmapped addresses read 0: the expansion range with no
expansion RAM, the DSR window with no overlay RAM and no serving card, the cartridge window with no cartridge and no overriding card.
Only the wait cycles are charged (R222, R223, R225, R227, R228, R241). The model's choices: the cartridge window with no cartridge
charges WAIT_UNMAPPED, against the row of R241's table (log 20), and a Horizon card overrides that window exactly while `rambo` is set
(HORIZON_CART_CONDITION, log 12). -/
def Obligations.DiscardedWrites : Prop :=
  ∀ (s : State) (a v : Word),
    let only := fun n => { s with consumed := s.consumed + n }
    let unmapped := fun n => busRead s a = (0, only n) ∧ fastRead s a = 0 ∧ busWrite s a v = only n
    (a.toNat < 0x2000 → s.overlay0 = false → busWrite s a v = only Config.waitRom) ∧
    ((0x2000 ≤ a.toNat ∧ a.toNat < 0x4000) ∨ 0xA000 ≤ a.toNat → s.expRamPresent = false → unmapped Config.waitUnmapped) ∧
    (0x4000 ≤ a.toNat → a.toNat < 0x6000 → s.overlay1 = false →
      (∀ c ∈ s.cards, c.enabled = false ∨ (c.dsr = none ∧ c.horizon = none)) → unmapped Config.waitDsr) ∧
    (0x6000 ≤ a.toNat → a.toNat < 0x8000 → s.cart = none →
      (∀ c ∈ s.cards, c.enabled = false ∨ ∀ h, c.horizon = some h → h.rambo = false) → unmapped Config.waitUnmapped)

/-- Registers and operands. Register r is the word at WP + 2r modulo 65536, and in a workspace in plain RAM writing one changes it
alone. The five operand forms: the register's own address; the register's word; the extension word; the extension word plus the
register's word; the register's old word, the register then written with it plus 1 for a byte and plus 2 for a word. The word read
there is the operand; a byte operand is its high half at an even address and its low half at an odd one, and a byte write replaces
that half of the word read (R110, R113, R201, R210, R212, R213, R310, R420, R421, R423, R426). -/
def Obligations.RegistersAndOperands : Prop :=
  (∀ (s : State) (d : RegNo) (v : Word), PlainWorkspace s →
    regValue (writeReg s d v) d = v ∧ (writeReg s d v).wp = s.wp ∧
    ∀ r : RegNo, r ≠ d → regValue (writeReg s d v) r = regValue s r) ∧
  (∀ (s : State) (r : RegNo) (n : Width),
    let w : Word := BitVec.ofNat 16 ((s.wp.toNat + 2 * r.toNat) % 65536)
    let x := busRead s s.pc
    let u := { x.2 with pc := s.pc + 2 }
    let p := busRead s w
    let by1or2 : Word := match n with | .byte => 1 | .word => 2
    regAddr s r = w ∧ readReg s r = p ∧ (∀ v, writeReg s r v = busWrite s w v) ∧
    ea (.reg r) n s = (w, s) ∧ ea (.ind r) n s = p ∧ ea .sym n s = (x.1, u) ∧
    ea (.idx r) n s = (x.1 + (busRead u w).1, (busRead u w).2) ∧
    ea (.inc r) n s = (p.1, busWrite p.2 w (p.1 + by1or2))) ∧
  (∀ (s : State) (o : Operand),
    let e := ea o .word s
    let b := ea o .byte s
    let p := readWordOp o s
    let q := readByteOp o s
    p.addr = e.1 ∧ (p.val, p.after) = busRead e.2 e.1 ∧ q.addr = b.1 ∧ (q.old, q.after) = busRead b.2 b.1 ∧
    q.val.toNat = (if b.1.toNat % 2 = 0 then q.old.toNat / 256 else q.old.toNat % 256)) ∧
  (∀ (s : State) (a w : Word) (b : Byte),
    (mergeByte a b w).toNat =
      (if a.toNat % 2 = 0 then b.toNat * 256 + w.toNat % 256 else w.toNat / 256 * 256 + b.toNat) ∧
    busRead s a = busRead s (BitVec.ofNat 16 (a.toNat / 2 * 2)) ∧
    busWrite s a w = busWrite s (BitVec.ofNat 16 (a.toNat / 2 * 2)) w ∧
    (busReadByte s a).1.toNat =
      (if a.toNat % 2 = 0 then (busRead s a).1.toNat / 256 else (busRead s a).1.toNat % 256) ∧
    (busReadByte s a).2 = (busRead s a).2 ∧
    busWriteByte s a b = busWrite (busRead s a).2 a (mergeByte a b (busRead s a).1))

/-! ## Ports and devices -/

/-- The video ports on the bus, at every mirror. In 0x8800..0x8BFF a read delivers the read-ahead byte or the status with R861's or
R862's effect, and a write is discarded. In 0x8C00..0x8FFF a write takes the high byte: data, stored to VRAM; address, the first byte
kept with the low half of the address loaded, the second one a register write or a set-up, with a prefetch for reading; palette and
indirect-register, which change no state; and a read gives 0. Nothing else changes but the wait cycles (R231, R232, R861 to R866). -/
def Obligations.VdpPorts : Prop :=
  ∀ (s : State) (a v : Word),
    let d := s.vdp
    let b := hiByte v
    let next := fun (x : Vdp) => { s with vdp := x, consumed := s.consumed + Config.waitVdp }
    let setup := BitVec.ofNat 14 (b.toNat % 64 * 256 + d.vLatchByte.toNat)
    (0x8800 ≤ a.toNat → a.toNat < 0x8C00 →
      (a.toNat / 2 % 2 = 0 → busRead s a = (wordOf d.vBuffer 0,
        next { d with vBuffer := d.vram.read d.vAddr.toNat, vAddr := d.vAddr + 1, vLatch := false })) ∧
      (a.toNat / 2 % 2 = 1 → busRead s a = (wordOf d.vStatus 0,
        next { d with vStatus := d.vStatus &&& 0x1F, vLatch := false })) ∧
      busWrite s a v = next d) ∧
    (0x8C00 ≤ a.toNat → a.toNat < 0x9000 →
      (a.toNat / 2 % 4 = 0 → busWrite s a v = next { d with
        vram := d.vram.write d.vAddr.toNat b, vBuffer := b, vAddr := d.vAddr + 1, vLatch := false }) ∧
      (a.toNat / 2 % 4 = 1 → d.vLatch = false → busWrite s a v = next { d with
        vLatchByte := b, vLatch := true, vAddr := BitVec.ofNat 14 (d.vAddr.toNat / 256 * 256 + b.toNat) }) ∧
      (a.toNat / 2 % 4 = 1 → d.vLatch = true → 128 ≤ b.toNat → busWrite s a v = next { d with
        vLatch := false, vr := d.vr.set (b.toNat % 8) d.vLatchByte (Nat.mod_lt _ (by decide)) }) ∧
      (a.toNat / 2 % 4 = 1 → d.vLatch = true → 64 ≤ b.toNat → b.toNat < 128 → busWrite s a v = next { d with
        vLatch := false, vAddr := setup }) ∧
      (a.toNat / 2 % 4 = 1 → d.vLatch = true → b.toNat < 64 → busWrite s a v = next { d with
        vLatch := false, vBuffer := d.vram.read setup.toNat, vAddr := setup + 1 }) ∧
      (2 ≤ a.toNat / 2 % 4 → busWrite s a v = next d) ∧
      busRead s a = (0, next d))

/-- The video chip's address port. An address set up for writing, a byte written, the address set up for reading: the byte is read
back, and no other VRAM byte and no register has changed. A second byte with bit 7 set writes the first byte to the register its
low three bits name, bit 6 ignored, and changes no other register and no VRAM byte (R861, R863, R864, R865). -/
def Obligations.VdpAddressPort : Prop :=
  (∀ (v : Vdp) (a : VramAddr) (b : Byte), v.vLatch = false →
    let lo : Byte := a.extractLsb' 0 8
    let hi : Byte := (a.extractLsb' 8 6).setWidth 8
    let w := ((v.addressWrite lo).addressWrite (hi ||| 0x40)).dataWrite b
    let r := (w.addressWrite lo).addressWrite hi
    r.dataRead.1 = b ∧ r.vAddr = a + 1 ∧ r.vLatch = false ∧ r.vr = v.vr ∧
    ∀ c : VramAddr, c ≠ a → r.vramAt c = v.vramAt c) ∧
  (∀ (v : Vdp) (x : Byte) (n : Fin 8) (b : Byte), v.vLatch = false → b.getLsbD 7 = true → b.toNat % 8 = n.val →
    let t := (v.addressWrite x).addressWrite b
    t.vr[n] = x ∧ (∀ m : Fin 8, m ≠ n → t.vr[m] = v.vr[m]) ∧ t.vram = v.vram ∧ t.vLatch = false ∧
    t.vStatus = v.vStatus ∧ t.vAddr = ((v.vAddr.extractLsb' 8 6 : BitVec 6) ++ x))

/-- The GROM ports, at every mirror, on the console set and on the cartridge set, whose chip address bits 2 to 5 select when it has
more than one. A data read delivers the OR of the two buffers, prefetches, steps each address within its 8 KiB chip and clears the
phase; an address read delivers the half of the console's address that the phase names, and an address write loads that half, a second
one prefetching; a data write is a data access that delivers nothing, after storing one below the address where GROM_WRITABLE is
true. A read of a write port gives 0 and a write to a read port is discarded. Nothing else changes but the wait cycles (R233 to R235,
R781 to R785; a store beyond an image is the model's choice, log 14). -/
def Obligations.GromPorts : Prop :=
  ∀ (s : State) (a v : Word),
    let b := hiByte v
    let sel := a.toNat / 4 % 16
    let chip := fun (c : Cartridge) => if c.groms.length = 1 then 0 else sel
    let console := fun (g : Word) => s.gromMem.read g.toNat
    let cmem := fun (c : Cartridge) (g : Word) =>
      if g.toNat < 0x6000 then 0 else ((c.groms[chip c]?).map fun m => m.read (g.toNat - 0x6000)).getD 0
    let inc := fun (g : Word) => BitVec.ofNat 16 (g.toNat / 0x2000 * 0x2000 + (g.toNat + 1) % 0x2000)
    let data := fun (l : GromLatch) (mem : Word → Byte) => (⟨inc l.addr, mem l.addr, false⟩ : GromLatch)
    let addressed := fun (l : GromLatch) (mem : Word → Byte) =>
      let full := wordOf (hiByte l.addr) b
      if l.phase then (⟨inc full, mem full, false⟩ : GromLatch) else ⟨wordOf b (loByte l.addr), l.buf, true⟩
    let both := fun (u : State) (f : GromLatch → (Word → Byte) → GromLatch) (m : Word → Byte)
        (cm : Cartridge → Word → Byte) => { u with
      grom := f u.grom m
      cart := u.cart.map fun c => if c.groms = [] then c else { c with cg := f c.cg (cm c) }
      consumed := u.consumed + Config.waitGrom }
    let only := { s with consumed := s.consumed + Config.waitGrom }
    let stored := { s with
      gromMem := s.gromMem.write (s.grom.addr - 1).toNat b
      cart := s.cart.map fun c =>
        let g := (c.cg.addr - 1).toNat
        if c.groms = [] ∨ g < 0x6000 then c else { c with groms := c.groms.modify (chip c) fun m => m.write (g - 0x6000) b } }
    (0x9800 ≤ a.toNat → a.toNat < 0x9C00 →
      (a.toNat / 2 % 2 = 0 →
        (∀ c, s.cart = some c → c.groms ≠ [] → (busRead s a).1 = wordOf (s.grom.buf ||| c.cg.buf) 0) ∧
        ((∀ c, s.cart = some c → c.groms = []) → (busRead s a).1 = wordOf s.grom.buf 0) ∧
        (busRead s a).2 = both s data console cmem) ∧
      (a.toNat / 2 % 2 = 1 →
        busRead s a = (wordOf (if s.grom.phase then loByte s.grom.addr else hiByte s.grom.addr) 0,
          both s (fun l _ => { l with phase := !l.phase }) console cmem)) ∧
      busWrite s a v = only) ∧
    (0x9C00 ≤ a.toNat → a.toNat < 0xA000 →
      (a.toNat / 2 % 2 = 0 → s.gromWritable = false → busWrite s a v = both s data console cmem) ∧
      (a.toNat / 2 % 2 = 0 → s.gromWritable = true →
        busWrite s a v = both stored data (fun g => stored.gromMem.read g.toNat) cmem) ∧
      (a.toNat / 2 % 2 = 1 → busWrite s a v = both s addressed console cmem) ∧
      busRead s a = (0, only))

/-- The sound and speech ports, at every mirror: a write to the sound port or to the speech write port emits the high byte, a read of
either gives 0; a read of the speech read port gives the next free byte over 0x00, drawn by the model's own counter `draws`, and a
write to it is discarded. Nothing else changes but the cycles (R236, R237, R241). The model's choices: the counter (log 8), and that
the two accesses that behave as unmapped charge WAIT_SPEECH (log 20). -/
def Obligations.SoundSpeechPorts : Prop :=
  ∀ (s : State) (a v : Word),
    let only := fun n => { s with consumed := s.consumed + n }
    (0x8400 ≤ a.toNat → a.toNat < 0x8800 →
      busWrite s a v = { only Config.waitSound with trace := s.trace ++ [.sound (hiByte v)] } ∧
      busRead s a = (0, only Config.waitSound)) ∧
    (0x9000 ≤ a.toNat → a.toNat < 0x9400 →
      busRead s a = (wordOf (Config.speechRead s.draws) 0, { only Config.waitSpeech with draws := s.draws + 1 }) ∧
      busWrite s a v = only Config.waitSpeech) ∧
    (0x9400 ≤ a.toNat → a.toNat < 0x9800 →
      busWrite s a v = { only Config.waitSpeech with trace := s.trace ++ [.speech (hiByte v)] } ∧
      busRead s a = (0, only Config.waitSpeech))

/-- Cartridge banks, for every bank count. A write routed to cartridge ROM stores nothing and, but for the cycles, changes one bank
index at most: with CRU switching none; with paged RAM, inside PAGED_RAM_WINDOW, the RAM bank, by the word index in the window masked
with the RAM's bank count less one, inverted or not; else the ROM bank, by the word index in 0x6000..0x7FFF masked with the bank count
less one, counted from the top when inverted. The ROM bank stays below the count. A nonzero CRU bit written with true selects the ROM
bank (bit - 1)/2 masked so, inverted or not; bit 0 and writes of false change nothing. For a count that is a power of two the mask is
the remainder (R750, R753, R760, R763, R766). The model's choices: paged RAM that is absent, or has
RAM_BANK_SIZE 0, has one bank (log 13), and a bank count of 0, which R140 does not have, masks with 0 (log 42). -/
def Obligations.CartBanks : Prop :=
  (∀ (s : State) (c : Cartridge) (a v : Word), s.cart = some c → regionOf s (even a) = .cartridge →
    cartRoutesRam s c (even a) = false →
    let t := busWrite s a v
    let e := (even a).toNat
    let i := (e - 0x6000) / 2 &&& (c.bankCount - 1)
    let first := c.pagedWindow.first.toNat
    let paged := c.ramPaged = true ∧ first ≤ e ∧ e ≤ c.pagedWindow.last.toNat
    let ramLen := match c.ram with | some m => m.len | none => 0
    let holds := fun d => t = { s with consumed := s.consumed + Config.waitCart, cart := some d }
    MemoryKept s t [] ∧
    (c.cruBankSwitched = true → holds c) ∧
    (c.cruBankSwitched = false → paged →
      holds { c with ramBank := (e - first) / 2 &&& (max 1 (ramLen / c.ramBankSize) - 1) }) ∧
    (c.cruBankSwitched = false → ¬ paged → holds { c with romBank := if c.inverted then c.bankCount - 1 - i else i }) ∧
    (c.romBank < c.bankCount → ∃ d, t.cart = some d ∧ d.romBank < d.bankCount) ∧
    (∀ k, c.bankCount = 2 ^ k → i = (e - 0x6000) / 2 % c.bankCount)) ∧
  (∀ (c : Cartridge) (bit : Nat),
    let j := (bit - 1) / 2 &&& (c.bankCount - 1)
    c.writeBit bit false = c ∧ c.writeBit 0 true = c ∧ (bit ≠ 0 → c.writeBit bit true = { c with romBank := j }) ∧
    (0 < c.bankCount → j < c.bankCount) ∧ (∀ k, c.bankCount = 2 ^ k → j = (bit - 1) / 2 % c.bankCount))

/-- Bit 0 of a card's CRU range is its enable flag, and the DSR window goes to the first card that is enabled with a DSR or a
mapped capability, at once (R225, R229, R802). That the write reaches every card of the identifier, should two share one, is the
model's choice (log 31). -/
def Obligations.CardEnable : Prop :=
  ∀ (s : State) (e : CruEntry) (id : Nat) (a : CruAddr) (v : Bool), s.cru.filter (fun x => x.covers a) = [e] →
    e.dev = .card id → e.base = a.toNat →
    let t := cruWrite s a v
    t.cards = s.cards.map (fun c => if c.id = id then { c with enabled := v } else c) ∧
    (∀ (b : Word) (i : Nat), 0x4000 ≤ b.toNat → b.toNat < 0x6000 → t.overlay1 = false →
      (t.cards.findIdx? (fun c => c.enabled && (c.dsr.isSome || c.horizon.isSome)) = some i →
        regionOf t b = .dsrCard i) ∧
      (t.cards.findIdx? (fun c => c.enabled && (c.dsr.isSome || c.horizon.isSome)) = none → regionOf t b = .dsrNone))

/-! ## Arithmetic -/

/-- A, S and AI complete: the destination, or AI's register, takes the sum or the difference modulo 2^16; L, A, EQ describe it; C is
the carry, or no borrow; OV is signed overflow (R440, R445, R450, R452, R462). -/
def Obligations.AddSubWords : Prop :=
  (∀ (src dst : Operand) (s : State),
    let p := readWordOp src s
    let q := readWordOp dst p.after
    let ends := fun (t : State) (r : Word) (c v : Prop) =>
      endsAs (busWrite q.after q.addr r) (14 + addrCycles src .word + addrCycles dst .word) t ∧ laeOf16 t.st r ∧
      carryOverflow t.st c v ∧ agreeOff 0xF800 s.st t.st ∧
      Framed s t (src.extWords + dst.extWords) (incCells src s ++ incCells dst p.after ++ storedCells q.after q.addr)
        (readCalm src p.addr s && readCalm dst q.addr p.after && plainRam q.after q.addr)
    rowBits (.a src dst) 0xA000 0xF000 ∧ rowBits (.s src dst) 0x6000 0xF000 ∧
    (∃ t, exec (.a src dst) s = .next t ∧
      ends t (q.val + p.val) (65536 ≤ q.val.toNat + p.val.toNat) (outOfRange 16 (q.val.toInt + p.val.toInt))) ∧
    (∃ t, exec (.s src dst) s = .next t ∧
      ends t (q.val - p.val) (p.val.toNat ≤ q.val.toNat) (outOfRange 16 (q.val.toInt - p.val.toInt)))) ∧
  (∀ (w : RegNo) (s : State),
    let i := fetchWord s
    let x := readReg i.2 w
    rowBits (.ai w) 0x0220 0xFFF0 ∧
    ∃ t, exec (.ai w) s = .next t ∧ endsAs (writeReg x.2 w (x.1 + i.1)) 14 t ∧ laeOf16 t.st (x.1 + i.1) ∧
      carryOverflow t.st (65536 ≤ x.1.toNat + i.1.toNat) (outOfRange 16 (x.1.toInt + i.1.toInt)) ∧
      agreeOff 0xF800 s.st t.st ∧
      Framed s t 1 (storedCells s (regAddr s w)) (quietRead s s.pc && plainRam s (regAddr s w)))

/-- AB and SB complete for every pair of operands: the addressed byte of the destination word takes the sum or difference modulo
2^8 and the other byte is the one read; flags as for words, with OP the parity of the result (R441, R445, R451, R453). -/
def Obligations.AddSubBytes : Prop :=
  ∀ (src dst : Operand) (s : State),
    let p := readByteOp src s
    let q := readByteOp dst p.after
    let ends := fun (t : State) (r : Byte) (c v : Prop) =>
      endsAs (busWrite q.after q.addr (mergeByte q.addr r q.old)) (14 + addrCycles src .byte + addrCycles dst .byte) t ∧
      laeOf8 t.st r ∧ carryOverflow t.st c v ∧ agreeOff 0xFC00 s.st t.st ∧
      Framed s t (src.extWords + dst.extWords) (incCells src s ++ incCells dst p.after ++ storedCells q.after q.addr)
        (readCalm src p.addr s && readCalm dst q.addr p.after && plainRam q.after q.addr)
    rowBits (.ab src dst) 0xB000 0xF000 ∧ rowBits (.sb src dst) 0x7000 0xF000 ∧
    (∃ t, exec (.ab src dst) s = .next t ∧
      ends t (q.val + p.val) (256 ≤ q.val.toNat + p.val.toNat) (outOfRange 8 (q.val.toInt + p.val.toInt))) ∧
    (∃ t, exec (.sb src dst) s = .next t ∧
      ends t (q.val - p.val) (p.val.toNat ≤ q.val.toNat) (outOfRange 8 (q.val.toInt - p.val.toInt)))

/-- INC, INCT, DEC, DECT and NEG complete for every operand, with their results and flags (R463 to R467). -/
def Obligations.IncDecNeg : Prop :=
  ∀ (o : Operand) (s : State),
    let p := readWordOp o s
    let framed := fun t => Framed s t o.extWords (incCells o s ++ storedCells p.after p.addr)
      (readCalm o p.addr s && plainRam p.after p.addr)
    let ends := fun (t : State) (r : Word) (n : Nat) (c v : Prop) =>
      endsAs (busWrite p.after p.addr r) (n + addrCycles o .word) t ∧ laeOf16 t.st r ∧ carryOverflow t.st c v ∧
        agreeOff 0xF800 s.st t.st ∧ framed t
    rowBits (.inc o) 0x0580 0xFFC0 ∧ rowBits (.inct o) 0x05C0 0xFFC0 ∧ rowBits (.dec o) 0x0600 0xFFC0 ∧
    rowBits (.dect o) 0x0640 0xFFC0 ∧ rowBits (.neg o) 0x0500 0xFFC0 ∧
    (∃ t, exec (.inc o) s = .next t ∧ ends t (p.val + 1) 10 (p.val.toNat = 0xFFFF) (p.val.toInt = 32767)) ∧
    (∃ t, exec (.inct o) s = .next t ∧ ends t (p.val + 2) 10 (0xFFFE ≤ p.val.toNat) (32766 ≤ p.val.toInt)) ∧
    (∃ t, exec (.dec o) s = .next t ∧ ends t (p.val - 1) 10 (p.val.toNat ≠ 0) (p.val.toInt = -32768)) ∧
    (∃ t, exec (.dect o) s = .next t ∧ ends t (p.val - 2) 10 (2 ≤ p.val.toNat) (p.val.toInt ≤ -32767)) ∧
    (∃ t, exec (.neg o) s = .next t ∧ ends t (-p.val) 12 (p.val.toNat = 0) (p.val.toInt = -32768))

/-- ABS completes for every operand: L, A, EQ from the value before, C cleared, OV exactly for 0x8000; a negative operand is
replaced by its magnitude, any other is not written (R468). -/
def Obligations.AbsValue : Prop :=
  ∀ (o : Operand) (s : State),
    let p := readWordOp o s
    rowBits (.abs o) 0x0740 0xFFC0 ∧
    ∃ t, exec (.abs o) s = .next t ∧ laeOf16 t.st p.val ∧ carryOverflow t.st False (p.val = 0x8000) ∧
      agreeOff 0xF800 s.st t.st ∧
      (0 ≤ p.val.toInt → endsAs p.after (12 + addrCycles o .word) t ∧
        Framed s t o.extWords (incCells o s) (readCalm o p.addr s)) ∧
      (p.val.toInt < 0 → endsAs (busWrite p.after p.addr (BitVec.ofNat 16 p.val.toInt.natAbs)) (14 + addrCycles o .word) t ∧
        Framed s t o.extWords (incCells o s ++ storedCells p.after p.addr) (readCalm o p.addr s && plainRam p.after p.addr))

/-- MPY completes: the high and the low word of the unsigned product go to W[D] and to the word after it, in that order; ST is
unchanged; D = 15 uses WP + 32 (R112, R472). -/
def Obligations.Multiply : Prop :=
  ∀ (src : Operand) (d : RegNo) (s : State),
    let p := readWordOp src s
    let x := readReg p.after d
    rowBits (.mpy src d) 0x3800 0xFC00 ∧
    ∃ (t : State) (hi lo : Word), exec (.mpy src d) s = .next t ∧
      hi.toNat * 65536 + lo.toNat = x.1.toNat * p.val.toNat ∧
      t = (busWrite (busWrite x.2 (regAddr s d) hi) (regAddr s d + 2) lo).charge (52 + addrCycles src .word) ∧
      Framed s t src.extWords
        (incCells src s ++ (storedCells x.2 (regAddr s d) ++
          storedCells (busWrite x.2 (regAddr s d) hi) (regAddr s d + 2)))
        (readCalm src p.addr s && (plainRam x.2 (regAddr s d) &&
          plainRam (busWrite x.2 (regAddr s d) hi) (regAddr s d + 2)))

/-- DIV completes: when the divisor is not above the high word, OV is set and nothing is written; otherwise W[D] takes the quotient
and the word after it the remainder, OV is cleared, and the base cycles lie between 92 and 124 (R473, R474). -/
def Obligations.Divide : Prop :=
  ∀ (src : Operand) (d : RegNo) (s : State),
    let p := readWordOp src s
    let x := readReg p.after d
    let y := busRead x.2 (regAddr s d + 2)
    rowBits (.div src d) 0x3C00 0xFC00 ∧
    ∃ t, exec (.div src d) s = .next t ∧ agreeOff 0x0800 s.st t.st ∧ (stOV t.st = true ↔ p.val.toNat ≤ x.1.toNat) ∧
      (p.val.toNat ≤ x.1.toNat → endsAs x.2 (16 + addrCycles src .word) t ∧
        Framed s t src.extWords (incCells src s) (readCalm src p.addr s && quietRead p.after (regAddr s d))) ∧
      (x.1.toNat < p.val.toNat → ∃ (quot rem : Word) (n : Nat),
        quot.toNat * p.val.toNat + rem.toNat = x.1.toNat * 65536 + y.1.toNat ∧ rem.toNat < p.val.toNat ∧
        92 ≤ n ∧ n ≤ 124 ∧
        endsAs { busWrite (busWrite y.2 (regAddr s d) quot) (regAddr s d + 2) rem with draws := t.draws }
          (n + addrCycles src .word) t ∧
        MemoryKept s t (incCells src s ++ storedCells y.2 (regAddr s d) ++
          storedCells (busWrite y.2 (regAddr s d) quot) (regAddr s d + 2)))

/-! ## Compares and logic -/

/-- C, CB and CI complete and write no operand: L, A, EQ compare source with destination, or register with immediate; CB's OP is the
parity of the source byte (R500 to R502). -/
def Obligations.Compares : Prop :=
  (∀ (src dst : Operand) (s : State),
    let p := readWordOp src s
    let q := readWordOp dst p.after
    rowBits (.c src dst) 0x8000 0xF000 ∧
    ∃ t, exec (.c src dst) s = .next t ∧ endsAs q.after (14 + addrCycles src .word + addrCycles dst .word) t ∧
      laeAre t.st (q.val.toNat < p.val.toNat) (q.val.toInt < p.val.toInt) (p.val = q.val) ∧ agreeOff 0xE000 s.st t.st ∧
      Framed s t (src.extWords + dst.extWords) (incCells src s ++ incCells dst p.after)
        (readCalm src p.addr s && readCalm dst q.addr p.after)) ∧
  (∀ (src dst : Operand) (s : State),
    let p := readByteOp src s
    let q := readByteOp dst p.after
    rowBits (.cb src dst) 0x9000 0xF000 ∧
    ∃ t, exec (.cb src dst) s = .next t ∧ endsAs q.after (14 + addrCycles src .byte + addrCycles dst .byte) t ∧
      laeAre t.st (q.val.toNat < p.val.toNat) (q.val.toInt < p.val.toInt) (p.val = q.val) ∧
      (stOP t.st = true ↔ popcount8 p.val % 2 = 1) ∧ agreeOff 0xE400 s.st t.st ∧
      Framed s t (src.extWords + dst.extWords) (incCells src s ++ incCells dst p.after)
        (readCalm src p.addr s && readCalm dst q.addr p.after)) ∧
  (∀ (w : RegNo) (s : State),
    let i := fetchWord s
    let x := readReg i.2 w
    rowBits (.ci w) 0x0280 0xFFF0 ∧
    ∃ t, exec (.ci w) s = .next t ∧ endsAs x.2 14 t ∧
      laeAre t.st (i.1.toNat < x.1.toNat) (i.1.toInt < x.1.toInt) (x.1 = i.1) ∧ agreeOff 0xE000 s.st t.st ∧
      Framed s t 1 [] (quietRead s s.pc && quietRead s (regAddr s w)))

/-- COC and CZC complete and write EQ only: whether every one bit of the source is one, or is zero, in the register (R503, R504). -/
def Obligations.BitCompares : Prop :=
  ∀ (src : Operand) (d : RegNo) (s : State),
    let p := readWordOp src s
    let x := readReg p.after d
    let framed := fun t => Framed s t src.extWords (incCells src s)
      (readCalm src p.addr s && quietRead p.after (regAddr s d))
    rowBits (.coc src d) 0x2000 0xFC00 ∧ rowBits (.czc src d) 0x2400 0xFC00 ∧
    (∃ t, exec (.coc src d) s = .next t ∧ endsAs x.2 (14 + addrCycles src .word) t ∧ agreeOff 0x2000 s.st t.st ∧ framed t ∧
      (stEQ t.st = true ↔ ∀ i, i < 16 → p.val.getLsbD i = true → x.1.getLsbD i = true)) ∧
    (∃ t, exec (.czc src d) s = .next t ∧ endsAs x.2 (14 + addrCycles src .word) t ∧ agreeOff 0x2000 s.st t.st ∧ framed t ∧
      (stEQ t.st = true ↔ ∀ i, i < 16 → p.val.getLsbD i = true → x.1.getLsbD i = false))

/-- SOC, SZC and XOR complete: the destination takes OR, AND NOT, or exclusive OR with the source; L, A, EQ describe it
(R510, R512, R516). -/
def Obligations.LogicWords : Prop :=
  (∀ (src dst : Operand) (s : State),
    let p := readWordOp src s
    let q := readWordOp dst p.after
    let ends := fun (t : State) (r : Word) =>
      endsAs (busWrite q.after q.addr r) (14 + addrCycles src .word + addrCycles dst .word) t ∧ laeOf16 t.st r ∧
      agreeOff 0xE000 s.st t.st ∧
      Framed s t (src.extWords + dst.extWords) (incCells src s ++ incCells dst p.after ++ storedCells q.after q.addr)
        (readCalm src p.addr s && readCalm dst q.addr p.after && plainRam q.after q.addr)
    rowBits (.soc src dst) 0xE000 0xF000 ∧ rowBits (.szc src dst) 0x4000 0xF000 ∧
    (∃ t, exec (.soc src dst) s = .next t ∧ ends t (q.val ||| p.val)) ∧
    (∃ t, exec (.szc src dst) s = .next t ∧ ends t (q.val &&& ~~~p.val))) ∧
  (∀ (src : Operand) (d : RegNo) (s : State),
    let p := readWordOp src s
    let x := readReg p.after d
    rowBits (.xor src d) 0x2800 0xFC00 ∧
    ∃ t, exec (.xor src d) s = .next t ∧
      endsAs (busWrite x.2 (regAddr s d) (x.1 ^^^ p.val)) (14 + addrCycles src .word) t ∧ laeOf16 t.st (x.1 ^^^ p.val) ∧
      agreeOff 0xE000 s.st t.st ∧
      Framed s t src.extWords (incCells src s ++ storedCells x.2 (regAddr s d))
        (readCalm src p.addr s && plainRam x.2 (regAddr s d)))

/-- SOCB and SZCB complete: the addressed byte takes OR, or AND NOT, with the source byte, the other byte is kept; L, A, EQ and OP
describe the result (R511, R513). -/
def Obligations.LogicBytes : Prop :=
  ∀ (src dst : Operand) (s : State),
    let p := readByteOp src s
    let q := readByteOp dst p.after
    let ends := fun (t : State) (r : Byte) =>
      endsAs (busWrite q.after q.addr (mergeByte q.addr r q.old)) (14 + addrCycles src .byte + addrCycles dst .byte) t ∧
      laeOf8 t.st r ∧ agreeOff 0xE400 s.st t.st ∧
      Framed s t (src.extWords + dst.extWords) (incCells src s ++ incCells dst p.after ++ storedCells q.after q.addr)
        (readCalm src p.addr s && readCalm dst q.addr p.after && plainRam q.after q.addr)
    rowBits (.socb src dst) 0xF000 0xF000 ∧ rowBits (.szcb src dst) 0x5000 0xF000 ∧
    (∃ t, exec (.socb src dst) s = .next t ∧ ends t (q.val ||| p.val)) ∧
    (∃ t, exec (.szcb src dst) s = .next t ∧ ends t (q.val &&& ~~~p.val))

/-- ANDI, ORI and LI complete: the register takes AND, OR, or the immediate itself; L, A, EQ describe it (R514, R515, R556). -/
def Obligations.LogicImmediate : Prop :=
  ∀ (w : RegNo) (s : State),
    let i := fetchWord s
    let x := readReg i.2 w
    let framed := fun t => Framed s t 1 (storedCells s (regAddr s w)) (quietRead s s.pc && plainRam s (regAddr s w))
    rowBits (.andi w) 0x0240 0xFFF0 ∧ rowBits (.ori w) 0x0260 0xFFF0 ∧ rowBits (.li w) 0x0200 0xFFF0 ∧
    (∃ t, exec (.andi w) s = .next t ∧ endsAs (writeReg x.2 w (x.1 &&& i.1)) 14 t ∧ laeOf16 t.st (x.1 &&& i.1) ∧
      agreeOff 0xE000 s.st t.st ∧ framed t) ∧
    (∃ t, exec (.ori w) s = .next t ∧ endsAs (writeReg x.2 w (x.1 ||| i.1)) 14 t ∧ laeOf16 t.st (x.1 ||| i.1) ∧
      agreeOff 0xE000 s.st t.st ∧ framed t) ∧
    (∃ t, exec (.li w) s = .next t ∧ endsAs (writeReg i.2 w i.1) 12 t ∧ laeOf16 t.st i.1 ∧
      agreeOff 0xE000 s.st t.st ∧ framed t)

/-- INV, SWPB, CLR and SETO complete: the operand takes its complement with L, A, EQ; its bytes swapped, 0x0000 or 0xFFFF with ST
unchanged, the last two after a read whose value is not used (R517, R518, R519, R554). -/
def Obligations.SingleOperand : Prop :=
  ∀ (o : Operand) (s : State),
    let p := readWordOp o s
    let framed := fun t => Framed s t o.extWords (incCells o s ++ storedCells p.after p.addr)
      (readCalm o p.addr s && plainRam p.after p.addr)
    let n := 10 + addrCycles o .word
    rowBits (.inv o) 0x0540 0xFFC0 ∧ rowBits (.swpb o) 0x06C0 0xFFC0 ∧ rowBits (.clr o) 0x04C0 0xFFC0 ∧
    rowBits (.seto o) 0x0700 0xFFC0 ∧
    (∃ t, exec (.inv o) s = .next t ∧ endsAs (busWrite p.after p.addr (~~~p.val)) n t ∧ laeOf16 t.st (~~~p.val) ∧
      agreeOff 0xE000 s.st t.st ∧ framed t) ∧
    (∃ t, exec (.swpb o) s = .next t ∧ endsAs (busWrite p.after p.addr (p.val.rotateLeft 8)) n t ∧ t.st = s.st ∧ framed t) ∧
    (∃ t, exec (.clr o) s = .next t ∧ endsAs (busWrite p.after p.addr 0x0000) n t ∧ t.st = s.st ∧ framed t) ∧
    (∃ t, exec (.seto o) s = .next t ∧ endsAs (busWrite p.after p.addr 0xFFFF) n t ∧ t.st = s.st ∧ framed t)

/-! ## Moves and loads -/

/-- MOV and MOVB complete: the destination takes the source word, after a read of it whose value is not used; or the addressed byte
of the destination word takes the source byte and the other byte is the one read. L, A, EQ, and OP for a byte, describe it
(R213, R425, R550, R551). -/
def Obligations.Moves : Prop :=
  (∀ (src dst : Operand) (s : State),
    let p := readWordOp src s
    let q := readWordOp dst p.after
    rowBits (.mov src dst) 0xC000 0xF000 ∧
    ∃ t, exec (.mov src dst) s = .next t ∧
      endsAs (busWrite q.after q.addr p.val) (14 + addrCycles src .word + addrCycles dst .word) t ∧ laeOf16 t.st p.val ∧
      agreeOff 0xE000 s.st t.st ∧
      Framed s t (src.extWords + dst.extWords) (incCells src s ++ incCells dst p.after ++ storedCells q.after q.addr)
        (readCalm src p.addr s && readCalm dst q.addr p.after && plainRam q.after q.addr)) ∧
  (∀ (src dst : Operand) (s : State),
    let p := readByteOp src s
    let q := readByteOp dst p.after
    rowBits (.movb src dst) 0xD000 0xF000 ∧
    ∃ t, exec (.movb src dst) s = .next t ∧
      endsAs (busWrite q.after q.addr (mergeByte q.addr p.val q.old)) (14 + addrCycles src .byte + addrCycles dst .byte) t ∧
      laeOf8 t.st p.val ∧ agreeOff 0xE400 s.st t.st ∧
      Framed s t (src.extWords + dst.extWords) (incCells src s ++ incCells dst p.after ++ storedCells q.after q.addr)
        (readCalm src p.addr s && readCalm dst q.addr p.after && plainRam q.after q.addr))

/-- LIMI, LWPI, STST and STWP complete: MASK from the low four bits of the immediate; WP the immediate; the register takes ST, or
WP (R555, R557, R558, R559). -/
def Obligations.LoadStoreStatus : Prop :=
  ∀ s : State,
    rowBits .limi 0x0300 0xFFFF ∧ rowBits .lwpi 0x02E0 0xFFFF ∧
    (∀ w, rowBits (.stst w) 0x02C0 0xFFF0 ∧ rowBits (.stwp w) 0x02A0 0xFFF0) ∧
    (∃ t, exec .limi s = .next t ∧ endsAs (fetchWord s).2 16 t ∧ (stMask t.st).toNat = (fetchWord s).1.toNat % 16 ∧
      agreeOff 0x000F s.st t.st ∧ Framed s t 1 [] (quietRead s s.pc)) ∧
    (∃ t, exec .lwpi s = .next t ∧ t.wp = (fetchWord s).1 ∧
      t = { (fetchWord s).2 with wp := t.wp, consumed := (fetchWord s).2.consumed + 10 } ∧ MemoryKept s t []) ∧
    (∀ w : RegNo, ∃ t, exec (.stst w) s = .next t ∧ t = (writeReg s w s.st).charge 8 ∧
      Framed s t 0 (storedCells s (regAddr s w)) (plainRam s (regAddr s w))) ∧
    (∀ w : RegNo, ∃ t, exec (.stwp w) s = .next t ∧ t = (writeReg s w s.wp).charge 8 ∧
      Framed s t 0 (storedCells s (regAddr s w)) (plainRam s (regAddr s w)))

/-! ## Shifts -/

/-- The count n of a shift is its count field, or for 0 the low four bits of R0, 0 standing for 16. The right shifts SRA, SRL and SRC
complete for every well-formed count field: the register takes the arithmetic shift, the logical shift or the rotation by n, C is
the last bit shifted out, L, A, EQ describe the result (R580, R581, R582, R584). -/
def Obligations.ShiftsRight : Prop :=
  ∀ (c : ShiftCount) (w : RegNo) (s : State), c.wf = true →
    let n := (shiftAmount c s).1
    let x := readReg (shiftAmount c s).2 w
    let ends := fun (t : State) (r : Word) =>
      endsAs (writeReg x.2 w r) ((match c with | .imm _ => 12 | .fromR0 => 20) + 2 * n) t ∧ laeOf16 t.st r ∧
      (stC t.st = true ↔ x.1.getLsbD (n - 1) = true) ∧ agreeOff 0xF000 s.st t.st ∧
      MemoryKept s t (storedCells s (regAddr s w)) ∧ t.offBus = { s.offBus with st := t.st }
    (∀ k, c = .imm k → shiftAmount c s = (k.toNat, s)) ∧
    (c = .fromR0 → let r0 := readReg s 0
      shiftAmount c s = (if r0.1.toNat % 16 = 0 then 16 else r0.1.toNat % 16, r0.2)) ∧
    1 ≤ n ∧ n ≤ 16 ∧ rowBits (.sra c w) 0x0800 0xFF00 ∧ rowBits (.srl c w) 0x0900 0xFF00 ∧ rowBits (.src c w) 0x0B00 0xFF00 ∧
    (∃ t, exec (.sra c w) s = .next t ∧ ends t (x.1.sshiftRight n)) ∧
    (∃ t, exec (.srl c w) s = .next t ∧ ends t (x.1 >>> n)) ∧
    (∃ t, exec (.src c w) s = .next t ∧ ends t (x.1.rotateRight n))

/-- SLA completes for every well-formed count n: the register takes the left shift by n, C is the last bit shifted out, OV is set
exactly when the value times 2^n leaves the signed range (the sign changed at some step), L, A, EQ describe the result
(R580, R583). -/
def Obligations.ShiftLeft : Prop :=
  ∀ (c : ShiftCount) (w : RegNo) (s : State), c.wf = true →
    let n := (shiftAmount c s).1
    let x := readReg (shiftAmount c s).2 w
    rowBits (.sla c w) 0x0A00 0xFF00 ∧
    ∃ t, exec (.sla c w) s = .next t ∧
      endsAs (writeReg x.2 w (x.1 <<< n)) ((match c with | .imm _ => 12 | .fromR0 => 20) + 2 * n) t ∧
      laeOf16 t.st (x.1 <<< n) ∧
      carryOverflow t.st (x.1.getLsbD (16 - n) = true) (outOfRange 16 (x.1.toInt * 2 ^ n)) ∧ agreeOff 0xF800 s.st t.st ∧
      MemoryKept s t (storedCells s (regAddr s w)) ∧ t.offBus = { s.offBus with st := t.st }

/-! ## Control transfer -/

/-- B and BL complete for every operand: PC becomes the effective address, after a read there whose value is not used; BL first
writes R11 with the PC after its own words; ST is unchanged (R601, R602). -/
def Obligations.BranchLink : Prop :=
  ∀ (o : Operand) (s : State),
    let p := readWordOp o s
    rowBits (.b o) 0x0440 0xFFC0 ∧ rowBits (.bl o) 0x0680 0xFFC0 ∧
    (∃ t, exec (.b o) s = .next t ∧ t = (p.after.setPc p.addr).charge (8 + addrCycles o .word) ∧
      t.pc = p.addr ∧ t.st = s.st ∧ t.wp = s.wp ∧ MemoryKept s t (incCells o s)) ∧
    (∃ t, exec (.bl o) s = .next t ∧
      t = ((busWrite p.after (regAddr s 11) (s.pc + BitVec.ofNat 16 (2 * o.extWords))).setPc p.addr).charge
        (12 + addrCycles o .word) ∧
      t.pc = p.addr ∧ t.st = s.st ∧ t.wp = s.wp ∧
      MemoryKept s t (incCells o s ++ storedCells p.after (regAddr s 11)))

/-- The thirteen jumps complete: PC moves by twice the signed displacement exactly when the flags meet the condition, 10 cycles are
charged if it does and 8 if not, and nothing else changes (R620, R630 to R642). -/
def Obligations.Jumps : Prop :=
  ∀ (d : Byte) (s : State),
    let l := stL s.st = true
    let a := stA s.st = true
    let e := stEQ s.st = true
    let jumps := fun (i : Instr) (bits : Word) (cond : Prop) =>
      rowBits i bits 0xFF00 ∧
      (cond → exec i s = .next { s with
        pc := BitVec.ofInt 16 (s.pc.toNat + 2 * d.toInt), consumed := s.consumed + 10 }) ∧
      (¬ cond → exec i s = .next { s with consumed := s.consumed + 8 })
    jumps (.jmp d) 0x1000 True ∧ jumps (.jlt d) 0x1100 (¬ a ∧ ¬ e) ∧ jumps (.jle d) 0x1200 (¬ l ∨ e) ∧ jumps (.jeq d) 0x1300 e ∧
    jumps (.jhe d) 0x1400 (l ∨ e) ∧ jumps (.jgt d) 0x1500 a ∧ jumps (.jne d) 0x1600 (¬ e) ∧
    jumps (.jnc d) 0x1700 (¬ stC s.st = true) ∧ jumps (.joc d) 0x1800 (stC s.st = true) ∧
    jumps (.jno d) 0x1900 (¬ stOV s.st = true) ∧ jumps (.jl d) 0x1A00 (¬ l ∧ ¬ e) ∧ jumps (.jh d) 0x1B00 (l ∧ ¬ e) ∧
    jumps (.jop d) 0x1C00 (stOP s.st = true)

/-- X runs the word at its effective address as an instruction: any other instruction takes its full effect in the same step, an
illegal word takes the illegal-opcode path; for every word that is no alias word a next state results. That a second X is left in
`xPending` for the next step, which runs it with no fetch before it, is the model's choice (log 18): R612 counts it as the same step
(R412, R612). -/
def Obligations.ExecuteX : Prop :=
  ∀ (o : Operand) (s : State),
    let p := readWordOp o s
    let u := p.after.charge (4 + addrCycles o .word)
    rowBits (.x o) 0x0480 0xFFC0 ∧
    (∀ i, decodeWord p.val = .instr i → isX i = false → exec (.x o) s = exec i u ∧ ∃ t, exec (.x o) s = .next t) ∧
    (∀ o', decodeWord p.val = .instr (.x o') →
      ∃ t, exec (.x o) s = .next t ∧ t = { u with xPending := some p.val } ∧
        step t = completeStep (exec (.x o') { u with xPending := none })) ∧
    (decodeWord p.val = .illegal → exec (.x o) s = .next (illegalOpcode u p.val))

/-- IDLE, RSET, CKON, CKOF and LREX complete: each emits its event; IDLE sets `idle`, RSET clears MASK, and nothing else changes but
the 12 cycles. That the CRU devices outside the block stay at RSET, where R702 lets them act on the event, is the model's choice
(log 16) (R700 to R705). -/
def Obligations.ExternalControl : Prop :=
  ∀ s : State,
    let done := fun (op : ExternalOp) => { s with trace := s.trace ++ [.external op], consumed := s.consumed + 12 }
    rowBits .idle 0x0340 0xFFFF ∧ rowBits .rset 0x0360 0xFFFF ∧ rowBits .ckon 0x03A0 0xFFFF ∧ rowBits .ckof 0x03C0 0xFFFF ∧
    rowBits .lrex 0x03E0 0xFFFF ∧
    exec .idle s = .next { done .idle with idle := true } ∧ exec .ckon s = .next (done .ckon) ∧
    exec .ckof s = .next (done .ckof) ∧ exec .lrex s = .next (done .lrex) ∧
    ∃ t, exec .rset s = .next t ∧ t = { done .rset with st := t.st } ∧ stMask t.st = 0 ∧ agreeOff 0x000F s.st t.st

/-! ## CRU -/

/-- SBO, SBZ and TB complete: with a the bit address (R12 div 2 plus the displacement) modulo 4096, SBO and SBZ write true and
false there, TB copies the bit read there to EQ. The CRU bus: a read is true exactly when some device outside the block whose range
contains the bit reads true there (the cartridge and the cards read false); a write goes to every device whose range contains the
bit, in registration order, and changes nothing else. A device that holds bits keeps a separate output bit, or reads back what was
written where it shares them: these two, and the platform's own device, are the model's choice (log 16), and so it is that a write
through a card's range reaches every card of its identifier (log 31) (R650 to R653, R660 to R662). -/
def Obligations.SingleBitCru : Prop :=
  (∀ (d : Byte) (s : State),
    let r := readReg s 12
    let a : CruAddr := BitVec.ofInt 12 (r.1.toNat / 2 + d.toInt)
    rowBits (.sbo d) 0x1D00 0xFF00 ∧ rowBits (.sbz d) 0x1E00 0xFF00 ∧ rowBits (.tb d) 0x1F00 0xFF00 ∧
    (∀ v : Bool, exec (if v then .sbo d else .sbz d) s = .next ((cruWrite r.2 a v).charge 12) ∧
      MemoryKept s ((cruWrite r.2 a v).charge 12) [] ∧
      (cruWrite r.2 a v).pc = s.pc ∧ (cruWrite r.2 a v).wp = s.wp ∧ (cruWrite r.2 a v).st = s.st) ∧
    ∃ t, exec (.tb d) s = .next t ∧ endsAs r.2 12 t ∧ (stEQ t.st = true ↔ cruRead r.2 a = true) ∧
      agreeOff 0x2000 s.st t.st ∧ MemoryKept s t []) ∧
  (∀ (s : State) (a : CruAddr) (v : Bool),
    let within := fun (e : CruEntry) => e.base ≤ a.toNat ∧ a.toNat < e.base + e.size
    let hits := fun (d : CruDevice) => s.cru.filter fun e => decide (e.dev = d) && decide (e.base ≤ a.toNat) &&
      decide (a.toNat < e.base + e.size)
    (cruRead s a = true ↔ ∃ e ∈ s.cru, within e ∧ ∃ d, e.dev = .outside d ∧ outsideRead d (a.toNat - e.base) = true) ∧
    ((∀ e ∈ s.cru, ¬ within e) → cruRead s a = false ∧ cruWrite s a v = s) ∧
    cruWrite s a v = { s with
      cart := s.cart.map fun c => (hits .cartridge).foldl (fun k e => k.writeBit (a.toNat - e.base) v) c
      cards := s.cards.map fun c => (hits (.card c.id)).foldl (fun k e => k.writeBit (a.toNat - e.base) v) c
      cru := s.cru.map fun e =>
        match e.dev with
        | .outside d =>
          if e.base ≤ a.toNat ∧ a.toNat < e.base + e.size then
            { e with dev := .outside (outsideWrite (a.toNat - e.base) v d) }
          else e
        | _ => e }) ∧
  (∀ (l : List Config.CruBit) (n k : Nat) (i o v b : Bool),
    let t := outsideWrite n v (.bits l)
    (l[n]? = some (.separate i o) → outsideRead (.bits l) n = i ∧ outsideRead t n = i ∧ outsideOutput t n = v) ∧
    (l[n]? = some (.shared b) → outsideRead (.bits l) n = b ∧ outsideRead t n = v ∧ outsideOutput t n = v) ∧
    (l[n]? = none → outsideRead (.bits l) n = false ∧ t = .bits l) ∧
    (k ≠ n → outsideRead t k = outsideRead (.bits l) k ∧ outsideOutput t k = outsideOutput (.bits l) k))

/-- LDCR completes for every well-formed count c: c bits of the source, least significant first, are written to consecutive CRU
addresses from R12 div 2; the flags describe the whole source value, a byte for c <= 8 (R314, R653, R663). -/
def Obligations.LdcrSends : Prop :=
  ∀ (o : Operand) (c : Nat) (s : State), cruCountWf c = true → rowBits (.ldcr o c) 0x3000 0xFC00 ∧
    (c ≤ 8 →
      let p := readByteOp o s
      let r := readReg p.after 12
      ∃ t, exec (.ldcr o c) s = .next t ∧
        endsAs ((List.range c).foldl
          (fun u i => cruWrite u (BitVec.ofNat 12 (r.1.toNat / 2 + i)) (p.val.getLsbD i)) r.2)
          (20 + 2 * c + addrCycles o .byte) t ∧
        laeOf8 t.st p.val ∧ agreeOff 0xE400 s.st t.st ∧ t.wp = s.wp ∧ MemoryKept s t (incCells o s)) ∧
    (8 < c →
      let p := readWordOp o s
      let r := readReg p.after 12
      ∃ t, exec (.ldcr o c) s = .next t ∧
        endsAs ((List.range c).foldl
          (fun u i => cruWrite u (BitVec.ofNat 12 (r.1.toNat / 2 + i)) (p.val.getLsbD i)) r.2)
          (20 + 2 * c + addrCycles o .word) t ∧
        laeOf16 t.st p.val ∧ agreeOff 0xE000 s.st t.st ∧ t.wp = s.wp ∧ MemoryKept s t (incCells o s))

/-- STCR completes for every well-formed count c: bit i of the value stored is the CRU bit at R12 div 2 plus i for i < c and 0 above;
a byte is merged into its word for c <= 8, a word is stored otherwise; the flags describe the value (R314, R653, R664). -/
def Obligations.StcrCollects : Prop :=
  ∀ (o : Operand) (c : Nat) (s : State), cruCountWf c = true → rowBits (.stcr o c) 0x3400 0xFC00 ∧
    (c ≤ 8 →
      let e := ea o .byte s
      let r := readReg e.2 12
      let m := busRead r.2 e.1
      ∃ (t : State) (v : Byte), exec (.stcr o c) s = .next t ∧
        (∀ i, i < 8 → v.getLsbD i = (decide (i < c) && cruRead r.2 (BitVec.ofNat 12 (r.1.toNat / 2 + i)))) ∧
        endsAs (busWrite m.2 e.1 (mergeByte e.1 v m.1)) ((if c = 8 then 44 else 42) + addrCycles o .byte) t ∧
        laeOf8 t.st v ∧ agreeOff 0xE400 s.st t.st ∧
        Framed s t o.extWords (incCells o s ++ storedCells m.2 e.1)
          (operandCalm o s && (quietRead e.2 (regAddr s 12) && plainRam m.2 e.1))) ∧
    (8 < c →
      let p := readWordOp o s
      let r := readReg p.after 12
      ∃ (t : State) (v : Word), exec (.stcr o c) s = .next t ∧
        (∀ i, i < 16 → v.getLsbD i = (decide (i < c) && cruRead r.2 (BitVec.ofNat 12 (r.1.toNat / 2 + i)))) ∧
        endsAs (busWrite r.2 p.addr v) ((if c = 16 then 60 else 58) + addrCycles o .word) t ∧
        laeOf16 t.st v ∧ agreeOff 0xE000 s.st t.st ∧
        Framed s t o.extWords (incCells o s ++ storedCells r.2 p.addr)
          (readCalm o p.addr s && (quietRead p.after (regAddr s 12) && plainRam r.2 p.addr)))

/-! ## The whole machine -/

/-- Every step keeps every memory in canonical form and within its size. The form is the model's choice (log 1): addresses rising, no
entry equal to what an unlisted address reads as. -/
def Obligations.MemoryFormKept : Prop :=
  ∀ s t : State, s.memoriesOk = true → step s = .next t → t.memoriesOk = true

/-- Every step keeps the bank indices below the bank counts, the Horizon pages below their bank counts, and the cards' CRU bit
offsets distinct, nonzero and inside every CRU range registered for the card (R140, R763, R810, R812). -/
def Obligations.BanksKept : Prop :=
  (∀ s t : State, s.banksOk = true → step s = .next t → t.banksOk = true) ∧
  (∀ s t : State, s.cardBitsOk = true → step s = .next t → t.cardBitsOk = true)

/-- The GROM addresses and phases of the two sets are equal after a reset and after a cartridge is inserted, and every step keeps
them equal (R780, R783). That a cartridge can be inserted while another is, which is then removed, is the model's choice (log 37):
the clause on insertion covers that case too. -/
def Obligations.GromSetsKept : Prop :=
  (∀ s t : State, s.gromSetsAgree = true → step s = .next t → t.gromSetsAgree = true) ∧
  (∀ s : State, (hostReset s).gromSetsAgree = true) ∧
  (∀ (s : State) (c : Cartridge) (base : Nat), (insertCartridge s c base).gromSetsAgree = true)

/-- The four invariants hold right after reset, in the model's `State.reset` (its configuration is the model's choice: log 2). -/
def Obligations.InvariantsAtReset : Prop :=
  State.reset.memoriesOk = true ∧ State.reset.banksOk = true ∧ State.reset.cardBitsOk = true ∧
  State.reset.gromSetsAgree = true

/-- Who writes what: an instruction other than X changes no bit of ST that R105 does not list for it; WP only by LWPI, BLWP, XOP and
RTWP; `idle` changes by IDLE only; and none changes the console ROM, a breakpoint, `stopped`, the illegal count,
`expRamPresent`, the overlay flags, GROM_WRITABLE, the timer input or the interrupt wiring (R102, R105, R217, R222). -/
def Obligations.WritersOfState : Prop :=
  ∀ (i : Instr) (s t : State), isX i = false → exec i s = .next t →
    agreeOff (stWritten i) s.st t.st ∧ (writesWp i = false → t.wp = s.wp) ∧
    t.rom = s.rom ∧ t.breakpoint = s.breakpoint ∧ t.auxBreakpoint = s.auxBreakpoint ∧ t.stopped = s.stopped ∧
    t.illegalCount = s.illegalCount ∧ t.expRamPresent = s.expRamPresent ∧ t.overlay0 = s.overlay0 ∧
    t.overlay1 = s.overlay1 ∧ t.overlay2 = s.overlay2 ∧ t.overlay3 = s.overlay3 ∧ t.timerInt = s.timerInt ∧
    t.wiring = s.wiring ∧ t.gromWritable = s.gromWritable ∧ (t.idle = s.idle ∨ i = .idle)

/-- No step faults. A step completes, or it is refused for an alias word, and the word is the one fetched, the pending X's, or the one
an X executed in that step has read; an idle step completes (R331, R950; the refusal is ALIAS_DECODE not being fixed, log 5). -/
def Obligations.StepSafe : Prop :=
  ∀ s : State,
    (∃ t, step s = .next t) ∨
    ∃ (w : Word) (i : Instr), step s = .refused (.aliasWord w) ∧ decodeWord w = .alternate i ∧
      ((s.xPending = none ∧ s.idle = false ∧
          (w = (fetchWord s).1 ∨
            ∃ o, decodeWord (fetchWord s).1 = .instr (.x o) ∧ w = (readWordOp o (fetchWord s).2).val)) ∨
        ∃ x, s.xPending = some x ∧
          (w = x ∨ ∃ o, decodeWord x = .instr (.x o) ∧ w = (readWordOp o { s with xPending := none }).val))

/-! ## The run call and the renderer -/

/-- The run call, of at most `fuel` passes. It starts with no cycles consumed and `stopped` false. A pass with the budget consumed
returns; a pass at a breakpoint returns before the instruction, `stopped` set, the auxiliary breakpoint cleared if it is the one hit,
and nothing else changed; every other pass is one step, and the next pass checks the breakpoints. The check is left out in the first
pass of a call with skip, and in an idle pass. A call that returns gives consumed less budget, at least 0 at a normal end and at most
0 at a breakpoint; with a budget not above 0 it executes nothing (R400, R402, R403, R405). The model's choices: the bound `fuel`
(log 30), and that an X still executing an X goes on before the budget and the breakpoints are looked at (log 18). -/
def Obligations.RunCall : Prop :=
  (∀ (fuel : Nat) (budget : Int) (skip : Bool) (s : State),
    run fuel budget skip s = runLoop budget fuel (!skip) { s with consumed := 0, stopped := false }) ∧
  (∀ (fuel : Nat) (budget : Int) (checked : Bool) (s : State),
    let pass := runLoop budget (fuel + 1) checked s
    let atBreakpoint := s.breakpoint = some s.pc ∨ s.auxBreakpoint = some s.pc
    let ended := s.xPending = none ∧ budget ≤ s.consumed
    let hit := s.xPending = none ∧ s.idle = false ∧ checked = true ∧ atBreakpoint
    (ended → pass = .returned (s.consumed - budget) s) ∧
    (¬ ended → hit → pass = .returned (s.consumed - budget) { s with
      stopped := true, auxBreakpoint := if s.auxBreakpoint = some s.pc then none else s.auxBreakpoint }) ∧
    (¬ ended → ¬ hit → (∀ t, step s = .next t → pass = runLoop budget fuel true t) ∧
      (∀ r, step s = .refused r → pass = .refused r s))) ∧
  (∀ (fuel : Nat) (budget : Int) (skip : Bool) (s t : State) (r : Int),
    run fuel budget skip s = .returned r t → r = (t.consumed : Int) - budget ∧ (t.stopped = false → 0 ≤ r) ∧
      (t.stopped = true → r ≤ 0)) ∧
  (∀ (fuel : Nat) (budget : Int) (skip : Bool) (s : State), s.xPending = none → budget ≤ 0 →
    run (fuel + 1) budget skip s = .returned (-budget) { s with consumed := 0, stopped := false }) ∧
  (∀ (fuel : Nat) (budget : Int) (s : State), s.xPending = none → s.idle = false → 0 < budget →
    s.breakpoint = some s.pc ∨ s.auxBreakpoint = some s.pc →
    run (fuel + 1) budget false s = .returned (-budget) { s with
      consumed := 0, stopped := true, auxBreakpoint := if s.auxBreakpoint = some s.pc then none else s.auxBreakpoint } ∧
    ∀ t, step { s with consumed := 0, stopped := false } = .next t →
      run (fuel + 1) budget true s = runLoop budget fuel true t)

/-- One line: one pixel for every column, each a palette colour with alpha 0xFF; border columns and border rows show the backdrop
colour whatever VRAM holds; F is ORed into the status by the row after the active display, display enabled or not, and set by no
other row (R872, R881, R884, R885). -/
def Obligations.BorderAndFrame : Prop :=
  ∀ (v : Vdp) (y w h : Nat) (s : Byte), geometryOk y w h = true →
    let p := v.drawLine y w h s
    let bd := v.palette[(v.vr[7].extractLsb' 0 4 : BitVec 4).toFin]
    p.1.length = w ∧ (∀ x ∈ p.1, ∃ k : Fin 16, x = ⟨v.palette[k].r, v.palette[k].g, v.palette[k].b, 0xFF⟩) ∧
    (∀ x, x < w → (x < (w - 256) / 2 ∨ (w - 256) / 2 + 256 ≤ x ∨ y < (h - 192) / 2 ∨ (h - 192) / 2 + 192 ≤ y ∨
      v.vr[1].getLsbD 6 = false) → p.1[x]? = some ⟨bd.r, bd.g, bd.b, 0xFF⟩) ∧
    (y = (h - 192) / 2 + 192 → p.2 = s ||| 0x80) ∧
    (y ≠ (h - 192) / 2 + 192 → p.2.getLsbD 7 = s.getLsbD 7)

/-- The fifth sprite: while 5S is clear it is set and the scan index recorded, the other bits kept; while it is set nothing changes;
and the renderer never clears C on any row, nor, after row 0, 5S (R904, R905). -/
def Obligations.SpriteStatus : Prop :=
  (∀ (i : Nat) (s : Byte), i < 32 →
    (s.getLsbD 6 = false → (fifthSprite i s).getLsbD 6 = true ∧ (fifthSprite i s).toNat % 32 = i ∧
      (fifthSprite i s).getLsbD 7 = s.getLsbD 7 ∧ (fifthSprite i s).getLsbD 5 = s.getLsbD 5) ∧
    (s.getLsbD 6 = true → fifthSprite i s = s)) ∧
  (∀ (v : Vdp) (y w h : Nat) (s : Byte),
    (s.getLsbD 5 = true → (v.drawLine y w h s).2.getLsbD 5 = true) ∧
    (0 < y → s.getLsbD 6 = true → (v.drawLine y w h s).2.getLsbD 6 = true))
end

