-- ==== Sys2Proof/Laws/Bits.lean ====
section
/-! SUPPORT. Halves of words and the even address of a word. -/

namespace Sys2Proof.Machine

@[simp] theorem hiByte_wordOf (h l : Byte) : hiByte (wordOf h l) = h := by
  unfold hiByte wordOf
  ext i hi
  simp only [BitVec.getElem_extractLsb', BitVec.getLsbD_append]
  rw [if_neg (by omega), Nat.add_sub_cancel_left, BitVec.getLsbD_eq_getElem hi]

@[simp] theorem loByte_wordOf (h l : Byte) : loByte (wordOf h l) = l := by
  unfold loByte wordOf
  ext i hi
  simp only [BitVec.getElem_extractLsb', BitVec.getLsbD_append]
  simp [hi]

@[simp] theorem wordOf_hi_lo (w : Word) : wordOf (hiByte w) (loByte w) = w := by
  unfold hiByte loByte wordOf
  ext i hi
  simp only [BitVec.getElem_append, BitVec.getElem_extractLsb']
  split
  · rw [BitVec.getLsbD_eq_getElem (by omega)]; congr 1; omega
  · rw [BitVec.getLsbD_eq_getElem (by omega)]; congr 1; omega

theorem lsb_eq (a : Word) : a.getLsbD 0 = decide (a.toNat % 2 = 1) := by
  rw [BitVec.getLsbD, Nat.testBit_zero]

theorem even_toNat (a : Word) : (even a).toNat = a.toNat / 2 * 2 := by
  have h : even a = (a >>> 1) <<< 1 := by
    unfold even
    ext i hi
    simp only [BitVec.getElem_and, BitVec.getElem_shiftLeft, BitVec.getElem_ushiftRight]
    rcases i with _ | j
    · simp
    · have hj : (0xFFFE : Word)[j + 1] = true := by
        have : ∀ k : Fin 15, (0xFFFE : Word).getLsbD (k.val + 1) = true := by decide
        rw [← BitVec.getLsbD_eq_getElem]; exact this ⟨j, by omega⟩
      have hk : 1 + (j + 1 - 1) = j + 1 := by omega
      rw [hj, hk, BitVec.getLsbD_eq_getElem hi]
      simp
  rw [h]
  have := a.isLt
  simp [BitVec.toNat_shiftLeft, BitVec.toNat_ushiftRight, Nat.shiftLeft_eq, Nat.shiftRight_eq_div_pow]
  omega

@[simp] theorem even_even (a : Word) : even (even a) = even a := by
  apply BitVec.eq_of_toNat_eq
  rw [even_toNat, even_toNat]; omega

@[simp] theorem even_lsb (a : Word) : (even a).getLsbD 0 = false := by
  rw [lsb_eq, even_toNat]
  simp

theorem even_add_one_toNat (a : Word) : (even a + 1).toNat = a.toNat / 2 * 2 + 1 := by
  have := a.isLt
  rw [BitVec.toNat_add, even_toNat]
  simp
  omega

@[simp] theorem even_add_one_lsb (a : Word) : (even a + 1).getLsbD 0 = true := by
  rw [lsb_eq, even_add_one_toNat]
  simp

@[simp] theorem even_even_add_one (a : Word) : even (even a + 1) = even a := by
  apply BitVec.eq_of_toNat_eq
  rw [even_toNat, even_add_one_toNat, even_toNat]; omega

/-- An address is its word's even address or the one after. -/
theorem even_or_odd (a : Word) :
    (a.getLsbD 0 = false ∧ a = even a) ∨ (a.getLsbD 0 = true ∧ a = even a + 1) := by
  have := a.isLt
  rw [lsb_eq]
  rcases Nat.mod_two_eq_zero_or_one a.toNat with h | h
  · left
    refine ⟨by simp [h], BitVec.eq_of_toNat_eq ?_⟩
    rw [even_toNat]; omega
  · right
    refine ⟨by simp [h], BitVec.eq_of_toNat_eq ?_⟩
    rw [even_add_one_toNat]; omega

/-- An even address is its own word's address. -/
theorem even_of_lsb (a : Word) (h : a.getLsbD 0 = false) : even a = a := by
  rcases even_or_odd a with ⟨_, e⟩ | ⟨e, _⟩
  · exact e.symm
  · rw [h] at e; cases e

@[simp] theorem byteOf_mergeByte (a : Word) (b : Byte) (w : Word) : byteOf a (mergeByte a b w) = b := by
  unfold byteOf mergeByte
  split <;> simp

/-- The half not addressed is kept by a merge (R213). -/
theorem byteOf_mergeByte_other (a c : Word) (b : Byte) (w : Word) (h : c.getLsbD 0 ≠ a.getLsbD 0) :
    byteOf c (mergeByte a b w) = byteOf c w := by
  unfold byteOf mergeByte
  cases ha : a.getLsbD 0 <;> cases hc : c.getLsbD 0 <;> simp_all

@[simp] theorem hiByte_portWord (b : Byte) : hiByte (portWord b) = b := hiByte_wordOf b 0

@[simp] theorem loByte_portWord (b : Byte) : loByte (portWord b) = 0 := loByte_wordOf b 0

end Sys2Proof.Machine
end

