-- ==== Sys2Proof/Laws/Memory.lean ====
section
/-! SUPPORT. Reading and writing a memory: read after write, every other address left alone, and the canonical form kept. -/

namespace Sys2Proof.Machine

/-- The first cell at `a` of a list, as a byte. -/
theorem Memory.read_eq (m : Memory) (a : Nat) :
    m.read a = ((m.cells.find? fun c => c.1 == a).map (·.2)).getD unlistedByte := by
  unfold Memory.read
  cases m.cells.find? fun c => c.1 == a <;> rfl

theorem find_insertCell_same (c : Host.Cell) (l : List Host.Cell) (h : ∀ d ∈ l, d.1 ≠ c.1) :
    (insertCell c l).find? (fun d => d.1 == c.1) = some c := by
  induction l with
  | nil => simp [insertCell]
  | cons d rest ih =>
    have hd : d.1 ≠ c.1 := h d (by simp)
    unfold insertCell
    split
    · simp
    · rw [List.find?_cons_of_neg (by simpa using hd)]
      exact ih fun e he => h e (by simp [he])

theorem find_insertCell_other (c : Host.Cell) (l : List Host.Cell) (a : Nat) (h : c.1 ≠ a) :
    (insertCell c l).find? (fun d => d.1 == a) = l.find? fun d => d.1 == a := by
  induction l with
  | nil => simp [insertCell, h]
  | cons d rest ih =>
    unfold insertCell
    split
    · rw [List.find?_cons_of_neg (by simpa using h)]
    · by_cases hd : d.1 = a
      · simp [hd]
      · rw [List.find?_cons_of_neg (by simpa using hd), List.find?_cons_of_neg (by simpa using hd), ih]

theorem find_filter_same (l : List Host.Cell) (a : Nat) :
    (l.filter fun c => c.1 != a).find? (fun c => c.1 == a) = none := by
  simp [List.find?_eq_none]

theorem find_filter_other (l : List Host.Cell) (a b : Nat) (h : a ≠ b) :
    (l.filter fun c => c.1 != b).find? (fun c => c.1 == a) = l.find? fun c => c.1 == a := by
  induction l with
  | nil => rfl
  | cons d rest ih =>
    by_cases hb : d.1 = b
    · have ha : ¬ d.1 = a := by omega
      rw [List.filter_cons_of_neg (by simpa using hb), ih, List.find?_cons_of_neg (by simpa using ha)]
    · rw [List.filter_cons_of_pos (by simpa using hb)]
      by_cases ha : d.1 = a
      · simp [ha]
      · rw [List.find?_cons_of_neg (by simpa using ha), List.find?_cons_of_neg (by simpa using ha), ih]

/-- Read after write, the same address. -/
@[simp] theorem Memory.read_write_same (m : Memory) (a : Nat) (b : Byte) : (m.write a b).read a = b := by
  unfold Memory.write
  by_cases hb : b = unlistedByte
  · simp only [hb, if_true]
    rw [Memory.read_eq, find_filter_same]
    rfl
  · simp only [hb, if_false]
    rw [Memory.read_eq, find_insertCell_same (a, b) _ (by simp)]
    rfl

/-- Read after write, another address. -/
theorem Memory.read_write_other (m : Memory) (a c : Nat) (b : Byte) (h : c ≠ a) : (m.write a b).read c = m.read c := by
  unfold Memory.write
  by_cases hb : b = unlistedByte
  · simp only [hb, if_true]
    rw [Memory.read_eq, find_filter_other _ _ _ h, ← Memory.read_eq]
  · simp only [hb, if_false]
    rw [Memory.read_eq, find_insertCell_other (a, b) _ c (fun e => h e.symm), find_filter_other _ _ _ h, ← Memory.read_eq]

/-- Read after write in one line. -/
theorem Memory.read_write (m : Memory) (a c : Nat) (b : Byte) :
    (m.write a b).read c = if c = a then b else m.read c := by
  by_cases h : c = a
  · subst h; simp
  · simp [h, Memory.read_write_other]

@[simp] theorem Memory.read_empty (a : Nat) : Memory.empty.read a = 0 := rfl

@[simp] theorem Memory.wf_empty (n : Nat) : Memory.empty.wf n = true := rfl

/-! ## The canonical form is kept -/

theorem risingAddrs_iff (l : List Host.Cell) : risingAddrs l = true ↔ l.Pairwise fun c d => c.1 < d.1 := by
  induction l with
  | nil => simp [risingAddrs]
  | cons c rest ih =>
    cases rest with
    | nil => simp [risingAddrs]
    | cons d tail =>
      simp only [risingAddrs, Bool.and_eq_true, decide_eq_true_eq, ih]
      rw [List.pairwise_cons (a := c)]
      constructor
      · rintro ⟨hcd, hp⟩
        refine ⟨?_, hp⟩
        intro e he
        rcases List.mem_cons.1 he with rfl | he
        · exact hcd
        · exact Nat.lt_trans hcd ((List.pairwise_cons.1 hp).1 e he)
      · rintro ⟨hall, hp⟩
        exact ⟨hall d (by simp), hp⟩

theorem mem_insertCell (c e : Host.Cell) (l : List Host.Cell) : e ∈ insertCell c l ↔ e = c ∨ e ∈ l := by
  induction l with
  | nil => simp [insertCell]
  | cons d rest ih =>
    unfold insertCell
    split
    · simp
    · simp only [List.mem_cons, ih]
      tauto

theorem insertCell_pairwise (c : Host.Cell) (l : List Host.Cell) (hl : l.Pairwise fun c d => c.1 < d.1)
    (hne : ∀ d ∈ l, d.1 ≠ c.1) : (insertCell c l).Pairwise fun c d => c.1 < d.1 := by
  induction l with
  | nil => simp [insertCell]
  | cons d rest ih =>
    have hd := hne d (by simp)
    rw [List.pairwise_cons] at hl
    unfold insertCell
    split
    · rename_i hlt
      rw [List.pairwise_cons, List.pairwise_cons]
      refine ⟨?_, hl⟩
      intro e he
      rcases List.mem_cons.1 he with rfl | he
      · exact hlt
      · exact Nat.lt_trans hlt (hl.1 e he)
    · rw [List.pairwise_cons]
      refine ⟨?_, ih hl.2 fun e he => hne e (by simp [he])⟩
      intro e he
      rcases (mem_insertCell c e rest).1 he with rfl | he
      · omega
      · exact hl.1 e he

theorem Memory.wf_iff (n : Nat) (m : Memory) :
    m.wf n = true ↔ (m.cells.Pairwise fun c d => c.1 < d.1) ∧ ∀ c ∈ m.cells, c.1 < n ∧ c.2 ≠ unlistedByte := by
  unfold Memory.wf
  simp [risingAddrs_iff]

/-- A write below the size keeps the canonical form. -/
theorem Memory.wf_write (n : Nat) (m : Memory) (a : Nat) (b : Byte) (h : m.wf n = true) (ha : a < n) :
    (m.write a b).wf n = true := by
  rw [Memory.wf_iff] at h ⊢
  have hp : (m.cells.filter fun c => c.1 != a).Pairwise fun c d => c.1 < d.1 := h.1.filter _
  have hm : ∀ c ∈ m.cells.filter (fun c => c.1 != a), c.1 < n ∧ c.2 ≠ unlistedByte :=
    fun c hc => h.2 c (List.mem_filter.1 hc).1
  have hne : ∀ c ∈ m.cells.filter (fun c => c.1 != a), c.1 ≠ a := fun c hc => by simpa using (List.mem_filter.1 hc).2
  unfold Memory.write
  by_cases hb : b = unlistedByte
  · simp only [hb, if_true]
    exact ⟨hp, hm⟩
  · simp only [hb, if_false]
    refine ⟨insertCell_pairwise _ _ hp hne, ?_⟩
    intro c hc
    rcases (mem_insertCell _ _ _).1 hc with rfl | hc
    · exact ⟨ha, hb⟩
    · exact hm c hc

/-- Storing an image below the size keeps the canonical form. -/
theorem Memory.wf_store (n : Nat) (bytes : List Byte) :
    ∀ (m : Memory) (base : Nat), m.wf n = true → base + bytes.length ≤ n → (m.store base bytes).wf n = true := by
  induction bytes with
  | nil => exact fun m base h _ => h
  | cons b rest ih =>
    intro m base h hn
    simp only [List.length_cons] at hn
    exact ih _ _ (m.wf_write n base b h (by omega)) (by omega)

/-- A memory canonical for a size is canonical for every larger one. -/
theorem Memory.wf_mono {m : Memory} {k n : Nat} (h : m.wf k = true) (hkn : k ≤ n) : m.wf n = true := by
  rw [Memory.wf_iff] at h ⊢
  exact ⟨h.1, fun c hc => ⟨Nat.lt_of_lt_of_le (h.2 c hc).1 hkn, (h.2 c hc).2⟩⟩

/-! ## Arrays -/

@[simp] theorem Block.write_len (m : Block) (a : Nat) (b : Byte) : (m.write a b).len = m.len := by
  unfold Block.write; split <;> rfl

theorem Block.read_write_same (m : Block) (a : Nat) (b : Byte) (h : a < m.len) : (m.write a b).read a = b := by
  simp [Block.read, Block.write, h]

theorem Block.read_write_other (m : Block) (a c : Nat) (b : Byte) (h : c ≠ a) : (m.write a b).read c = m.read c := by
  unfold Block.read Block.write
  by_cases ha : a < m.len <;> simp [ha, Memory.read_write_other _ _ _ _ h]

theorem Block.wf_write (m : Block) (a : Nat) (b : Byte) (h : m.wf = true) : (m.write a b).wf = true := by
  unfold Block.write
  split
  · rename_i ha
    exact m.mem.wf_write m.len a b h ha
  · exact h

theorem Block.wf_ofBytes (bytes : List Byte) : (Block.ofBytes bytes).wf = true :=
  Memory.wf_store _ _ _ _ (Memory.wf_empty _) (by simp [Block.ofBytes])

@[simp] theorem Block.wf_ram (n : Nat) : (Block.ram n).wf = true := rfl

/-! ## The Horizon card's paged RAM -/

@[simp] theorem Horizon.paged_len (h : Horizon) : h.paged.len = h.banks * h.bankSize := rfl

@[simp] theorem Horizon.paged_dsrRam (h : Horizon) (m : Block) : ({ h with dsrRam := m } : Horizon).paged = h.paged := rfl

/-- A byte stored in the paged RAM: the array is the written one. -/
@[simp] theorem Horizon.paged_write (h : Horizon) (o : Nat) (b : Byte) :
    ({ h with pagedRam := (h.paged.write o b).mem } : Horizon).paged = h.paged.write o b := by
  unfold Horizon.paged Block.write
  split <;> rfl

end Sys2Proof.Machine
end

