-- ==== Sys2Proof/Laws/State.lean ====
section
/-! SUPPORT. One lemma per field and per update of State, so that no proof unfolds a record update. -/

namespace Sys2Proof.Machine

/-! ## `charge` changes `consumed` only -/

@[simp] theorem State.charge_pc (s : State) (n : Nat) : (s.charge n).pc = s.pc := rfl
@[simp] theorem State.charge_wp (s : State) (n : Nat) : (s.charge n).wp = s.wp := rfl
@[simp] theorem State.charge_st (s : State) (n : Nat) : (s.charge n).st = s.st := rfl
@[simp] theorem State.charge_idle (s : State) (n : Nat) : (s.charge n).idle = s.idle := rfl
@[simp] theorem State.charge_consumed (s : State) (n : Nat) : (s.charge n).consumed = s.consumed + n := rfl
@[simp] theorem State.charge_stopped (s : State) (n : Nat) : (s.charge n).stopped = s.stopped := rfl
@[simp] theorem State.charge_breakpoint (s : State) (n : Nat) : (s.charge n).breakpoint = s.breakpoint := rfl
@[simp] theorem State.charge_auxBreakpoint (s : State) (n : Nat) : (s.charge n).auxBreakpoint = s.auxBreakpoint := rfl
@[simp] theorem State.charge_illegalCount (s : State) (n : Nat) : (s.charge n).illegalCount = s.illegalCount := rfl
@[simp] theorem State.charge_expRamPresent (s : State) (n : Nat) : (s.charge n).expRamPresent = s.expRamPresent := rfl
@[simp] theorem State.charge_overlay0 (s : State) (n : Nat) : (s.charge n).overlay0 = s.overlay0 := rfl
@[simp] theorem State.charge_overlay1 (s : State) (n : Nat) : (s.charge n).overlay1 = s.overlay1 := rfl
@[simp] theorem State.charge_overlay2 (s : State) (n : Nat) : (s.charge n).overlay2 = s.overlay2 := rfl
@[simp] theorem State.charge_overlay3 (s : State) (n : Nat) : (s.charge n).overlay3 = s.overlay3 := rfl
@[simp] theorem State.charge_rom (s : State) (n : Nat) : (s.charge n).rom = s.rom := rfl
@[simp] theorem State.charge_pad (s : State) (n : Nat) : (s.charge n).pad = s.pad := rfl
@[simp] theorem State.charge_exp (s : State) (n : Nat) : (s.charge n).exp = s.exp := rfl
@[simp] theorem State.charge_ovl0 (s : State) (n : Nat) : (s.charge n).ovl0 = s.ovl0 := rfl
@[simp] theorem State.charge_ovl1 (s : State) (n : Nat) : (s.charge n).ovl1 = s.ovl1 := rfl
@[simp] theorem State.charge_grom (s : State) (n : Nat) : (s.charge n).grom = s.grom := rfl
@[simp] theorem State.charge_gromMem (s : State) (n : Nat) : (s.charge n).gromMem = s.gromMem := rfl
@[simp] theorem State.charge_gromWritable (s : State) (n : Nat) : (s.charge n).gromWritable = s.gromWritable := rfl
@[simp] theorem State.charge_cart (s : State) (n : Nat) : (s.charge n).cart = s.cart := rfl
@[simp] theorem State.charge_cards (s : State) (n : Nat) : (s.charge n).cards = s.cards := rfl
@[simp] theorem State.charge_cru (s : State) (n : Nat) : (s.charge n).cru = s.cru := rfl
@[simp] theorem State.charge_vdp (s : State) (n : Nat) : (s.charge n).vdp = s.vdp := rfl
@[simp] theorem State.charge_timerInt (s : State) (n : Nat) : (s.charge n).timerInt = s.timerInt := rfl
@[simp] theorem State.charge_wiring (s : State) (n : Nat) : (s.charge n).wiring = s.wiring := rfl
@[simp] theorem State.charge_trace (s : State) (n : Nat) : (s.charge n).trace = s.trace := rfl
@[simp] theorem State.charge_draws (s : State) (n : Nat) : (s.charge n).draws = s.draws := rfl
@[simp] theorem State.charge_xPending (s : State) (n : Nat) : (s.charge n).xPending = s.xPending := rfl

/-! ## `emit` changes `trace` only -/

@[simp] theorem State.emit_pc (s : State) (e : Event) : (s.emit e).pc = s.pc := rfl
@[simp] theorem State.emit_wp (s : State) (e : Event) : (s.emit e).wp = s.wp := rfl
@[simp] theorem State.emit_st (s : State) (e : Event) : (s.emit e).st = s.st := rfl
@[simp] theorem State.emit_idle (s : State) (e : Event) : (s.emit e).idle = s.idle := rfl
@[simp] theorem State.emit_consumed (s : State) (e : Event) : (s.emit e).consumed = s.consumed := rfl
@[simp] theorem State.emit_stopped (s : State) (e : Event) : (s.emit e).stopped = s.stopped := rfl
@[simp] theorem State.emit_breakpoint (s : State) (e : Event) : (s.emit e).breakpoint = s.breakpoint := rfl
@[simp] theorem State.emit_auxBreakpoint (s : State) (e : Event) : (s.emit e).auxBreakpoint = s.auxBreakpoint := rfl
@[simp] theorem State.emit_illegalCount (s : State) (e : Event) : (s.emit e).illegalCount = s.illegalCount := rfl
@[simp] theorem State.emit_expRamPresent (s : State) (e : Event) : (s.emit e).expRamPresent = s.expRamPresent := rfl
@[simp] theorem State.emit_overlay0 (s : State) (e : Event) : (s.emit e).overlay0 = s.overlay0 := rfl
@[simp] theorem State.emit_overlay1 (s : State) (e : Event) : (s.emit e).overlay1 = s.overlay1 := rfl
@[simp] theorem State.emit_overlay2 (s : State) (e : Event) : (s.emit e).overlay2 = s.overlay2 := rfl
@[simp] theorem State.emit_overlay3 (s : State) (e : Event) : (s.emit e).overlay3 = s.overlay3 := rfl
@[simp] theorem State.emit_rom (s : State) (e : Event) : (s.emit e).rom = s.rom := rfl
@[simp] theorem State.emit_pad (s : State) (e : Event) : (s.emit e).pad = s.pad := rfl
@[simp] theorem State.emit_exp (s : State) (e : Event) : (s.emit e).exp = s.exp := rfl
@[simp] theorem State.emit_ovl0 (s : State) (e : Event) : (s.emit e).ovl0 = s.ovl0 := rfl
@[simp] theorem State.emit_ovl1 (s : State) (e : Event) : (s.emit e).ovl1 = s.ovl1 := rfl
@[simp] theorem State.emit_grom (s : State) (e : Event) : (s.emit e).grom = s.grom := rfl
@[simp] theorem State.emit_gromMem (s : State) (e : Event) : (s.emit e).gromMem = s.gromMem := rfl
@[simp] theorem State.emit_gromWritable (s : State) (e : Event) : (s.emit e).gromWritable = s.gromWritable := rfl
@[simp] theorem State.emit_cart (s : State) (e : Event) : (s.emit e).cart = s.cart := rfl
@[simp] theorem State.emit_cards (s : State) (e : Event) : (s.emit e).cards = s.cards := rfl
@[simp] theorem State.emit_cru (s : State) (e : Event) : (s.emit e).cru = s.cru := rfl
@[simp] theorem State.emit_vdp (s : State) (e : Event) : (s.emit e).vdp = s.vdp := rfl
@[simp] theorem State.emit_timerInt (s : State) (e : Event) : (s.emit e).timerInt = s.timerInt := rfl
@[simp] theorem State.emit_wiring (s : State) (e : Event) : (s.emit e).wiring = s.wiring := rfl
@[simp] theorem State.emit_trace (s : State) (e : Event) : (s.emit e).trace = s.trace ++ [e] := rfl
@[simp] theorem State.emit_draws (s : State) (e : Event) : (s.emit e).draws = s.draws := rfl
@[simp] theorem State.emit_xPending (s : State) (e : Event) : (s.emit e).xPending = s.xPending := rfl

/-! ## `setPc` changes `pc` only -/

@[simp] theorem State.setPc_pc (s : State) (v : Word) : (s.setPc v).pc = pcValue v := rfl
@[simp] theorem State.setPc_wp (s : State) (v : Word) : (s.setPc v).wp = s.wp := rfl
@[simp] theorem State.setPc_st (s : State) (v : Word) : (s.setPc v).st = s.st := rfl
@[simp] theorem State.setPc_idle (s : State) (v : Word) : (s.setPc v).idle = s.idle := rfl
@[simp] theorem State.setPc_consumed (s : State) (v : Word) : (s.setPc v).consumed = s.consumed := rfl
@[simp] theorem State.setPc_stopped (s : State) (v : Word) : (s.setPc v).stopped = s.stopped := rfl
@[simp] theorem State.setPc_breakpoint (s : State) (v : Word) : (s.setPc v).breakpoint = s.breakpoint := rfl
@[simp] theorem State.setPc_auxBreakpoint (s : State) (v : Word) : (s.setPc v).auxBreakpoint = s.auxBreakpoint := rfl
@[simp] theorem State.setPc_illegalCount (s : State) (v : Word) : (s.setPc v).illegalCount = s.illegalCount := rfl
@[simp] theorem State.setPc_expRamPresent (s : State) (v : Word) : (s.setPc v).expRamPresent = s.expRamPresent := rfl
@[simp] theorem State.setPc_overlay0 (s : State) (v : Word) : (s.setPc v).overlay0 = s.overlay0 := rfl
@[simp] theorem State.setPc_overlay1 (s : State) (v : Word) : (s.setPc v).overlay1 = s.overlay1 := rfl
@[simp] theorem State.setPc_overlay2 (s : State) (v : Word) : (s.setPc v).overlay2 = s.overlay2 := rfl
@[simp] theorem State.setPc_overlay3 (s : State) (v : Word) : (s.setPc v).overlay3 = s.overlay3 := rfl
@[simp] theorem State.setPc_rom (s : State) (v : Word) : (s.setPc v).rom = s.rom := rfl
@[simp] theorem State.setPc_pad (s : State) (v : Word) : (s.setPc v).pad = s.pad := rfl
@[simp] theorem State.setPc_exp (s : State) (v : Word) : (s.setPc v).exp = s.exp := rfl
@[simp] theorem State.setPc_ovl0 (s : State) (v : Word) : (s.setPc v).ovl0 = s.ovl0 := rfl
@[simp] theorem State.setPc_ovl1 (s : State) (v : Word) : (s.setPc v).ovl1 = s.ovl1 := rfl
@[simp] theorem State.setPc_grom (s : State) (v : Word) : (s.setPc v).grom = s.grom := rfl
@[simp] theorem State.setPc_gromMem (s : State) (v : Word) : (s.setPc v).gromMem = s.gromMem := rfl
@[simp] theorem State.setPc_gromWritable (s : State) (v : Word) : (s.setPc v).gromWritable = s.gromWritable := rfl
@[simp] theorem State.setPc_cart (s : State) (v : Word) : (s.setPc v).cart = s.cart := rfl
@[simp] theorem State.setPc_cards (s : State) (v : Word) : (s.setPc v).cards = s.cards := rfl
@[simp] theorem State.setPc_cru (s : State) (v : Word) : (s.setPc v).cru = s.cru := rfl
@[simp] theorem State.setPc_vdp (s : State) (v : Word) : (s.setPc v).vdp = s.vdp := rfl
@[simp] theorem State.setPc_timerInt (s : State) (v : Word) : (s.setPc v).timerInt = s.timerInt := rfl
@[simp] theorem State.setPc_wiring (s : State) (v : Word) : (s.setPc v).wiring = s.wiring := rfl
@[simp] theorem State.setPc_trace (s : State) (v : Word) : (s.setPc v).trace = s.trace := rfl
@[simp] theorem State.setPc_draws (s : State) (v : Word) : (s.setPc v).draws = s.draws := rfl
@[simp] theorem State.setPc_xPending (s : State) (v : Word) : (s.setPc v).xPending = s.xPending := rfl

/-! ## `setWp` changes `wp` only -/

@[simp] theorem State.setWp_pc (s : State) (v : Word) : (s.setWp v).pc = s.pc := rfl
@[simp] theorem State.setWp_wp (s : State) (v : Word) : (s.setWp v).wp = v := rfl
@[simp] theorem State.setWp_st (s : State) (v : Word) : (s.setWp v).st = s.st := rfl
@[simp] theorem State.setWp_idle (s : State) (v : Word) : (s.setWp v).idle = s.idle := rfl
@[simp] theorem State.setWp_consumed (s : State) (v : Word) : (s.setWp v).consumed = s.consumed := rfl
@[simp] theorem State.setWp_stopped (s : State) (v : Word) : (s.setWp v).stopped = s.stopped := rfl
@[simp] theorem State.setWp_breakpoint (s : State) (v : Word) : (s.setWp v).breakpoint = s.breakpoint := rfl
@[simp] theorem State.setWp_auxBreakpoint (s : State) (v : Word) : (s.setWp v).auxBreakpoint = s.auxBreakpoint := rfl
@[simp] theorem State.setWp_illegalCount (s : State) (v : Word) : (s.setWp v).illegalCount = s.illegalCount := rfl
@[simp] theorem State.setWp_expRamPresent (s : State) (v : Word) : (s.setWp v).expRamPresent = s.expRamPresent := rfl
@[simp] theorem State.setWp_overlay0 (s : State) (v : Word) : (s.setWp v).overlay0 = s.overlay0 := rfl
@[simp] theorem State.setWp_overlay1 (s : State) (v : Word) : (s.setWp v).overlay1 = s.overlay1 := rfl
@[simp] theorem State.setWp_overlay2 (s : State) (v : Word) : (s.setWp v).overlay2 = s.overlay2 := rfl
@[simp] theorem State.setWp_overlay3 (s : State) (v : Word) : (s.setWp v).overlay3 = s.overlay3 := rfl
@[simp] theorem State.setWp_rom (s : State) (v : Word) : (s.setWp v).rom = s.rom := rfl
@[simp] theorem State.setWp_pad (s : State) (v : Word) : (s.setWp v).pad = s.pad := rfl
@[simp] theorem State.setWp_exp (s : State) (v : Word) : (s.setWp v).exp = s.exp := rfl
@[simp] theorem State.setWp_ovl0 (s : State) (v : Word) : (s.setWp v).ovl0 = s.ovl0 := rfl
@[simp] theorem State.setWp_ovl1 (s : State) (v : Word) : (s.setWp v).ovl1 = s.ovl1 := rfl
@[simp] theorem State.setWp_grom (s : State) (v : Word) : (s.setWp v).grom = s.grom := rfl
@[simp] theorem State.setWp_gromMem (s : State) (v : Word) : (s.setWp v).gromMem = s.gromMem := rfl
@[simp] theorem State.setWp_gromWritable (s : State) (v : Word) : (s.setWp v).gromWritable = s.gromWritable := rfl
@[simp] theorem State.setWp_cart (s : State) (v : Word) : (s.setWp v).cart = s.cart := rfl
@[simp] theorem State.setWp_cards (s : State) (v : Word) : (s.setWp v).cards = s.cards := rfl
@[simp] theorem State.setWp_cru (s : State) (v : Word) : (s.setWp v).cru = s.cru := rfl
@[simp] theorem State.setWp_vdp (s : State) (v : Word) : (s.setWp v).vdp = s.vdp := rfl
@[simp] theorem State.setWp_timerInt (s : State) (v : Word) : (s.setWp v).timerInt = s.timerInt := rfl
@[simp] theorem State.setWp_wiring (s : State) (v : Word) : (s.setWp v).wiring = s.wiring := rfl
@[simp] theorem State.setWp_trace (s : State) (v : Word) : (s.setWp v).trace = s.trace := rfl
@[simp] theorem State.setWp_draws (s : State) (v : Word) : (s.setWp v).draws = s.draws := rfl
@[simp] theorem State.setWp_xPending (s : State) (v : Word) : (s.setWp v).xPending = s.xPending := rfl

/-! ## `setSt` changes `st` only -/

@[simp] theorem State.setSt_pc (s : State) (v : Word) : (s.setSt v).pc = s.pc := rfl
@[simp] theorem State.setSt_wp (s : State) (v : Word) : (s.setSt v).wp = s.wp := rfl
@[simp] theorem State.setSt_st (s : State) (v : Word) : (s.setSt v).st = v := rfl
@[simp] theorem State.setSt_idle (s : State) (v : Word) : (s.setSt v).idle = s.idle := rfl
@[simp] theorem State.setSt_consumed (s : State) (v : Word) : (s.setSt v).consumed = s.consumed := rfl
@[simp] theorem State.setSt_stopped (s : State) (v : Word) : (s.setSt v).stopped = s.stopped := rfl
@[simp] theorem State.setSt_breakpoint (s : State) (v : Word) : (s.setSt v).breakpoint = s.breakpoint := rfl
@[simp] theorem State.setSt_auxBreakpoint (s : State) (v : Word) : (s.setSt v).auxBreakpoint = s.auxBreakpoint := rfl
@[simp] theorem State.setSt_illegalCount (s : State) (v : Word) : (s.setSt v).illegalCount = s.illegalCount := rfl
@[simp] theorem State.setSt_expRamPresent (s : State) (v : Word) : (s.setSt v).expRamPresent = s.expRamPresent := rfl
@[simp] theorem State.setSt_overlay0 (s : State) (v : Word) : (s.setSt v).overlay0 = s.overlay0 := rfl
@[simp] theorem State.setSt_overlay1 (s : State) (v : Word) : (s.setSt v).overlay1 = s.overlay1 := rfl
@[simp] theorem State.setSt_overlay2 (s : State) (v : Word) : (s.setSt v).overlay2 = s.overlay2 := rfl
@[simp] theorem State.setSt_overlay3 (s : State) (v : Word) : (s.setSt v).overlay3 = s.overlay3 := rfl
@[simp] theorem State.setSt_rom (s : State) (v : Word) : (s.setSt v).rom = s.rom := rfl
@[simp] theorem State.setSt_pad (s : State) (v : Word) : (s.setSt v).pad = s.pad := rfl
@[simp] theorem State.setSt_exp (s : State) (v : Word) : (s.setSt v).exp = s.exp := rfl
@[simp] theorem State.setSt_ovl0 (s : State) (v : Word) : (s.setSt v).ovl0 = s.ovl0 := rfl
@[simp] theorem State.setSt_ovl1 (s : State) (v : Word) : (s.setSt v).ovl1 = s.ovl1 := rfl
@[simp] theorem State.setSt_grom (s : State) (v : Word) : (s.setSt v).grom = s.grom := rfl
@[simp] theorem State.setSt_gromMem (s : State) (v : Word) : (s.setSt v).gromMem = s.gromMem := rfl
@[simp] theorem State.setSt_gromWritable (s : State) (v : Word) : (s.setSt v).gromWritable = s.gromWritable := rfl
@[simp] theorem State.setSt_cart (s : State) (v : Word) : (s.setSt v).cart = s.cart := rfl
@[simp] theorem State.setSt_cards (s : State) (v : Word) : (s.setSt v).cards = s.cards := rfl
@[simp] theorem State.setSt_cru (s : State) (v : Word) : (s.setSt v).cru = s.cru := rfl
@[simp] theorem State.setSt_vdp (s : State) (v : Word) : (s.setSt v).vdp = s.vdp := rfl
@[simp] theorem State.setSt_timerInt (s : State) (v : Word) : (s.setSt v).timerInt = s.timerInt := rfl
@[simp] theorem State.setSt_wiring (s : State) (v : Word) : (s.setSt v).wiring = s.wiring := rfl
@[simp] theorem State.setSt_trace (s : State) (v : Word) : (s.setSt v).trace = s.trace := rfl
@[simp] theorem State.setSt_draws (s : State) (v : Word) : (s.setSt v).draws = s.draws := rfl
@[simp] theorem State.setSt_xPending (s : State) (v : Word) : (s.setSt v).xPending = s.xPending := rfl

/-! ## `mapCart` changes `cart` only -/

@[simp] theorem State.mapCart_pc (s : State) (f : Cartridge → Cartridge) : (s.mapCart f).pc = s.pc := rfl
@[simp] theorem State.mapCart_wp (s : State) (f : Cartridge → Cartridge) : (s.mapCart f).wp = s.wp := rfl
@[simp] theorem State.mapCart_st (s : State) (f : Cartridge → Cartridge) : (s.mapCart f).st = s.st := rfl
@[simp] theorem State.mapCart_idle (s : State) (f : Cartridge → Cartridge) : (s.mapCart f).idle = s.idle := rfl
@[simp] theorem State.mapCart_consumed (s : State) (f : Cartridge → Cartridge) : (s.mapCart f).consumed = s.consumed := rfl
@[simp] theorem State.mapCart_stopped (s : State) (f : Cartridge → Cartridge) : (s.mapCart f).stopped = s.stopped := rfl
@[simp] theorem State.mapCart_breakpoint (s : State) (f : Cartridge → Cartridge) : (s.mapCart f).breakpoint = s.breakpoint := rfl
@[simp] theorem State.mapCart_auxBreakpoint (s : State) (f : Cartridge → Cartridge) : (s.mapCart f).auxBreakpoint = s.auxBreakpoint := rfl
@[simp] theorem State.mapCart_illegalCount (s : State) (f : Cartridge → Cartridge) : (s.mapCart f).illegalCount = s.illegalCount := rfl
@[simp] theorem State.mapCart_expRamPresent (s : State) (f : Cartridge → Cartridge) : (s.mapCart f).expRamPresent = s.expRamPresent := rfl
@[simp] theorem State.mapCart_overlay0 (s : State) (f : Cartridge → Cartridge) : (s.mapCart f).overlay0 = s.overlay0 := rfl
@[simp] theorem State.mapCart_overlay1 (s : State) (f : Cartridge → Cartridge) : (s.mapCart f).overlay1 = s.overlay1 := rfl
@[simp] theorem State.mapCart_overlay2 (s : State) (f : Cartridge → Cartridge) : (s.mapCart f).overlay2 = s.overlay2 := rfl
@[simp] theorem State.mapCart_overlay3 (s : State) (f : Cartridge → Cartridge) : (s.mapCart f).overlay3 = s.overlay3 := rfl
@[simp] theorem State.mapCart_rom (s : State) (f : Cartridge → Cartridge) : (s.mapCart f).rom = s.rom := rfl
@[simp] theorem State.mapCart_pad (s : State) (f : Cartridge → Cartridge) : (s.mapCart f).pad = s.pad := rfl
@[simp] theorem State.mapCart_exp (s : State) (f : Cartridge → Cartridge) : (s.mapCart f).exp = s.exp := rfl
@[simp] theorem State.mapCart_ovl0 (s : State) (f : Cartridge → Cartridge) : (s.mapCart f).ovl0 = s.ovl0 := rfl
@[simp] theorem State.mapCart_ovl1 (s : State) (f : Cartridge → Cartridge) : (s.mapCart f).ovl1 = s.ovl1 := rfl
@[simp] theorem State.mapCart_grom (s : State) (f : Cartridge → Cartridge) : (s.mapCart f).grom = s.grom := rfl
@[simp] theorem State.mapCart_gromMem (s : State) (f : Cartridge → Cartridge) : (s.mapCart f).gromMem = s.gromMem := rfl
@[simp] theorem State.mapCart_gromWritable (s : State) (f : Cartridge → Cartridge) : (s.mapCart f).gromWritable = s.gromWritable := rfl
@[simp] theorem State.mapCart_cart (s : State) (f : Cartridge → Cartridge) : (s.mapCart f).cart = s.cart.map f := rfl
@[simp] theorem State.mapCart_cards (s : State) (f : Cartridge → Cartridge) : (s.mapCart f).cards = s.cards := rfl
@[simp] theorem State.mapCart_cru (s : State) (f : Cartridge → Cartridge) : (s.mapCart f).cru = s.cru := rfl
@[simp] theorem State.mapCart_vdp (s : State) (f : Cartridge → Cartridge) : (s.mapCart f).vdp = s.vdp := rfl
@[simp] theorem State.mapCart_timerInt (s : State) (f : Cartridge → Cartridge) : (s.mapCart f).timerInt = s.timerInt := rfl
@[simp] theorem State.mapCart_wiring (s : State) (f : Cartridge → Cartridge) : (s.mapCart f).wiring = s.wiring := rfl
@[simp] theorem State.mapCart_trace (s : State) (f : Cartridge → Cartridge) : (s.mapCart f).trace = s.trace := rfl
@[simp] theorem State.mapCart_draws (s : State) (f : Cartridge → Cartridge) : (s.mapCart f).draws = s.draws := rfl
@[simp] theorem State.mapCart_xPending (s : State) (f : Cartridge → Cartridge) : (s.mapCart f).xPending = s.xPending := rfl

/-! ## `mapCard` changes `cards` only -/

@[simp] theorem State.mapCard_pc (s : State) (i : Nat) (f : Card → Card) : (s.mapCard i f).pc = s.pc := rfl
@[simp] theorem State.mapCard_wp (s : State) (i : Nat) (f : Card → Card) : (s.mapCard i f).wp = s.wp := rfl
@[simp] theorem State.mapCard_st (s : State) (i : Nat) (f : Card → Card) : (s.mapCard i f).st = s.st := rfl
@[simp] theorem State.mapCard_idle (s : State) (i : Nat) (f : Card → Card) : (s.mapCard i f).idle = s.idle := rfl
@[simp] theorem State.mapCard_consumed (s : State) (i : Nat) (f : Card → Card) : (s.mapCard i f).consumed = s.consumed := rfl
@[simp] theorem State.mapCard_stopped (s : State) (i : Nat) (f : Card → Card) : (s.mapCard i f).stopped = s.stopped := rfl
@[simp] theorem State.mapCard_breakpoint (s : State) (i : Nat) (f : Card → Card) : (s.mapCard i f).breakpoint = s.breakpoint := rfl
@[simp] theorem State.mapCard_auxBreakpoint (s : State) (i : Nat) (f : Card → Card) : (s.mapCard i f).auxBreakpoint = s.auxBreakpoint := rfl
@[simp] theorem State.mapCard_illegalCount (s : State) (i : Nat) (f : Card → Card) : (s.mapCard i f).illegalCount = s.illegalCount := rfl
@[simp] theorem State.mapCard_expRamPresent (s : State) (i : Nat) (f : Card → Card) : (s.mapCard i f).expRamPresent = s.expRamPresent := rfl
@[simp] theorem State.mapCard_overlay0 (s : State) (i : Nat) (f : Card → Card) : (s.mapCard i f).overlay0 = s.overlay0 := rfl
@[simp] theorem State.mapCard_overlay1 (s : State) (i : Nat) (f : Card → Card) : (s.mapCard i f).overlay1 = s.overlay1 := rfl
@[simp] theorem State.mapCard_overlay2 (s : State) (i : Nat) (f : Card → Card) : (s.mapCard i f).overlay2 = s.overlay2 := rfl
@[simp] theorem State.mapCard_overlay3 (s : State) (i : Nat) (f : Card → Card) : (s.mapCard i f).overlay3 = s.overlay3 := rfl
@[simp] theorem State.mapCard_rom (s : State) (i : Nat) (f : Card → Card) : (s.mapCard i f).rom = s.rom := rfl
@[simp] theorem State.mapCard_pad (s : State) (i : Nat) (f : Card → Card) : (s.mapCard i f).pad = s.pad := rfl
@[simp] theorem State.mapCard_exp (s : State) (i : Nat) (f : Card → Card) : (s.mapCard i f).exp = s.exp := rfl
@[simp] theorem State.mapCard_ovl0 (s : State) (i : Nat) (f : Card → Card) : (s.mapCard i f).ovl0 = s.ovl0 := rfl
@[simp] theorem State.mapCard_ovl1 (s : State) (i : Nat) (f : Card → Card) : (s.mapCard i f).ovl1 = s.ovl1 := rfl
@[simp] theorem State.mapCard_grom (s : State) (i : Nat) (f : Card → Card) : (s.mapCard i f).grom = s.grom := rfl
@[simp] theorem State.mapCard_gromMem (s : State) (i : Nat) (f : Card → Card) : (s.mapCard i f).gromMem = s.gromMem := rfl
@[simp] theorem State.mapCard_gromWritable (s : State) (i : Nat) (f : Card → Card) : (s.mapCard i f).gromWritable = s.gromWritable := rfl
@[simp] theorem State.mapCard_cart (s : State) (i : Nat) (f : Card → Card) : (s.mapCard i f).cart = s.cart := rfl
@[simp] theorem State.mapCard_cards (s : State) (i : Nat) (f : Card → Card) : (s.mapCard i f).cards = s.cards.modify i f := rfl
@[simp] theorem State.mapCard_cru (s : State) (i : Nat) (f : Card → Card) : (s.mapCard i f).cru = s.cru := rfl
@[simp] theorem State.mapCard_vdp (s : State) (i : Nat) (f : Card → Card) : (s.mapCard i f).vdp = s.vdp := rfl
@[simp] theorem State.mapCard_timerInt (s : State) (i : Nat) (f : Card → Card) : (s.mapCard i f).timerInt = s.timerInt := rfl
@[simp] theorem State.mapCard_wiring (s : State) (i : Nat) (f : Card → Card) : (s.mapCard i f).wiring = s.wiring := rfl
@[simp] theorem State.mapCard_trace (s : State) (i : Nat) (f : Card → Card) : (s.mapCard i f).trace = s.trace := rfl
@[simp] theorem State.mapCard_draws (s : State) (i : Nat) (f : Card → Card) : (s.mapCard i f).draws = s.draws := rfl
@[simp] theorem State.mapCard_xPending (s : State) (i : Nat) (f : Card → Card) : (s.mapCard i f).xPending = s.xPending := rfl

/-! ## Drawing a free value changes `draws` only -/

@[simp] theorem State.draw_number (s : State) : s.draw.1 = s.draws := rfl
@[simp] theorem State.draw_pc (s : State) : s.draw.2.pc = s.pc := rfl
@[simp] theorem State.draw_wp (s : State) : s.draw.2.wp = s.wp := rfl
@[simp] theorem State.draw_st (s : State) : s.draw.2.st = s.st := rfl
@[simp] theorem State.draw_idle (s : State) : s.draw.2.idle = s.idle := rfl
@[simp] theorem State.draw_consumed (s : State) : s.draw.2.consumed = s.consumed := rfl
@[simp] theorem State.draw_stopped (s : State) : s.draw.2.stopped = s.stopped := rfl
@[simp] theorem State.draw_breakpoint (s : State) : s.draw.2.breakpoint = s.breakpoint := rfl
@[simp] theorem State.draw_auxBreakpoint (s : State) : s.draw.2.auxBreakpoint = s.auxBreakpoint := rfl
@[simp] theorem State.draw_illegalCount (s : State) : s.draw.2.illegalCount = s.illegalCount := rfl
@[simp] theorem State.draw_expRamPresent (s : State) : s.draw.2.expRamPresent = s.expRamPresent := rfl
@[simp] theorem State.draw_overlay0 (s : State) : s.draw.2.overlay0 = s.overlay0 := rfl
@[simp] theorem State.draw_overlay1 (s : State) : s.draw.2.overlay1 = s.overlay1 := rfl
@[simp] theorem State.draw_overlay2 (s : State) : s.draw.2.overlay2 = s.overlay2 := rfl
@[simp] theorem State.draw_overlay3 (s : State) : s.draw.2.overlay3 = s.overlay3 := rfl
@[simp] theorem State.draw_rom (s : State) : s.draw.2.rom = s.rom := rfl
@[simp] theorem State.draw_pad (s : State) : s.draw.2.pad = s.pad := rfl
@[simp] theorem State.draw_exp (s : State) : s.draw.2.exp = s.exp := rfl
@[simp] theorem State.draw_ovl0 (s : State) : s.draw.2.ovl0 = s.ovl0 := rfl
@[simp] theorem State.draw_ovl1 (s : State) : s.draw.2.ovl1 = s.ovl1 := rfl
@[simp] theorem State.draw_grom (s : State) : s.draw.2.grom = s.grom := rfl
@[simp] theorem State.draw_gromMem (s : State) : s.draw.2.gromMem = s.gromMem := rfl
@[simp] theorem State.draw_gromWritable (s : State) : s.draw.2.gromWritable = s.gromWritable := rfl
@[simp] theorem State.draw_cart (s : State) : s.draw.2.cart = s.cart := rfl
@[simp] theorem State.draw_cards (s : State) : s.draw.2.cards = s.cards := rfl
@[simp] theorem State.draw_cru (s : State) : s.draw.2.cru = s.cru := rfl
@[simp] theorem State.draw_vdp (s : State) : s.draw.2.vdp = s.vdp := rfl
@[simp] theorem State.draw_timerInt (s : State) : s.draw.2.timerInt = s.timerInt := rfl
@[simp] theorem State.draw_wiring (s : State) : s.draw.2.wiring = s.wiring := rfl
@[simp] theorem State.draw_trace (s : State) : s.draw.2.trace = s.trace := rfl
@[simp] theorem State.draw_draws (s : State) : s.draw.2.draws = s.draws + 1 := rfl
@[simp] theorem State.draw_xPending (s : State) : s.draw.2.xPending = s.xPending := rfl

/-! ## The spec's choice PC_LSB = keep -/

@[simp] theorem pcValue_keep (v : Word) : pcValue v = v := rfl

@[simp] theorem dummyRead_eq (s : State) (a : Word) : dummyRead s a = (busRead s a).2 := rfl

end Sys2Proof.Machine
end

