-- ==== Sys2Proof/Laws/Bus.lean ====
section
/-! SUPPORT. What a bus access can do, said once: which fields it keeps, which cells it stores to, and when the memory map
stays as it is. -/

namespace Sys2Proof.Machine

/-! ## Fields no access changes -/

theorem readRegion_offBus (s : State) (e : Word) (r : Region) : (readRegion s e r).2.offBus = s.offBus := by
  cases r <;> try rfl
  unfold readRegion
  dsimp only
  split <;> rfl

theorem storeByte_offBus (s : State) (a : Word) (b : Byte) : (storeByte s a b).offBus = s.offBus := by
  unfold storeByte
  split
  · rename_i st o _
    split
    · rename_i h
      cases st <;> first | rfl | cases h
    · rfl
  · rfl

theorem storeWord_offBus (s : State) (e v : Word) : (storeWord s e v).offBus = s.offBus := by
  unfold storeWord
  rw [storeByte_offBus, storeByte_offBus]

theorem emitPersist_offBus (s : State) (i : Nat) : (emitPersist s i).offBus = s.offBus := by
  unfold emitPersist
  split <;> rfl

theorem writeBacked_offBus (s : State) (e v : Word) : (writeBacked s e v).offBus = s.offBus := by
  unfold writeBacked
  split
  · rfl
  · split
    · split
      · rw [emitPersist_offBus, storeWord_offBus]
      · rw [storeWord_offBus]
    · rfl
  · rfl

theorem gromStore_offBus (s : State) (sel : Nat) (b : Byte) : (s.gromStore sel b).offBus = s.offBus := by
  unfold State.gromStore
  split <;> rfl

theorem writeRegion_offBus (s : State) (e v : Word) (r : Region) : (writeRegion s e v r).offBus = s.offBus := by
  cases r <;> try first | rfl | exact writeBacked_offBus s e v
  unfold writeRegion
  dsimp only
  split
  · rfl
  · unfold State.gromDataWrite
    exact gromStore_offBus s _ _

@[simp] theorem busRead_offBus (s : State) (a : Word) : (busRead s a).2.offBus = s.offBus :=
  readRegion_offBus s (even a) _

@[simp] theorem busWrite_offBus (s : State) (a v : Word) : (busWrite s a v).offBus = s.offBus :=
  writeRegion_offBus s (even a) v _

/-- Two states with equal `offBus` agree on every field no bus access changes. -/
theorem offBus_fields {s t : State} (h : t.offBus = s.offBus) :
    t.pc = s.pc ∧ t.wp = s.wp ∧ t.st = s.st ∧ t.idle = s.idle ∧ t.stopped = s.stopped ∧ t.breakpoint = s.breakpoint ∧
    t.auxBreakpoint = s.auxBreakpoint ∧ t.illegalCount = s.illegalCount ∧ t.expRamPresent = s.expRamPresent ∧
    t.overlay0 = s.overlay0 ∧ t.overlay1 = s.overlay1 ∧ t.overlay2 = s.overlay2 ∧ t.overlay3 = s.overlay3 ∧
    t.rom = s.rom ∧ t.gromWritable = s.gromWritable ∧ t.cru = s.cru ∧ t.timerInt = s.timerInt ∧ t.wiring = s.wiring ∧
    t.xPending = s.xPending := by
  simp only [State.offBus, State.mk.injEq] at h
  tauto

@[simp] theorem busRead_pc (s : State) (a : Word) : (busRead s a).2.pc = s.pc := by
  have h := congrArg State.pc (busRead_offBus s a); exact h
@[simp] theorem busRead_wp (s : State) (a : Word) : (busRead s a).2.wp = s.wp := by
  have h := congrArg State.wp (busRead_offBus s a); exact h
@[simp] theorem busRead_st (s : State) (a : Word) : (busRead s a).2.st = s.st := by
  have h := congrArg State.st (busRead_offBus s a); exact h
@[simp] theorem busRead_idle (s : State) (a : Word) : (busRead s a).2.idle = s.idle := by
  have h := congrArg State.idle (busRead_offBus s a); exact h
@[simp] theorem busRead_stopped (s : State) (a : Word) : (busRead s a).2.stopped = s.stopped := by
  have h := congrArg State.stopped (busRead_offBus s a); exact h
@[simp] theorem busRead_breakpoint (s : State) (a : Word) : (busRead s a).2.breakpoint = s.breakpoint := by
  have h := congrArg State.breakpoint (busRead_offBus s a); exact h
@[simp] theorem busRead_auxBreakpoint (s : State) (a : Word) : (busRead s a).2.auxBreakpoint = s.auxBreakpoint := by
  have h := congrArg State.auxBreakpoint (busRead_offBus s a); exact h
@[simp] theorem busRead_illegalCount (s : State) (a : Word) : (busRead s a).2.illegalCount = s.illegalCount := by
  have h := congrArg State.illegalCount (busRead_offBus s a); exact h
@[simp] theorem busRead_expRamPresent (s : State) (a : Word) : (busRead s a).2.expRamPresent = s.expRamPresent := by
  have h := congrArg State.expRamPresent (busRead_offBus s a); exact h
@[simp] theorem busRead_overlay0 (s : State) (a : Word) : (busRead s a).2.overlay0 = s.overlay0 := by
  have h := congrArg State.overlay0 (busRead_offBus s a); exact h
@[simp] theorem busRead_overlay1 (s : State) (a : Word) : (busRead s a).2.overlay1 = s.overlay1 := by
  have h := congrArg State.overlay1 (busRead_offBus s a); exact h
@[simp] theorem busRead_overlay2 (s : State) (a : Word) : (busRead s a).2.overlay2 = s.overlay2 := by
  have h := congrArg State.overlay2 (busRead_offBus s a); exact h
@[simp] theorem busRead_overlay3 (s : State) (a : Word) : (busRead s a).2.overlay3 = s.overlay3 := by
  have h := congrArg State.overlay3 (busRead_offBus s a); exact h
@[simp] theorem busRead_rom (s : State) (a : Word) : (busRead s a).2.rom = s.rom := by
  have h := congrArg State.rom (busRead_offBus s a); exact h
@[simp] theorem busRead_gromWritable (s : State) (a : Word) : (busRead s a).2.gromWritable = s.gromWritable := by
  have h := congrArg State.gromWritable (busRead_offBus s a); exact h
@[simp] theorem busRead_cru (s : State) (a : Word) : (busRead s a).2.cru = s.cru := by
  have h := congrArg State.cru (busRead_offBus s a); exact h
@[simp] theorem busRead_timerInt (s : State) (a : Word) : (busRead s a).2.timerInt = s.timerInt := by
  have h := congrArg State.timerInt (busRead_offBus s a); exact h
@[simp] theorem busRead_wiring (s : State) (a : Word) : (busRead s a).2.wiring = s.wiring := by
  have h := congrArg State.wiring (busRead_offBus s a); exact h
@[simp] theorem busRead_xPending (s : State) (a : Word) : (busRead s a).2.xPending = s.xPending := by
  have h := congrArg State.xPending (busRead_offBus s a); exact h
@[simp] theorem busWrite_pc (s : State) (a v : Word) : (busWrite s a v).pc = s.pc := by
  have h := congrArg State.pc (busWrite_offBus s a v); exact h
@[simp] theorem busWrite_wp (s : State) (a v : Word) : (busWrite s a v).wp = s.wp := by
  have h := congrArg State.wp (busWrite_offBus s a v); exact h
@[simp] theorem busWrite_st (s : State) (a v : Word) : (busWrite s a v).st = s.st := by
  have h := congrArg State.st (busWrite_offBus s a v); exact h
@[simp] theorem busWrite_idle (s : State) (a v : Word) : (busWrite s a v).idle = s.idle := by
  have h := congrArg State.idle (busWrite_offBus s a v); exact h
@[simp] theorem busWrite_stopped (s : State) (a v : Word) : (busWrite s a v).stopped = s.stopped := by
  have h := congrArg State.stopped (busWrite_offBus s a v); exact h
@[simp] theorem busWrite_breakpoint (s : State) (a v : Word) : (busWrite s a v).breakpoint = s.breakpoint := by
  have h := congrArg State.breakpoint (busWrite_offBus s a v); exact h
@[simp] theorem busWrite_auxBreakpoint (s : State) (a v : Word) : (busWrite s a v).auxBreakpoint = s.auxBreakpoint := by
  have h := congrArg State.auxBreakpoint (busWrite_offBus s a v); exact h
@[simp] theorem busWrite_illegalCount (s : State) (a v : Word) : (busWrite s a v).illegalCount = s.illegalCount := by
  have h := congrArg State.illegalCount (busWrite_offBus s a v); exact h
@[simp] theorem busWrite_expRamPresent (s : State) (a v : Word) : (busWrite s a v).expRamPresent = s.expRamPresent := by
  have h := congrArg State.expRamPresent (busWrite_offBus s a v); exact h
@[simp] theorem busWrite_overlay0 (s : State) (a v : Word) : (busWrite s a v).overlay0 = s.overlay0 := by
  have h := congrArg State.overlay0 (busWrite_offBus s a v); exact h
@[simp] theorem busWrite_overlay1 (s : State) (a v : Word) : (busWrite s a v).overlay1 = s.overlay1 := by
  have h := congrArg State.overlay1 (busWrite_offBus s a v); exact h
@[simp] theorem busWrite_overlay2 (s : State) (a v : Word) : (busWrite s a v).overlay2 = s.overlay2 := by
  have h := congrArg State.overlay2 (busWrite_offBus s a v); exact h
@[simp] theorem busWrite_overlay3 (s : State) (a v : Word) : (busWrite s a v).overlay3 = s.overlay3 := by
  have h := congrArg State.overlay3 (busWrite_offBus s a v); exact h
@[simp] theorem busWrite_rom (s : State) (a v : Word) : (busWrite s a v).rom = s.rom := by
  have h := congrArg State.rom (busWrite_offBus s a v); exact h
@[simp] theorem busWrite_gromWritable (s : State) (a v : Word) : (busWrite s a v).gromWritable = s.gromWritable := by
  have h := congrArg State.gromWritable (busWrite_offBus s a v); exact h
@[simp] theorem busWrite_cru (s : State) (a v : Word) : (busWrite s a v).cru = s.cru := by
  have h := congrArg State.cru (busWrite_offBus s a v); exact h
@[simp] theorem busWrite_timerInt (s : State) (a v : Word) : (busWrite s a v).timerInt = s.timerInt := by
  have h := congrArg State.timerInt (busWrite_offBus s a v); exact h
@[simp] theorem busWrite_wiring (s : State) (a v : Word) : (busWrite s a v).wiring = s.wiring := by
  have h := congrArg State.wiring (busWrite_offBus s a v); exact h
@[simp] theorem busWrite_xPending (s : State) (a v : Word) : (busWrite s a v).xPending = s.xPending := by
  have h := congrArg State.xPending (busWrite_offBus s a v); exact h

/-! ## The memory map -/

/-- The cartridge without what the memory map does not depend on. -/
def Cartridge.mapPart (c : Cartridge) : Cartridge :=
  { c with
    rom := ⟨0, .empty⟩, ram := c.ram.map fun m => ⟨m.len, .empty⟩, groms := [], cg := .reset }

/-- The card without what the memory map does not depend on. -/
def Card.mapPart (c : Card) : Card :=
  { c with
    dsr := c.dsr.map fun d => { d with image := ⟨0, .empty⟩ }
    horizon := c.horizon.map fun h => { h with dsrRam := ⟨h.dsrRam.len, .empty⟩, pagedRam := .empty } }

theorem Card.servesDsr_mapPart (c : Card) : c.mapPart.servesDsr = c.servesDsr := by
  cases c with | mk id enabled dsr horizon => cases dsr <;> cases horizon <;> rfl

theorem Card.servesCart_mapPart (c : Card) : c.mapPart.servesCart = c.servesCart := by
  cases c with | mk id enabled dsr horizon => cases dsr <;> cases horizon <;> rfl

theorem findIdx_mapPart (l : List Card) (p : Card → Bool) (hp : ∀ c, p c.mapPart = p c) :
    (l.map Card.mapPart).findIdx? p = l.findIdx? p := by
  rw [List.findIdx?_map]
  congr 1
  funext c
  exact hp c

/-- The memory map depends on the configuration flags and on the `mapPart` of cartridge and cards only. -/
theorem sameMap_of_parts {s t : State} (h : t.offBus = s.offBus) (hc : t.cart.map Cartridge.mapPart = s.cart.map Cartridge.mapPart)
    (hk : t.cards.map Card.mapPart = s.cards.map Card.mapPart) : SameMap s t := by
  obtain ⟨-, -, -, -, -, -, -, -, hx, h0, h1, h2, h3, -⟩ := offBus_fields h
  have hr : ∀ a, regionOf t a = regionOf s a := by
    intro a
    have hd : dsrRegion t = dsrRegion s := by
      unfold dsrRegion
      rw [h1, ← findIdx_mapPart t.cards _ Card.servesDsr_mapPart, hk, findIdx_mapPart _ _ Card.servesDsr_mapPart]
    have hs : t.cart.isSome = s.cart.isSome := by
      have := congrArg Option.isSome hc
      simpa using this
    have hw : cartRegion t = cartRegion s := by
      unfold cartRegion
      rw [← findIdx_mapPart t.cards _ Card.servesCart_mapPart, hk, findIdx_mapPart _ _ Card.servesCart_mapPart, hs]
    unfold regionOf expansionRegion
    rw [h0, hx, hd, hw]
  intro a
  refine ⟨hr a, ?_⟩
  unfold locate
  rw [hr]
  have hcard : ∀ i : Nat, (t.cards[i]?).map Card.mapPart = (s.cards[i]?).map Card.mapPart := by
    intro i
    rw [← List.getElem?_map, ← List.getElem?_map, hk]
  generalize regionOf s (even a) = r
  cases r <;> try rfl
  · rename_i i
    have hi := hcard i
    unfold locateIn
    cases ht : t.cards[i]? <;> cases hs : s.cards[i]? <;> simp only [ht, hs, Option.map_some, Option.map_none, reduceCtorEq, Option.some.injEq] at hi ⊢
    rename_i c d
    obtain ⟨_, _, cd, ch⟩ := c
    obtain ⟨_, _, dd, dh⟩ := d
    simp only [Card.mapPart, Card.mk.injEq] at hi
    obtain ⟨-, -, hdsr, hhor⟩ := hi
    cases ch <;> cases dh <;> simp only [Option.map_some, Option.map_none, reduceCtorEq, Option.some.injEq] at hhor ⊢
    · cases cd <;> cases dd <;> simp only [Option.map_some, Option.map_none, reduceCtorEq, Option.some.injEq] at hdsr ⊢
      rename_i d1 d2
      obtain ⟨i1, b1⟩ := d1
      obtain ⟨i2, b2⟩ := d2
      simp only [DsrRom.mk.injEq] at hdsr
      obtain ⟨-, rfl⟩ := hdsr
      rfl
    · rename_i g1 g2
      cases g1; cases g2
      simp only [Horizon.mk.injEq, Block.mk.injEq] at hhor
      obtain ⟨rfl, rfl, rfl, rfl, ⟨hl1, -⟩, -, rfl, rfl, rfl, rfl, rfl, rfl, rfl⟩ := hhor
      unfold Horizon.dsrLoc Horizon.paged Block.place
      simp only [hl1]
  · rename_i i
    have hi := hcard i
    unfold locateIn
    cases ht : t.cards[i]? <;> cases hs : s.cards[i]? <;> simp only [ht, hs, Option.map_some, Option.map_none, reduceCtorEq, Option.some.injEq] at hi ⊢
    rename_i c d
    obtain ⟨_, _, cd, ch⟩ := c
    obtain ⟨_, _, dd, dh⟩ := d
    simp only [Card.mapPart, Card.mk.injEq] at hi
    obtain ⟨-, -, -, hhor⟩ := hi
    cases ch <;> cases dh <;> simp only [Option.map_some, Option.map_none, reduceCtorEq, Option.some.injEq] at hhor ⊢
    rename_i g1 g2
    cases g1; cases g2
    simp only [Horizon.mk.injEq, Block.mk.injEq] at hhor
    obtain ⟨rfl, rfl, rfl, rfl, ⟨hl1, -⟩, -, rfl, rfl, rfl, rfl, rfl, rfl, rfl⟩ := hhor
    rfl
  · unfold locateIn
    cases ht : t.cart <;> cases hs : s.cart <;> simp only [ht, hs, Option.map_some, Option.map_none, reduceCtorEq, Option.some.injEq] at hc ⊢
    rename_i c d
    obtain ⟨_, cr, _, _, _, _, _, _, _, _, _, _⟩ := c
    obtain ⟨_, dr, _, _, _, _, _, _, _, _, _, _⟩ := d
    simp only [Cartridge.mapPart, Cartridge.mk.injEq] at hc
    obtain ⟨-, hram, rfl, rfl, rfl, rfl, rfl, rfl, -, -, rfl, rfl⟩ := hc
    cases cr <;> cases dr <;> simp only [Option.map_some, Option.map_none, reduceCtorEq, Option.some.injEq] at hram ⊢
    · unfold cartRoutesRam Cartridge.romOffset Cartridge.ramOffset
      simp [h2, h3]
    · rename_i m1 m2
      simp only [Block.mk.injEq, and_true] at hram
      unfold cartRoutesRam Cartridge.romOffset Cartridge.ramOffset Block.place
      simp [h2, h3, hram]

theorem SameMap.refl (s : State) : SameMap s s := fun _ => ⟨rfl, rfl⟩

theorem SameMap.trans {s t u : State} (h : SameMap s t) (k : SameMap t u) : SameMap s u :=
  fun a => ⟨(k a).1.trans (h a).1, (k a).2.trans (h a).2⟩

end Sys2Proof.Machine
end

