-- ==== Sys2Proof/Laws/Cells.lean ====
section
/-! SUPPORT. Which byte cells a bus access changes, and read after write. -/

namespace Sys2Proof.Machine

/-! ## Accesses that keep the memory map -/

theorem gromBoth_parts (s : State) (sel : Nat) (f : GromLatch → (Word → Byte) → GromLatch) :
    (s.gromBoth sel f).cart.map Cartridge.mapPart = s.cart.map Cartridge.mapPart := by
  unfold State.gromBoth
  cases s.cart with
  | none => rfl
  | some c =>
    simp only [Option.map_some]
    congr 1
    split <;> rfl

@[simp] theorem Cartridge.gromStore_rom (c : Cartridge) (sel : Nat) (g : Word) (b : Byte) :
    (c.gromStore sel g b).rom = c.rom := by
  unfold Cartridge.gromStore; split <;> rfl

@[simp] theorem Cartridge.gromStore_ram (c : Cartridge) (sel : Nat) (g : Word) (b : Byte) :
    (c.gromStore sel g b).ram = c.ram := by
  unfold Cartridge.gromStore; split <;> rfl

theorem gromStore_parts (s : State) (sel : Nat) (b : Byte) :
    (s.gromStore sel b).cart.map Cartridge.mapPart = s.cart.map Cartridge.mapPart := by
  unfold State.gromStore
  split
  · cases s.cart with
    | none => rfl
    | some c =>
      simp only [Option.map_some]
      congr 1
      split
      · unfold Cartridge.gromStore
        split <;> rfl
      · rfl
  · rfl

theorem readRegion_map (s : State) (e : Word) (r : Region) : SameMap s (readRegion s e r).2 := by
  apply sameMap_of_parts (readRegion_offBus s e r)
  · cases r <;> try rfl
    unfold readRegion
    dsimp only
    split <;> exact gromBoth_parts s _ _
  · cases r <;> try rfl
    unfold readRegion
    dsimp only
    split <;> rfl

theorem busRead_map (s : State) (a : Word) : SameMap s (busRead s a).2 := readRegion_map s (even a) _

theorem modify_mapPart (l : List Card) (i : Nat) (f : Card → Card) (hf : ∀ c, (f c).mapPart = c.mapPart) :
    (l.modify i f).map Card.mapPart = l.map Card.mapPart := by
  apply List.ext_getElem?
  intro j
  rw [List.getElem?_map, List.getElem?_modify, List.getElem?_map]
  cases l[j]? with
  | none => split <;> rfl
  | some c => split <;> simp [hf]

theorem writeStore_map (s : State) (o : Nat) (b : Byte) (st : Store) (h : st.isRam = true) : SameMap s (writeStore s o b st) := by
  cases st <;> try cases h
  all_goals refine sameMap_of_parts (s := s) (t := writeStore s o b _) rfl ?_ ?_
  all_goals try rfl
  · cases hs : s.cart with
    | none => simp [writeStore, hs]
    | some c =>
      obtain ⟨_, cr, _, _, _, _, _, _, _, _, _, _⟩ := c
      cases cr <;> simp [writeStore, hs, Cartridge.mapPart]
  · apply modify_mapPart
    intro c
    obtain ⟨_, _, _, ch⟩ := c
    cases ch <;> simp [Card.mapPart]
  · apply modify_mapPart
    intro c
    obtain ⟨_, _, _, ch⟩ := c
    cases ch <;> simp [Card.mapPart]

theorem storeByte_map (s : State) (a : Word) (b : Byte) : SameMap s (storeByte s a b) := by
  unfold storeByte
  split
  · split
    · rename_i h
      exact writeStore_map s _ b _ h
    · exact .refl s
  · exact .refl s

theorem storeWord_map (s : State) (e v : Word) : SameMap s (storeWord s e v) :=
  (storeByte_map s e _).trans (storeByte_map _ _ _)

theorem emitPersist_map (s : State) (i : Nat) : SameMap s (emitPersist s i) := by
  unfold emitPersist
  split
  · exact fun _ => ⟨rfl, rfl⟩
  · exact .refl s

/-- A word write keeps the memory map, unless it is routed to cartridge ROM, where it selects a bank (R753). -/
theorem busWrite_map (s : State) (a v : Word) (h : ∀ o, locate s (even a) ≠ some (.cartRom, o)) :
    SameMap s (busWrite s a v) := by
  have key : SameMap s (writeRegion s (even a) v (regionOf s (even a))) := by
    have hb : SameMap s (writeBacked s (even a) v) := by
      unfold writeBacked
      split
      · rename_i o hl
        exact absurd hl (h o)
      · split
        · split
          · exact (storeWord_map s _ _).trans (emitPersist_map _ _)
          · exact storeWord_map s _ _
        · exact .refl s
      · exact .refl s
    unfold writeRegion
    split
    · exact fun _ => ⟨rfl, rfl⟩
    · exact fun _ => ⟨rfl, rfl⟩
    · exact fun _ => ⟨rfl, rfl⟩
    · split
      · exact sameMap_of_parts rfl (gromBoth_parts s _ _) rfl
      · refine SameMap.trans (t := s.gromStore (gromSelect (even a)) (hiByte v)) ?_ ?_
        · refine sameMap_of_parts (gromStore_offBus s _ _) (gromStore_parts s _ _) ?_
          unfold State.gromStore
          split <;> rfl
        · exact sameMap_of_parts rfl (gromBoth_parts _ _ _) rfl
    · exact .refl s
    · exact .refl s
    · exact .refl s
    · exact hb
  exact fun b => key b

/-! ## Cells -/

theorem cellAt_gromBoth (s : State) (sel : Nat) (f : GromLatch → (Word → Byte) → GromLatch) (c : CellRef) :
    cellAt (s.gromBoth sel f) c = cellAt s c := by
  obtain ⟨st, o⟩ := c
  unfold cellAt State.gromBoth
  cases st <;> try rfl
  all_goals
    unfold readStore
    cases s.cart with
    | none => rfl
    | some c =>
      simp only [Option.map_some]
      by_cases hg : c.hasGrom = true <;> simp [hg]

theorem cellAt_gromStore (s : State) (sel : Nat) (b : Byte) (c : CellRef) :
    cellAt (s.gromStore sel b) c = cellAt s c := by
  obtain ⟨st, o⟩ := c
  unfold cellAt State.gromStore
  split
  · cases st <;> try rfl
    all_goals
      unfold readStore
      cases s.cart with
      | none => rfl
      | some c =>
        simp only [Option.map_some]
        by_cases hg : c.hasGrom = true <;> simp [hg]
  · rfl

/-- A bus read changes no byte of memory. -/
@[simp] theorem cellAt_busRead (s : State) (a : Word) (c : CellRef) : cellAt (busRead s a).2 c = cellAt s c := by
  have key : ∀ r, cellAt (readRegion s (even a) r).2 c = cellAt s c := by
    intro r
    cases r <;> try rfl
    unfold readRegion
    dsimp only
    split <;> exact cellAt_gromBoth s _ _ c
  exact key _

/-- A store changes its own cell only. -/
theorem cellAt_writeStore_other (s : State) (o : Nat) (b : Byte) (st : Store) (c : CellRef) (h : c ≠ (st, o)) :
    cellAt (writeStore s o b st) c = cellAt s c := by
  obtain ⟨st', o'⟩ := c
  by_cases hst : st' = st
  · subst hst
    have ho : o' ≠ o := fun e => h (by rw [e])
    cases st' <;> unfold cellAt writeStore readStore <;> dsimp only [State.mapCart, State.mapCard]
    iterate 5 exact Memory.read_write_other _ _ _ _ ho
    · cases s.cart <;> simp [Block.read_write_other _ _ _ _ ho]
    · cases s.cart with
      | none => rfl
      | some c => cases hr : c.ram <;> simp [hr, Block.read_write_other _ _ _ _ ho]
    · rename_i i
      simp only [List.getElem?_modify, if_true]
      cases s.cards[i]? with
      | none => rfl
      | some c => cases hd : c.dsr <;> simp [hd, Block.read_write_other _ _ _ _ ho]
    · rename_i i
      simp only [List.getElem?_modify, if_true]
      cases s.cards[i]? with
      | none => rfl
      | some c => cases hd : c.horizon <;> simp [hd, Block.read_write_other _ _ _ _ ho]
    · rename_i i
      simp only [List.getElem?_modify, if_true]
      cases s.cards[i]? with
      | none => rfl
      | some c => cases hd : c.horizon <;> simp [hd, Block.read_write_other _ _ _ _ ho]
  · cases st <;> cases st' <;> first | exact absurd rfl hst | rfl | skip
    all_goals unfold cellAt writeStore readStore; dsimp only [State.mapCart, State.mapCard]
    all_goals first
      | (cases s.cart <;> rfl)
      | skip
    all_goals
      rename_i i j
      simp only [List.getElem?_modify]
      by_cases hij : i = j
      · subst hij
        first
          | exact absurd rfl hst
          | (cases s.cards[i]? with
             | none => rfl
             | some c => cases hh : c.horizon <;> cases hd : c.dsr <;> simp [hh, hd])
      · simp [hij]

end Sys2Proof.Machine
end

