-- ==== Sys2Proof/Laws/Flags.lean ====
section
/-! SUPPORT. What each flag computation gives and which bits of ST it leaves. -/

namespace Sys2Proof.Machine

/-! ## Single bits -/

theorem putBit_getLsbD (w : Word) (i j : Nat) (v : Bool) (hi : i < 16) :
    (putBit w i v).getLsbD j = if j = i then v else w.getLsbD j := by
  unfold putBit
  by_cases hj : j < 16
  · cases v
    · simp only [Bool.false_eq_true, if_false, BitVec.getLsbD_and, BitVec.getLsbD_not, BitVec.getLsbD_shiftLeft, hj]
      by_cases h : j = i
      · subst h; simp
      · have : ¬ (j - i = 0 ∧ i ≤ j) := by omega
        by_cases hle : j < i
        · simp [h, hle]
        · have : j - i ≠ 0 := by omega
          simp [h, this]
    · simp only [if_true, BitVec.getLsbD_or, BitVec.getLsbD_shiftLeft, hj]
      by_cases h : j = i
      · subst h; simp
      · by_cases hle : j < i
        · simp [h, hle]
        · have : j - i ≠ 0 := by omega
          simp [h, this]
  · have hne : j ≠ i := by omega
    rw [BitVec.getLsbD_of_ge _ _ (by omega), if_neg hne, BitVec.getLsbD_of_ge _ _ (by omega)]

theorem putEQ_getLsbD (w : Word) (j : Nat) (v : Bool) : (putEQ w v).getLsbD j = if j = 13 then v else w.getLsbD j :=
  putBit_getLsbD w 13 j v (by omega)

theorem putC_getLsbD (w : Word) (j : Nat) (v : Bool) : (putC w v).getLsbD j = if j = 12 then v else w.getLsbD j :=
  putBit_getLsbD w 12 j v (by omega)

theorem putOV_getLsbD (w : Word) (j : Nat) (v : Bool) : (putOV w v).getLsbD j = if j = 11 then v else w.getLsbD j :=
  putBit_getLsbD w 11 j v (by omega)

theorem putOP_getLsbD (w : Word) (j : Nat) (v : Bool) : (putOP w v).getLsbD j = if j = 10 then v else w.getLsbD j :=
  putBit_getLsbD w 10 j v (by omega)

theorem putX_getLsbD (w : Word) (j : Nat) (v : Bool) : (putX w v).getLsbD j = if j = 9 then v else w.getLsbD j :=
  putBit_getLsbD w 9 j v (by omega)

theorem putLAE_getLsbD (w : Word) (j : Nat) (l a e : Bool) :
    (putLAE w l a e).getLsbD j = if j = 13 then e else if j = 14 then a else if j = 15 then l else w.getLsbD j := by
  unfold putLAE
  rw [putEQ_getLsbD, putBit_getLsbD _ _ _ _ (by omega), putBit_getLsbD _ _ _ _ (by omega)]

theorem putCOV_getLsbD (w : Word) (j : Nat) (c v : Bool) :
    (putCOV w c v).getLsbD j = if j = 11 then v else if j = 12 then c else w.getLsbD j := by
  unfold putCOV
  rw [putOV_getLsbD, putC_getLsbD]

theorem putMask_getLsbD (w : Word) (m : BitVec 4) (j : Nat) :
    (putMask w m).getLsbD j = if j < 4 then m.getLsbD j else w.getLsbD j := by
  unfold putMask
  rw [BitVec.getLsbD_append]
  split
  · rfl
  · rw [BitVec.getLsbD_extractLsb']
    by_cases h : j < 16
    · have : j - 4 < 12 := by omega
      simp [this]
      congr 1
      omega
    · rw [BitVec.getLsbD_of_ge w j (by omega)]
      have : ¬ j - 4 < 12 := by omega
      simp [this]

/-! ## Bits left alone -/

/-- `agreeOff` bit by bit. -/
theorem agreeOff_iff (m a b : Word) :
    agreeOff m a b ↔ ∀ j, j < 16 → m.getLsbD j = false → b.getLsbD j = a.getLsbD j := by
  unfold agreeOff
  constructor
  · intro h j hj hm
    have := congrArg (fun w : Word => w.getLsbD j) h
    simp only [BitVec.getLsbD_and, BitVec.getLsbD_not, hj, hm, decide_true, Bool.not_false, Bool.and_true] at this
    exact this
  · intro h
    apply BitVec.eq_of_getLsbD_eq
    intro j hj
    rw [BitVec.getLsbD_and, BitVec.getLsbD_and, BitVec.getLsbD_not]
    cases hm : m.getLsbD j
    · rw [h j hj hm]
    · simp only [Bool.not_true, Bool.and_false]

theorem agreeOff.refl (m a : Word) : agreeOff m a a := rfl

theorem agreeOff.trans {m a b c : Word} (h : agreeOff m a b) (k : agreeOff m b c) : agreeOff m a c := Eq.trans k h

theorem agreeOff_mono {m n a b : Word} (h : agreeOff m a b) (hmn : ∀ j, j < 16 → n.getLsbD j = false → m.getLsbD j = false) :
    agreeOff n a b := by
  rw [agreeOff_iff] at *
  exact fun j hj hn => h j hj (hmn j hj hn)

/-- Writing one bit agrees off every mask that holds it. -/
theorem agreeOff_putBit (m w : Word) (i : Nat) (v : Bool) (hi : i < 16) (hm : m.getLsbD i = true) :
    agreeOff m w (putBit w i v) := by
  rw [agreeOff_iff]
  intro j _ hj
  rw [putBit_getLsbD _ _ _ _ hi, if_neg]
  rintro rfl
  simp [hm] at hj

theorem agreeOff_putLAE (m w : Word) (l a e : Bool) (h15 : m.getLsbD 15 = true) (h14 : m.getLsbD 14 = true)
    (h13 : m.getLsbD 13 = true) : agreeOff m w (putLAE w l a e) :=
  ((agreeOff_putBit m w 15 l (by omega) h15).trans (agreeOff_putBit m _ 14 a (by omega) h14)).trans
    (agreeOff_putBit m _ 13 e (by omega) h13)

theorem agreeOff_putCOV (m w : Word) (c v : Bool) (h12 : m.getLsbD 12 = true) (h11 : m.getLsbD 11 = true) :
    agreeOff m w (putCOV w c v) :=
  (agreeOff_putBit m w 12 c (by omega) h12).trans (agreeOff_putBit m _ 11 v (by omega) h11)

theorem agreeOff_putMask (w : Word) (k : BitVec 4) : agreeOff 0x000F w (putMask w k) := by
  rw [agreeOff_iff]
  intro j hj hm
  rw [putMask_getLsbD]
  split
  · rename_i h
    have : ∀ i : Fin 4, (0x000F : Word).getLsbD i.val = true := by decide
    rw [this ⟨j, h⟩] at hm
    cases hm
  · rfl

@[simp] theorem stMask_putMask (w : Word) (k : BitVec 4) : stMask (putMask w k) = k := by
  unfold stMask
  apply BitVec.eq_of_getLsbD_eq
  intro j hj
  rw [BitVec.getLsbD_extractLsb', Nat.zero_add, putMask_getLsbD]
  simp [hj]

/-! ## Comparisons -/

theorem laeAre_putLAE (w : Word) (l a e : Bool) : laeAre (putLAE w l a e) (l = true) (a = true) (e = true) := by
  unfold laeAre stL stA stEQ
  rw [putLAE_getLsbD, putLAE_getLsbD, putLAE_getLsbD]
  exact ⟨.rfl, .rfl, .rfl⟩

theorem toInt_pos_iff {n : Nat} (hn : 0 < n) (x : BitVec n) : 0 < x.toInt ↔ x ≠ 0#n ∧ x.msb = false := by
  have hx : x ≠ 0#n ↔ x.toNat ≠ 0 := by
    rw [ne_eq, ← BitVec.toNat_inj]; simp
  rw [hx, BitVec.msb_eq_decide, BitVec.toInt_eq_toNat_cond]
  have hp : 2 ^ n = 2 * 2 ^ (n - 1) := by
    rw [← Nat.pow_succ']; congr 1; omega
  have := x.isLt
  have hc : ((2 ^ n : Nat) : Int) = 2 ^ n := by norm_cast
  split
  · constructor
    · intro h
      refine ⟨by omega, ?_⟩
      simp; omega
    · intro h
      omega
  · constructor
    · intro h
      exfalso
      have : (x.toNat : Int) < (2 ^ n : Nat) := by exact_mod_cast x.isLt
      omega
    · rintro ⟨_, h⟩
      simp at h
      omega

theorem laeOf16_cmpZero16 (st r : Word) : laeOf16 (cmpZero16 st r) r := by
  have h := laeAre_putLAE st (decide (r ≠ 0)) (decide (r ≠ 0) && !r.getLsbD 15) (decide (r = 0))
  have hm : r.msb = r.getLsbD 15 := rfl
  unfold laeOf16 cmpZero16
  unfold laeAre at h ⊢
  refine ⟨h.1.trans (by simp), h.2.1.trans ?_, h.2.2.trans (by simp)⟩
  rw [toInt_pos_iff (by omega), hm]
  simp

theorem laeOf8_cmpZero8 (st : Word) (b : Byte) : laeOf8 (cmpZero8 st b) b := by
  have h := laeAre_putLAE st (decide (b ≠ 0)) (decide (b ≠ 0) && !b.getLsbD 7) (decide (b = 0))
  have hm : b.msb = b.getLsbD 7 := rfl
  unfold laeAre stL stA stEQ at h
  unfold laeOf8 cmpZero8 laeAre stL stA stEQ stOP
  rw [putOP_getLsbD, putOP_getLsbD, putOP_getLsbD, putOP_getLsbD]
  refine ⟨⟨?_, ?_, ?_⟩, ?_⟩
  · simpa using h.1
  · rw [toInt_pos_iff (by omega), hm]
    simpa using h.2.1
  · simpa using h.2.2
  · simp [parity8]

theorem agreeOff_cmpZero16 (m st r : Word) (h15 : m.getLsbD 15 = true) (h14 : m.getLsbD 14 = true)
    (h13 : m.getLsbD 13 = true) : agreeOff m st (cmpZero16 st r) := agreeOff_putLAE m st _ _ _ h15 h14 h13

theorem agreeOff_cmpZero8 (m st : Word) (b : Byte) (h15 : m.getLsbD 15 = true) (h14 : m.getLsbD 14 = true)
    (h13 : m.getLsbD 13 = true) (h10 : m.getLsbD 10 = true) : agreeOff m st (cmpZero8 st b) :=
  (agreeOff_putLAE m st _ _ _ h15 h14 h13).trans (agreeOff_putBit m _ 10 _ (by omega) h10)

theorem laeAre_cmp (n : Nat) (st : Word) (x y : BitVec n) :
    laeAre (putLAE st (y.ult x) (y.slt x) (decide (x = y))) (y.toNat < x.toNat) (y.toInt < x.toInt) (x = y) := by
  have h := laeAre_putLAE st (y.ult x) (y.slt x) (decide (x = y))
  unfold laeAre at h ⊢
  refine ⟨h.1.trans ?_, h.2.1.trans ?_, h.2.2.trans ?_⟩
  · simp [BitVec.ult]
  · simp [BitVec.slt]
  · simp

/-! ## Sums -/

theorem carryOverflow_putCOV (st : Word) (c v : Bool) : carryOverflow (putCOV st c v) (c = true) (v = true) := by
  unfold carryOverflow stC stOV
  rw [putCOV_getLsbD, putCOV_getLsbD]
  exact ⟨.rfl, .rfl⟩

/-- Writing C and OV leaves L, A and EQ. -/
theorem laeAre_putCOV {st : Word} {l a e : Prop} (c v : Bool) (h : laeAre st l a e) : laeAre (putCOV st c v) l a e := by
  unfold laeAre stL stA stEQ at *
  rw [putCOV_getLsbD, putCOV_getLsbD, putCOV_getLsbD]
  exact h

theorem stOP_putCOV (st : Word) (c v : Bool) : stOP (putCOV st c v) = stOP st := by
  unfold stOP
  rw [putCOV_getLsbD]
  rfl

/-- The sign rule of R445 for addition is the range rule. -/
theorem addN_ovf_iff {n : Nat} (x y : BitVec n) :
    (addN x y).ovf = true ↔ outOfRange n (x.toInt + y.toInt) := by
  have h := BitVec.saddOverflow_eq x y
  have hd : x.saddOverflow y = true ↔ outOfRange n (x.toInt + y.toInt) := by
    unfold BitVec.saddOverflow outOfRange
    simp only [Bool.or_eq_true, decide_eq_true_eq]
    constructor <;> rintro (h | h) <;> first | exact .inl h | exact .inr h
  rw [← hd, h]
  unfold addN
  cases x.msb <;> cases y.msb <;> cases (x + y).msb <;> simp_all

/-- The sign rule of R445 for subtraction is the range rule. -/
theorem subN_ovf_iff {n : Nat} (d x : BitVec n) :
    (subN d x).ovf = true ↔ outOfRange n (d.toInt - x.toInt) := by
  have h := BitVec.ssubOverflow_eq d x
  have hd : d.ssubOverflow x = true ↔ outOfRange n (d.toInt - x.toInt) := by
    unfold BitVec.ssubOverflow outOfRange
    simp only [Bool.or_eq_true, decide_eq_true_eq]
    constructor <;> rintro (h | h) <;> first | exact .inl h | exact .inr h
  rw [← hd, h]
  unfold subN
  cases d.msb <;> cases x.msb <;> cases (d - x).msb <;> simp_all

end Sys2Proof.Machine
end

