-- ==== Sys2Proof/Laws/ReadWrite.lean ====
section
/-! SUPPORT. Read after write on the bus, and the frame of a bus access over the byte cells and over the addresses. -/

namespace Sys2Proof.Machine

/-! ## The byte at an address that is no port -/

/-- The region is one of the ports. -/
def Region.isPort : Region → Bool
  | .sound | .vdpRead | .vdpWrite | .speechRead | .speechWrite | .gromRead | .gromWrite => true
  | _ => false

theorem expansionRegion_isPort (s : State) : (expansionRegion s).isPort = false := by
  unfold expansionRegion; split <;> rfl

theorem dsrRegion_isPort (s : State) : (dsrRegion s).isPort = false := by
  unfold dsrRegion
  split
  · rfl
  · split <;> rfl

theorem cartRegion_isPort (s : State) : (cartRegion s).isPort = false := by
  unfold cartRegion
  split
  · rfl
  · split <;> rfl

/-- The ports are the regions of 0x8400..0x9FFF (R221). -/
theorem regionOf_isPort (s : State) (a : Word) : (regionOf s (even a)).isPort = isPort a := by
  unfold regionOf isPort
  dsimp only
  generalize (even a).toNat = n
  have hx := expansionRegion_isPort s
  have hd := dsrRegion_isPort s
  have hc := cartRegion_isPort s
  generalize expansionRegion s = x at hx ⊢
  generalize dsrRegion s = d at hd ⊢
  generalize cartRegion s = c at hc ⊢
  rcases Nat.lt_or_ge n 0x8400 with hl | hl
  · rw [decide_eq_false (Nat.not_le.mpr hl), Bool.false_and]
    split
    · split <;> rfl
    · repeat' split
      all_goals first | assumption | rfl
  · rw [decide_eq_true hl, Bool.true_and]
    rcases Nat.lt_or_ge n 0xA000 with hh | hh
    · simp (disch := omega) only [if_neg]
      rw [if_pos hh, decide_eq_true hh]
      repeat' split
      all_goals rfl
    · simp (disch := omega) only [if_neg]
      rw [hx, decide_eq_false (Nat.not_lt.mpr hh)]

/-- A read of a region that is no port delivers the word of the cells. -/
theorem readRegion_backed (s : State) (e : Word) (r : Region) (h : r.isPort = false) :
    readRegion s e r = (backedWord s e, s) := by
  cases r <;> first | rfl | cases h

/-- R216: for an address that is no port the inspection path gives the byte of the cell behind it, 0 where there is none. -/
theorem fastReadByte_backed (s : State) (a : Word) (h : isPort a = false) : fastReadByte s a = backedByte s a := by
  have hw : (readRegion s (even a) (regionOf s (even a))).1 = backedWord s (even a) := by
    rw [readRegion_backed _ _ _ ((regionOf_isPort s a).trans h)]
  unfold fastReadByte fastRead
  rw [hw]
  unfold byteOf backedWord
  rcases even_or_odd a with ⟨hl, he⟩ | ⟨hl, he⟩
  · simp only [hl, Bool.false_eq_true, if_false, hiByte_wordOf]
    rw [← he]
  · simp only [hl, if_true, loByte_wordOf]
    rw [← he]

/-- The second part of `MemoryKept` follows from the first. -/
theorem memoryKept_of_cells {s t : State} {l : List CellRef} (h : ∀ c : CellRef, c ∉ l → cellAt t c = cellAt s c) :
    MemoryKept s t l := by
  refine ⟨h, ?_⟩
  intro a hp hl hs
  rw [fastReadByte_backed t a hp, fastReadByte_backed s a hp]
  unfold backedByte
  rw [hl]
  cases hc : locate s a with
  | none => rfl
  | some c => exact h c (hs c hc)

theorem memoryKept_iff {s t : State} {l : List CellRef} :
    MemoryKept s t l ↔ ∀ c : CellRef, c ∉ l → cellAt t c = cellAt s c :=
  ⟨fun h => h.1, memoryKept_of_cells⟩

theorem MemoryKept.refl (s : State) : MemoryKept s s [] := memoryKept_of_cells fun _ _ => rfl

theorem MemoryKept.trans {s t u : State} {l m : List CellRef} (h : MemoryKept s t l) (k : MemoryKept t u m) :
    MemoryKept s u (l ++ m) := by
  rw [memoryKept_iff] at *
  intro c hc
  rw [List.mem_append, not_or] at hc
  rw [k c hc.2, h c hc.1]

theorem MemoryKept.mono {s t : State} {l m : List CellRef} (h : MemoryKept s t l) (hs : ∀ c ∈ l, c ∈ m) :
    MemoryKept s t m := by
  rw [memoryKept_iff] at *
  exact fun c hc => h c fun hl => hc (hs c hl)

/-! ## Bus accesses -/

theorem cellAt_storeByte_other (s : State) (a : Word) (b : Byte) (c : CellRef) (h : locate s a = some c → c.1.isRam = false) :
    cellAt (storeByte s a b) c = cellAt s c := by
  unfold storeByte
  split
  · rename_i st o hl
    split
    · rename_i hr
      apply cellAt_writeStore_other
      rintro rfl
      have := h hl
      simp [hr] at this
    · rfl
  · rfl

theorem mem_storedCells (s : State) (a : Word) (c : CellRef) :
    c ∈ storedCells s a ↔ (locate s (even a) = some c ∨ locate s (even a + 1) = some c) ∧ c.1.isRam = true := by
  unfold storedCells
  simp [List.mem_filter, Option.mem_toList, or_and_right]

theorem cellAt_storeWord_other (s : State) (a v : Word) (c : CellRef) (h : c ∉ storedCells s a) :
    cellAt (storeWord s (even a) v) c = cellAt s c := by
  rw [mem_storedCells] at h
  unfold storeWord
  rw [cellAt_storeByte_other, cellAt_storeByte_other]
  · intro hl
    by_contra hr
    exact h ⟨.inl hl, by simpa using hr⟩
  · rw [(storeByte_map s (even a) (hiByte v) _).2]
    intro hl
    by_contra hr
    exact h ⟨.inr hl, by simpa using hr⟩

theorem cellAt_emitPersist (s : State) (i : Nat) (c : CellRef) : cellAt (emitPersist s i) c = cellAt s c := by
  unfold emitPersist
  split <;> rfl

theorem cellAt_mapCart_romWrite (s : State) (e : Word) (c : CellRef) :
    cellAt (s.mapCart fun k => k.romWrite e) c = cellAt s c := by
  obtain ⟨st, o⟩ := c
  unfold cellAt
  cases st <;> try rfl
  all_goals
    unfold readStore State.mapCart
    cases s.cart with
    | none => rfl
    | some k =>
      simp only [Option.map_some]
      unfold Cartridge.romWrite
      split_ifs <;> rfl

theorem cellAt_writeBacked (s : State) (a v : Word) (c : CellRef) (h : c ∉ storedCells s a) :
    cellAt (writeBacked s (even a) v) c = cellAt s c := by
  unfold writeBacked
  split
  · exact cellAt_mapCart_romWrite s _ c
  · split
    · split
      · rw [cellAt_emitPersist, cellAt_storeWord_other s a v c h]
      · exact cellAt_storeWord_other s a v c h
    · rfl
  · rfl

/-- A bus write changes no byte of memory but those it stores to. -/
theorem cellAt_busWrite (s : State) (a v : Word) (c : CellRef) (h : c ∉ storedCells s a) :
    cellAt (busWrite s a v) c = cellAt s c := by
  have key : cellAt (writeRegion s (even a) v (regionOf s (even a))) c = cellAt s c := by
    unfold writeRegion
    split
    · rfl
    · rfl
    · rfl
    · split
      · exact cellAt_gromBoth s _ _ c
      · unfold State.gromDataWrite
        rw [cellAt_gromBoth, cellAt_gromStore]
    · rfl
    · rfl
    · rfl
    · exact cellAt_writeBacked s a v c h
  exact key

/-- A bus read keeps every byte of memory. -/
theorem busRead_kept (s : State) (a : Word) : MemoryKept s (busRead s a).2 [] :=
  memoryKept_of_cells fun c _ => cellAt_busRead s a c

/-- A bus write keeps every byte of memory but those it stores to. -/
theorem busWrite_kept (s : State) (a v : Word) : MemoryKept s (busWrite s a v) (storedCells s a) :=
  memoryKept_of_cells fun c h => cellAt_busWrite s a v c h

/-! ## Read after write -/

/-- The cell is inside its array. -/
def cellInside (s : State) : CellRef → Prop
  | (.cartRam, o) => ∃ c m, s.cart = some c ∧ c.ram = some m ∧ o < m.len
  | (.horizonDsr i, o) => ∃ c h, s.cards[i]? = some c ∧ c.horizon = some h ∧ o < h.dsrRam.len
  | (.horizonPaged i, o) => ∃ c h, s.cards[i]? = some c ∧ c.horizon = some h ∧ o < h.paged.len
  | (.rom, _) | (.cartRom, _) | (.dsrRom _, _) => False
  | _ => True

theorem Block.place_lt {m : Block} {x k o : Nat} (h : m.place x k = some o) : o < m.len := by
  unfold Block.place at h
  split at h
  · cases h
  · simp only [Option.some.injEq] at h
    subst h
    exact Nat.mod_lt _ (by omega)

/-- The RAM cell that an address reaches is inside its array. -/
theorem locate_inside {s : State} {a : Word} {c : CellRef} (h : locate s a = some c) (hr : c.1.isRam = true) :
    cellInside s c := by
  unfold locate at h
  generalize regionOf s (even a) = r at h
  generalize (a.getLsbD 0).toNat = k at h
  cases r <;> simp only [locateIn, Option.some.injEq, reduceCtorEq] at h
  · subst h; cases hr
  · subst h; trivial
  · subst h; trivial
  · subst h; trivial
  · rename_i i
    cases hc : s.cards[i]? with
    | none => simp [hc] at h
    | some cd =>
      simp only [hc] at h
      cases hh : cd.horizon with
      | none =>
        simp only [hh] at h
        cases hd : cd.dsr with
        | none => simp [hd] at h
        | some d =>
          simp only [hd, Option.map_some, Option.some.injEq] at h
          subst h; cases hr
      | some hz =>
        simp only [hh] at h
        unfold Horizon.dsrLoc at h
        split at h
        · cases hp : hz.dsrRam.place (hz.dsrPage.toNat * hz.dsrPageSize + ((even a).toNat - 0x4000)) k with
          | none => simp [hp] at h
          | some o =>
            simp only [hp, Option.map_some, Option.some.injEq] at h
            subst h
            exact ⟨cd, hz, hc, hh, Block.place_lt hp⟩
        · cases hp : hz.paged.place (hz.page * hz.bankSize + ((even a).toNat - hz.split.toNat)) k with
          | none => simp [hp] at h
          | some o =>
            simp only [hp, Option.map_some, Option.some.injEq] at h
            subst h
            exact ⟨cd, hz, hc, hh, Block.place_lt hp⟩
  · rename_i i
    cases hc : s.cards[i]? with
    | none => simp [hc] at h
    | some cd =>
      simp only [hc] at h
      cases hh : cd.horizon with
      | none => simp [hh] at h
      | some hz =>
        simp only [hh, Option.bind_some] at h
        unfold Horizon.cartLoc at h
        generalize hx : Config.horizonCartPage hz.banks hz.page (even a) * hz.bankSize + ((even a).toNat - 0x6000) % hz.bankSize = x at h
        cases hp : hz.paged.place x k with
        | none => simp [hp] at h
        | some o =>
          simp only [hp, Option.map_some, Option.some.injEq] at h
          subst h
          exact ⟨cd, hz, hc, hh, Block.place_lt hp⟩
  · cases hc : s.cart with
    | none => simp [hc] at h
    | some cd =>
      simp only [hc] at h
      split at h
      · cases hm : cd.ram with
        | none => simp [hm] at h
        | some m =>
          simp only [hm, Option.bind_some] at h
          cases hp : m.place (cd.ramOffset (even a)) k with
          | none => simp [hp] at h
          | some o =>
            simp only [hp, Option.map_some, Option.some.injEq] at h
            subst h
            exact ⟨cd, m, hc, hm, Block.place_lt hp⟩
      · simp only [Option.some.injEq] at h
        subst h; cases hr
  · subst h; trivial

/-- A byte stored in a RAM cell is there. -/
theorem cellAt_writeStore_same (s : State) (o : Nat) (b : Byte) (st : Store) (h : cellInside s (st, o)) :
    cellAt (writeStore s o b st) (st, o) = b := by
  cases st <;> unfold cellAt writeStore readStore <;> try first | exact Memory.read_write_same _ _ _ | exact h.elim
  · obtain ⟨c, m, hc, hm, ho⟩ := h
    simp [State.mapCart, hc, hm, Block.read_write_same _ _ _ ho]
  · obtain ⟨c, m, hc, hm, ho⟩ := h
    simp [State.mapCard, hc, hm, Block.read_write_same _ _ _ ho]
  · obtain ⟨c, m, hc, hm, ho⟩ := h
    simp [State.mapCard, hc, hm, Block.read_write_same _ _ _ ho]

/-- A byte stored at an address that a RAM backs is behind it. -/
theorem cellAt_storeByte_same (s : State) (a : Word) (b : Byte) (c : CellRef) (h : locate s a = some c)
    (hr : c.1.isRam = true) : cellAt (storeByte s a b) c = b := by
  unfold storeByte
  rw [h]
  simp only [hr, if_true]
  exact cellAt_writeStore_same s c.2 b c.1 (locate_inside h hr)

/-- A word stored where RAM backs both bytes: the high byte is behind the even address, the low byte behind the odd. -/
theorem cellAt_storeWord (s : State) (a v : Word) (c d : CellRef) (hc : locate s (even a) = some c)
    (hd : locate s (even a + 1) = some d) (hcd : c ≠ d) (hrc : c.1.isRam = true) (hrd : d.1.isRam = true) :
    cellAt (storeWord s (even a) v) c = hiByte v ∧ cellAt (storeWord s (even a) v) d = loByte v := by
  have hm := (storeByte_map s (even a) (hiByte v) (even a + 1)).2
  unfold storeWord
  constructor
  · rw [cellAt_storeByte_other]
    · exact cellAt_storeByte_same s _ _ c hc hrc
    · rw [hm, hd]
      intro e
      exact absurd (Option.some.inj e).symm hcd
  · exact cellAt_storeByte_same _ _ _ d (by rw [hm, hd]) hrd

end Sys2Proof.Machine
end

