-- ==== Sys2Proof/Laws/Operands.lean ====
section
/-! SUPPORT. What evaluating an operand can do, and the frame of the accesses an instruction makes. -/

namespace Sys2Proof.Machine

/-! ## Accesses with no effect on devices -/

/-- A quiet read changes nothing but the cycles. -/
theorem busRead_quiet {s : State} {a : Word} (h : quietRead s a = true) :
    (busRead s a).2 = s.charge (waitOf (regionOf s (even a))) := by
  unfold quietRead at h
  unfold busRead
  dsimp only
  generalize regionOf s (even a) = r at h ⊢
  cases r <;> first | rfl | cases h

theorem busRead_offRam {s : State} {a : Word} (h : quietRead s a = true) : (busRead s a).2.offRam = s.offRam := by
  rw [busRead_quiet h]; rfl

/-- The store behind a word of plain RAM is a bus-owned RAM. -/
theorem locate_plain {s : State} {a : Word} (h : plainRam s a = true) (b : Word) (hb : even b = even a) :
    ∃ st o, locate s b = some (st, o) ∧ (st = .overlay0 ∨ st = .overlay1 ∨ st = .expansion ∨ st = .scratchpad) := by
  unfold plainRam at h
  unfold locate
  rw [hb]
  generalize regionOf s (even a) = r at h ⊢
  cases r <;> try cases h
  all_goals
    refine ⟨_, _, rfl, ?_⟩
    simp

theorem storeByte_offRam {s : State} {a b : Word} (h : plainRam s a = true) (hb : even b = even a) (x : Byte) :
    (storeByte s b x).offRam = s.offRam := by
  obtain ⟨st, o, hl, hs⟩ := locate_plain h b hb
  unfold storeByte
  rw [hl]
  rcases hs with rfl | rfl | rfl | rfl <;> rfl

theorem SameMap.plainRam {s t : State} (h : SameMap s t) (a : Word) : plainRam t a = plainRam s a := by
  unfold Machine.plainRam; rw [(h _).1]

theorem SameMap.quietRead {s t : State} (h : SameMap s t) (a : Word) : quietRead t a = quietRead s a := by
  unfold Machine.quietRead; rw [(h _).1]

theorem SameMap.storedCells {s t : State} (h : SameMap s t) (a : Word) : storedCells t a = storedCells s a := by
  unfold Machine.storedCells; rw [(h _).2, (h _).2]

theorem plainRam_quiet {s : State} {a : Word} (h : plainRam s a = true) : quietRead s a = true := by
  unfold plainRam at h
  unfold quietRead
  generalize regionOf s (even a) = r at h ⊢
  cases r <;> first | rfl | cases h

/-- A word write in plain RAM stores the two bytes, charges the wait and does nothing else. -/
theorem busWrite_plain {s : State} {a : Word} (h : plainRam s a = true) (v : Word) :
    busWrite s a v = (storeWord s (even a) v).charge (waitOf (regionOf s (even a))) := by
  obtain ⟨st, o, hl, hs⟩ := locate_plain h (even a) (even_even a)
  have hw : writeRegion s (even a) v (regionOf s (even a)) = storeWord s (even a) v := by
    have hb : writeBacked s (even a) v = storeWord s (even a) v := by
      unfold writeBacked
      rw [hl]
      rcases hs with rfl | rfl | rfl | rfl <;> rfl
    rw [← hb]
    unfold plainRam at h
    generalize regionOf s (even a) = r at h ⊢
    cases r <;> first | rfl | cases h
  unfold busWrite
  dsimp only
  rw [hw]

theorem busWrite_offRam {s : State} {a : Word} (h : plainRam s a = true) (v : Word) : (busWrite s a v).offRam = s.offRam := by
  rw [busWrite_plain h]
  show (storeWord s (even a) v).offRam = s.offRam
  unfold storeWord
  have hm := storeByte_map s (even a) (hiByte v)
  rw [storeByte_offRam (a := a) (by rw [hm.plainRam]; exact h) (even_even_add_one a), storeByte_offRam h (even_even a)]

/-- A word write in plain RAM keeps the memory map. -/
theorem busWrite_plain_map {s : State} {a : Word} (h : plainRam s a = true) (v : Word) : SameMap s (busWrite s a v) := by
  apply busWrite_map
  intro o ho
  obtain ⟨st, o', hl, hs⟩ := locate_plain h (even a) (even_even a)
  rw [hl] at ho
  injection ho with e
  injection e with e1 _
  subst e1
  simp at hs

theorem charge_map (s : State) (n : Nat) : SameMap s (s.charge n) := fun _ => ⟨rfl, rfl⟩

theorem setPc_map (s : State) (v : Word) : SameMap s (s.setPc v) := fun _ => ⟨rfl, rfl⟩

/-! ## Part of an instruction's accesses -/

/-- What part of an instruction has done: `Framed` without ST, and the memory map kept where the part is calm. -/
def Part (s t : State) (words : Nat) (stored : List CellRef) (calm : Bool) : Prop :=
  MemoryKept s t stored ∧
  t.offBus = { s.offBus with pc := s.pc + BitVec.ofNat 16 (2 * words) } ∧
  (calm = true → t.offRam = { s.offRam with pc := t.pc } ∧ SameMap s t)

theorem Part.refl (s : State) : Part s s 0 [] true :=
  ⟨.refl s, by simp; rfl, fun _ => ⟨rfl, .refl s⟩⟩

theorem Part.trans {s t u : State} {k m : Nat} {l1 l2 : List CellRef} {c1 c2 : Bool} (h1 : Part s t k l1 c1)
    (h2 : Part t u m l2 c2) : Part s u (k + m) (l1 ++ l2) (c1 && c2) := by
  obtain ⟨m1, o1, r1⟩ := h1
  obtain ⟨m2, o2, r2⟩ := h2
  refine ⟨m1.trans m2, ?_, ?_⟩
  · have hp : t.pc = s.pc + BitVec.ofNat 16 (2 * k) := by have h := congrArg State.pc o1; exact h
    rw [o2, o1, hp, Nat.mul_add, BitVec.ofNat_add, BitVec.add_assoc]
  · intro hc
    rw [Bool.and_eq_true] at hc
    refine ⟨?_, (r1 hc.1).2.trans (r2 hc.2).2⟩
    rw [(r2 hc.2).1, (r1 hc.1).1]

theorem Part.pc_eq {s t : State} {k : Nat} {l : List CellRef} {c : Bool} (h : Part s t k l c) :
    t.pc = s.pc + BitVec.ofNat 16 (2 * k) := by
  have h' := congrArg State.pc h.2.1
  exact h'

theorem Part.wp_eq {s t : State} {k : Nat} {l : List CellRef} {c : Bool} (h : Part s t k l c) : t.wp = s.wp := by
  have h' := congrArg State.wp h.2.1
  exact h'

theorem Part.st_eq {s t : State} {k : Nat} {l : List CellRef} {c : Bool} (h : Part s t k l c) : t.st = s.st := by
  have h' := congrArg State.st h.2.1
  exact h'

/-- The part done, then ST and cycles: the frame of the instruction. -/
theorem Part.framed {s u t : State} {k n : Nat} {l : List CellRef} {c : Bool} (h : Part s u k l c) (he : endsAs u n t) :
    Framed s t k l c := by
  obtain ⟨m, o, r⟩ := h
  refine ⟨?_, ?_, ?_⟩
  · rw [memoryKept_iff] at m ⊢
    intro x hx
    rw [he]
    exact m x hx
  · have : t.offBus = { u.offBus with st := t.st } := by rw [he]; rfl
    rw [this, o]
  · intro hc
    have h1 : t.offRam = { u.offRam with st := t.st } := by rw [he]; rfl
    have h2 : t.pc = u.pc := by rw [he]; rfl
    rw [h1, (r hc).1, h2]

theorem Part.read (s : State) (a : Word) : Part s (busRead s a).2 0 [] (quietRead s a) := by
  refine ⟨busRead_kept s a, ?_, ?_⟩
  · rw [busRead_offBus]; simp; rfl
  · intro h
    exact ⟨by rw [busRead_offRam h, busRead_pc]; rfl, busRead_map s a⟩

theorem Part.write (s : State) (a v : Word) : Part s (busWrite s a v) 0 (storedCells s a) (plainRam s a) := by
  refine ⟨busWrite_kept s a v, ?_, ?_⟩
  · rw [busWrite_offBus]; simp; rfl
  · intro h
    exact ⟨by rw [busWrite_offRam h, busWrite_pc]; rfl, busWrite_plain_map h v⟩

theorem Part.fetch (s : State) : Part s (fetchWord s).2 1 [] (quietRead s s.pc) := by
  refine ⟨?_, ?_, ?_⟩
  · have := busRead_kept s s.pc
    rw [memoryKept_iff] at this ⊢
    exact fun c hc => this c hc
  · show ((busRead s s.pc).2.setPc ((busRead s s.pc).2.pc + 2)).offBus = _
    rw [busRead_pc]
    show { (busRead s s.pc).2.offBus with pc := s.pc + 2 } = _
    rw [busRead_offBus]
    rfl
  · intro h
    refine ⟨?_, (busRead_map s s.pc).trans (setPc_map _ _)⟩
    show { (busRead s s.pc).2.offRam with pc := (busRead s s.pc).2.pc + 2 } = _
    rw [busRead_offRam h]
    rfl

theorem storedCells_read (s : State) (a b : Word) : storedCells (busRead s a).2 b = storedCells s b :=
  (busRead_map s a).storedCells b

/-- What evaluating an operand's address can do (R421). -/
theorem ea_part (o : Operand) (n : Width) (s : State) : Part s (ea o n s).2 o.extWords (incCells o s) (operandCalm o s) := by
  cases o with
  | reg r => exact Part.refl s
  | ind r => exact Part.read s _
  | sym => exact Part.fetch s
  | idx r =>
    have h := (Part.fetch s).trans (Part.read (fetchWord s).2 (regAddr (fetchWord s).2 r))
    have hr : regAddr (fetchWord s).2 r = regAddr s r := by
      unfold regAddr; rw [(Part.fetch s).wp_eq]
    have hq : quietRead (fetchWord s).2 (regAddr s r) = quietRead s (regAddr s r) :=
      ((busRead_map s s.pc).trans (setPc_map _ _)).quietRead _
    rw [hr, hq] at h
    have he : (ea (.idx r) n s).2 = (busRead (fetchWord s).2 (regAddr s r)).2 := by
      show (busRead (fetchWord s).2 (regAddr (fetchWord s).2 r)).2 = _
      rw [hr]
    rw [he]
    exact h
  | inc r =>
    have hr : regAddr (busRead s (regAddr s r)).2 r = regAddr s r := by
      unfold regAddr; rw [busRead_wp]
    have he : (ea (.inc r) n s).2 =
        busWrite (busRead s (regAddr s r)).2 (regAddr s r) ((busRead s (regAddr s r)).1 + n.step) := by
      show busWrite (busRead s (regAddr s r)).2 (regAddr (busRead s (regAddr s r)).2 r) _ = _
      rw [hr]; rfl
    have h := (Part.read s (regAddr s r)).trans
      (Part.write (busRead s (regAddr s r)).2 (regAddr s r) ((busRead s (regAddr s r)).1 + n.step))
    rw [storedCells_read, (busRead_map s (regAddr s r)).plainRam] at h
    rw [he]
    refine ⟨h.1, h.2.1, fun hc => h.2.2 ?_⟩
    have hc' : plainRam s (regAddr s r) = true := hc
    rw [plainRam_quiet hc', hc']
    rfl

/-- What reading a word operand can do (R421, R423). -/
theorem readWordOp_part (o : Operand) (s : State) :
    Part s (readWordOp o s).after o.extWords (incCells o s) (readCalm o (readWordOp o s).addr s) := by
  have h := (ea_part o .word s).trans (Part.read (ea o .word s).2 (ea o .word s).1)
  rw [List.append_nil] at h
  refine ⟨h.1, h.2.1, fun hc => h.2.2 ?_⟩
  unfold readCalm at hc
  rw [Bool.and_eq_true] at hc ⊢
  exact ⟨hc.1, by rw [((ea_part o .word s).2.2 hc.1).2.quietRead]; exact hc.2⟩

/-- What reading a byte operand can do (R421, R423). -/
theorem readByteOp_part (o : Operand) (s : State) :
    Part s (readByteOp o s).after o.extWords (incCells o s) (readCalm o (readByteOp o s).addr s) := by
  have h := (ea_part o .byte s).trans (Part.read (ea o .byte s).2 (ea o .byte s).1)
  rw [List.append_nil] at h
  refine ⟨h.1, h.2.1, fun hc => h.2.2 ?_⟩
  unfold readCalm at hc
  rw [Bool.and_eq_true] at hc ⊢
  exact ⟨hc.1, by rw [((ea_part o .byte s).2.2 hc.1).2.quietRead]; exact hc.2⟩

end Sys2Proof.Machine
end

