-- ==== Sys2Proof/Laws/Plain.lean ====
section
/-! SUPPORT. Words in plain RAM: what a read shows after a write of the same word or of another one, and that reads which are
no port reads keep what the inspection path shows. -/

namespace Sys2Proof.Machine

/-! ## The inspection path -/

/-- A bus read delivers the word the inspection path shows (R216). -/
theorem busRead_value (s : State) (a : Word) : (busRead s a).1 = fastRead s a := rfl

/-- What the inspection path shows depends on memory and devices only: equal ones, equal words. -/
theorem fastRead_of_parts {s t : State} {a : Word} (hr : regionOf t (even a) = regionOf s (even a))
    (hv : (readRegion t (even a) (regionOf s (even a))).1 = (readRegion s (even a) (regionOf s (even a))).1) :
    fastRead t a = fastRead s a := by
  unfold fastRead
  rw [hr, hv]

@[simp] theorem fastRead_charge (s : State) (n : Nat) (a : Word) : fastRead (s.charge n) a = fastRead s a :=
  fastRead_of_parts rfl (by
    generalize regionOf s (even a) = r
    cases r <;> try rfl
    unfold readRegion
    dsimp only
    split <;> rfl)

@[simp] theorem fastRead_setPc (s : State) (v a : Word) : fastRead (s.setPc v) a = fastRead s a :=
  fastRead_of_parts rfl (by
    generalize regionOf s (even a) = r
    cases r <;> try rfl
    unfold readRegion
    dsimp only
    split <;> rfl)

@[simp] theorem fastRead_setWp (s : State) (v a : Word) : fastRead (s.setWp v) a = fastRead s a :=
  fastRead_of_parts rfl (by
    generalize regionOf s (even a) = r
    cases r <;> try rfl
    unfold readRegion
    dsimp only
    split <;> rfl)

@[simp] theorem fastRead_setSt (s : State) (v a : Word) : fastRead (s.setSt v) a = fastRead s a :=
  fastRead_of_parts rfl (by
    generalize regionOf s (even a) = r
    cases r <;> try rfl
    unfold readRegion
    dsimp only
    split <;> rfl)

theorem plainRam_not_port {s : State} {a : Word} (h : plainRam s a = true) : (regionOf s (even a)).isPort = false := by
  unfold plainRam at h
  generalize regionOf s (even a) = r at h ⊢
  cases r <;> first | rfl | cases h

/-- For an address that is no port the inspection path shows the cells behind its word. -/
theorem fastRead_backed {s : State} {a : Word} (h : (regionOf s (even a)).isPort = false) :
    fastRead s a = backedWord s (even a) := by
  unfold fastRead
  rw [readRegion_backed _ _ _ h]

theorem backedByte_keep {s t : State} {b : Word} (hl : locate t b = locate s b)
    (hc : ∀ c, locate s b = some c → cellAt t c = cellAt s c) : backedByte t b = backedByte s b := by
  unfold backedByte
  rw [hl]
  cases h : locate s b with
  | none => rfl
  | some c => exact hc c h

/-- Cells and map kept: an address that is no port shows the same word. -/
theorem fastRead_keep {s t : State} {a : Word} (hm : SameMap s t) (hp : (regionOf s (even a)).isPort = false)
    (hc : ∀ c, locate s (even a) = some c ∨ locate s (even a + 1) = some c → cellAt t c = cellAt s c) :
    fastRead t a = fastRead s a := by
  rw [fastRead_backed hp, fastRead_backed (by rw [(hm _).1]; exact hp)]
  unfold backedWord
  rw [backedByte_keep (hm _).2 fun c h => hc c (.inl h), backedByte_keep (hm _).2 fun c h => hc c (.inr h)]

/-- A bus read keeps the word an address that is no port shows. -/
theorem fastRead_busRead {s : State} {a b : Word} (hp : (regionOf s (even b)).isPort = false) :
    fastRead (busRead s a).2 b = fastRead s b :=
  fastRead_keep (busRead_map s a) hp fun c _ => cellAt_busRead s a c

/-- No write changes which region an address belongs to: a bank switch changes the cells, not the region (R221, R753). -/
theorem busWrite_region (s : State) (a v b : Word) : regionOf (busWrite s a v) b = regionOf s b := by
  by_cases h : ∃ o, locate s (even a) = some (.cartRom, o)
  · obtain ⟨o, h⟩ := h
    have hw : writeBacked s (even a) v = s.mapCart fun c => c.romWrite (even a) := by
      unfold writeBacked
      rw [h]
    have hc : ∀ f, cartRegion (s.mapCart f) = cartRegion s := by
      intro f
      unfold cartRegion State.mapCart
      cases s.cart <;> rfl
    have hr : ∀ f, regionOf (s.mapCart f) b = regionOf s b := by
      intro f
      unfold regionOf
      rw [hc f]
      rfl
    have hs : regionOf s (even a) = .cartridge := by
      unfold locate at h
      rw [even_even, even_lsb] at h
      revert h
      generalize regionOf s (even a) = r
      cases r <;> intro h <;> simp only [locateIn, Option.some.injEq, Prod.mk.injEq, reduceCtorEq, false_and] at h
      · split at h
        · cases h
        · split at h
          · simp only [Option.map_eq_some_iff, horizonStore, Prod.mk.injEq] at h
            obtain ⟨_, _, h, _⟩ := h
            split at h <;> cases h
          · simp at h
      · split at h
        · cases h
        · simp only [Option.bind_eq_some_iff, Option.map_eq_some_iff, horizonStore, Prod.mk.injEq] at h
          obtain ⟨_, _, _, _, h, _⟩ := h
          split at h <;> cases h
      · rfl
    unfold busWrite
    dsimp only
    rw [hs]
    show regionOf (writeBacked s (even a) v) b = regionOf s b
    rw [hw, hr]
  · exact (busWrite_map s a v (fun o ho => h ⟨o, ho⟩) b).1

theorem busWrite_plainRam (s : State) (a v b : Word) : plainRam (busWrite s a v) b = plainRam s b := by
  unfold plainRam; rw [busWrite_region]

theorem busWrite_quietRead (s : State) (a v b : Word) : quietRead (busWrite s a v) b = quietRead s b := by
  unfold quietRead; rw [busWrite_region]

/-! ## Cells of plain RAM -/

/-- The address ranges of the bus-owned RAMs (R220). -/
theorem regionOf_range {s : State} {a : Word} {r : Region} (h : regionOf s a = r) :
    (r = .overlay0 → a.toNat < 0x2000) ∧ (r = .overlay1 → 0x4000 ≤ a.toNat ∧ a.toNat < 0x6000) ∧
    (r = .expansion → (0x2000 ≤ a.toNat ∧ a.toNat < 0x4000) ∨ 0xA000 ≤ a.toNat) := by
  have hx : expansionRegion s ≠ .overlay0 ∧ expansionRegion s ≠ .overlay1 := by
    unfold expansionRegion; split <;> simp
  have hd : dsrRegion s ≠ .overlay0 ∧ dsrRegion s ≠ .expansion := by
    unfold dsrRegion; split <;> [simp; (split <;> simp)]
  have hc : cartRegion s ≠ .overlay0 ∧ cartRegion s ≠ .overlay1 ∧ cartRegion s ≠ .expansion := by
    unfold cartRegion; split <;> [simp; (split <;> simp)]
  unfold regionOf at h
  dsimp only at h
  generalize a.toNat = n at h ⊢
  generalize expansionRegion s = x at h hx
  generalize dsrRegion s = d at h hd
  generalize cartRegion s = c at h hc
  subst h
  rcases Nat.lt_or_ge n 0x2000 with h1 | h1
  · rw [if_pos h1]
    cases s.overlay0 <;> simp [h1]
  rcases Nat.lt_or_ge n 0x4000 with h2 | h2
  · simp (disch := omega) only [if_neg, if_pos h2]
    exact ⟨fun e => absurd e hx.1, fun e => absurd e hx.2, fun _ => .inl ⟨h1, h2⟩⟩
  rcases Nat.lt_or_ge n 0x6000 with h3 | h3
  · simp (disch := omega) only [if_neg, if_pos h3]
    exact ⟨fun e => absurd e hd.1, fun _ => ⟨h2, h3⟩, fun e => absurd e hd.2⟩
  rcases Nat.lt_or_ge n 0x8000 with h4 | h4
  · simp (disch := omega) only [if_neg, if_pos h4]
    exact ⟨fun e => absurd e hc.1, fun e => absurd e hc.2.1, fun e => absurd e hc.2.2⟩
  rcases Nat.lt_or_ge n 0xA000 with hh | hh
  · simp (disch := omega) only [if_neg, if_pos hh]
    repeat' split
    all_goals simp
  · simp (disch := omega) only [if_neg]
    exact ⟨fun e => absurd e hx.1, fun e => absurd e hx.2, fun _ => .inr hh⟩

/-- Two words of plain RAM whose addresses differ modulo 256 share no cell. -/
theorem plainRam_disjoint {s : State} {a b : Word} (ha : plainRam s a = true) (hb : plainRam s b = true)
    (hd : (even a).toNat % 256 ≠ (even b).toNat % 256) (k m : Nat) (hk : k < 2) (hm : m < 2) :
    locateIn s (even a) k (regionOf s (even a)) ≠ locateIn s (even b) m (regionOf s (even b)) := by
  have ea := even_toNat a
  have eb := even_toNat b
  generalize hx : even a = x at *
  generalize hy : even b = y at *
  unfold plainRam at ha hb
  rw [hx] at ha
  rw [hy] at hb
  have hx1 := regionOf_range (s := s) (a := x) rfl
  have hy1 := regionOf_range (s := s) (a := y) rfl
  generalize regionOf s x = rx at *
  generalize regionOf s y = ry at *
  intro h
  cases rx <;> try (simp at ha; done)
  all_goals cases ry <;> try (simp at hb; done)
  all_goals simp only [locateIn, Option.some.injEq, Prod.mk.injEq, reduceCtorEq, false_and, true_and] at h
  · omega
  · have h1 := hx1.2.2 rfl
    have h2 := hy1.2.2 rfl
    split_ifs at h <;> omega
  · have h1 := hx1.2.1 rfl
    have h2 := hy1.2.1 rfl
    omega
  · omega

theorem locate_eq_locateIn (s : State) (a : Word) :
    locate s (even a) = locateIn s (even a) 0 (regionOf s (even a)) ∧
    locate s (even a + 1) = locateIn s (even a) 1 (regionOf s (even a)) := by
  constructor
  · unfold locate
    rw [even_even, even_lsb]; rfl
  · unfold locate
    rw [even_even_add_one, even_add_one_lsb]; rfl

/-- A word written in plain RAM is not among the cells of another word of plain RAM. -/
theorem plainRam_not_stored {s : State} {a b : Word} (ha : plainRam s a = true) (hb : plainRam s b = true)
    (hd : (even a).toNat % 256 ≠ (even b).toNat % 256) {c : CellRef}
    (hc : locate s (even a) = some c ∨ locate s (even a + 1) = some c) : c ∉ storedCells s b := by
  rw [mem_storedCells]
  rw [(locate_eq_locateIn s a).1, (locate_eq_locateIn s a).2] at hc
  rw [(locate_eq_locateIn s b).1, (locate_eq_locateIn s b).2]
  rintro ⟨h, _⟩
  rcases hc with hc | hc <;> rcases h with h | h
  · exact plainRam_disjoint ha hb hd 0 0 (by omega) (by omega) (hc.trans h.symm)
  · exact plainRam_disjoint ha hb hd 0 1 (by omega) (by omega) (hc.trans h.symm)
  · exact plainRam_disjoint ha hb hd 1 0 (by omega) (by omega) (hc.trans h.symm)
  · exact plainRam_disjoint ha hb hd 1 1 (by omega) (by omega) (hc.trans h.symm)

/-- The two cells of a word of plain RAM are different. -/
theorem plainRam_two_cells {s : State} {a : Word} (ha : plainRam s a = true) {c d : CellRef}
    (hc : locate s (even a) = some c) (hd : locate s (even a + 1) = some d) : c ≠ d := by
  rw [(locate_eq_locateIn s a).1] at hc
  rw [(locate_eq_locateIn s a).2] at hd
  unfold plainRam at ha
  have he := even_toNat a
  generalize regionOf s (even a) = r at *
  cases r <;> try (simp at ha; done)
  all_goals
    simp only [locateIn, Option.some.injEq] at hc hd
    subst hc; subst hd
    simp

/-! ## Read after write in plain RAM -/

/-- A word written in plain RAM is the word shown there. -/
theorem fastRead_busWrite_same {s : State} {a v : Word} (h : plainRam s a = true) : fastRead (busWrite s a v) a = v := by
  have hm := busWrite_plain_map h v
  rw [fastRead_backed (by rw [(hm _).1]; exact plainRam_not_port h)]
  obtain ⟨st, o, hl, hs⟩ := locate_plain h (even a) (even_even a)
  obtain ⟨st', o', hl', hs'⟩ := locate_plain h (even a + 1) (even_even_add_one a)
  have hr : st.isRam = true := by rcases hs with rfl | rfl | rfl | rfl <;> rfl
  have hr' : st'.isRam = true := by rcases hs' with rfl | rfl | rfl | rfl <;> rfl
  have hc := cellAt_storeWord s a v _ _ hl hl' (plainRam_two_cells h hl hl') hr hr'
  have e : ∀ x : CellRef, cellAt (busWrite s a v) x = cellAt (storeWord s (even a) v) x := by
    rw [busWrite_plain h]; exact fun _ => rfl
  have h1 : backedByte (busWrite s a v) (even a) = hiByte v := by
    unfold backedByte
    rw [(hm _).2, hl]
    exact (e (st, o)).trans hc.1
  have h2 : backedByte (busWrite s a v) (even a + 1) = loByte v := by
    unfold backedByte
    rw [(hm _).2, hl']
    exact (e (st', o')).trans hc.2
  unfold backedWord
  rw [h1, h2, wordOf_hi_lo]

/-- A word written in plain RAM leaves every other word of plain RAM whose address differs modulo 256. -/
theorem fastRead_busWrite_other {s : State} {a b v : Word} (ha : plainRam s a = true) (hb : plainRam s b = true)
    (hd : (even b).toNat % 256 ≠ (even a).toNat % 256) : fastRead (busWrite s a v) b = fastRead s b :=
  fastRead_keep (busWrite_plain_map ha v) (plainRam_not_port hb) fun c hc =>
    cellAt_busWrite s a v c (plainRam_not_stored hb ha hd hc)

end Sys2Proof.Machine
end

