-- ==== Sys2Proof/Laws/Switch.lean ====
section
/-! SUPPORT. What the context switch does, what the vector reads deliver, and what taking an interrupt leaves in ST. -/

namespace Sys2Proof.Machine

/-- The saves of R600 in order. -/
theorem contextSwitch_eq (s : State) (nwp npc : Word) :
    contextSwitch s nwp npc =
      (busWrite (busWrite (busWrite (s.setWp nwp) (nwp + 26) s.wp) (nwp + 28) s.pc) (nwp + 30) s.st).setPc npc := rfl

@[simp] theorem contextSwitch_wp (s : State) (nwp npc : Word) : (contextSwitch s nwp npc).wp = nwp := by
  rw [contextSwitch_eq]; simp

@[simp] theorem contextSwitch_pc (s : State) (nwp npc : Word) : (contextSwitch s nwp npc).pc = npc := by
  rw [contextSwitch_eq]; simp

@[simp] theorem contextSwitch_st (s : State) (nwp npc : Word) : (contextSwitch s nwp npc).st = s.st := by
  rw [contextSwitch_eq]; simp

@[simp] theorem contextSwitch_idle (s : State) (nwp npc : Word) : (contextSwitch s nwp npc).idle = s.idle := by
  rw [contextSwitch_eq]; simp

theorem contextSwitch_region (s : State) (nwp npc b : Word) : regionOf (contextSwitch s nwp npc) b = regionOf s b := by
  rw [contextSwitch_eq]
  show regionOf (busWrite _ _ _) b = _
  rw [busWrite_region, busWrite_region, busWrite_region]
  rfl

theorem contextSwitch_plainRam (s : State) (nwp npc b : Word) :
    plainRam (contextSwitch s nwp npc) b = plainRam s b := by
  unfold plainRam; rw [contextSwitch_region]

/-- Offsets that differ modulo 256, and not by bit 0 only, are different words. -/
theorem even_add_ne (w a b : Word) (h : a.toNat % 2 = 0) (h' : b.toNat % 2 = 0) (hab : a.toNat % 256 ≠ b.toNat % 256) :
    (even (w + a)).toNat % 256 ≠ (even (w + b)).toNat % 256 := by
  rw [even_toNat, even_toNat, BitVec.toNat_add, BitVec.toNat_add]
  omega

/-- With the three save slots in plain RAM, the context switch keeps the memory map and every byte but the slots', and the slots
show the old WP, PC and ST. -/
theorem contextSwitch_plain (s : State) (nwp npc : Word) (h1 : plainRam s (nwp + 26) = true)
    (h2 : plainRam s (nwp + 28) = true) (h3 : plainRam s (nwp + 30) = true) :
    SameMap s (contextSwitch s nwp npc) ∧
    MemoryKept s (contextSwitch s nwp npc)
      (storedCells s (nwp + 26) ++ (storedCells s (nwp + 28) ++ storedCells s (nwp + 30))) ∧
    fastRead (contextSwitch s nwp npc) (nwp + 26) = s.wp ∧ fastRead (contextSwitch s nwp npc) (nwp + 28) = s.pc ∧
    fastRead (contextSwitch s nwp npc) (nwp + 30) = s.st := by
  rw [contextSwitch_eq]
  have m0 : SameMap s (s.setWp nwp) := fun _ => ⟨rfl, rfl⟩
  have k0 : MemoryKept s (s.setWp nwp) [] := memoryKept_of_cells fun c _ => rfl
  generalize s.setWp nwp = u0 at m0 k0 ⊢
  rw [← m0.plainRam] at h1 h2 h3
  have m1 := busWrite_plain_map h1 s.wp
  have k1 := busWrite_kept u0 (nwp + 26) s.wp
  have r1 := fastRead_busWrite_same (v := s.wp) h1
  rw [← m1.plainRam] at h1 h2 h3
  generalize busWrite u0 (nwp + 26) s.wp = u1 at *
  have m2 := busWrite_plain_map h2 s.pc
  have k2 := busWrite_kept u1 (nwp + 28) s.pc
  have r2 := fastRead_busWrite_same (v := s.pc) h2
  have r12 := fastRead_busWrite_other (v := s.pc) h2 h1 (even_add_ne nwp 26 28 rfl rfl (by decide))
  rw [← m2.plainRam] at h1 h2 h3
  generalize busWrite u1 (nwp + 28) s.pc = u2 at *
  have m3 := busWrite_plain_map h3 s.st
  have k3 := busWrite_kept u2 (nwp + 30) s.st
  have r3 := fastRead_busWrite_same (v := s.st) h3
  have r13 := fastRead_busWrite_other (v := s.st) h3 h1 (even_add_ne nwp 26 30 rfl rfl (by decide))
  have r23 := fastRead_busWrite_other (v := s.st) h3 h2 (even_add_ne nwp 28 30 rfl rfl (by decide))
  generalize busWrite u2 (nwp + 30) s.st = u3 at *
  rw [fastRead_setPc, fastRead_setPc, fastRead_setPc]
  refine ⟨m0.trans (m1.trans (m2.trans (m3.trans (setPc_map _ _)))), ?_, r13.trans (r12.trans r1), r23.trans r2, r3⟩
  have h := k0.trans (k1.trans (k2.trans k3))
  rw [m0.storedCells, (m0.trans m1).storedCells, (m0.trans (m1.trans m2)).storedCells] at h
  exact memoryKept_of_cells fun c hc => memoryKept_iff.1 h c hc

theorem readVector_map (s : State) (a : Word) : SameMap s (readVector s a).2.2 :=
  (busRead_map s a).trans (busRead_map _ _)

theorem readVector_kept_cells (s : State) (a : Word) : MemoryKept s (readVector s a).2.2 [] :=
  (busRead_kept s a).trans (busRead_kept _ _)

theorem readVector_offBus (s : State) (a : Word) : (readVector s a).2.2.offBus = s.offBus :=
  (busRead_offBus _ _).trans (busRead_offBus _ _)

/-- A switch through a vector keeps the regions. -/
theorem switchThrough_plainRam (s : State) (a b : Word) : plainRam (switchThrough s a) b = plainRam s b :=
  (contextSwitch_plainRam _ _ _ b).trans ((readVector_map s a).plainRam b)

@[simp] theorem switchThrough_st (s : State) (a : Word) : (switchThrough s a).st = s.st :=
  (contextSwitch_st _ _ _).trans (offBus_fields (readVector_offBus s a)).2.2.1

theorem vectorAddr_toNat (l : IntLevel) : (vectorAddr l).toNat = 4 * (l.val + 1) := by
  unfold vectorAddr levelNumber
  rw [BitVec.toNat_ofNat]
  have := l.isLt
  omega

/-- The interrupt vectors are in console ROM or overlay RAM 0 (R955). -/
theorem vector_region (s : State) (l : IntLevel) :
    regionOf s (even (vectorAddr l)) = (if s.overlay0 then .overlay0 else .rom) ∧
    regionOf s (even (vectorAddr l + 2)) = (if s.overlay0 then .overlay0 else .rom) := by
  have h := vectorAddr_toNat l
  have := l.isLt
  have low : ∀ b : Word, b.toNat < 0x2000 → regionOf s b = (if s.overlay0 then .overlay0 else .rom) := by
    intro b hb
    unfold regionOf
    dsimp only
    rw [if_pos hb]
  refine ⟨low _ ?_, low _ ?_⟩
  · rw [even_toNat, h]; omega
  · rw [even_toNat, BitVec.toNat_add, h]; simp; omega

/-- Taking an interrupt writes MASK only (R960). -/
theorem acknowledge_st (s : State) (l : IntLevel) : (acknowledge s l).st = putMask s.st (BitVec.ofNat 4 l.val) := by
  show putMask (switchThrough s (vectorAddr l)).st _ = _
  rw [switchThrough_st]
  rfl

end Sys2Proof.Machine
end

