-- ==== Sys2Proof/Laws/Shapes.lean ====
section
/-! SUPPORT. What each shared shape of Operands.lean does: it completes, how it ends, which ST it leaves, and its frame. -/

namespace Sys2Proof.Machine

/-! ## Ends and frames -/

theorem endsAs_finish (u : State) (st : Word) (k : Nat) : endsAs u k ((u.setSt st).charge k) := rfl

theorem endsAs_charge (u : State) (k : Nat) : endsAs u k (u.charge k) := rfl

/-- The frame of a part, then ST and cycles. -/
theorem Part.finish {s u : State} {k : Nat} {l : List CellRef} {c : Bool} (h : Part s u k l c) (st : Word) (n : Nat) :
    Framed s ((u.setSt st).charge n) k l c := h.framed (endsAs_finish u st n)

theorem Part.calm {s u : State} {k : Nat} {l : List CellRef} {c d : Bool} (h : Part s u k l c) (hd : d = true → c = true) :
    Part s u k l d := ⟨h.1, h.2.1, fun x => h.2.2 (hd x)⟩

theorem Part.map {s u : State} {k : Nat} {l : List CellRef} {c : Bool} (h : Part s u k l c) (hc : c = true) : SameMap s u :=
  (h.2.2 hc).2

theorem Part.regAddr_eq {s u : State} {k : Nat} {l : List CellRef} {c : Bool} (h : Part s u k l c) (r : RegNo) :
    regAddr u r = regAddr s r := by
  unfold regAddr; rw [h.wp_eq]

theorem regAddr_busRead (s : State) (a : Word) (r : RegNo) : regAddr (busRead s a).2 r = regAddr s r := by
  unfold regAddr; rw [busRead_wp]

theorem regAddr_busWrite (s : State) (a v : Word) (r : RegNo) : regAddr (busWrite s a v) r = regAddr s r := by
  unfold regAddr; rw [busWrite_wp]

theorem regAddr_fetchWord (s : State) (r : RegNo) : regAddr (fetchWord s).2 r = regAddr s r := (Part.fetch s).regAddr_eq r

theorem fetchWord_map (s : State) : SameMap s (fetchWord s).2 := (busRead_map s s.pc).trans (setPc_map _ _)

/-! ## Flags of sums -/

theorem sumFlags16_spec (st : Word) (r : Sum 16) :
    laeOf16 (sumFlags16 st r) r.val ∧ carryOverflow (sumFlags16 st r) (r.carry = true) (r.ovf = true) ∧
    agreeOff 0xF800 st (sumFlags16 st r) :=
  ⟨laeAre_putCOV _ _ (laeOf16_cmpZero16 st r.val), carryOverflow_putCOV _ _ _,
    (agreeOff_cmpZero16 _ st _ (by decide) (by decide) (by decide)).trans
      (agreeOff_putCOV _ _ _ _ (by decide) (by decide))⟩

theorem sumFlags8_spec (st : Word) (r : Sum 8) :
    laeOf8 (sumFlags8 st r) r.val ∧ carryOverflow (sumFlags8 st r) (r.carry = true) (r.ovf = true) ∧
    agreeOff 0xFC00 st (sumFlags8 st r) := by
  refine ⟨⟨laeAre_putCOV _ _ (laeOf8_cmpZero8 st r.val).1, ?_⟩, carryOverflow_putCOV _ _ _,
    (agreeOff_cmpZero8 _ st _ (by decide) (by decide) (by decide) (by decide)).trans
      (agreeOff_putCOV _ _ _ _ (by decide) (by decide))⟩
  unfold sumFlags8
  rw [stOP_putCOV]
  exact (laeOf8_cmpZero8 st r.val).2

theorem carryOverflow_iff {st : Word} {c d v w : Prop} (h : carryOverflow st c v) (hc : c ↔ d) (hv : v ↔ w) :
    carryOverflow st d w := ⟨h.1.trans hc, h.2.trans hv⟩

/-! ## The shapes -/

theorem dualWord_spec (src dst : Operand) (op : Word → Word → Word → Word × Word) (s : State) :
    let p := readWordOp src s
    let q := readWordOp dst p.after
    ∃ t, dualWord src dst op s = .next t ∧ t.st = (op p.val q.val s.st).2 ∧
      endsAs (busWrite q.after q.addr (op p.val q.val s.st).1) (14 + addrCycles src .word + addrCycles dst .word) t ∧
      Framed s t (src.extWords + dst.extWords) (incCells src s ++ incCells dst p.after ++ storedCells q.after q.addr)
        (readCalm src p.addr s && readCalm dst q.addr p.after && plainRam q.after q.addr) :=
  ⟨_, rfl, rfl, rfl, (((readWordOp_part src s).trans (readWordOp_part dst _)).trans (Part.write _ _ _)).finish _ _⟩

theorem dualByte_spec (src dst : Operand) (op : Byte → Byte → Word → Byte × Word) (s : State) :
    let p := readByteOp src s
    let q := readByteOp dst p.after
    ∃ t, dualByte src dst op s = .next t ∧ t.st = (op p.val q.val s.st).2 ∧
      endsAs (busWrite q.after q.addr (mergeByte q.addr (op p.val q.val s.st).1 q.old))
        (14 + addrCycles src .byte + addrCycles dst .byte) t ∧
      Framed s t (src.extWords + dst.extWords) (incCells src s ++ incCells dst p.after ++ storedCells q.after q.addr)
        (readCalm src p.addr s && readCalm dst q.addr p.after && plainRam q.after q.addr) :=
  ⟨_, rfl, rfl, rfl, (((readByteOp_part src s).trans (readByteOp_part dst _)).trans (Part.write _ _ _)).finish _ _⟩

theorem compareWord_spec (src dst : Operand) (op : Word → Word → Word → Word) (s : State) :
    let p := readWordOp src s
    let q := readWordOp dst p.after
    ∃ t, compareWord src dst op s = .next t ∧ t.st = op p.val q.val s.st ∧
      endsAs q.after (14 + addrCycles src .word + addrCycles dst .word) t ∧
      Framed s t (src.extWords + dst.extWords) (incCells src s ++ incCells dst p.after)
        (readCalm src p.addr s && readCalm dst q.addr p.after) :=
  ⟨_, rfl, rfl, rfl, ((readWordOp_part src s).trans (readWordOp_part dst _)).finish _ _⟩

theorem compareByte_spec (src dst : Operand) (op : Byte → Byte → Word → Word) (s : State) :
    let p := readByteOp src s
    let q := readByteOp dst p.after
    ∃ t, compareByte src dst op s = .next t ∧ t.st = op p.val q.val s.st ∧
      endsAs q.after (14 + addrCycles src .byte + addrCycles dst .byte) t ∧
      Framed s t (src.extWords + dst.extWords) (incCells src s ++ incCells dst p.after)
        (readCalm src p.addr s && readCalm dst q.addr p.after) :=
  ⟨_, rfl, rfl, rfl, ((readByteOp_part src s).trans (readByteOp_part dst _)).finish _ _⟩

theorem singleWord_spec (o : Operand) (k : Nat) (op : Word → Word → Word × Word) (s : State) :
    let p := readWordOp o s
    ∃ t, singleWord o k op s = .next t ∧ t.st = (op p.val s.st).2 ∧
      endsAs (busWrite p.after p.addr (op p.val s.st).1) (k + addrCycles o .word) t ∧
      Framed s t o.extWords (incCells o s ++ storedCells p.after p.addr)
        (readCalm o p.addr s && plainRam p.after p.addr) :=
  ⟨_, rfl, rfl, rfl, ((readWordOp_part o s).trans (Part.write _ _ _)).finish _ _⟩

theorem storeConst_spec (o : Operand) (v : Word) (s : State) :
    let p := readWordOp o s
    ∃ t, storeConst o v s = .next t ∧ t.st = s.st ∧
      endsAs (busWrite p.after p.addr v) (10 + addrCycles o .word) t ∧
      Framed s t o.extWords (incCells o s ++ storedCells p.after p.addr)
        (readCalm o p.addr s && plainRam p.after p.addr) :=
  ⟨_, rfl, rfl, rfl, ((readWordOp_part o s).trans (Part.write _ _ _)).finish _ _⟩

/-- An immediate fetched, register `w` read, and written. -/
theorem immediate_part (w : RegNo) (s : State) (v : Word) :
    Part s (writeReg (readReg (fetchWord s).2 w).2 w v) 1 (storedCells s (regAddr s w))
      (quietRead s s.pc && plainRam s (regAddr s w)) := by
  have h := ((Part.fetch s).trans (Part.read (fetchWord s).2 (regAddr s w))).trans (Part.write _ (regAddr s w) v)
  have m := (fetchWord_map s).trans (busRead_map _ (regAddr s w))
  rw [m.storedCells, m.plainRam, (fetchWord_map s).quietRead] at h
  unfold writeReg readReg
  rw [regAddr_busRead, regAddr_fetchWord]
  refine h.calm ?_
  simp only [Bool.and_eq_true]
  exact fun hd => ⟨⟨hd.1, plainRam_quiet hd.2⟩, hd.2⟩

theorem immediateWord_spec (w : RegNo) (op : Word → Word → Word → Word × Word) (s : State) :
    let i := fetchWord s
    let x := readReg i.2 w
    ∃ t, immediateWord w op s = .next t ∧ t.st = (op x.1 i.1 s.st).2 ∧
      endsAs (writeReg x.2 w (op x.1 i.1 s.st).1) 14 t ∧
      Framed s t 1 (storedCells s (regAddr s w)) (quietRead s s.pc && plainRam s (regAddr s w)) :=
  ⟨_, rfl, rfl, rfl, (immediate_part w s _).finish _ _⟩

/-- A word operand evaluated and read, then register `d` read. -/
theorem sourceReg_part (src : Operand) (d : RegNo) (s : State) :
    let p := readWordOp src s
    Part s (readReg p.after d).2 src.extWords (incCells src s)
      (readCalm src p.addr s && quietRead p.after (regAddr s d)) := by
  have h := (readWordOp_part src s).trans (Part.read _ (regAddr s d))
  rw [List.append_nil] at h
  dsimp only
  unfold readReg
  rw [(readWordOp_part src s).regAddr_eq]
  exact h

theorem compareReg_spec (src : Operand) (d : RegNo) (op : Word → Word → Word → Word) (s : State) :
    let p := readWordOp src s
    let q := readReg p.after d
    ∃ t, compareReg src d op s = .next t ∧ t.st = op p.val q.1 s.st ∧
      endsAs q.2 (14 + addrCycles src .word) t ∧
      Framed s t src.extWords (incCells src s) (readCalm src p.addr s && quietRead p.after (regAddr s d)) :=
  ⟨_, rfl, rfl, rfl, (sourceReg_part src d s).finish _ _⟩

/-- R580: the count is 1..16 for every well-formed count field. -/
theorem shiftAmount_range (c : ShiftCount) (s : State) (h : c.wf = true) :
    1 ≤ (shiftAmount c s).1 ∧ (shiftAmount c s).1 ≤ 16 := by
  cases c with
  | imm n =>
    have hn : n ≠ 0 := by simpa [ShiftCount.wf] using h
    have := n.isLt
    have hz : n.toNat ≠ 0 := fun e => hn (BitVec.eq_of_toNat_eq e)
    show 1 ≤ n.toNat ∧ n.toNat ≤ 16
    omega
  | fromR0 =>
    unfold shiftAmount
    dsimp only
    have := ((readReg s 0).1.extractLsb' 0 4 : BitVec 4).isLt
    split <;> omega

theorem shiftReg_part (c : ShiftCount) (w : RegNo) (s : State) (v : Word) :
    ∃ b, Part s (writeReg (readReg (shiftAmount c s).2 w).2 w v) 0 (storedCells s (regAddr s w)) b := by
  have key : ∀ u : State, SameMap s u → (∃ b, Part s u 0 [] b) →
      ∃ b, Part s (writeReg (readReg u w).2 w v) 0 (storedCells s (regAddr s w)) b := by
    rintro u m ⟨b, hu⟩
    have h := (hu.trans (Part.read u (regAddr s w))).trans (Part.write _ (regAddr s w) v)
    rw [(m.trans (busRead_map _ _)).storedCells] at h
    unfold writeReg readReg
    rw [regAddr_busRead, hu.regAddr_eq]
    exact ⟨_, h⟩
  cases c with
  | imm n => exact key s (.refl s) ⟨_, Part.refl s⟩
  | fromR0 => exact key _ (busRead_map _ _) ⟨_, Part.read s _⟩

theorem shiftReg_spec (c : ShiftCount) (w : RegNo) (op : Nat → Word → Word → Word × Word) (s : State) :
    let n := (shiftAmount c s).1
    let x := readReg (shiftAmount c s).2 w
    ∃ t, shiftReg c w op s = .next t ∧ t.st = (op n x.1 s.st).2 ∧
      endsAs (writeReg x.2 w (op n x.1 s.st).1) (cyclesShift c n) t ∧
      MemoryKept s t (storedCells s (regAddr s w)) ∧ t.offBus = { s.offBus with st := t.st } := by
  refine ⟨_, rfl, rfl, rfl, ?_, ?_⟩
  · obtain ⟨b, h⟩ := shiftReg_part c w s (op (shiftAmount c s).1 (readReg (shiftAmount c s).2 w).1 s.st).1
    exact (h.finish _ _).1
  · obtain ⟨b, h⟩ := shiftReg_part c w s (op (shiftAmount c s).1 (readReg (shiftAmount c s).2 w).1 s.st).1
    refine (h.finish _ _).2.1.trans ?_
    rw [BitVec.add_zero]
    rfl

end Sys2Proof.Machine
end

