-- ==== Sys2Proof/Laws/Cru.lean ====
section
/-! SUPPORT. What a CRU bit write leaves alone: every byte of memory and everything but the cartridge's bank, the cards' flags and
the devices' output bits. -/

namespace Sys2Proof.Machine

theorem Horizon.writeBit_memories (h : Horizon) (bit : Nat) (v : Bool) :
    (h.writeBit bit v).dsrRam = h.dsrRam ∧ (h.writeBit bit v).paged = h.paged := by
  unfold Horizon.writeBit
  split
  · exact ⟨rfl, rfl⟩
  · split
    · exact ⟨rfl, rfl⟩
    · split <;> exact ⟨rfl, rfl⟩

/-- A card's CRU bit keeps its identity and its memories. -/
theorem Card.writeBit_memories (c : Card) (bit : Nat) (v : Bool) :
    (c.writeBit bit v).id = c.id ∧ (c.writeBit bit v).dsr = c.dsr ∧
    (c.writeBit bit v).horizon.map (·.dsrRam) = c.horizon.map (·.dsrRam) ∧
    (c.writeBit bit v).horizon.map (·.paged) = c.horizon.map (·.paged) := by
  unfold Card.writeBit
  split
  · exact ⟨rfl, rfl, rfl, rfl⟩
  · refine ⟨rfl, rfl, ?_, ?_⟩
    · cases c.horizon with
      | none => rfl
      | some h => simp [(h.writeBit_memories bit v).1]
    · cases c.horizon with
      | none => rfl
      | some h => simp [(h.writeBit_memories bit v).2]

/-- The cartridge's CRU bits keep its memories. -/
theorem Cartridge.writeBit_memories (c : Cartridge) (bit : Nat) (v : Bool) :
    (c.writeBit bit v).rom = c.rom ∧ (c.writeBit bit v).ram = c.ram := by
  unfold Cartridge.writeBit
  split <;> exact ⟨rfl, rfl⟩

/-- The memories of a card. -/
def Card.memoryParts (c : Card) : Option DsrRom × Option Block × Option Block :=
  (c.dsr, c.horizon.map (·.dsrRam), c.horizon.map (·.paged))

/-- Bytes depend on the memories alone. -/
theorem cellAt_of_memories {s t : State} (hr : t.rom = s.rom) (h0 : t.ovl0 = s.ovl0) (h1 : t.ovl1 = s.ovl1) (he : t.exp = s.exp)
    (hp : t.pad = s.pad) (hc : t.cart.map (fun c => (c.rom, c.ram)) = s.cart.map (fun c => (c.rom, c.ram)))
    (hd : ∀ i : Nat, (t.cards[i]?).map Card.memoryParts = (s.cards[i]?).map Card.memoryParts) (c : CellRef) :
    cellAt t c = cellAt s c := by
  obtain ⟨st, o⟩ := c
  unfold cellAt readStore
  cases st <;> dsimp only
  · rw [hr]
  · rw [h0]
  · rw [h1]
  · rw [he]
  · rw [hp]
  · cases ht : t.cart <;> cases hs : s.cart <;> rw [ht, hs] at hc <;> simp_all
  · cases ht : t.cart <;> cases hs : s.cart <;> rw [ht, hs] at hc <;> simp_all
  all_goals
    rename_i i
    have h := hd i
    cases ht : t.cards[i]? with
    | none =>
      cases hs : s.cards[i]? with
      | none => rfl
      | some y => rw [ht, hs] at h; cases h
    | some x =>
      cases hs : s.cards[i]? with
      | none => rw [ht, hs] at h; cases h
      | some y =>
        rw [ht, hs] at h
        simp only [Option.map_some, Option.some.injEq, Card.memoryParts, Prod.mk.injEq] at h
        obtain ⟨e1, e2, e3⟩ := h
        dsimp only
        first
          | rw [e1]
          | (cases hx : x.horizon <;> cases hy : y.horizon <;> rw [hx, hy] at e2 e3 <;> simp_all)

theorem cellAt_cruDeliver (a : CruAddr) (v : Bool) (s : State) (e : CruEntry) (c : CellRef) :
    cellAt (cruDeliver a v s e) c = cellAt s c := by
  unfold cruDeliver
  split
  · split
    · refine cellAt_of_memories (s := s) (t := s.mapCart _) rfl rfl rfl rfl rfl ?_ (fun _ => rfl) c
      show (s.cart.map _).map _ = _
      cases s.cart with
      | none => rfl
      | some k => simp [(k.writeBit_memories _ v).1, (k.writeBit_memories _ v).2]
    · rename_i id _
      refine cellAt_of_memories (s := s)
        (t := { s with cards := s.cards.map fun c => if c.id = id then c.writeBit (a.toNat - e.base) v else c })
        rfl rfl rfl rfl rfl rfl ?_ c
      intro i
      simp only [List.getElem?_map]
      cases s.cards[i]? with
      | none => rfl
      | some k =>
        have h := k.writeBit_memories (a.toNat - e.base) v
        simp only [Option.map_some, Card.memoryParts]
        split
        · rw [h.2.1, h.2.2.1, h.2.2.2]
        · rfl
    · rfl
  · rfl

theorem cellAt_cruFold (a : CruAddr) (v : Bool) (c : CellRef) (l : List CruEntry) :
    ∀ s : State, cellAt (l.foldl (cruDeliver a v) s) c = cellAt s c := by
  induction l with
  | nil => exact fun _ => rfl
  | cons e rest ih =>
    intro s
    rw [List.foldl_cons, ih, cellAt_cruDeliver]

/-- A CRU write changes no byte of memory. -/
theorem cellAt_cruWrite (s : State) (a : CruAddr) (v : Bool) (c : CellRef) : cellAt (cruWrite s a v) c = cellAt s c := by
  have h := cellAt_cruFold a v c s.cru s
  exact h

/-- The state with everything a CRU write can change blanked out. -/
def State.offCru (s : State) : State := { s with cart := none, cards := [], cru := [] }

theorem cruDeliver_offCru (a : CruAddr) (v : Bool) (s : State) (e : CruEntry) :
    (cruDeliver a v s e).offCru = s.offCru := by
  unfold cruDeliver
  split
  · split <;> rfl
  · rfl

/-- A CRU write changes the cartridge, the cards and the device list only. -/
theorem cruWrite_offCru (s : State) (a : CruAddr) (v : Bool) : (cruWrite s a v).offCru = s.offCru := by
  have h : ∀ (l : List CruEntry) (u : State), (l.foldl (cruDeliver a v) u).offCru = u.offCru := by
    intro l
    induction l with
    | nil => exact fun _ => rfl
    | cons e rest ih =>
      intro u
      rw [List.foldl_cons, ih, cruDeliver_offCru]
  exact h s.cru s

@[simp] theorem cruWrite_pc (s : State) (a : CruAddr) (v : Bool) : (cruWrite s a v).pc = s.pc := by
  have h := congrArg State.pc (cruWrite_offCru s a v); exact h
@[simp] theorem cruWrite_wp (s : State) (a : CruAddr) (v : Bool) : (cruWrite s a v).wp = s.wp := by
  have h := congrArg State.wp (cruWrite_offCru s a v); exact h
@[simp] theorem cruWrite_st (s : State) (a : CruAddr) (v : Bool) : (cruWrite s a v).st = s.st := by
  have h := congrArg State.st (cruWrite_offCru s a v); exact h

/-- A CRU write keeps memory. -/
theorem cruWrite_memoryKept (s : State) (a : CruAddr) (v : Bool) : MemoryKept s (cruWrite s a v) [] :=
  memoryKept_of_cells fun c _ => cellAt_cruWrite s a v c

/-- LDCR's writes keep memory, WP and ST (R663). -/
theorem cruSend_keeps (a : CruAddr) (v : Word) : ∀ (n i : Nat) (s : State),
    MemoryKept s (cruSend a v n i s) [] ∧ (cruSend a v n i s).wp = s.wp ∧ (cruSend a v n i s).st = s.st ∧
      (cruSend a v n i s).pc = s.pc
  | 0, _, s => ⟨.refl s, rfl, rfl, rfl⟩
  | n + 1, i, s => by
    have h := cruSend_keeps a v n (i + 1) (cruWrite s (a + BitVec.ofNat 12 i) (v.getLsbD i))
    have k := cruWrite_memoryKept s (a + BitVec.ofNat 12 i) (v.getLsbD i)
    exact ⟨k.trans h.1, h.2.1.trans (cruWrite_wp _ _ _), h.2.2.1.trans (cruWrite_st _ _ _), h.2.2.2.trans (cruWrite_pc _ _ _)⟩

/-- Bit `i` of the value that STCR collects (R664). -/
theorem cruReceive_getLsbD (s : State) (a : CruAddr) : ∀ (c i : Nat), c ≤ 16 →
    (cruReceive s a c).getLsbD i = (decide (i < c) && cruRead s (a + BitVec.ofNat 12 i))
  | 0, i, _ => by simp [cruReceive]
  | c + 1, i, hc => by
    unfold cruReceive
    rw [BitVec.getLsbD_or, cruReceive_getLsbD s a c i (by omega)]
    have hb : ((if cruRead s (a + BitVec.ofNat 12 c) then 1#16 <<< c else 0) : Word).getLsbD i =
        (decide (i = c) && cruRead s (a + BitVec.ofNat 12 c)) := by
      cases cruRead s (a + BitVec.ofNat 12 c)
      · simp
      · simp only [if_true, BitVec.getLsbD_shiftLeft, Bool.and_true]
        by_cases h : i = c
        · subst h
          have : i < 16 := by omega
          simp [this]
        · by_cases hlt : i < c
          · simp [h, hlt]
          · have : i - c ≠ 0 := by omega
            simp [h, this]
    rw [hb]
    by_cases h : i = c
    · subst h; simp
    · have : (i < c + 1) = (i < c) := by simp; omega
      simp [h, this]

end Sys2Proof.Machine
end

