-- ==== Sys2Proof/Laws/PerInstr.lean ====
section
/-! SUPPORT. The family `MatchesRow`: for every instruction, its word has the fixed bits of its row of the opcode table (R320), and
the instruction takes one to three words in memory (R300). -/

namespace Sys2Proof.Laws

/-- A row of the opcode table: the mask of its fixed bits and their values (R320). -/
structure TableRow where
  mask : Word
  bits : Word

/-- The row of the opcode table that an instruction belongs to. -/
def tableRow : Instr → TableRow
  | .li _ => ⟨0xFFF0, 0x0200⟩
  | .ai _ => ⟨0xFFF0, 0x0220⟩
  | .andi _ => ⟨0xFFF0, 0x0240⟩
  | .ori _ => ⟨0xFFF0, 0x0260⟩
  | .ci _ => ⟨0xFFF0, 0x0280⟩
  | .stwp _ => ⟨0xFFF0, 0x02A0⟩
  | .stst _ => ⟨0xFFF0, 0x02C0⟩
  | .lwpi => ⟨0xFFFF, 0x02E0⟩
  | .limi => ⟨0xFFFF, 0x0300⟩
  | .idle => ⟨0xFFFF, 0x0340⟩
  | .rset => ⟨0xFFFF, 0x0360⟩
  | .rtwp => ⟨0xFFFF, 0x0380⟩
  | .ckon => ⟨0xFFFF, 0x03A0⟩
  | .ckof => ⟨0xFFFF, 0x03C0⟩
  | .lrex => ⟨0xFFFF, 0x03E0⟩
  | .blwp _ => ⟨0xFFC0, 0x0400⟩
  | .b _ => ⟨0xFFC0, 0x0440⟩
  | .x _ => ⟨0xFFC0, 0x0480⟩
  | .clr _ => ⟨0xFFC0, 0x04C0⟩
  | .neg _ => ⟨0xFFC0, 0x0500⟩
  | .inv _ => ⟨0xFFC0, 0x0540⟩
  | .inc _ => ⟨0xFFC0, 0x0580⟩
  | .inct _ => ⟨0xFFC0, 0x05C0⟩
  | .dec _ => ⟨0xFFC0, 0x0600⟩
  | .dect _ => ⟨0xFFC0, 0x0640⟩
  | .bl _ => ⟨0xFFC0, 0x0680⟩
  | .swpb _ => ⟨0xFFC0, 0x06C0⟩
  | .seto _ => ⟨0xFFC0, 0x0700⟩
  | .abs _ => ⟨0xFFC0, 0x0740⟩
  | .sra _ _ => ⟨0xFF00, 0x0800⟩
  | .srl _ _ => ⟨0xFF00, 0x0900⟩
  | .sla _ _ => ⟨0xFF00, 0x0A00⟩
  | .src _ _ => ⟨0xFF00, 0x0B00⟩
  | .jmp _ => ⟨0xFF00, 0x1000⟩
  | .jlt _ => ⟨0xFF00, 0x1100⟩
  | .jle _ => ⟨0xFF00, 0x1200⟩
  | .jeq _ => ⟨0xFF00, 0x1300⟩
  | .jhe _ => ⟨0xFF00, 0x1400⟩
  | .jgt _ => ⟨0xFF00, 0x1500⟩
  | .jne _ => ⟨0xFF00, 0x1600⟩
  | .jnc _ => ⟨0xFF00, 0x1700⟩
  | .joc _ => ⟨0xFF00, 0x1800⟩
  | .jno _ => ⟨0xFF00, 0x1900⟩
  | .jl _ => ⟨0xFF00, 0x1A00⟩
  | .jh _ => ⟨0xFF00, 0x1B00⟩
  | .jop _ => ⟨0xFF00, 0x1C00⟩
  | .sbo _ => ⟨0xFF00, 0x1D00⟩
  | .sbz _ => ⟨0xFF00, 0x1E00⟩
  | .tb _ => ⟨0xFF00, 0x1F00⟩
  | .coc _ _ => ⟨0xFC00, 0x2000⟩
  | .czc _ _ => ⟨0xFC00, 0x2400⟩
  | .xor _ _ => ⟨0xFC00, 0x2800⟩
  | .xop _ _ => ⟨0xFC00, 0x2C00⟩
  | .ldcr _ _ => ⟨0xFC00, 0x3000⟩
  | .stcr _ _ => ⟨0xFC00, 0x3400⟩
  | .mpy _ _ => ⟨0xFC00, 0x3800⟩
  | .div _ _ => ⟨0xFC00, 0x3C00⟩
  | .szc _ _ => ⟨0xF000, 0x4000⟩
  | .szcb _ _ => ⟨0xF000, 0x5000⟩
  | .s _ _ => ⟨0xF000, 0x6000⟩
  | .sb _ _ => ⟨0xF000, 0x7000⟩
  | .c _ _ => ⟨0xF000, 0x8000⟩
  | .cb _ _ => ⟨0xF000, 0x9000⟩
  | .a _ _ => ⟨0xF000, 0xA000⟩
  | .ab _ _ => ⟨0xF000, 0xB000⟩
  | .mov _ _ => ⟨0xF000, 0xC000⟩
  | .movb _ _ => ⟨0xF000, 0xD000⟩
  | .soc _ _ => ⟨0xF000, 0xE000⟩
  | .socb _ _ => ⟨0xF000, 0xF000⟩

/-- The word of the instruction has the fixed bits of its row, and the instruction takes one to three words. -/
def MatchesRow.Statement (i : Instr) : Prop :=
  encodeWord i &&& (tableRow i).mask = (tableRow i).bits ∧ 1 ≤ instrWords i ∧ instrWords i ≤ 3

theorem extWords_le (o : Operand) : o.extWords ≤ 1 := by cases o <;> simp [Operand.extWords]

/-- The top bits of a word put together from an opcode and a rest. -/
theorem top_bits {k n : Nat} (op : BitVec k) (rest : BitVec n) (h : k + n = 16) (m b : Word)
    (hm : m = ((BitVec.allOnes k ++ (0 : BitVec n)).cast h)) (hb : b = ((op ++ (0 : BitVec n)).cast h)) :
    ((op ++ rest).cast h) &&& m = b := by
  subst hm hb
  apply BitVec.eq_of_getLsbD_eq
  intro i hi
  simp only [BitVec.getLsbD_and, BitVec.getLsbD_cast, BitVec.getLsbD_append]
  by_cases hin : i < n
  · simp [hin]
  · have : i - n < k := by omega
    simp [hin, this]

theorem MatchesRow.li (w : RegNo) : MatchesRow.Statement (.li w) := by
  revert w; unfold MatchesRow.Statement; decide

theorem MatchesRow.ai (w : RegNo) : MatchesRow.Statement (.ai w) := by
  revert w; unfold MatchesRow.Statement; decide

theorem MatchesRow.andi (w : RegNo) : MatchesRow.Statement (.andi w) := by
  revert w; unfold MatchesRow.Statement; decide

theorem MatchesRow.ori (w : RegNo) : MatchesRow.Statement (.ori w) := by
  revert w; unfold MatchesRow.Statement; decide

theorem MatchesRow.ci (w : RegNo) : MatchesRow.Statement (.ci w) := by
  revert w; unfold MatchesRow.Statement; decide

theorem MatchesRow.stwp (w : RegNo) : MatchesRow.Statement (.stwp w) := by
  revert w; unfold MatchesRow.Statement; decide

theorem MatchesRow.stst (w : RegNo) : MatchesRow.Statement (.stst w) := by
  revert w; unfold MatchesRow.Statement; decide

theorem MatchesRow.lwpi : MatchesRow.Statement .lwpi := by unfold MatchesRow.Statement; decide

theorem MatchesRow.limi : MatchesRow.Statement .limi := by unfold MatchesRow.Statement; decide

theorem MatchesRow.idle : MatchesRow.Statement .idle := by unfold MatchesRow.Statement; decide

theorem MatchesRow.rset : MatchesRow.Statement .rset := by unfold MatchesRow.Statement; decide

theorem MatchesRow.rtwp : MatchesRow.Statement .rtwp := by unfold MatchesRow.Statement; decide

theorem MatchesRow.ckon : MatchesRow.Statement .ckon := by unfold MatchesRow.Statement; decide

theorem MatchesRow.ckof : MatchesRow.Statement .ckof := by unfold MatchesRow.Statement; decide

theorem MatchesRow.lrex : MatchesRow.Statement .lrex := by unfold MatchesRow.Statement; decide

theorem MatchesRow.blwp (o : Operand) : MatchesRow.Statement (.blwp o) :=
  ⟨top_bits 0x10 _ rfl 0xFFC0 0x0400 (by decide) (by decide), (by show 1 ≤ 1 + o.extWords; omega),
    (by have := extWords_le o; show 1 + o.extWords ≤ 3; omega)⟩

theorem MatchesRow.b (o : Operand) : MatchesRow.Statement (.b o) :=
  ⟨top_bits 0x11 _ rfl 0xFFC0 0x0440 (by decide) (by decide), (by show 1 ≤ 1 + o.extWords; omega),
    (by have := extWords_le o; show 1 + o.extWords ≤ 3; omega)⟩

theorem MatchesRow.x (o : Operand) : MatchesRow.Statement (.x o) :=
  ⟨top_bits 0x12 _ rfl 0xFFC0 0x0480 (by decide) (by decide), (by show 1 ≤ 1 + o.extWords; omega),
    (by have := extWords_le o; show 1 + o.extWords ≤ 3; omega)⟩

theorem MatchesRow.clr (o : Operand) : MatchesRow.Statement (.clr o) :=
  ⟨top_bits 0x13 _ rfl 0xFFC0 0x04C0 (by decide) (by decide), (by show 1 ≤ 1 + o.extWords; omega),
    (by have := extWords_le o; show 1 + o.extWords ≤ 3; omega)⟩

theorem MatchesRow.neg (o : Operand) : MatchesRow.Statement (.neg o) :=
  ⟨top_bits 0x14 _ rfl 0xFFC0 0x0500 (by decide) (by decide), (by show 1 ≤ 1 + o.extWords; omega),
    (by have := extWords_le o; show 1 + o.extWords ≤ 3; omega)⟩

theorem MatchesRow.inv (o : Operand) : MatchesRow.Statement (.inv o) :=
  ⟨top_bits 0x15 _ rfl 0xFFC0 0x0540 (by decide) (by decide), (by show 1 ≤ 1 + o.extWords; omega),
    (by have := extWords_le o; show 1 + o.extWords ≤ 3; omega)⟩

theorem MatchesRow.inc (o : Operand) : MatchesRow.Statement (.inc o) :=
  ⟨top_bits 0x16 _ rfl 0xFFC0 0x0580 (by decide) (by decide), (by show 1 ≤ 1 + o.extWords; omega),
    (by have := extWords_le o; show 1 + o.extWords ≤ 3; omega)⟩

theorem MatchesRow.inct (o : Operand) : MatchesRow.Statement (.inct o) :=
  ⟨top_bits 0x17 _ rfl 0xFFC0 0x05C0 (by decide) (by decide), (by show 1 ≤ 1 + o.extWords; omega),
    (by have := extWords_le o; show 1 + o.extWords ≤ 3; omega)⟩

theorem MatchesRow.dec (o : Operand) : MatchesRow.Statement (.dec o) :=
  ⟨top_bits 0x18 _ rfl 0xFFC0 0x0600 (by decide) (by decide), (by show 1 ≤ 1 + o.extWords; omega),
    (by have := extWords_le o; show 1 + o.extWords ≤ 3; omega)⟩

theorem MatchesRow.dect (o : Operand) : MatchesRow.Statement (.dect o) :=
  ⟨top_bits 0x19 _ rfl 0xFFC0 0x0640 (by decide) (by decide), (by show 1 ≤ 1 + o.extWords; omega),
    (by have := extWords_le o; show 1 + o.extWords ≤ 3; omega)⟩

theorem MatchesRow.bl (o : Operand) : MatchesRow.Statement (.bl o) :=
  ⟨top_bits 0x1A _ rfl 0xFFC0 0x0680 (by decide) (by decide), (by show 1 ≤ 1 + o.extWords; omega),
    (by have := extWords_le o; show 1 + o.extWords ≤ 3; omega)⟩

theorem MatchesRow.swpb (o : Operand) : MatchesRow.Statement (.swpb o) :=
  ⟨top_bits 0x1B _ rfl 0xFFC0 0x06C0 (by decide) (by decide), (by show 1 ≤ 1 + o.extWords; omega),
    (by have := extWords_le o; show 1 + o.extWords ≤ 3; omega)⟩

theorem MatchesRow.seto (o : Operand) : MatchesRow.Statement (.seto o) :=
  ⟨top_bits 0x1C _ rfl 0xFFC0 0x0700 (by decide) (by decide), (by show 1 ≤ 1 + o.extWords; omega),
    (by have := extWords_le o; show 1 + o.extWords ≤ 3; omega)⟩

theorem MatchesRow.abs (o : Operand) : MatchesRow.Statement (.abs o) :=
  ⟨top_bits 0x1D _ rfl 0xFFC0 0x0740 (by decide) (by decide), (by show 1 ≤ 1 + o.extWords; omega),
    (by have := extWords_le o; show 1 + o.extWords ≤ 3; omega)⟩

theorem MatchesRow.sra (c : ShiftCount) (w : RegNo) : MatchesRow.Statement (.sra c w) :=
  ⟨top_bits 0x08 _ rfl 0xFF00 0x0800 (by decide) (by decide), (by show 1 ≤ 1; omega),
    (by show 1 ≤ 3; omega)⟩

theorem MatchesRow.srl (c : ShiftCount) (w : RegNo) : MatchesRow.Statement (.srl c w) :=
  ⟨top_bits 0x09 _ rfl 0xFF00 0x0900 (by decide) (by decide), (by show 1 ≤ 1; omega),
    (by show 1 ≤ 3; omega)⟩

theorem MatchesRow.sla (c : ShiftCount) (w : RegNo) : MatchesRow.Statement (.sla c w) :=
  ⟨top_bits 0x0A _ rfl 0xFF00 0x0A00 (by decide) (by decide), (by show 1 ≤ 1; omega),
    (by show 1 ≤ 3; omega)⟩

theorem MatchesRow.src (c : ShiftCount) (w : RegNo) : MatchesRow.Statement (.src c w) :=
  ⟨top_bits 0x0B _ rfl 0xFF00 0x0B00 (by decide) (by decide), (by show 1 ≤ 1; omega),
    (by show 1 ≤ 3; omega)⟩

theorem MatchesRow.jmp (d : Byte) : MatchesRow.Statement (.jmp d) :=
  ⟨top_bits 0x10 _ rfl 0xFF00 0x1000 (by decide) (by decide), (by show 1 ≤ 1; omega),
    (by show 1 ≤ 3; omega)⟩

theorem MatchesRow.jlt (d : Byte) : MatchesRow.Statement (.jlt d) :=
  ⟨top_bits 0x11 _ rfl 0xFF00 0x1100 (by decide) (by decide), (by show 1 ≤ 1; omega),
    (by show 1 ≤ 3; omega)⟩

theorem MatchesRow.jle (d : Byte) : MatchesRow.Statement (.jle d) :=
  ⟨top_bits 0x12 _ rfl 0xFF00 0x1200 (by decide) (by decide), (by show 1 ≤ 1; omega),
    (by show 1 ≤ 3; omega)⟩

theorem MatchesRow.jeq (d : Byte) : MatchesRow.Statement (.jeq d) :=
  ⟨top_bits 0x13 _ rfl 0xFF00 0x1300 (by decide) (by decide), (by show 1 ≤ 1; omega),
    (by show 1 ≤ 3; omega)⟩

theorem MatchesRow.jhe (d : Byte) : MatchesRow.Statement (.jhe d) :=
  ⟨top_bits 0x14 _ rfl 0xFF00 0x1400 (by decide) (by decide), (by show 1 ≤ 1; omega),
    (by show 1 ≤ 3; omega)⟩

theorem MatchesRow.jgt (d : Byte) : MatchesRow.Statement (.jgt d) :=
  ⟨top_bits 0x15 _ rfl 0xFF00 0x1500 (by decide) (by decide), (by show 1 ≤ 1; omega),
    (by show 1 ≤ 3; omega)⟩

theorem MatchesRow.jne (d : Byte) : MatchesRow.Statement (.jne d) :=
  ⟨top_bits 0x16 _ rfl 0xFF00 0x1600 (by decide) (by decide), (by show 1 ≤ 1; omega),
    (by show 1 ≤ 3; omega)⟩

theorem MatchesRow.jnc (d : Byte) : MatchesRow.Statement (.jnc d) :=
  ⟨top_bits 0x17 _ rfl 0xFF00 0x1700 (by decide) (by decide), (by show 1 ≤ 1; omega),
    (by show 1 ≤ 3; omega)⟩

theorem MatchesRow.joc (d : Byte) : MatchesRow.Statement (.joc d) :=
  ⟨top_bits 0x18 _ rfl 0xFF00 0x1800 (by decide) (by decide), (by show 1 ≤ 1; omega),
    (by show 1 ≤ 3; omega)⟩

theorem MatchesRow.jno (d : Byte) : MatchesRow.Statement (.jno d) :=
  ⟨top_bits 0x19 _ rfl 0xFF00 0x1900 (by decide) (by decide), (by show 1 ≤ 1; omega),
    (by show 1 ≤ 3; omega)⟩

theorem MatchesRow.jl (d : Byte) : MatchesRow.Statement (.jl d) :=
  ⟨top_bits 0x1A _ rfl 0xFF00 0x1A00 (by decide) (by decide), (by show 1 ≤ 1; omega),
    (by show 1 ≤ 3; omega)⟩

theorem MatchesRow.jh (d : Byte) : MatchesRow.Statement (.jh d) :=
  ⟨top_bits 0x1B _ rfl 0xFF00 0x1B00 (by decide) (by decide), (by show 1 ≤ 1; omega),
    (by show 1 ≤ 3; omega)⟩

theorem MatchesRow.jop (d : Byte) : MatchesRow.Statement (.jop d) :=
  ⟨top_bits 0x1C _ rfl 0xFF00 0x1C00 (by decide) (by decide), (by show 1 ≤ 1; omega),
    (by show 1 ≤ 3; omega)⟩

theorem MatchesRow.sbo (d : Byte) : MatchesRow.Statement (.sbo d) :=
  ⟨top_bits 0x1D _ rfl 0xFF00 0x1D00 (by decide) (by decide), (by show 1 ≤ 1; omega),
    (by show 1 ≤ 3; omega)⟩

theorem MatchesRow.sbz (d : Byte) : MatchesRow.Statement (.sbz d) :=
  ⟨top_bits 0x1E _ rfl 0xFF00 0x1E00 (by decide) (by decide), (by show 1 ≤ 1; omega),
    (by show 1 ≤ 3; omega)⟩

theorem MatchesRow.tb (d : Byte) : MatchesRow.Statement (.tb d) :=
  ⟨top_bits 0x1F _ rfl 0xFF00 0x1F00 (by decide) (by decide), (by show 1 ≤ 1; omega),
    (by show 1 ≤ 3; omega)⟩

theorem MatchesRow.coc (o : Operand) (d : RegNo) : MatchesRow.Statement (.coc o d) :=
  ⟨top_bits 0x08 _ rfl 0xFC00 0x2000 (by decide) (by decide), (by show 1 ≤ 1 + o.extWords; omega),
    (by have := extWords_le o; show 1 + o.extWords ≤ 3; omega)⟩

theorem MatchesRow.czc (o : Operand) (d : RegNo) : MatchesRow.Statement (.czc o d) :=
  ⟨top_bits 0x09 _ rfl 0xFC00 0x2400 (by decide) (by decide), (by show 1 ≤ 1 + o.extWords; omega),
    (by have := extWords_le o; show 1 + o.extWords ≤ 3; omega)⟩

theorem MatchesRow.xor (o : Operand) (d : RegNo) : MatchesRow.Statement (.xor o d) :=
  ⟨top_bits 0x0A _ rfl 0xFC00 0x2800 (by decide) (by decide), (by show 1 ≤ 1 + o.extWords; omega),
    (by have := extWords_le o; show 1 + o.extWords ≤ 3; omega)⟩

theorem MatchesRow.xop (o : Operand) (d : BitVec 4) : MatchesRow.Statement (.xop o d) :=
  ⟨top_bits 0x0B _ rfl 0xFC00 0x2C00 (by decide) (by decide), (by show 1 ≤ 1 + o.extWords; omega),
    (by have := extWords_le o; show 1 + o.extWords ≤ 3; omega)⟩

theorem MatchesRow.ldcr (o : Operand) (n : Nat) : MatchesRow.Statement (.ldcr o n) :=
  ⟨top_bits 0x0C _ rfl 0xFC00 0x3000 (by decide) (by decide), (by show 1 ≤ 1 + o.extWords; omega),
    (by have := extWords_le o; show 1 + o.extWords ≤ 3; omega)⟩

theorem MatchesRow.stcr (o : Operand) (n : Nat) : MatchesRow.Statement (.stcr o n) :=
  ⟨top_bits 0x0D _ rfl 0xFC00 0x3400 (by decide) (by decide), (by show 1 ≤ 1 + o.extWords; omega),
    (by have := extWords_le o; show 1 + o.extWords ≤ 3; omega)⟩

theorem MatchesRow.mpy (o : Operand) (d : RegNo) : MatchesRow.Statement (.mpy o d) :=
  ⟨top_bits 0x0E _ rfl 0xFC00 0x3800 (by decide) (by decide), (by show 1 ≤ 1 + o.extWords; omega),
    (by have := extWords_le o; show 1 + o.extWords ≤ 3; omega)⟩

theorem MatchesRow.div (o : Operand) (d : RegNo) : MatchesRow.Statement (.div o d) :=
  ⟨top_bits 0x0F _ rfl 0xFC00 0x3C00 (by decide) (by decide), (by show 1 ≤ 1 + o.extWords; omega),
    (by have := extWords_le o; show 1 + o.extWords ≤ 3; omega)⟩

theorem MatchesRow.szc (o : Operand) (p : Operand) : MatchesRow.Statement (.szc o p) :=
  ⟨top_bits 0x4 _ rfl 0xF000 0x4000 (by decide) (by decide), (by show 1 ≤ 1 + o.extWords + p.extWords; omega),
    (by have := extWords_le o; have := extWords_le p; show 1 + o.extWords + p.extWords ≤ 3; omega)⟩

theorem MatchesRow.szcb (o : Operand) (p : Operand) : MatchesRow.Statement (.szcb o p) :=
  ⟨top_bits 0x5 _ rfl 0xF000 0x5000 (by decide) (by decide), (by show 1 ≤ 1 + o.extWords + p.extWords; omega),
    (by have := extWords_le o; have := extWords_le p; show 1 + o.extWords + p.extWords ≤ 3; omega)⟩

theorem MatchesRow.s (o : Operand) (p : Operand) : MatchesRow.Statement (.s o p) :=
  ⟨top_bits 0x6 _ rfl 0xF000 0x6000 (by decide) (by decide), (by show 1 ≤ 1 + o.extWords + p.extWords; omega),
    (by have := extWords_le o; have := extWords_le p; show 1 + o.extWords + p.extWords ≤ 3; omega)⟩

theorem MatchesRow.sb (o : Operand) (p : Operand) : MatchesRow.Statement (.sb o p) :=
  ⟨top_bits 0x7 _ rfl 0xF000 0x7000 (by decide) (by decide), (by show 1 ≤ 1 + o.extWords + p.extWords; omega),
    (by have := extWords_le o; have := extWords_le p; show 1 + o.extWords + p.extWords ≤ 3; omega)⟩

theorem MatchesRow.c (o : Operand) (p : Operand) : MatchesRow.Statement (.c o p) :=
  ⟨top_bits 0x8 _ rfl 0xF000 0x8000 (by decide) (by decide), (by show 1 ≤ 1 + o.extWords + p.extWords; omega),
    (by have := extWords_le o; have := extWords_le p; show 1 + o.extWords + p.extWords ≤ 3; omega)⟩

theorem MatchesRow.cb (o : Operand) (p : Operand) : MatchesRow.Statement (.cb o p) :=
  ⟨top_bits 0x9 _ rfl 0xF000 0x9000 (by decide) (by decide), (by show 1 ≤ 1 + o.extWords + p.extWords; omega),
    (by have := extWords_le o; have := extWords_le p; show 1 + o.extWords + p.extWords ≤ 3; omega)⟩

theorem MatchesRow.a (o : Operand) (p : Operand) : MatchesRow.Statement (.a o p) :=
  ⟨top_bits 0xA _ rfl 0xF000 0xA000 (by decide) (by decide), (by show 1 ≤ 1 + o.extWords + p.extWords; omega),
    (by have := extWords_le o; have := extWords_le p; show 1 + o.extWords + p.extWords ≤ 3; omega)⟩

theorem MatchesRow.ab (o : Operand) (p : Operand) : MatchesRow.Statement (.ab o p) :=
  ⟨top_bits 0xB _ rfl 0xF000 0xB000 (by decide) (by decide), (by show 1 ≤ 1 + o.extWords + p.extWords; omega),
    (by have := extWords_le o; have := extWords_le p; show 1 + o.extWords + p.extWords ≤ 3; omega)⟩

theorem MatchesRow.mov (o : Operand) (p : Operand) : MatchesRow.Statement (.mov o p) :=
  ⟨top_bits 0xC _ rfl 0xF000 0xC000 (by decide) (by decide), (by show 1 ≤ 1 + o.extWords + p.extWords; omega),
    (by have := extWords_le o; have := extWords_le p; show 1 + o.extWords + p.extWords ≤ 3; omega)⟩

theorem MatchesRow.movb (o : Operand) (p : Operand) : MatchesRow.Statement (.movb o p) :=
  ⟨top_bits 0xD _ rfl 0xF000 0xD000 (by decide) (by decide), (by show 1 ≤ 1 + o.extWords + p.extWords; omega),
    (by have := extWords_le o; have := extWords_le p; show 1 + o.extWords + p.extWords ≤ 3; omega)⟩

theorem MatchesRow.soc (o : Operand) (p : Operand) : MatchesRow.Statement (.soc o p) :=
  ⟨top_bits 0xE _ rfl 0xF000 0xE000 (by decide) (by decide), (by show 1 ≤ 1 + o.extWords + p.extWords; omega),
    (by have := extWords_le o; have := extWords_le p; show 1 + o.extWords + p.extWords ≤ 3; omega)⟩

theorem MatchesRow.socb (o : Operand) (p : Operand) : MatchesRow.Statement (.socb o p) :=
  ⟨top_bits 0xF _ rfl 0xF000 0xF000 (by decide) (by decide), (by show 1 ≤ 1 + o.extWords + p.extWords; omega),
    (by have := extWords_le o; have := extWords_le p; show 1 + o.extWords + p.extWords ≤ 3; omega)⟩

end Sys2Proof.Laws
end

