-- ==== Sys2Proof/Laws/Preserved.lean ====
section
/-! SUPPORT. A property that bus accesses, CRU writes and the core's own registers keep is kept by every instruction and by every
step: the case analysis over the instructions, once. -/

namespace Sys2Proof.Machine

/-- What a property must bear for every instruction to keep it: changes of the core's registers and outputs, bus accesses, CRU
writes. -/
structure Preserved (P : State → Prop) : Prop where
  core : ∀ (s : State) (pc wp st : Word) (idle : Bool) (consumed illegalCount : Nat) (trace : List Event) (draws : Nat)
    (xPending : Option Word), P s →
      P { s with
          pc := pc, wp := wp, st := st, idle := idle, consumed := consumed, illegalCount := illegalCount, trace := trace
          draws := draws, xPending := xPending }
  read : ∀ (s : State) (a : Word), P s → P (busRead s a).2
  write : ∀ (s : State) (a v : Word), P s → P (busWrite s a v)
  cru : ∀ (s : State) (a : CruAddr) (v : Bool), P s → P (cruWrite s a v)

variable {P : State → Prop} {s t : State}

theorem Preserved.setPc (h : Preserved P) (v : Word) (hs : P s) : P (s.setPc v) := h.core s _ _ _ _ _ _ _ _ _ hs
theorem Preserved.setWp (h : Preserved P) (v : Word) (hs : P s) : P (s.setWp v) := h.core s _ _ _ _ _ _ _ _ _ hs
theorem Preserved.setSt (h : Preserved P) (v : Word) (hs : P s) : P (s.setSt v) := h.core s _ _ _ _ _ _ _ _ _ hs
theorem Preserved.charge (h : Preserved P) (n : Nat) (hs : P s) : P (s.charge n) := h.core s _ _ _ _ _ _ _ _ _ hs
theorem Preserved.emit (h : Preserved P) (e : Event) (hs : P s) : P (s.emit e) := h.core s _ _ _ _ _ _ _ _ _ hs
theorem Preserved.draw (h : Preserved P) (hs : P s) : P s.draw.2 := h.core s _ _ _ _ _ _ _ _ _ hs
theorem Preserved.idle (h : Preserved P) (b : Bool) (hs : P s) : P { s with idle := b } := h.core s _ _ _ _ _ _ _ _ _ hs
theorem Preserved.xPending (h : Preserved P) (x : Option Word) (hs : P s) : P { s with xPending := x } :=
  h.core s _ _ _ _ _ _ _ _ _ hs

/-! ## Shared operations -/

theorem readReg_kept (h : Preserved P) (r : RegNo) (hs : P s) : P (readReg s r).2 := h.read _ _ hs

theorem writeReg_kept (h : Preserved P) (r : RegNo) (v : Word) (hs : P s) : P (writeReg s r v) := h.write _ _ _ hs

theorem fetchWord_kept (h : Preserved P) (hs : P s) : P (fetchWord s).2 := h.setPc _ (h.read _ _ hs)

theorem dummyRead_kept (h : Preserved P) (a : Word) (hs : P s) : P (dummyRead s a) := h.read _ _ hs

theorem ea_kept (h : Preserved P) (o : Operand) (n : Width) (hs : P s) : P (ea o n s).2 := by
  cases o with
  | reg r => exact hs
  | ind r => exact readReg_kept h r hs
  | sym => exact fetchWord_kept h hs
  | idx r => exact readReg_kept h r (fetchWord_kept h hs)
  | inc r => exact writeReg_kept h r _ (readReg_kept h r hs)

theorem readWordOp_kept (h : Preserved P) (o : Operand) (hs : P s) : P (readWordOp o s).after := h.read _ _ (ea_kept h o _ hs)

theorem readByteOp_kept (h : Preserved P) (o : Operand) (hs : P s) : P (readByteOp o s).after := h.read _ _ (ea_kept h o _ hs)

theorem busWriteByte_kept (h : Preserved P) (a : Word) (b : Byte) (hs : P s) : P (busWriteByte s a b) :=
  h.write _ _ _ (h.read _ _ hs)

theorem contextSwitch_kept (h : Preserved P) (nwp npc : Word) (hs : P s) : P (contextSwitch s nwp npc) :=
  h.setPc _ (h.write _ _ _ (h.write _ _ _ (h.write _ _ _ (h.setWp _ hs))))

theorem readVector_kept (h : Preserved P) (a : Word) (hs : P s) : P (readVector s a).2.2 := h.read _ _ (h.read _ _ hs)

theorem switchThrough_kept (h : Preserved P) (a : Word) (hs : P s) : P (switchThrough s a) :=
  contextSwitch_kept h _ _ (readVector_kept h a hs)

theorem acknowledge_kept (h : Preserved P) (l : IntLevel) (hs : P s) : P (acknowledge s l) :=
  h.core (switchThrough s (vectorAddr l)) _ _ _ _ _ _ _ _ _ (switchThrough_kept h _ hs)

theorem interruptCheck_kept (h : Preserved P) (hs : P s) : P (interruptCheck s) := by
  unfold interruptCheck
  split
  · split
    · exact acknowledge_kept h _ hs
    · exact hs
  · exact hs

theorem returnSwitch_kept (h : Preserved P) (hs : P s) : P (returnSwitch s) :=
  h.setWp _ (h.setPc _ (h.setSt _ (h.read _ _ (h.read _ _ (h.read _ _ hs)))))

theorem illegalOpcode_kept (h : Preserved P) (w : Word) (hs : P s) : P (illegalOpcode s w) := by
  unfold illegalOpcode
  dsimp only
  split <;> exact h.core s _ _ _ _ _ _ _ _ _ hs

theorem cruSend_kept (h : Preserved P) (a : CruAddr) (v : Word) :
    ∀ (n i : Nat) (s : State), P s → P (cruSend a v n i s)
  | 0, _, _, hs => hs
  | n + 1, i, s, hs => cruSend_kept h a v n (i + 1) _ (h.cru s _ _ hs)

theorem finishWith_kept (h : Preserved P) {st : Word} {k : Nat} (hs : P s) (hn : finishWith s st k = .next t) : P t := by
  injection hn with e
  exact e ▸ h.charge _ (h.setSt _ hs)

theorem shiftAmount_kept (h : Preserved P) (c : ShiftCount) (hs : P s) : P (shiftAmount c s).2 := by
  cases c with
  | imm n => exact hs
  | fromR0 => exact readReg_kept h 0 hs

/-! ## Shapes -/

theorem dualWord_kept (h : Preserved P) {src dst : Operand} {op : Word → Word → Word → Word × Word} (hs : P s)
    (hn : dualWord src dst op s = .next t) : P t :=
  finishWith_kept h (h.write _ _ _ (readWordOp_kept h dst (readWordOp_kept h src hs))) hn

theorem dualByte_kept (h : Preserved P) {src dst : Operand} {op : Byte → Byte → Word → Byte × Word} (hs : P s)
    (hn : dualByte src dst op s = .next t) : P t :=
  finishWith_kept h (h.write _ _ _ (readByteOp_kept h dst (readByteOp_kept h src hs))) hn

theorem compareWord_kept (h : Preserved P) {src dst : Operand} {op : Word → Word → Word → Word} (hs : P s)
    (hn : compareWord src dst op s = .next t) : P t :=
  finishWith_kept h (readWordOp_kept h dst (readWordOp_kept h src hs)) hn

theorem compareByte_kept (h : Preserved P) {src dst : Operand} {op : Byte → Byte → Word → Word} (hs : P s)
    (hn : compareByte src dst op s = .next t) : P t :=
  finishWith_kept h (readByteOp_kept h dst (readByteOp_kept h src hs)) hn

theorem singleWord_kept (h : Preserved P) {o : Operand} {k : Nat} {op : Word → Word → Word × Word} (hs : P s)
    (hn : singleWord o k op s = .next t) : P t :=
  finishWith_kept h (h.write _ _ _ (readWordOp_kept h o hs)) hn

theorem storeConst_kept (h : Preserved P) {o : Operand} {v : Word} (hs : P s) (hn : storeConst o v s = .next t) : P t :=
  finishWith_kept h (h.write _ _ _ (dummyRead_kept h _ (ea_kept h o _ hs))) hn

theorem immediateWord_kept (h : Preserved P) {w : RegNo} {op : Word → Word → Word → Word × Word} (hs : P s)
    (hn : immediateWord w op s = .next t) : P t :=
  finishWith_kept h (writeReg_kept h _ _ (readReg_kept h w (fetchWord_kept h hs))) hn

theorem compareReg_kept (h : Preserved P) {src : Operand} {d : RegNo} {op : Word → Word → Word → Word} (hs : P s)
    (hn : compareReg src d op s = .next t) : P t :=
  finishWith_kept h (readReg_kept h d (readWordOp_kept h src hs)) hn

theorem shiftReg_kept (h : Preserved P) {c : ShiftCount} {w : RegNo} {op : Nat → Word → Word → Word × Word} (hs : P s)
    (hn : shiftReg c w op s = .next t) : P t :=
  finishWith_kept h (writeReg_kept h _ _ (readReg_kept h w (shiftAmount_kept h c hs))) hn

theorem jumpIf_kept (h : Preserved P) {c : Word → Bool} {d : Byte} (hs : P s) (hn : jumpIf c d s = .next t) : P t := by
  injection hn with e
  rw [← e]
  split <;> exact h.core s _ _ _ _ _ _ _ _ _ hs

theorem externalControl_kept (h : Preserved P) {op : ExternalOp} (hs : P s) (hn : externalControl op s = .next t) : P t := by
  injection hn with e
  exact e ▸ h.charge _ (h.emit _ hs)

theorem setCruBit_kept (h : Preserved P) {d : Byte} {v : Bool} (hs : P s) (hn : setCruBit d v s = .next t) : P t := by
  injection hn with e
  exact e ▸ h.charge _ (h.cru _ _ _ (readReg_kept h 12 hs))

/-! ## Meanings that are no instance of a shape -/

theorem execLi_kept (h : Preserved P) {w : RegNo} (hs : P s) (hn : execLi w s = .next t) : P t :=
  finishWith_kept h (writeReg_kept h _ _ (fetchWord_kept h hs)) hn

theorem execCi_kept (h : Preserved P) {w : RegNo} (hs : P s) (hn : execCi w s = .next t) : P t :=
  finishWith_kept h (readReg_kept h w (fetchWord_kept h hs)) hn

theorem execStwp_kept (h : Preserved P) {w : RegNo} (hs : P s) (hn : execStwp w s = .next t) : P t := by
  injection hn with e
  exact e ▸ h.charge _ (writeReg_kept h _ _ hs)

theorem execStst_kept (h : Preserved P) {w : RegNo} (hs : P s) (hn : execStst w s = .next t) : P t := by
  injection hn with e
  exact e ▸ h.charge _ (writeReg_kept h _ _ hs)

theorem execLwpi_kept (h : Preserved P) (hs : P s) (hn : execLwpi s = .next t) : P t := by
  injection hn with e
  exact e ▸ h.charge _ (h.setWp _ (fetchWord_kept h hs))

theorem execLimi_kept (h : Preserved P) (hs : P s) (hn : execLimi s = .next t) : P t :=
  finishWith_kept h (fetchWord_kept h hs) hn

theorem execIdle_kept (h : Preserved P) (hs : P s) (hn : execIdle s = .next t) : P t :=
  externalControl_kept h (h.idle true hs) hn

theorem execRset_kept (h : Preserved P) (hs : P s) (hn : execRset s = .next t) : P t :=
  externalControl_kept h (h.setSt _ hs) hn

theorem execRtwp_kept (h : Preserved P) (hs : P s) (hn : execRtwp s = .next t) : P t := by
  injection hn with e
  exact e ▸ h.charge _ (returnSwitch_kept h hs)

theorem execBlwp_kept (h : Preserved P) {src : Operand} (hs : P s) (hn : execBlwp src s = .next t) : P t := by
  injection hn with e
  exact e ▸ h.charge _ (switchThrough_kept h _ (ea_kept h src _ hs))

theorem execB_kept (h : Preserved P) {src : Operand} (hs : P s) (hn : execB src s = .next t) : P t := by
  injection hn with e
  exact e ▸ h.charge _ (h.setPc _ (dummyRead_kept h _ (ea_kept h src _ hs)))

theorem execBl_kept (h : Preserved P) {src : Operand} (hs : P s) (hn : execBl src s = .next t) : P t := by
  injection hn with e
  exact e ▸ h.charge _ (h.setPc _ (writeReg_kept h _ _ (dummyRead_kept h _ (ea_kept h src _ hs))))

theorem execAbs_kept (h : Preserved P) {src : Operand} (hs : P s) (hn : execAbs src s = .next t) : P t := by
  refine finishWith_kept h ?_ hn
  split
  · exact h.write _ _ _ (readWordOp_kept h src hs)
  · exact readWordOp_kept h src hs

theorem execTb_kept (h : Preserved P) {d : Byte} (hs : P s) (hn : execTb d s = .next t) : P t :=
  finishWith_kept h (readReg_kept h 12 hs) hn

theorem execXor_kept (h : Preserved P) {src : Operand} {d : RegNo} (hs : P s) (hn : execXor src d s = .next t) : P t :=
  finishWith_kept h (writeReg_kept h _ _ (readReg_kept h d (readWordOp_kept h src hs))) hn

theorem execXop_kept (h : Preserved P) {src : Operand} {n : BitVec 4} (hs : P s) (hn : execXop src n s = .next t) : P t :=
  finishWith_kept h (writeReg_kept h _ _ (switchThrough_kept h _ (dummyRead_kept h _ (ea_kept h src _ hs)))) hn

theorem execLdcr_kept (h : Preserved P) {src : Operand} {c : Nat} (hs : P s) (hn : execLdcr src c s = .next t) : P t := by
  unfold execLdcr at hn
  split at hn
  · exact finishWith_kept h (cruSend_kept h _ _ _ _ _ (readReg_kept h 12 (readByteOp_kept h src hs))) hn
  · exact finishWith_kept h (cruSend_kept h _ _ _ _ _ (readReg_kept h 12 (readWordOp_kept h src hs))) hn

theorem execStcr_kept (h : Preserved P) {src : Operand} {c : Nat} (hs : P s) (hn : execStcr src c s = .next t) : P t := by
  unfold execStcr at hn
  split at hn
  · exact finishWith_kept h (busWriteByte_kept h _ _ (readReg_kept h 12 (ea_kept h src _ hs))) hn
  · exact finishWith_kept h (h.write _ _ _ (readReg_kept h 12 (dummyRead_kept h _ (ea_kept h src _ hs)))) hn

theorem execMpy_kept (h : Preserved P) {src : Operand} {d : RegNo} (hs : P s) (hn : execMpy src d s = .next t) : P t :=
  finishWith_kept h (h.write _ _ _ (writeReg_kept h _ _ (readReg_kept h d (readWordOp_kept h src hs)))) hn

theorem execDiv_kept (h : Preserved P) {src : Operand} {d : RegNo} (hs : P s) (hn : execDiv src d s = .next t) : P t := by
  unfold execDiv at hn
  dsimp only at hn
  split at hn
  · exact finishWith_kept h (readReg_kept h d (readWordOp_kept h src hs)) hn
  · exact finishWith_kept h (h.draw (h.write _ _ _ (writeReg_kept h _ _ (h.read _ _ (readReg_kept h d
      (readWordOp_kept h src hs)))))) hn

theorem execMov_kept (h : Preserved P) {src dst : Operand} (hs : P s) (hn : execMov src dst s = .next t) : P t :=
  finishWith_kept h (h.write _ _ _ (dummyRead_kept h _ (ea_kept h dst _ (readWordOp_kept h src hs)))) hn

theorem execMovb_kept (h : Preserved P) {src dst : Operand} (hs : P s) (hn : execMovb src dst s = .next t) : P t :=
  finishWith_kept h (busWriteByte_kept h _ _ (ea_kept h dst _ (readByteOp_kept h src hs))) hn

/-! ## The instructions that are instances of a shape -/

theorem execAi_kept (h : Preserved P) {w : RegNo} (hs : P s) (hn : execAi w s = .next t) : P t :=
  immediateWord_kept h hs hn

theorem execAndi_kept (h : Preserved P) {w : RegNo} (hs : P s) (hn : execAndi w s = .next t) : P t :=
  immediateWord_kept h hs hn

theorem execOri_kept (h : Preserved P) {w : RegNo} (hs : P s) (hn : execOri w s = .next t) : P t :=
  immediateWord_kept h hs hn

theorem execCkon_kept (h : Preserved P)  (hs : P s) (hn : execCkon  s = .next t) : P t :=
  externalControl_kept h hs hn

theorem execCkof_kept (h : Preserved P)  (hs : P s) (hn : execCkof  s = .next t) : P t :=
  externalControl_kept h hs hn

theorem execLrex_kept (h : Preserved P)  (hs : P s) (hn : execLrex  s = .next t) : P t :=
  externalControl_kept h hs hn

theorem execClr_kept (h : Preserved P) {src : Operand} (hs : P s) (hn : execClr src s = .next t) : P t :=
  storeConst_kept h hs hn

theorem execNeg_kept (h : Preserved P) {src : Operand} (hs : P s) (hn : execNeg src s = .next t) : P t :=
  singleWord_kept h hs hn

theorem execInv_kept (h : Preserved P) {src : Operand} (hs : P s) (hn : execInv src s = .next t) : P t :=
  singleWord_kept h hs hn

theorem execInc_kept (h : Preserved P) {src : Operand} (hs : P s) (hn : execInc src s = .next t) : P t :=
  singleWord_kept h hs hn

theorem execInct_kept (h : Preserved P) {src : Operand} (hs : P s) (hn : execInct src s = .next t) : P t :=
  singleWord_kept h hs hn

theorem execDec_kept (h : Preserved P) {src : Operand} (hs : P s) (hn : execDec src s = .next t) : P t :=
  singleWord_kept h hs hn

theorem execDect_kept (h : Preserved P) {src : Operand} (hs : P s) (hn : execDect src s = .next t) : P t :=
  singleWord_kept h hs hn

theorem execSwpb_kept (h : Preserved P) {src : Operand} (hs : P s) (hn : execSwpb src s = .next t) : P t :=
  singleWord_kept h hs hn

theorem execSeto_kept (h : Preserved P) {src : Operand} (hs : P s) (hn : execSeto src s = .next t) : P t :=
  storeConst_kept h hs hn

theorem execSra_kept (h : Preserved P) {cnt : ShiftCount} {w : RegNo} (hs : P s) (hn : execSra cnt w s = .next t) : P t :=
  shiftReg_kept h hs hn

theorem execSrl_kept (h : Preserved P) {cnt : ShiftCount} {w : RegNo} (hs : P s) (hn : execSrl cnt w s = .next t) : P t :=
  shiftReg_kept h hs hn

theorem execSla_kept (h : Preserved P) {cnt : ShiftCount} {w : RegNo} (hs : P s) (hn : execSla cnt w s = .next t) : P t :=
  shiftReg_kept h hs hn

theorem execSrc_kept (h : Preserved P) {cnt : ShiftCount} {w : RegNo} (hs : P s) (hn : execSrc cnt w s = .next t) : P t :=
  shiftReg_kept h hs hn

theorem execJmp_kept (h : Preserved P) {disp : Byte} (hs : P s) (hn : execJmp disp s = .next t) : P t :=
  jumpIf_kept h hs hn

theorem execJlt_kept (h : Preserved P) {disp : Byte} (hs : P s) (hn : execJlt disp s = .next t) : P t :=
  jumpIf_kept h hs hn

theorem execJle_kept (h : Preserved P) {disp : Byte} (hs : P s) (hn : execJle disp s = .next t) : P t :=
  jumpIf_kept h hs hn

theorem execJeq_kept (h : Preserved P) {disp : Byte} (hs : P s) (hn : execJeq disp s = .next t) : P t :=
  jumpIf_kept h hs hn

theorem execJhe_kept (h : Preserved P) {disp : Byte} (hs : P s) (hn : execJhe disp s = .next t) : P t :=
  jumpIf_kept h hs hn

theorem execJgt_kept (h : Preserved P) {disp : Byte} (hs : P s) (hn : execJgt disp s = .next t) : P t :=
  jumpIf_kept h hs hn

theorem execJne_kept (h : Preserved P) {disp : Byte} (hs : P s) (hn : execJne disp s = .next t) : P t :=
  jumpIf_kept h hs hn

theorem execJnc_kept (h : Preserved P) {disp : Byte} (hs : P s) (hn : execJnc disp s = .next t) : P t :=
  jumpIf_kept h hs hn

theorem execJoc_kept (h : Preserved P) {disp : Byte} (hs : P s) (hn : execJoc disp s = .next t) : P t :=
  jumpIf_kept h hs hn

theorem execJno_kept (h : Preserved P) {disp : Byte} (hs : P s) (hn : execJno disp s = .next t) : P t :=
  jumpIf_kept h hs hn

theorem execJl_kept (h : Preserved P) {disp : Byte} (hs : P s) (hn : execJl disp s = .next t) : P t :=
  jumpIf_kept h hs hn

theorem execJh_kept (h : Preserved P) {disp : Byte} (hs : P s) (hn : execJh disp s = .next t) : P t :=
  jumpIf_kept h hs hn

theorem execJop_kept (h : Preserved P) {disp : Byte} (hs : P s) (hn : execJop disp s = .next t) : P t :=
  jumpIf_kept h hs hn

theorem execSbo_kept (h : Preserved P) {disp : Byte} (hs : P s) (hn : execSbo disp s = .next t) : P t :=
  setCruBit_kept h hs hn

theorem execSbz_kept (h : Preserved P) {disp : Byte} (hs : P s) (hn : execSbz disp s = .next t) : P t :=
  setCruBit_kept h hs hn

theorem execCoc_kept (h : Preserved P) {src : Operand} {d : RegNo} (hs : P s) (hn : execCoc src d s = .next t) : P t :=
  compareReg_kept h hs hn

theorem execCzc_kept (h : Preserved P) {src : Operand} {d : RegNo} (hs : P s) (hn : execCzc src d s = .next t) : P t :=
  compareReg_kept h hs hn

theorem execSzc_kept (h : Preserved P) {src : Operand} {dst : Operand} (hs : P s) (hn : execSzc src dst s = .next t) : P t :=
  dualWord_kept h hs hn

theorem execSzcb_kept (h : Preserved P) {src : Operand} {dst : Operand} (hs : P s) (hn : execSzcb src dst s = .next t) : P t :=
  dualByte_kept h hs hn

theorem execS_kept (h : Preserved P) {src : Operand} {dst : Operand} (hs : P s) (hn : execS src dst s = .next t) : P t :=
  dualWord_kept h hs hn

theorem execSb_kept (h : Preserved P) {src : Operand} {dst : Operand} (hs : P s) (hn : execSb src dst s = .next t) : P t :=
  dualByte_kept h hs hn

theorem execC_kept (h : Preserved P) {src : Operand} {dst : Operand} (hs : P s) (hn : execC src dst s = .next t) : P t :=
  compareWord_kept h hs hn

theorem execCb_kept (h : Preserved P) {src : Operand} {dst : Operand} (hs : P s) (hn : execCb src dst s = .next t) : P t :=
  compareByte_kept h hs hn

theorem execA_kept (h : Preserved P) {src : Operand} {dst : Operand} (hs : P s) (hn : execA src dst s = .next t) : P t :=
  dualWord_kept h hs hn

theorem execAb_kept (h : Preserved P) {src : Operand} {dst : Operand} (hs : P s) (hn : execAb src dst s = .next t) : P t :=
  dualByte_kept h hs hn

theorem execSoc_kept (h : Preserved P) {src : Operand} {dst : Operand} (hs : P s) (hn : execSoc src dst s = .next t) : P t :=
  dualWord_kept h hs hn

theorem execSocb_kept (h : Preserved P) {src : Operand} {dst : Operand} (hs : P s) (hn : execSocb src dst s = .next t) : P t :=
  dualByte_kept h hs hn

/-! ## Every instruction, every step -/

/-- The case analysis over the instructions. -/
theorem executeRead_kept (h : Preserved P) (w : Word) (i : Instr) (hs : P s) (hn : executeRead w i s = .next t) : P t := by
  cases i <;> simp only [executeRead] at hn
  · exact execLi_kept h hs hn
  · exact execAi_kept h hs hn
  · exact execAndi_kept h hs hn
  · exact execOri_kept h hs hn
  · exact execCi_kept h hs hn
  · exact execStwp_kept h hs hn
  · exact execStst_kept h hs hn
  · exact execLwpi_kept h hs hn
  · exact execLimi_kept h hs hn
  · exact execIdle_kept h hs hn
  · exact execRset_kept h hs hn
  · exact execRtwp_kept h hs hn
  · exact execCkon_kept h hs hn
  · exact execCkof_kept h hs hn
  · exact execLrex_kept h hs hn
  · exact execBlwp_kept h hs hn
  · exact execB_kept h hs hn
  · injection hn with e; exact e ▸ h.xPending _ hs
  · exact execClr_kept h hs hn
  · exact execNeg_kept h hs hn
  · exact execInv_kept h hs hn
  · exact execInc_kept h hs hn
  · exact execInct_kept h hs hn
  · exact execDec_kept h hs hn
  · exact execDect_kept h hs hn
  · exact execBl_kept h hs hn
  · exact execSwpb_kept h hs hn
  · exact execSeto_kept h hs hn
  · exact execAbs_kept h hs hn
  · exact execSra_kept h hs hn
  · exact execSrl_kept h hs hn
  · exact execSla_kept h hs hn
  · exact execSrc_kept h hs hn
  · exact execJmp_kept h hs hn
  · exact execJlt_kept h hs hn
  · exact execJle_kept h hs hn
  · exact execJeq_kept h hs hn
  · exact execJhe_kept h hs hn
  · exact execJgt_kept h hs hn
  · exact execJne_kept h hs hn
  · exact execJnc_kept h hs hn
  · exact execJoc_kept h hs hn
  · exact execJno_kept h hs hn
  · exact execJl_kept h hs hn
  · exact execJh_kept h hs hn
  · exact execJop_kept h hs hn
  · exact execSbo_kept h hs hn
  · exact execSbz_kept h hs hn
  · exact execTb_kept h hs hn
  · exact execCoc_kept h hs hn
  · exact execCzc_kept h hs hn
  · exact execXor_kept h hs hn
  · exact execXop_kept h hs hn
  · exact execLdcr_kept h hs hn
  · exact execStcr_kept h hs hn
  · exact execMpy_kept h hs hn
  · exact execDiv_kept h hs hn
  · exact execSzc_kept h hs hn
  · exact execSzcb_kept h hs hn
  · exact execS_kept h hs hn
  · exact execSb_kept h hs hn
  · exact execC_kept h hs hn
  · exact execCb_kept h hs hn
  · exact execA_kept h hs hn
  · exact execAb_kept h hs hn
  · exact execMov_kept h hs hn
  · exact execMovb_kept h hs hn
  · exact execSoc_kept h hs hn
  · exact execSocb_kept h hs hn

/-- Executing through X is executing, for every instruction but X itself (R612). -/
theorem executeRead_eq_exec (w : Word) (i : Instr) (s : State) (hi : isX i = false) : executeRead w i s = exec i s := by
  cases i <;> first | rfl | cases hi

theorem executeWord_kept (h : Preserved P) (w : Word) (hs : P s) (hn : executeWord w s = .next t) : P t := by
  unfold executeWord at hn
  split at hn
  · exact executeRead_kept h w _ hs hn
  · injection hn with e
    exact e ▸ illegalOpcode_kept h w hs
  · cases hn

theorem execX_kept (h : Preserved P) {src : Operand} (hs : P s) (hn : execX src s = .next t) : P t :=
  executeWord_kept h _ (h.charge _ (readWordOp_kept h src hs)) hn

/-- Every instruction keeps what the bus, the CRU and the core's registers keep. -/
theorem exec_kept (h : Preserved P) (i : Instr) (hs : P s) (hn : exec i s = .next t) : P t := by
  cases hx : isX i with
  | false => exact executeRead_kept h 0 i hs ((executeRead_eq_exec 0 i s hx).trans hn)
  | true =>
    cases i <;> try (cases hx; done)
    exact execX_kept h hs hn

theorem runWord_kept (h : Preserved P) (w : Word) (hs : P s) (hn : runWord w s = .next t) : P t := by
  unfold runWord at hn
  split at hn
  · exact exec_kept h _ hs hn
  · injection hn with e
    exact e ▸ illegalOpcode_kept h w hs
  · cases hn

theorem completeStep_kept (h : Preserved P) {r : Host.Outcome State Fault Refusal} (hr : ∀ u, r = .next u → P u)
    (hn : completeStep r = .next t) : P t := by
  cases r with
  | next u =>
    injection hn with e
    rw [← e]
    unfold afterInstr
    split
    · exact hr u rfl
    · exact interruptCheck_kept h (hr u rfl)
  | fault f => cases hn
  | refused f => cases hn

/-- Every step keeps what the bus, the CRU and the core's registers keep. -/
theorem step_kept (h : Preserved P) (hs : P s) (hn : step s = .next t) : P t := by
  unfold step at hn
  split at hn
  · exact completeStep_kept h (fun u hu => runWord_kept h _ (h.xPending none hs) hu) hn
  · split at hn
    · injection hn with e
      exact e ▸ interruptCheck_kept h (h.charge _ hs)
    · exact completeStep_kept h (fun u hu => runWord_kept h _ (fetchWord_kept h hs) hu) hn

end Sys2Proof.Machine
end

