-- ==== Sys2Proof/Tests/Slice0.lean ====
section
/-! SUPPORT. Tests. Expected values come from the spec: the worked words of R342, the vectors of 95_test_vectors.md, or a hand
calculation from the rule a comment names. `test_meets_…` theorems give, for each statement with hypotheses, states and operands
that meet them. -/

namespace Sys2Proof.Tests
open Sys2Proof Sys2Proof.Machine

/-! ## Ill-formed terms -/

/-- R310: there is no indexing by R0. -/
theorem test_wf_refuses_index_by_r0 : (Instr.clr (.idx 0)).wf = false ∧ (Instr.mov (.reg 1) (.idx 0)).wf = false := by decide

/-- R313: an immediate shift count is not 0. -/
theorem test_wf_refuses_zero_shift : (Instr.sla (.imm 0) 1).wf = false := by decide

/-- R314: a CRU count is 1 to 16. -/
theorem test_wf_refuses_cru_counts :
    (Instr.ldcr (.reg 1) 0).wf = false ∧ (Instr.ldcr (.reg 1) 17).wf = false ∧ (Instr.stcr (.reg 1) 0).wf = false ∧
      (Instr.stcr (.reg 1) 17).wf = false := by decide

/-! ## Decoding words written out from the formats -/

/-- Format I (R301, R342): 1100 00 0010 00 0001, 1101 00 0001 10 0000, 1010 10 0010 11 0001. -/
theorem test_decode_format_I :
    decodeWord 0b1100000010000001 = .instr (.mov (.reg 1) (.reg 2)) ∧
    decodeWord 0b1101000001100000 = .instr (.movb .sym (.reg 1)) ∧
    decodeWord 0b1010100010110001 = .instr (.a (.inc 1) (.idx 2)) := by decide

/-- Format I, the other rows of R320, source R1 and destination R2. -/
theorem test_decode_format_I_rows :
    decodeWord 0x4081 = .instr (.szc (.reg 1) (.reg 2)) ∧ decodeWord 0x5081 = .instr (.szcb (.reg 1) (.reg 2)) ∧
    decodeWord 0x6081 = .instr (.s (.reg 1) (.reg 2)) ∧ decodeWord 0x7081 = .instr (.sb (.reg 1) (.reg 2)) ∧
    decodeWord 0x8081 = .instr (.c (.reg 1) (.reg 2)) ∧ decodeWord 0x9081 = .instr (.cb (.reg 1) (.reg 2)) ∧
    decodeWord 0xB081 = .instr (.ab (.reg 1) (.reg 2)) ∧ decodeWord 0xE081 = .instr (.soc (.reg 1) (.reg 2)) ∧
    decodeWord 0xF0A0 = .instr (.socb .sym (.reg 2)) := by decide

/-- Format II (R302, R342): opcode and displacement. -/
theorem test_decode_format_II :
    decodeWord 0b0001000011111111 = .instr (.jmp 0xFF) ∧ decodeWord 0x1305 = .instr (.jeq 5) ∧
    decodeWord 0x16FD = .instr (.jne 0xFD) ∧ decodeWord 0x1C80 = .instr (.jop 0x80) ∧ decodeWord 0x1DFF = .instr (.sbo 0xFF) ∧
    decodeWord 0x1E00 = .instr (.sbz 0) ∧ decodeWord 0x1F05 = .instr (.tb 5) := by decide

/-- Formats III, IV and IX (R303, R304, R309, R342): 001011 0001 10 0000 is XOP @,1. -/
theorem test_decode_formats_III_IV_IX :
    decodeWord 0b0010110001100000 = .instr (.xop .sym 1) ∧ decodeWord 0x2081 = .instr (.coc (.reg 1) 2) ∧
    decodeWord 0x2481 = .instr (.czc (.reg 1) 2) ∧ decodeWord 0x2882 = .instr (.xor (.reg 2) 2) ∧
    decodeWord 0x3201 = .instr (.ldcr (.reg 1) 8) ∧ decodeWord 0x3001 = .instr (.ldcr (.reg 1) 16) ∧
    decodeWord 0x3502 = .instr (.stcr (.reg 2) 4) ∧ decodeWord 0x3BC1 = .instr (.mpy (.reg 1) 15) ∧
    decodeWord 0x3C81 = .instr (.div (.reg 1) 2) := by decide

/-- Format V (R305, R342): 00001010 0100 0001, and field C = 0 for a count from R0. -/
theorem test_decode_format_V :
    decodeWord 0b0000101001000001 = .instr (.sla (.imm 4) 1) ∧ decodeWord 0x0801 = .instr (.sra .fromR0 1) ∧
    decodeWord 0x0941 = .instr (.srl (.imm 4) 1) ∧ decodeWord 0x0B81 = .instr (.src (.imm 8) 1) := by decide

/-- Format VI (R306, R342): 0000010000 10 0000 is BLWP @. -/
theorem test_decode_format_VI :
    decodeWord 0b0000010000100000 = .instr (.blwp .sym) ∧ decodeWord 0x045B = .instr (.b (.ind 11)) ∧
    decodeWord 0x04F1 = .instr (.clr (.inc 1)) ∧ decodeWord 0x069B = .instr (.bl (.ind 11)) ∧
    decodeWord 0x0774 = .instr (.abs (.inc 4)) ∧ decodeWord 0x0481 = .instr (.x (.reg 1)) := by decide

/-- Formats VII and VIII (R307, R308, R342). -/
theorem test_decode_formats_VII_VIII :
    decodeWord 0b0000001000000001 = .instr (.li 1) ∧ decodeWord 0x02E0 = .instr .lwpi ∧ decodeWord 0x0300 = .instr .limi ∧
    decodeWord 0x0340 = .instr .idle ∧ decodeWord 0x0360 = .instr .rset ∧ decodeWord 0x0380 = .instr .rtwp ∧
    decodeWord 0x03A0 = .instr .ckon ∧ decodeWord 0x03C0 = .instr .ckof ∧ decodeWord 0x03E0 = .instr .lrex := by decide

/-- The edges of the illegal ranges (R330). -/
theorem test_decode_illegal_edges :
    (([0x0000, 0x01FF, 0x0320, 0x033F, 0x0780, 0x07FF, 0x0C00, 0x0FFF] : List Word).all fun w => decodeWord w == .illegal) = true ∧
    (([0x0200, 0x031F, 0x0340, 0x077F, 0x0800, 0x0BFF, 0x1000] : List Word).all fun w => decodeWord w != .illegal) = true := by
  decide

/-- Alias words (R331): LI R1 with bit 4 set, RTWP with bit 0 set. -/
theorem test_decode_alias_words :
    decodeWord 0x0211 = .alternate (.li 1) ∧ decodeWord 0x0381 = .alternate .rtwp ∧ decodeWord 0x031F = .alternate .limi ∧
      decodeTableWord 16 0x0211 = none ∧ decodeTableWord 16 0x0201 = some (.li 1) := by decide

/-! ## One instruction at a time -/

/-- Words put into RAM. -/
def load (cells : List (Word × Word)) (s : State) : State := cells.foldl (fun t c => storeWord t c.1 c.2) s

/-- Register `n` of the workspace at 0x8300 holding `v`. -/
def reg (n : Nat) (v : Word) : Word × Word := (BitVec.ofNat 16 (0x8300 + 2 * n), v)

/-- The vectors' conventions: code at 0xA000, WP = 0x8300, ST as given. -/
def ready (st : Word) (code : List Word) (cells : List (Word × Word)) : State :=
  load (cells ++ code.zipIdx.map fun p => (BitVec.ofNat 16 (0xA000 + 2 * p.2), p.1))
    { State.reset with pc := 0xA000, wp := 0x8300, st := st }

/-- Whether a step's next state passes a test. -/
def passes (o : Host.Outcome State Fault Refusal) (p : State → Bool) : Bool :=
  match o with
  | .next t => p t
  | _ => false

/-- ST and the words listed are as wanted after one step. -/
def gives (s : State) (st : Word) (want : List (Word × Word)) : Bool :=
  passes (step s) fun t => t.st == st && want.all fun c => fastRead t c.1 == c.2

theorem test_a_sum : gives (ready 0 [0xA081] [reg 1 0x1234, reg 2 0x1111]) 0xC000 [reg 2 0x2345, reg 1 0x1234] = true := by decide
theorem test_a_overflow : gives (ready 0 [0xA081] [reg 1 0x0001, reg 2 0x7FFF]) 0x8800 [reg 2 0x8000] = true := by decide
theorem test_ab_overflow : gives (ready 0 [0xB081] [reg 1 0x01FF, reg 2 0x7F00]) 0x8C00 [reg 2 0x8000] = true := by decide
theorem test_ab_carry : gives (ready 0 [0xB081] [reg 1 0x8000, reg 2 0x8012]) 0x3800 [reg 2 0x0012] = true := by decide
theorem test_s_overflow : gives (ready 0 [0x6081] [reg 1 0x0001, reg 2 0x8000]) 0xD800 [reg 2 0x7FFF] = true := by decide
theorem test_s_borrow : gives (ready 0 [0x6081] [reg 1 0x0001, reg 2 0x0000]) 0x8000 [reg 2 0xFFFF] = true := by decide
theorem test_sb_borrow : gives (ready 0 [0x7081] [reg 1 0x0100, reg 2 0x0034]) 0x8000 [reg 2 0xFF34] = true := by decide
theorem test_ai : gives (ready 0 [0x0221, 0xFFFF] []) 0x8000 [reg 1 0xFFFF] = true := by decide
theorem test_inc : gives (ready 0 [0x0581] [reg 1 0x7FFF]) 0x8800 [reg 1 0x8000] = true := by decide
theorem test_inct : gives (ready 0 [0x05C1] [reg 1 0xFFFF]) 0xD000 [reg 1 0x0001] = true := by decide
theorem test_dec : gives (ready 0 [0x0601] []) 0x8000 [reg 1 0xFFFF] = true := by decide
theorem test_dect : gives (ready 0 [0x0641] [reg 1 0x8001]) 0xD800 [reg 1 0x7FFF] = true := by decide
theorem test_neg_zero : gives (ready 0 [0x0501] []) 0x3000 [reg 1 0x0000] = true := by decide
theorem test_neg_min : gives (ready 0 [0x0501] [reg 1 0x8000]) 0x8800 [reg 1 0x8000] = true := by decide
theorem test_abs_negative : gives (ready 0 [0x0741] [reg 1 0xFFFE]) 0x8000 [reg 1 0x0002] = true := by decide
theorem test_abs_min : gives (ready 0 [0x0741] [reg 1 0x8000]) 0x8800 [reg 1 0x8000] = true := by decide
theorem test_mpy : gives (ready 0 [0x3881] [reg 1 0x1234, reg 2 0x0100]) 0 [reg 2 0x0012, reg 3 0x3400] = true := by decide
theorem test_mpy_r15 : gives (ready 0 [0x3BC1] [reg 1 0x0003, reg 15 0x4000]) 0 [reg 15 0, (0x8320, 0xC000)] = true := by decide
theorem test_div : gives (ready 0 [0x3C81] [reg 1 2, reg 3 7]) 0 [reg 2 3, reg 3 1] = true := by decide
theorem test_div_by_zero : gives (ready 0 [0x3C81] [reg 3 5]) 0x0800 [reg 2 0, reg 3 5] = true := by decide

theorem test_c : gives (ready 0 [0x8081] [reg 1 0x0001, reg 2 0xFFFF]) 0x4000 [reg 2 0xFFFF] = true := by decide
theorem test_cb : gives (ready 0 [0x9081] [reg 1 0x7F00, reg 2 0x8000]) 0x4400 [reg 2 0x8000] = true := by decide
theorem test_ci : gives (ready 0 [0x0280, 0x8000] [reg 0 0x7FFF]) 0x4000 [reg 0 0x7FFF] = true := by decide
theorem test_coc_no : gives (ready 0x2000 [0x2081] [reg 1 0x0105, reg 2 0x00FF]) 0 [] = true := by decide
theorem test_coc_yes : gives (ready 0 [0x2081] [reg 1 0x0105, reg 2 0x01FF]) 0x2000 [] = true := by decide
theorem test_czc_no : gives (ready 0x2000 [0x2481] [reg 1 0x0101, reg 2 0x00FF]) 0 [] = true := by decide
theorem test_czc_yes : gives (ready 0 [0x2481] [reg 1 0x0101, reg 2 0xFEFE]) 0x2000 [] = true := by decide
theorem test_szc : gives (ready 0 [0x4041] [reg 1 0x1234]) 0x2000 [reg 1 0] = true := by decide
theorem test_szcb :
    gives (ready 0 [0x5801, 0xA101] [reg 1 0x0F00, (0xA100, 0x12FF)]) 0x8000 [(0xA100, 0x12F0)] = true := by decide
theorem test_soc : gives (ready 0 [0xE081] [reg 1 0x8000]) 0x8000 [reg 2 0x8000] = true := by decide
theorem test_socb : gives (ready 0 [0xF0A0, 0xA101] [(0xA100, 0x1281)]) 0x8000 [reg 2 0x8100] = true := by decide
theorem test_andi : gives (ready 0 [0x0241, 0x0000] [reg 1 0x1234]) 0x2000 [reg 1 0] = true := by decide
/-- R515: 0x1200 OR 0x0034. -/
theorem test_ori : gives (ready 0 [0x0261, 0x0034] [reg 1 0x1200]) 0xC000 [reg 1 0x1234] = true := by decide
theorem test_xor : gives (ready 0 [0x2882] [reg 2 0x5555]) 0x2000 [reg 2 0] = true := by decide
theorem test_inv : gives (ready 0 [0x0541] [reg 1 0xFFFF]) 0x2000 [reg 1 0] = true := by decide
theorem test_clr_inc : gives (ready 0xC000 [0x04F1] [reg 1 0xA100, (0xA100, 5)]) 0xC000 [(0xA100, 0), reg 1 0xA102] = true := by
  decide
theorem test_seto : gives (ready 0 [0x0701] []) 0 [reg 1 0xFFFF] = true := by decide

theorem test_mov_inc_inc :
    gives (ready 0 [0xCC71] [reg 1 0xA100, (0xA100, 0xBEEF)]) 0x8000 [(0xA102, 0xBEEF), reg 1 0xA104] = true := by decide
theorem test_mov_indexed : gives (ready 0 [0xC841, 0x0002] [reg 1 0xA100]) 0x8000 [(0xA102, 0xA100)] = true := by decide
theorem test_movb_odd : gives (ready 0 [0xD060, 0xA101] [reg 1 0xFFFF, (0xA100, 0x1280)]) 0x8400 [reg 1 0x80FF] = true := by decide
theorem test_movb_keeps_low : gives (ready 0 [0xD081] [reg 1 0x00FF, reg 2 0x3355]) 0x2000 [reg 2 0x0055] = true := by decide
theorem test_swpb : gives (ready 0 [0x06C1] [reg 1 0x00FF]) 0 [reg 1 0xFF00] = true := by decide
theorem test_li : gives (ready 0xC000 [0x0200, 0x0000] [reg 0 5]) 0x2000 [reg 0 0] = true := by decide
theorem test_limi : gives (ready 0x2001 [0x0300, 0xFFFF] []) 0x200F [] = true := by decide
theorem test_lwpi : passes (step (ready 0x2001 [0x02E0, 0x8301] [])) (fun t => t.wp == 0x8301 && t.st == 0x2001) = true := by decide
theorem test_stst : gives (ready 0x8405 [0x02C3] []) 0x8405 [reg 3 0x8405] = true := by decide
theorem test_stwp : gives (ready 0 [0x02A3] []) 0 [reg 3 0x8300] = true := by decide

theorem test_sra_from_r0 : gives (ready 0 [0x0801] [reg 0 0x0013, reg 1 0x8010]) 0x8000 [reg 1 0xF002] = true := by decide
theorem test_sra_sixteen : gives (ready 0 [0x0801] [reg 1 0x8000]) 0x9000 [reg 1 0xFFFF] = true := by decide
theorem test_srl : gives (ready 0 [0x0941] [reg 1 0x1234]) 0xC000 [reg 1 0x0123] = true := by decide
theorem test_srl_sixteen : gives (ready 0 [0x0901] [reg 1 0x8001]) 0x3000 [reg 1 0] = true := by decide
theorem test_sla_sign_change : gives (ready 0 [0x0A21] [reg 1 0x4000]) 0x3800 [reg 1 0] = true := by decide
theorem test_sla_sign_kept : gives (ready 0 [0x0A11] [reg 1 0xC000]) 0x9000 [reg 1 0x8000] = true := by decide
theorem test_src : gives (ready 0 [0x0B41] [reg 1 0x1234]) 0xC000 [reg 1 0x4123] = true := by decide
theorem test_src_sixteen : gives (ready 0 [0x0B01] [reg 1 0x8001]) 0x9000 [reg 1 0x8001] = true := by decide

/-- PC after one step. -/
def goesTo (s : State) (pc : Word) : Bool := passes (step s) fun t => t.pc == pc

theorem test_b_register : goesTo (ready 0 [0x044B] [reg 11 0x1234]) 0x8316 = true := by decide
theorem test_b_indirect : goesTo (ready 0 [0x045B] [reg 11 0x6010]) 0x6010 = true := by decide
theorem test_bl :
    passes (step (ready 0 [0x06A0, 0xA100] [])) (fun t => t.pc == 0xA100 && regValue t 11 == 0xA004) = true := by decide
theorem test_blwp :
    passes (step (ready 0x1234 [0x0400] [reg 0 0x8320, reg 1 0xA200])) (fun t => t.wp == 0x8320 && t.pc == 0xA200 &&
      t.st == 0x1234 && fastRead t 0x833A == 0x8300 && fastRead t 0x833C == 0xA002 && fastRead t 0x833E == 0x1234) = true := by
  decide
theorem test_rtwp :
    passes (step (ready 0 [0x0380] [reg 13 0x8320, reg 14 0xA200, reg 15 0xC003])) (fun t => t.wp == 0x8320 && t.pc == 0xA200) =
      true := by decide
theorem test_x_takes_next_word :
    passes (step (ready 0 [0x0480, 0x5555] [reg 0 0x0201])) (fun t => t.pc == 0xA004 && regValue t 1 == 0x5555 &&
      t.st == 0xC000) = true := by decide
theorem test_x_jump : goesTo (ready 0 [0x0480] [reg 0 0x10FF]) 0xA000 = true := by decide

/-- The vectors' console ROM: words at the addresses given. -/
def withRom (words : List (Nat × Word)) (s : State) : State :=
  { s with rom := words.foldl (fun m c => m.store c.1 [hiByte c.2, loByte c.2]) s.rom }

theorem test_xop :
    passes (step (withRom [(0x48, 0x8320), (0x4A, 0x0200)] (ready 0x0003 [0x2C82] []))) (fun t => t.wp == 0x8320 &&
      t.pc == 0x0200 && t.st == 0x0203 && fastRead t 0x8336 == 0x8304 && fastRead t 0x833A == 0x8300 &&
      fastRead t 0x833C == 0xA002 && fastRead t 0x833E == 0x0003) = true := by decide

/-- Which of the thirteen jumps, in the order of R630 to R642, are taken under `st`: displacement 5, at 0xA000. -/
def jumpsTaken (st : Word) : List Bool :=
  (List.range 13).map fun k => goesTo (ready st [BitVec.ofNat 16 (0x1005 + 0x100 * k)] []) 0xA00C

theorem test_jumps_no_flag :
    jumpsTaken 0 = [true, true, true, false, false, false, true, true, false, true, true, false, false] := by decide
theorem test_jumps_l :
    jumpsTaken 0x8000 = [true, true, false, false, true, false, true, true, false, true, false, true, false] := by decide
theorem test_jumps_a :
    jumpsTaken 0x4000 = [true, false, true, false, false, true, true, true, false, true, true, false, false] := by decide
theorem test_jumps_eq :
    jumpsTaken 0x2000 = [true, false, true, true, true, false, false, true, false, true, false, false, false] := by decide
theorem test_jumps_c :
    jumpsTaken 0x1000 = [true, true, true, false, false, false, true, false, true, true, true, false, false] := by decide
theorem test_jumps_ov :
    jumpsTaken 0x0800 = [true, true, true, false, false, false, true, true, false, false, true, false, false] := by decide
theorem test_jumps_op :
    jumpsTaken 0x0400 = [true, true, true, false, false, false, true, true, false, true, true, false, true] := by decide
theorem test_jump_ranges :
    goesTo (ready 0 [0x10FF] []) 0xA000 = true ∧ goesTo (ready 0 [0x107F] []) 0xA100 = true ∧
      goesTo (ready 0 [0x1080] []) 0x9F02 = true := by decide

/-- A device outside the block whose inputs are `bits`, from bit address `base`, its outputs all set to `out`. -/
def withBits (base : Nat) (bits : List Bool) (out : Bool) (s : State) : State :=
  registerCru s ⟨.outside (.bits (bits.map fun b => .separate b out)), base, bits.length⟩

/-- The device's outputs after one step. -/
def outputs (o : Host.Outcome State Fault Refusal) : List Bool :=
  match o with
  | .next t => (match t.cru with | [⟨.outside (.bits l), _, _⟩] => l.map bitOutput | _ => [])
  | _ => []

theorem test_sbo_minus_one :
    outputs (step (withBits 0x7FF [false, false] false (ready 0 [0x1DFF] [reg 12 0x1000]))) = [true, false] := by decide
theorem test_sbz :
    outputs (step (withBits 0x7FF [false, false] true (ready 0 [0x1E00] [reg 12 0x1000]))) = [true, false] := by decide
theorem test_tb_set :
    gives (withBits 0 [false, false, false, false, false, true] false (ready 0 [0x1F05] [])) 0x2000 [] = true := by decide
theorem test_tb_unmapped : gives (ready 0x2000 [0x1F05] []) 0 [] = true := by decide
theorem test_ldcr_byte :
    outputs (step (withBits 0x020 (List.replicate 8 false) false (ready 0 [0x3201] [reg 12 0x0040, reg 1 0xA500]))) =
      [true, false, true, false, false, true, false, true] := by decide
theorem test_ldcr_sixteen :
    gives (ready 0 [0x3001] [reg 12 0x0040, reg 1 0x8001]) 0x8000 [] = true ∧
    outputs (step (withBits 0x020 (List.replicate 16 false) false (ready 0 [0x3001] [reg 12 0x0040, reg 1 0x8001]))) =
      true :: (List.replicate 14 false ++ [true]) := by decide
theorem test_stcr_four :
    gives (withBits 0 [true, true, false, true] false (ready 0 [0x3502] [reg 2 0xFFFF])) 0xC400 [reg 2 0x0BFF] = true := by decide
theorem test_stcr_sixteen :
    gives (withBits 0 (true :: (List.replicate 14 false ++ [true])) false (ready 0 [0x3402] [reg 2 0x1234])) 0x8000
      [reg 2 0x8001] = true := by decide

/-- R650: a bit that a device shares reads back as written, a separate one as its input. -/
theorem test_cru_shared_bit :
    (let s := registerCru State.reset ⟨.outside (.bits [.separate false true, .shared false]), 0x10, 2⟩
     let t := cruWrite (cruWrite s 0x10 true) 0x11 true
     [cruRead s 0x11, cruRead t 0x10, cruRead t 0x11, cruRead t 0x12]) = [false, false, true, false] := by decide

/-- R651: a device goes by its base address, another with equal bits stays. -/
theorem test_deregister_by_base :
    (deregisterCru (withBits 0x20 [true] false (withBits 0x10 [true] false State.reset)) 0x10).cru.map (·.base) = [0x20] := by decide

theorem test_rset :
    passes (step (ready 0xC00F [0x0360] [])) (fun t => t.st == 0xC000 && t.trace == [.external .rset]) = true := by decide
theorem test_ckon_ckof_lrex :
    passes (step (ready 0xC00F [0x03A0] [])) (fun t => t.st == 0xC00F && t.trace == [.external .ckon]) = true ∧
    passes (step (ready 0xC00F [0x03C0] [])) (fun t => t.st == 0xC00F && t.trace == [.external .ckof]) = true ∧
    passes (step (ready 0xC00F [0x03E0] [])) (fun t => t.st == 0xC00F && t.trace == [.external .lrex]) = true := by decide
theorem test_idle :
    passes (step (ready 0 [0x0340] [])) (fun t => t.idle && t.pc == 0xA002 && t.trace == [.external .idle]) = true := by decide

/-! ## Bus, ports, cartridge, GROM -/

/-- The video chip of `s` requesting an interrupt: F and IE set. -/
def requesting (s : State) : State := { s with vdp := { s.vdp with vStatus := 0x80, vr := s.vdp.vr.set 1 0x20 } }

/-- Interrupt vector 1 in the console ROM: WP 0x83C0, PC 0x0100. -/
def withVector1 (s : State) : State := withRom [(4, 0x83C0), (6, 0x0100)] s

/-- 95, interrupts 1. -/
theorem test_interrupt_taken :
    (let t := interruptCheck (withVector1 (requesting { State.reset with wp := 0x83E0, pc := 0xA020, st := 0xC002 }))
     t.wp == 0x83C0 && t.pc == 0x0100 && t.st == 0xC000 && fastRead t 0x83DA == 0x83E0 && fastRead t 0x83DC == 0xA020 &&
       fastRead t 0x83DE == 0xC002) = true := by decide

/-- 95, interrupts 3: the check after IDLE takes the interrupt. -/
theorem test_interrupt_after_idle :
    passes (step (withVector1 (requesting (ready 2 [0x0340] [])))) (fun t => !t.idle && t.pc == 0x0100 &&
      fastRead t 0x83DC == 0xA002) = true := by decide

/-- R957: a controller that masks the video interrupt with the output bit at CRU address 2 and presents the timer above it. -/
def masked (bit : Bool) : State :=
  setWiring (withBits 0 [false, false, false] bit (requesting State.reset)) (.masked (some ⟨1, some 2⟩) (some ⟨0, none⟩))

theorem test_masked_interrupt :
    intReq (masked false) = none ∧ intReq (masked true) = some 1 ∧ intReq (setTimerInt (masked true) true) = some 0 := by decide

/-- 95, V1: the mirrors of the scratchpad, and an odd address. -/
theorem test_bus_words :
    fastRead (busWrite State.reset 0x8310 0xBEEF) 0x8010 = 0xBEEF ∧ fastRead (busWrite State.reset 0xA001 0x5678) 0xA000 = 0x5678 ∧
      fastRead (busWrite State.reset 0x0000 0xFFFF) 0x0000 = 0 ∧
      fastRead (busWrite { State.reset with expRamPresent := false } 0xA000 0x1234) 0xA000 = 0 := by decide

/-- 95, bus and ports 1 and 3: an address set up, a byte written, a register written. -/
theorem test_vdp_ports :
    (let s := busWrite (busWrite (busWrite State.reset 0x8C02 0x0000) 0x8C02 0x4000) 0x8C00 0x4100
     let t := busWrite (busWrite s 0x8C02 0xE000) 0x8C02 0x8100
     s.vdp.vram.read 0 == 0x41 && s.vdp.vAddr == 1 && s.vdp.vBuffer == 0x41 && t.vdp.vr[1] == 0xE0 && t.vdp.vAddr == 0xE0) =
      true := by decide

/-- 95, bus and ports 4 and 6. -/
theorem test_status_and_sound :
    (let r := busRead { State.reset with vdp := { Vdp.reset with vStatus := 0xE5 } } 0x8802
     r.1 == 0xE500 && r.2.vdp.vStatus == 0x05) = true ∧
    (busWrite State.reset 0x8400 0x9F00).trace = [.sound 0x9F] := by decide

/-- A cartridge of one byte in four banks (V4). -/
def cartOf (banks : Nat) (inverted cruSwitched : Bool) : Cartridge where
  rom := .ofBytes [0xAA]
  ram := none
  bankCount := banks
  romBank := 0
  ramBank := 0
  inverted := inverted
  cruBankSwitched := cruSwitched
  ramPaged := false
  groms := []
  cg := .reset
  pagedWindow := ⟨0x7000, 0x7FFF⟩
  ramBankSize := 0x1000

/-- The bank selected. -/
def bankOf (s : State) : Option Nat := s.cart.map (·.romBank)

/-- V4. -/
theorem test_cart_banks :
    ([0x6000, 0x6002, 0x6006, 0x6008, 0x7FFE].map fun a => bankOf (busWrite { State.reset with cart := cartOf 4 false false } a 0)) =
      [some 0, some 1, some 3, some 0, some 3] ∧
    ([0x6000, 0x6002, 0x6006, 0x6008, 0x7FFE].map fun a => bankOf (busWrite { State.reset with cart := cartOf 4 true false } a 0)) =
      [some 3, some 2, some 0, some 3, some 0] := by decide

/-- V4, CRU switching at 0x0400: SBO 3, SBO 8, SBO 9. -/
theorem test_cart_cru_banks :
    ([3, 8, 9].map fun b => bankOf (cruWrite (insertCartridge State.reset (cartOf 4 false true) 0x400) (0x400 + b) true)) =
      [some 1, some 3, some 0] := by decide

/-! ## Video and runs -/

/-- The video chip of V5: five sprites on row 16. -/
def fiveSprites : Vdp :=
  { Vdp.reset with
    vr := #v[0x00, 0x40, 0x00, 0x00, 0x00, 0x06, 0x01, 0x01]
    vram := (Memory.empty.store 0x300 [0x0F, 0x00, 0, 2, 0x0F, 0x04, 0, 3, 0x0F, 0x40, 0, 4, 0x0F, 0x60, 0, 5, 0x0F, 0x80, 0, 6,
      0xD0]).store 0x800 (List.replicate 8 0xFF) }

/-- V5: collision and fifth sprite, 5S already set, no sprite on the line, text mode. -/
theorem test_sprite_status :
    (fiveSprites.drawLine 16 256 192 0x00).2 = 0x64 ∧ (fiveSprites.drawLine 16 256 192 0x47).2 = 0x67 ∧
      (fiveSprites.drawLine 24 256 192 0x13).2 = 0x13 ∧
      ({ fiveSprites with vr := fiveSprites.vr.set 1 0x50 }.drawLine 16 256 192 0x13).2 = 0x13 := by decide

/-- V5: the columns of sprites 0 and 1, drawn on an empty line. -/
theorem test_sprite_columns :
    (let l := fiveSprites.renderSprite 1 0 (fiveSprites.renderSprite 0 0 ⟨[], [], 0⟩)
     [0, 7, 8, 11, 12].map fun c => l.cols.lookup c) = [some 2, some 2, some 3, some 3, none] := by decide

/-- The video chip of V6: text mode, backdrop 4. -/
def textVideo : Vdp := { Vdp.reset with vr := #v[0, 0x50, 0, 0, 0, 0, 0, 0xF4] }

/-- V6: the row after the active display and the rows around it. -/
theorem test_border_rows :
    (textVideo.drawLine 216 304 240 0).2 = 0x80 ∧ textVideo.displayRow 23 240 = none ∧ textVideo.displayRow 24 240 = some 0 ∧
      textVideo.displayRow 215 240 = some 191 ∧ textVideo.displayRow 216 240 = none := by decide

/-- V6: the edges of the borders and of the text margins. -/
theorem test_border_columns :
    textVideo.linePixel 0 304 [] 23 = ⟨84, 85, 237, 255⟩ ∧ textVideo.linePixel 0 304 [] 31 = ⟨84, 85, 237, 255⟩ ∧
      textVideo.linePixel 0 304 [] 272 = ⟨84, 85, 237, 255⟩ ∧ textVideo.linePixel 0 304 [] 303 = ⟨84, 85, 237, 255⟩ := by decide

/-! ## States and operands that meet the statements' hypotheses -/

theorem test_meets_DecodeEncode : (Instr.ldcr (.idx 15) 16).wf = true ∧ (Instr.ldcr (.idx 1) 1).wf = true ∧
    (Instr.sra (.imm 15) 0).wf = true ∧ (Instr.src .fromR0 15).wf = true ∧ (Instr.socb (.inc 15) .sym).wf = true := by decide

theorem test_meets_EncodeDecode : decodeWord 0x0200 = .instr (.li 0) ∧ decodeWord 0xFFFF = .instr (.socb (.inc 15) (.inc 15)) ∧
    decodeWord 0x3C3F = .instr (.div (.inc 15) 0) := by decide

/-- The edges of the two clauses: 0x02DF and 0x02E1; 0x0210 and 0x03FF. -/
theorem test_meets_AliasWords :
    ((0x02DF : Word).getLsbD 4 = true ∧ decodeWord ((0x02DF : Word) &&& 0xFFEF) = .instr (.stst 15)) ∧
    ((0x0210 : Word).getLsbD 4 = true ∧ decodeWord ((0x0210 : Word) &&& 0xFFEF) = .instr (.li 0)) ∧
    ((0x02E1 : Word) &&& 0x001F ≠ 0 ∧ decodeWord ((0x02E1 : Word) &&& 0xFFE0) = .instr .lwpi) ∧
    ((0x03FF : Word) &&& 0x001F ≠ 0 ∧ decodeWord ((0x03FF : Word) &&& 0xFFE0) = .instr .lrex) ∧
    decodeWord ((0x0321 : Word) &&& 0xFFE0) = .illegal := by decide

theorem test_meets_StepRunsInstruction :
    let s := ready 0 [0xCC71] []
    s.xPending = none ∧ s.idle = false ∧ (Instr.mov (.inc 1) (.inc 1)).wf = true ∧
      decodeWord (fetchWord s).1 = .instr (.mov (.inc 1) (.inc 1)) := by decide

/-- Both sides of the log's bound (R412). -/
theorem test_meets_StepIllegalWord :
    let s := { ready 0 [0x0FFF] [] with illegalCount := 255 }
    let t := { ready 0 [0x0000] [] with illegalCount := 256 }
    (s.xPending = none ∧ s.idle = false ∧ decodeWord (fetchWord s).1 = .illegal ∧ s.illegalCount < 256) ∧
    (t.xPending = none ∧ t.idle = false ∧ decodeWord (fetchWord t).1 = .illegal ∧ ¬ t.illegalCount < 256) := by decide

theorem test_meets_StepAliasRefused :
    let s := ready 0 [0x0391] []
    s.xPending = none ∧ s.idle = false ∧ decodeWord (fetchWord s).1 = .alternate .rtwp := by decide

/-- Idle with no request, with a request above MASK, and with one at MASK. -/
theorem test_meets_StepIdle :
    let s : State := { ready 0 [] [] with idle := true }
    let t := requesting s
    let u := requesting { s with st := 1 }
    (s.xPending = none ∧ s.idle = true ∧ intReq s = none) ∧
    (t.xPending = none ∧ t.idle = true ∧ intReq t = some 0 ∧ (stMask t.st).toNat < levelNumber 0) ∧
    (u.xPending = none ∧ u.idle = true ∧ intReq u = some 0 ∧ levelNumber 0 ≤ (stMask u.st).toNat) := by decide

theorem test_meets_InterruptSource :
    State.reset.wiring = .default ∧ (requesting State.reset).vdp.interrupt = true ∧ intReq (requesting State.reset) = some 0 ∧
      intReq (setTimerInt State.reset true) = some 0 ∧ (setWiring (masked true) (.platform 3)).wiring = .platform 3 ∧
      (outsideDevices (masked true)).map (·.1) = [0] ∧
      (masked true).wiring = .masked (some ⟨1, some 2⟩) (some ⟨0, none⟩) ∧ cruOutput (masked true) 2 = true := by decide

/-- A request, at the edge of MASK, whose handler's save slots are in plain RAM. -/
def interrupted : State := withVector1 (requesting { ready 0xC001 [] [] with wp := 0x83E0, pc := 0xA020 })

theorem test_meets_InterruptCheck :
    let t := interruptCheck interrupted
    intReq interrupted = some 0 ∧ levelNumber 0 ≤ (stMask interrupted.st).toNat ∧ plainRam interrupted (t.wp + 26) = true ∧
      plainRam interrupted (t.wp + 28) = true ∧ plainRam interrupted (t.wp + 30) = true ∧
      intReq (requesting State.reset) = some 0 ∧ (stMask (requesting State.reset).st).toNat < levelNumber 0 := by decide

/-- A BLWP R0 whose new workspace is in the scratchpad. -/
def beforeBlwp : State := { ready 0xC001 [] [reg 0 0x8320, reg 1 0xA200] with pc := 0xA002 }

theorem test_meets_BlwpSwitches :
    let e := ea (.reg 0) .word beforeBlwp
    let r1 := busRead e.2 e.1
    let r2 := busRead r1.2 (e.1 + 2)
    plainRam r2.2 (r1.1 + 26) = true ∧ plainRam r2.2 (r1.1 + 28) = true ∧ plainRam r2.2 (r1.1 + 30) = true := by decide

theorem test_meets_RtwpReloads : Config.stReserved = .stored ∨ Config.stReserved = .zero := by
  cases Config.stReserved
  · exact .inl rfl
  · exact .inr rfl

theorem test_meets_BlwpThenRtwp :
    passes (exec (.blwp (.reg 0)) beforeBlwp) (fun t =>
      plainRam t (t.wp + 26) && plainRam t (t.wp + 28) && plainRam t (t.wp + 30)) = true ∧
    beforeBlwp.st &&& 0x01F0 = 0 := by decide

theorem test_meets_InterruptThenRtwp :
    let t := interruptCheck interrupted
    intReq interrupted = some 0 ∧ levelNumber 0 ≤ (stMask interrupted.st).toNat ∧ plainRam t (t.wp + 26) = true ∧
      plainRam t (t.wp + 28) = true ∧ plainRam t (t.wp + 30) = true ∧ interrupted.st &&& 0x01F0 = 0 := by decide

/-- An enabled Horizon RAM disk of two banks, paged to bank 1. -/
def horizonCard : Card where
  id := 7
  enabled := true
  dsr := none
  horizon := some {
    page := 1, reg := [true], rambo := true, dsrPage := true, dsrRam := .ram 0x2000, pagedRam := .empty, pageBits := [1]
    ramboBit := 10, dsrPageBit := 11, banks := 2, bankSize := 0x800, split := 0x5800, dsrPageSize := 0x1000 }

/-- A machine with a cartridge, on bank 2, and a Horizon card on the CRU at 0x0800. -/
def equipped : State :=
  { ready 0 [0xCC71] [reg 1 0xA100] with
    cart := some { cartOf 4 false false with romBank := 2, groms := [.empty] }
    cards := [horizonCard]
    cru := [⟨.card 7, 0x800, 16⟩] }

theorem test_meets_ResetValues :
    ∃ c d h, (hostReset equipped).cart = some c ∧ c.bankCount = 4 ∧ (hostReset equipped).cards = [d] ∧ d.horizon = some h ∧
      h.reg = [false] ∧ h.banks = 2 :=
  ⟨_, _, _, rfl, rfl, rfl, rfl, rfl, rfl⟩

/-- The words at both ends of expansion RAM and of the scratchpad range. -/
theorem test_meets_ReadAfterWrite :
    let s := State.reset
    (isPort 0xFFFF = false ∧ locate s (even 0xFFFF) = some (.expansion, 0x7FFE) ∧ locate s (even 0xFFFF + 1) = some (.expansion, 0x7FFF) ∧
      Store.expansion.isRam = true ∧ ((.expansion, 0x7FFE) : CellRef) ≠ (.expansion, 0x7FFF)) ∧
    (isPort 0x8000 = false ∧ locate s (even 0x8000) = some (.scratchpad, 0) ∧ locate s (even 0x8000 + 1) = some (.scratchpad, 1)) ∧
    (0x8000 ≤ (0x8000 : Word).toNat ∧ (0x83FF : Word).toNat < 0x8400 ∧ (0x8000 : Word).toNat % 256 = (0x8300 : Word).toNat % 256 ∧
      (0x80FF : Word).toNat % 256 = (0x83FF : Word).toNat % 256) := by decide

theorem test_meets_BusWriteFrame :
    (∀ o, locate State.reset (even 0xA001) ≠ some (.cartRom, o)) ∧ plainRam State.reset 0xA001 = true ∧
      plainRam State.reset 0x83FF = true ∧ storedCells State.reset 0xA001 = [(.expansion, 0x2000), (.expansion, 0x2001)] := by
  refine ⟨fun o h => ?_, by decide, by decide, by decide⟩
  have e : locate State.reset (even 0xA001) = some (.expansion, 0x2000) := by decide
  rw [e] at h
  cases h

theorem test_meets_BusReadFrame :
    quietRead State.reset 0x0000 = true ∧ quietRead State.reset 0x8400 = true ∧ quietRead State.reset 0x8802 = false ∧
      quietRead State.reset 0x9800 = false ∧ isPort 0x8400 = true ∧ isPort 0x9FFF = true ∧ isPort 0x83FF = false ∧
      isPort 0xA000 = false := by decide

/-- The edges of the four clauses; the cards are disabled, and enabled with neither DSR nor RAMBO. -/
theorem test_meets_DiscardedWrites :
    let s := { State.reset with cards := [{ horizonCard with enabled := false }, ⟨9, true, none, none⟩] }
    let u := { State.reset with expRamPresent := false }
    ((0x1FFF : Word).toNat < 0x2000 ∧ s.overlay0 = false) ∧
    (0x2000 ≤ (0x2000 : Word).toNat ∧ (0x3FFF : Word).toNat < 0x4000 ∧ 0xA000 ≤ (0xA000 : Word).toNat ∧ u.expRamPresent = false) ∧
    (0x4000 ≤ (0x4000 : Word).toNat ∧ (0x5FFF : Word).toNat < 0x6000 ∧ s.overlay1 = false ∧
      ∀ c ∈ s.cards, c.enabled = false ∨ (c.dsr = none ∧ c.horizon = none)) ∧
    (0x6000 ≤ (0x6000 : Word).toNat ∧ (0x7FFF : Word).toNat < 0x8000 ∧ s.cart = none ∧
      ∀ c ∈ s.cards, c.enabled = false ∨ ∀ h, c.horizon = some h → h.rambo = false) := by
  refine ⟨by decide, by decide, by decide, by decide, by decide, rfl, fun c hc => ?_⟩
  rcases List.mem_cons.1 hc with rfl | hc
  · exact .inl rfl
  · rcases List.mem_singleton.1 hc with rfl
    exact .inr fun h e => nomatch e

theorem test_meets_RegistersAndOperands :
    PlainWorkspace (ready 0 [] []) ∧ PlainWorkspace { State.reset with wp := 0xFFE0 } ∧ (3 : RegNo) ≠ 15 := by
  refine ⟨?_, ?_, ?_⟩
  · unfold PlainWorkspace; decide
  · unfold PlainWorkspace; decide
  · decide

/-- The first and the last mirror of each port, and the second bytes where the clauses of the address port meet. -/
theorem test_meets_VdpPorts :
    (0x8800 ≤ (0x8800 : Word).toNat ∧ (0x8800 : Word).toNat / 2 % 2 = 0 ∧ (0x8BFF : Word).toNat < 0x8C00 ∧
      (0x8BFF : Word).toNat / 2 % 2 = 1) ∧
    (0x8C00 ≤ (0x8C01 : Word).toNat ∧ (0x8C01 : Word).toNat / 2 % 4 = 0 ∧ (0x8FFB : Word).toNat / 2 % 4 = 1 ∧
      (0x8FFF : Word).toNat < 0x9000 ∧ 2 ≤ (0x8FFF : Word).toNat / 2 % 4 ∧ 2 ≤ (0x8C04 : Word).toNat / 2 % 4) ∧
    State.reset.vdp.vLatch = false ∧ (busWrite State.reset 0x8C02 0).vdp.vLatch = true ∧
    128 ≤ (hiByte 0x8000).toNat ∧ 64 ≤ (hiByte 0x4000).toNat ∧ (hiByte 0x7F00).toNat < 128 ∧ (hiByte 0x3F00).toNat < 64 := by
  decide

theorem test_meets_VdpAddressPort :
    Vdp.reset.vLatch = false ∧ (0x3FFF : VramAddr) ≠ 0 ∧ (0x80 : Byte).getLsbD 7 = true ∧ (0x80 : Byte).toNat % 8 = 0 ∧
      (0xFF : Byte).getLsbD 7 = true ∧ (0xFF : Byte).toNat % 8 = 7 ∧ (7 : Fin 8) ≠ 0 := by decide

/-- The first and the last mirror of each port; a cartridge with a chip and one with none; GROM_WRITABLE both ways. -/
theorem test_meets_GromPorts :
    (0x9800 ≤ (0x9800 : Word).toNat ∧ (0x9800 : Word).toNat / 2 % 2 = 0 ∧ (0x9BFF : Word).toNat < 0x9C00 ∧
      (0x9BFF : Word).toNat / 2 % 2 = 1) ∧
    (0x9C00 ≤ (0x9C01 : Word).toNat ∧ (0x9C01 : Word).toNat / 2 % 2 = 0 ∧ (0x9FFF : Word).toNat < 0xA000 ∧
      (0x9FFF : Word).toNat / 2 % 2 = 1) ∧
    (equipped.cart.map fun c => c.groms.length) = some 1 ∧ ((cartOf 4 false false).groms = []) ∧
    State.reset.gromWritable = false ∧ ({ State.reset with gromWritable := true } : State).gromWritable = true := by decide

/-- R782 to R784 with two chips: the address 0x6001 set through the ports prefetches byte 1 of the chip that the access selects, and
the console's byte beside it. -/
theorem test_grom_chips :
    (let chip := fun b => Memory.empty.store 0 [0, b]
     let s := { State.reset with
       gromMem := Memory.empty.store 0x6001 [0x80], cart := some { cartOf 1 false false with groms := [chip 1, chip 2] } }
     [0x9C02, 0x9C06, 0x9C0A].map fun p =>
       (busRead (busWrite (busWrite s p 0x6000) p 0x0100) 0x9800).1) = [0x8100, 0x8200, 0x8000] := by decide

/-- A cartridge with paged RAM of four banks, its window the upper half. -/
def pagedCart (inverted : Bool) : Cartridge := { cartOf 3 inverted false with ramPaged := true, ram := some (.ram 0x4000) }

/-- R763: the window's ends select RAM banks 0 and 3, inverted or not, and the ROM bank stays; R760 just below the window, and with
a bank count of 3, which masks with 2. -/
theorem test_paged_ram_banks :
    ([false, true].map fun inv => [0x7000, 0x7FFF, 0x6FFE, 0x6002, 0x6004].map fun a =>
      (busWrite { State.reset with cart := some { pagedCart inv with romBank := 1, ramBank := 2 } } a 0).cart.map
        fun c => (c.romBank, c.ramBank)) =
      [[some (1, 0), some (1, 3), some (2, 2), some (0, 2), some (2, 2)],
       [some (1, 0), some (1, 3), some (0, 2), some (2, 2), some (0, 2)]] := by decide

/-- A write routed to cartridge ROM, with each kind of switching, at the ends of the window and of the paged window, and the CRU bits
at both ends. -/
theorem test_meets_CartBanks :
    let c := cartOf 4 false false
    let d := cartOf 4 true true
    let e := pagedCart true
    let s : State := { State.reset with cart := some c }
    let t : State := { State.reset with cart := some d }
    let u : State := { State.reset with cart := some e }
    (c.ramPaged = false ∧ c.bankCount = 2 ^ 2 ∧ regionOf s (even 0x7FFF) = .cartridge ∧ cartRoutesRam s c (even 0x7FFF) = false ∧
      c.cruBankSwitched = false ∧ c.romBank < c.bankCount) ∧
    (d.bankCount = 2 ^ 2 ∧ regionOf t (even 0x6000) = .cartridge ∧ cartRoutesRam t d (even 0x6000) = false ∧
      d.cruBankSwitched = true) ∧
    (e.cruBankSwitched = false ∧ e.ramPaged = true ∧ ([0x7000, 0x7FFF, 0x6FFF].map fun a : Word =>
      (regionOf u (even a) == .cartridge && !cartRoutesRam u e (even a),
        decide (e.pagedWindow.first.toNat ≤ (even a).toNat ∧ (even a).toNat ≤ e.pagedWindow.last.toNat))) =
      [(true, true), (true, true), (true, false)]) ∧ 0 < e.bankCount ∧ (8 : Nat) ≠ 0 ∧ (1 : Nat) ≠ 0 := by decide

/-- The first and the last mirror of each port. -/
theorem test_meets_SoundSpeechPorts :
    (0x8400 ≤ (0x8400 : Word).toNat ∧ (0x87FF : Word).toNat < 0x8800) ∧
    (0x9000 ≤ (0x9000 : Word).toNat ∧ (0x93FF : Word).toNat < 0x9400) ∧
    (0x9400 ≤ (0x9400 : Word).toNat ∧ (0x97FF : Word).toNat < 0x9800) := by decide

/-- The card's bit 0, and both cases of the DSR window after it. -/
theorem test_meets_CardEnable :
    let e : CruEntry := ⟨.card 7, 0x800, 16⟩
    equipped.cru.filter (fun x => x.covers 0x800) = [e] ∧ e.dev = .card 7 ∧ e.base = (0x800 : CruAddr).toNat ∧
      (cruWrite equipped 0x800 true).overlay1 = false ∧
      (cruWrite equipped 0x800 true).cards.findIdx? (fun c => c.enabled && (c.dsr.isSome || c.horizon.isSome)) = some 0 ∧
      (cruWrite equipped 0x800 false).cards.findIdx? (fun c => c.enabled && (c.dsr.isSome || c.horizon.isSome)) = none ∧
      0x4000 ≤ (0x4000 : Word).toNat ∧ (0x5FFF : Word).toNat < 0x6000 := by decide

/-- The calm forms of two operands, one auto-incremented and one indexed. -/
theorem test_meets_calm_forms :
    let s := { ready 0 [0xA831, 0x0010] [reg 1 0xA100, reg 2 0xA200] with pc := 0xA002 }
    let p := readWordOp (.inc 1) s
    let q := readWordOp (.idx 2) p.after
    let r := readByteOp (.ind 1) s
    (readCalm (.inc 1) p.addr s && readCalm (.idx 2) q.addr p.after && plainRam q.after q.addr) = true ∧
      (readCalm (.ind 1) r.addr s && plainRam r.after r.addr) = true ∧
      (quietRead s s.pc && plainRam s (regAddr s 15)) = true := by decide

/-- Both clauses of ABS at their edges: 0x7FFF and 0; 0x8000 and 0xFFFF. -/
theorem test_meets_AbsValue :
    let p := fun v => (readWordOp (.reg 1) (ready 0 [] [reg 1 v])).val.toInt
    0 ≤ p 0x0000 ∧ 0 ≤ p 0x7FFF ∧ p 0x8000 < 0 ∧ p 0xFFFF < 0 := by decide

/-- DIV at the edge: the divisor equal to the high word, and one above it. -/
theorem test_meets_Divide :
    let p := fun v => (readWordOp (.reg 1) (ready 0 [] [reg 1 v, reg 2 2])).val.toNat
    let x := fun v => (readReg (readWordOp (.reg 1) (ready 0 [] [reg 1 v, reg 2 2])).after 2).1.toNat
    p 2 ≤ x 2 ∧ x 3 < p 3 := by decide

theorem test_meets_shift_counts :
    (ShiftCount.imm 1).wf = true ∧ (ShiftCount.imm 15).wf = true ∧ ShiftCount.fromR0.wf = true ∧
      (shiftAmount .fromR0 (ready 0 [] [])).1 = 16 ∧ (shiftAmount .fromR0 (ready 0 [] [reg 0 0xFFF1])).1 = 1 := by decide

/-- Each clause of X: another instruction, another X, an illegal word. -/
theorem test_meets_ExecuteX :
    let s := ready 0 [] [reg 1 0x0581, reg 2 0x0481, reg 3 0x0C00]
    decodeWord (readWordOp (.reg 1) s).val = .instr (.inc (.reg 1)) ∧ isX (.inc (.reg 1)) = false ∧
      decodeWord (readWordOp (.reg 2) s).val = .instr (.x (.reg 1)) ∧ decodeWord (readWordOp (.reg 3) s).val = .illegal := by decide

/-- The clauses of the CRU bus: a bit inside a device's range at its first and last address, and one beyond every range; a separate
bit, a shared one and none. -/
theorem test_meets_SingleBitCru :
    let e : CruEntry := ⟨.card 7, 0x800, 16⟩
    let l : List Config.CruBit := [.separate true false, .shared true]
    (e ∈ equipped.cru ∧ e.base ≤ (0x800 : CruAddr).toNat ∧ (0x80F : CruAddr).toNat < e.base + e.size) ∧
    (∀ e ∈ equipped.cru, ¬ (e.base ≤ (0x810 : CruAddr).toNat ∧ (0x810 : CruAddr).toNat < e.base + e.size)) ∧
    l[0]? = some (.separate true false) ∧ l[1]? = some (.shared true) ∧ l[2]? = none ∧ (1 : Nat) ≠ 0 := by decide

/-- The CRU counts where the clauses meet. -/
theorem test_meets_cru_counts :
    cruCountWf 1 = true ∧ cruCountWf 8 = true ∧ cruCountWf 9 = true ∧ cruCountWf 16 = true ∧ (8 : Nat) ≤ 8 ∧ (8 : Nat) < 9 := by
  decide

/-- The invariants of a machine with a cartridge and a card, and a step of it. -/
theorem test_meets_invariants :
    equipped.memoriesOk = true ∧ equipped.banksOk = true ∧ equipped.cardBitsOk = true ∧ equipped.gromSetsAgree = true ∧
      passes (step equipped) (fun t => t.pc == 0xA002) = true := by decide

theorem test_meets_WritersOfState :
    isX .lwpi = false ∧ passes (exec .lwpi (ready 0 [0x8301] [])) (fun t => t.wp == 0x8301) = true ∧
      writesWp (.inc (.reg 1)) = false ∧ passes (exec (.inc (.reg 1)) (ready 0 [] [])) (fun _ => true) = true := by decide

/-- The step refuses the alias word `w`. -/
def refuses (s : State) (w : Word) : Bool :=
  match step s with
  | .refused r => r == .aliasWord w
  | _ => false

/-- The three words a step can refuse: the word fetched, the word an X reads, and the word a pending X reads. -/
theorem test_meets_StepSafe :
    refuses (ready 0 [0x0391] []) 0x0391 = true ∧ refuses (ready 0 [0x0481] [reg 1 0x0211]) 0x0211 = true ∧
    refuses { ready 0 [] [reg 1 0x0211] with xPending := some 0x0481 } 0x0211 = true ∧
    refuses { ready 0 [] [] with xPending := some 0x0381 } 0x0381 = true := by decide

/-- R812, R801: a card whose bit offsets do not fit its CRU range is not attached; one that fits is, in its reset state. -/
theorem test_attach_card :
    (attachCard State.reset horizonCard 0x800 11).isNone = true ∧
    (match attachCard State.reset horizonCard 0x800 12 with
      | some s => s.cardBitsOk && s.cards == [horizonCard.reset] && s.cards.all fun c => !c.enabled
      | none => false) = true := by decide

/-- A call that returns with no budget, one that a breakpoint stops, the first pass of one that skips it, and an idle pass. -/
theorem test_meets_RunCall :
    let s := ready 0 [0x04C1] []
    let stop := setBreakpoint s (some 0xA000)
    (∃ t, run 1 0 false s = .returned 0 t ∧ t.stopped = false) ∧
    (∃ t, run 1 10 false stop = .returned (-10) t ∧ t.stopped = true) ∧
    (setAuxBreakpoint s (some 0xA000)).auxBreakpoint = some 0xA000 ∧ s.xPending = none ∧ s.idle = false ∧
    passes (step { stop with consumed := 0, stopped := false }) (fun t => t.pc == 0xA002) = true ∧
    passes (step { s with idle := true }) (fun t => t.pc == 0xA000) = true :=
  ⟨⟨_, rfl, rfl⟩, ⟨_, rfl, rfl⟩, rfl, rfl, rfl, by decide, by decide⟩

/-- The least and a larger geometry, the first and the last row, and the edges of the borders. -/
theorem test_meets_BorderAndFrame :
    geometryOk 0 256 192 = true ∧ geometryOk 239 304 240 = true ∧ geometryOk 216 304 240 = true ∧ 216 = (240 - 192) / 2 + 192 ∧
      (23 < 304 ∧ 23 < (304 - 256) / 2) ∧ (280 < 304 ∧ (304 - 256) / 2 + 256 ≤ 280) := by decide

theorem test_meets_SpriteStatus :
    (0 : Nat) < 32 ∧ (31 : Nat) < 32 ∧ (0xBF : Byte).getLsbD 6 = false ∧ (0x40 : Byte).getLsbD 6 = true ∧ (0 : Nat) < 1 ∧
      (0x20 : Byte).getLsbD 5 = true := by decide

end Sys2Proof.Tests
end

section
/-! What bus accesses and CRU writes do to the cartridge and to the cards: `mapPart` of a device stays, but for a write routed to
cartridge ROM and the devices' own CRU bits. A property of devices that these two keep is kept by every step. -/

namespace Sys2Proof.Machine

/-! ## Devices up to the contents of their memories -/

/-- Cartridge and cards differ at most in the contents of their memories and in the GROM latches. -/
def DevicesAlike (s t : State) : Prop :=
  t.cart.map Cartridge.mapPart = s.cart.map Cartridge.mapPart ∧ t.cards.map Card.mapPart = s.cards.map Card.mapPart

theorem DevicesAlike.refl (s : State) : DevicesAlike s s := ⟨rfl, rfl⟩

theorem DevicesAlike.trans {s t u : State} (h : DevicesAlike s t) (k : DevicesAlike t u) : DevicesAlike s u :=
  ⟨k.1.trans h.1, k.2.trans h.2⟩

theorem gromBoth_devicesAlike (s : State) (sel : Nat) (f : GromLatch → (Word → Byte) → GromLatch) :
    DevicesAlike s (s.gromBoth sel f) := ⟨gromBoth_parts s sel f, rfl⟩

theorem gromStore_devicesAlike (s : State) (sel : Nat) (b : Byte) : DevicesAlike s (s.gromStore sel b) := by
  refine ⟨gromStore_parts s sel b, ?_⟩
  unfold State.gromStore
  split <;> rfl

theorem busRead_devicesAlike (s : State) (a : Word) : DevicesAlike s (busRead s a).2 := by
  have key : ∀ r, DevicesAlike s (readRegion s (even a) r).2 := by
    intro r
    cases r <;> try exact .refl s
    case gromRead =>
      unfold readRegion
      dsimp only
      split <;> exact gromBoth_devicesAlike s _ _
  exact key _

theorem writeStore_devicesAlike (s : State) (o : Nat) (b : Byte) (st : Store) (h : st.isRam = true) :
    DevicesAlike s (writeStore s o b st) := by
  cases st with
  | rom | cartRom | dsrRom => cases h
  | overlay0 | overlay1 | expansion | scratchpad => exact ⟨rfl, rfl⟩
  | cartRam =>
    refine ⟨?_, rfl⟩
    rcases hs : s.cart with _ | c
    · simp [writeStore, hs]
    · rcases hr : c.ram with _ | m <;> simp [writeStore, hs, hr, Cartridge.mapPart]
  | horizonDsr i | horizonPaged i =>
    refine ⟨rfl, modify_mapPart _ _ _ fun c => ?_⟩
    rcases hh : c.horizon with _ | z <;> simp [hh, Card.mapPart]

theorem storeByte_devicesAlike (s : State) (a : Word) (b : Byte) : DevicesAlike s (storeByte s a b) := by
  unfold storeByte
  split
  · split
    · exact writeStore_devicesAlike s _ b _ ‹_›
    · exact .refl s
  · exact .refl s

theorem storeWord_devicesAlike (s : State) (e v : Word) : DevicesAlike s (storeWord s e v) :=
  (storeByte_devicesAlike s e _).trans (storeByte_devicesAlike _ _ _)

theorem emitPersist_devicesAlike (s : State) (i : Nat) : DevicesAlike s (emitPersist s i) := by
  unfold emitPersist
  split <;> exact ⟨rfl, rfl⟩

/-- A write that no port takes keeps the devices, or is routed to cartridge ROM (R753). -/
theorem writeBacked_devices (s : State) (e v : Word) :
    DevicesAlike s (writeBacked s e v) ∨ writeBacked s e v = s.mapCart fun c => c.romWrite e := by
  unfold writeBacked
  split
  · exact .inr rfl
  · refine .inl ?_
    split
    · split
      · exact (storeWord_devicesAlike s e v).trans (emitPersist_devicesAlike _ _)
      · exact storeWord_devicesAlike s e v
    · exact .refl s
  · exact .inl (.refl s)

/-- What a bus write does to the devices: nothing, or it selects a cartridge bank (R753). -/
theorem busWrite_devices (s : State) (a v : Word) :
    DevicesAlike s (busWrite s a v) ∨ DevicesAlike (s.mapCart fun c => c.romWrite (even a)) (busWrite s a v) := by
  have backed : DevicesAlike s (writeBacked s (even a) v) ∨
      DevicesAlike (s.mapCart fun c => c.romWrite (even a)) (writeBacked s (even a) v) :=
    (writeBacked_devices s (even a) v).imp_right fun h => by rw [h]; exact .refl _
  have key : ∀ r, DevicesAlike s (writeRegion s (even a) v r) ∨
      DevicesAlike (s.mapCart fun c => c.romWrite (even a)) (writeRegion s (even a) v r) := by
    intro r
    cases r with
    | sound | speechWrite | vdpWrite | vdpRead | speechRead | gromRead => exact .inl ⟨rfl, rfl⟩
    | gromWrite =>
      refine .inl ?_
      unfold writeRegion
      dsimp only
      split
      · exact gromBoth_devicesAlike s _ _
      · exact (gromStore_devicesAlike s _ _).trans (gromBoth_devicesAlike _ _ _)
    | _ => exact backed
  exact key _

/-! ## Properties of devices that every step keeps -/

/-- The inserted cartridge has the property `C` and every card the property `K`. -/
def AllDevices (C : Cartridge → Prop) (K : Card → Prop) (s : State) : Prop :=
  (∀ c, s.cart = some c → C c) ∧ ∀ k ∈ s.cards, K k

/-- What a property of a cartridge must bear for every step to keep it: new contents of memories and latches, writes to ROM, CRU
bits. -/
structure Cartridge.Kept (C : Cartridge → Prop) : Prop where
  mapPart : ∀ c, C c.mapPart ↔ C c
  romWrite : ∀ (c : Cartridge) (a : Word), C c → C (c.romWrite a)
  writeBit : ∀ (c : Cartridge) (bit : Nat) (v : Bool), C c → C (c.writeBit bit v)

/-- What a property of a card must bear for every step to keep it: new contents of memories, CRU bits. -/
structure Card.Kept (K : Card → Prop) : Prop where
  mapPart : ∀ c, K c.mapPart ↔ K c
  writeBit : ∀ (c : Card) (bit : Nat) (v : Bool), K c → K (c.writeBit bit v)

variable {C : Cartridge → Prop} {K : Card → Prop} {s t : State}

theorem AllDevices.mapCart (h : AllDevices C K s) {f : Cartridge → Cartridge} (hf : ∀ c, C c → C (f c)) :
    AllDevices C K (s.mapCart f) := by
  refine ⟨fun c hc => ?_, h.2⟩
  obtain ⟨d, hd, rfl⟩ := Option.map_eq_some_iff.1 hc
  exact hf d (h.1 d hd)

theorem AllDevices.alike (hC : Cartridge.Kept C) (hK : Card.Kept K) (h : AllDevices C K s) (ht : DevicesAlike s t) :
    AllDevices C K t := by
  constructor
  · intro c hc
    have hm : s.cart.map Cartridge.mapPart = some c.mapPart := by rw [← ht.1, hc]; rfl
    obtain ⟨d, hd, he⟩ := Option.map_eq_some_iff.1 hm
    rw [← hC.mapPart, ← he, hC.mapPart]
    exact h.1 d hd
  · intro k hk
    have hm : k.mapPart ∈ s.cards.map Card.mapPart := ht.2 ▸ List.mem_map_of_mem hk
    obtain ⟨d, hd, he⟩ := List.mem_map.1 hm
    rw [← hK.mapPart, ← he, hK.mapPart]
    exact h.2 d hd

theorem AllDevices.busWrite (hC : Cartridge.Kept C) (hK : Card.Kept K) (h : AllDevices C K s) (a v : Word) :
    AllDevices C K (busWrite s a v) := by
  rcases busWrite_devices s a v with hw | hw
  · exact h.alike hC hK hw
  · exact (h.mapCart fun c => hC.romWrite c (even a)).alike hC hK hw

theorem AllDevices.cruDeliver (hC : Cartridge.Kept C) (hK : Card.Kept K) (h : AllDevices C K s) (a : CruAddr) (v : Bool)
    (e : CruEntry) : AllDevices C K (cruDeliver a v s e) := by
  unfold Machine.cruDeliver
  split
  · split
    · exact h.mapCart fun c => hC.writeBit c _ v
    · refine ⟨h.1, fun k hk => ?_⟩
      obtain ⟨d, hd, rfl⟩ := List.mem_map.1 hk
      split
      · exact hK.writeBit d _ v (h.2 d hd)
      · exact h.2 d hd
    · exact h
  · exact h

theorem AllDevices.cruWrite (hC : Cartridge.Kept C) (hK : Card.Kept K) (h : AllDevices C K s) (a : CruAddr) (v : Bool) :
    AllDevices C K (cruWrite s a v) := by
  have fold : ∀ (l : List CruEntry) (u : State), AllDevices C K u → AllDevices C K (l.foldl (Machine.cruDeliver a v) u) := by
    intro l
    induction l with
    | nil => exact fun u hu => hu
    | cons e rest ih => exact fun u hu => ih _ (hu.cruDeliver hC hK a v e)
  exact fold s.cru s h

/-- A property of devices that bank selection and CRU bits keep is kept by every step (`step_kept`). -/
theorem allDevices_preserved (hC : Cartridge.Kept C) (hK : Card.Kept K) : Preserved (AllDevices C K) where
  core _ _ _ _ _ _ _ _ _ _ h := h
  read s a h := h.alike hC hK (busRead_devicesAlike s a)
  write _ a v h := h.busWrite hC hK a v
  cru _ a v h := h.cruWrite hC hK a v

end Sys2Proof.Machine
end

section
/-! The invariants of the banks and of the cards' CRU bits (R140, R763, R810, R812). -/

namespace Sys2Proof.Machine

/-! ## Bank and page indices -/

/-- A number masked with a count less 1 is below the count. -/
theorem and_pred_lt (x : Nat) {n : Nat} (hn : 0 < n) : x &&& (n - 1) < n :=
  Nat.lt_of_le_of_lt Nat.and_le_right (Nat.pred_lt_of_lt hn)

theorem Cartridge.banksOk_iff (c : Cartridge) :
    c.banksOk = true ↔ c.romBank < c.bankCount ∧ c.ramBank < c.ramBankCount := by
  simp [Cartridge.banksOk]

theorem Cartridge.bankFromAddress_lt (c : Cartridge) (a : Word) (h : 0 < c.bankCount) :
    c.bankFromAddress a < c.bankCount := by
  unfold Cartridge.bankFromAddress
  dsimp only
  split
  · omega
  · exact and_pred_lt _ h

theorem Cartridge.ramBankCount_mapPart (c : Cartridge) : c.mapPart.ramBankCount = c.ramBankCount := by
  rcases hr : c.ram with _ | m <;> simp [Cartridge.ramBankCount, Cartridge.mapPart, hr]

/-- Every way to select a bank gives one below the count (R140, R763). -/
theorem Cartridge.banksOk_kept : Cartridge.Kept fun c => c.banksOk = true where
  mapPart c := by
    rw [banksOk_iff, banksOk_iff, ramBankCount_mapPart]
    rfl
  romWrite c a h := by
    obtain ⟨hrom, hram⟩ := c.banksOk_iff.1 h
    unfold Cartridge.romWrite
    split
    · exact h
    · split
      · exact (banksOk_iff _).2 ⟨hrom, and_pred_lt _ (Nat.zero_lt_of_lt hram)⟩
      · exact (banksOk_iff _).2 ⟨c.bankFromAddress_lt a (Nat.zero_lt_of_lt hrom), hram⟩
  writeBit c bit v h := by
    obtain ⟨hrom, hram⟩ := c.banksOk_iff.1 h
    unfold Cartridge.writeBit
    split
    · exact (banksOk_iff _).2 ⟨and_pred_lt _ (Nat.zero_lt_of_lt hrom), hram⟩
    · exact h

theorem Card.pageOk_iff (c : Card) : c.pageOk = true ↔ ∀ h, c.horizon = some h → h.page < h.banks := by
  rcases hh : c.horizon with _ | z <;> simp [Card.pageOk, hh]

/-- A CRU bit of a Horizon card leaves its bank count, and its page below it (R813). -/
theorem Horizon.writeBit_page (h : Horizon) (bit : Nat) (v : Bool) (hp : h.page < h.banks) :
    (h.writeBit bit v).page < (h.writeBit bit v).banks := by
  unfold Horizon.writeBit
  split
  · exact and_pred_lt _ (Nat.zero_lt_of_lt hp)
  · split
    · exact hp
    · split <;> exact hp

/-- The Horizon part of a card after a CRU bit, if it has one: as it was, or with the bit written (R802). -/
theorem Card.writeBit_horizon {c : Card} {bit : Nat} {v : Bool} {z : Horizon} (h : (c.writeBit bit v).horizon = some z) :
    ∃ y, c.horizon = some y ∧ (z = y ∨ z = y.writeBit bit v) := by
  unfold Card.writeBit at h
  split at h
  · exact ⟨z, h, .inl rfl⟩
  · obtain ⟨y, hy, rfl⟩ := Option.map_eq_some_iff.1 h
    exact ⟨y, hy, .inr rfl⟩

theorem Card.pageOk_kept : Card.Kept fun c => c.pageOk = true where
  mapPart c := by rcases hh : c.horizon with _ | z <;> simp [Card.pageOk_iff, Card.mapPart, hh]
  writeBit c bit v h := by
    rw [Card.pageOk_iff] at h ⊢
    intro z hz
    obtain ⟨y, hy, rfl | rfl⟩ := Card.writeBit_horizon hz
    · exact h z hy
    · exact y.writeBit_page bit v (h y hy)

theorem State.banksOk_iff (s : State) :
    s.banksOk = true ↔ AllDevices (fun c => c.banksOk = true) (fun k => k.pageOk = true) s := by
  rcases hc : s.cart with _ | c <;> simp [State.banksOk, AllDevices, hc]

/-! ## CRU bits of cards -/

/-- If the range is registered for the card, it holds the card's CRU bits (R812). -/
def CruEntry.fits (e : CruEntry) (c : Card) : Prop := e.dev = .card c.id → c.bitsOk e.size = true

theorem State.cardBitsOk_iff (s : State) :
    s.cardBitsOk = true ↔ ∀ e ∈ s.cru, AllDevices (fun _ => True) e.fits s := by
  unfold State.cardBitsOk
  rw [List.all_eq_true]
  refine forall₂_congr fun e _ => ?_
  rcases hd : e.dev with _ | id | d
  · simp [AllDevices, CruEntry.fits, hd]
  · simp only [AllDevices, CruEntry.fits, hd, List.all_eq_true, Bool.or_eq_true, bne_iff_ne, CruDevice.card.injEq,
      implies_true, true_and]
    exact forall₂_congr fun c _ => by rw [← imp_iff_not_or, eq_comm]
  · simp [AllDevices, CruEntry.fits, hd]

theorem Horizon.bitsOk_writeBit (h : Horizon) (bit : Nat) (v : Bool) (n : Nat) :
    (h.writeBit bit v).bitsOk n = h.bitsOk n := by
  unfold Horizon.writeBit
  split
  · rfl
  · split
    · rfl
    · split <;> rfl

theorem Card.bitsOk_iff (c : Card) (n : Nat) : c.bitsOk n = true ↔ ∀ h, c.horizon = some h → h.bitsOk n = true := by
  rcases hh : c.horizon with _ | z <;> simp [Card.bitsOk, hh]

theorem Card.bitsOk_writeBit (c : Card) (bit : Nat) (v : Bool) (n : Nat) (h : c.bitsOk n = true) :
    (c.writeBit bit v).bitsOk n = true := by
  rw [Card.bitsOk_iff] at h ⊢
  intro z hz
  obtain ⟨y, hy, rfl | rfl⟩ := Card.writeBit_horizon hz
  · exact h z hy
  · rw [Horizon.bitsOk_writeBit]
    exact h y hy

theorem Card.bitsOk_mapPart (c : Card) (n : Nat) : c.mapPart.bitsOk n = c.bitsOk n := by
  rcases hh : c.horizon with _ | z <;> simp [Card.bitsOk, Card.mapPart, hh, Horizon.bitsOk]

/-- No access changes the identity of a card or the offsets of its CRU bits. -/
theorem CruEntry.fits_kept (e : CruEntry) : Card.Kept e.fits where
  mapPart c := by
    unfold CruEntry.fits
    rw [Card.bitsOk_mapPart]
    rfl
  writeBit c bit v h := by
    obtain ⟨hid, -⟩ := c.writeBit_memories bit v
    unfold CruEntry.fits
    rw [hid]
    exact fun hd => c.bitsOk_writeBit bit v _ (h hd)

/-- An outside device that takes a bit keeps its range; every other entry stays as it is (R650). -/
theorem CruEntry.latch_fits (e : CruEntry) (a : CruAddr) (v : Bool) (c : Card) (h : e.fits c) : (e.latch a v).fits c := by
  unfold CruEntry.latch
  split
  · split
    · intro hd
      cases hd
    · exact h
  · exact h

/-- Every range registered for a card holds its CRU bits: what `step_kept` needs. -/
theorem cardFits_preserved : Preserved fun s => ∀ e ∈ s.cru, AllDevices (fun _ => True) e.fits s := by
  have hall : ∀ e : CruEntry, Preserved (AllDevices (fun _ => True) e.fits) := fun e =>
    allDevices_preserved ⟨fun _ => .rfl, fun _ _ h => h, fun _ _ _ h => h⟩ e.fits_kept
  refine ⟨fun _ _ _ _ _ _ _ _ _ _ h => h, fun s a h e he => ?_, fun s a v h e he => ?_, fun s a v h e he => ?_⟩
  · rw [busRead_cru] at he
    exact (hall e).read s a (h e he)
  · rw [busWrite_cru] at he
    exact (hall e).write s a v (h e he)
  · obtain ⟨d, hd, rfl⟩ := List.mem_map.1 he
    obtain ⟨-, hk⟩ := (hall d).cru s a v (h d hd)
    exact ⟨fun _ _ => trivial, fun c hc => d.latch_fits a v c (hk c hc)⟩

/-- Settles O53: both invariants are properties that bus accesses, CRU writes and the core's registers keep, so every step keeps
them. -/
theorem banksKept : Obligations.BanksKept := by
  refine ⟨fun s t hs hn => ?_, fun s t hs hn => ?_⟩
  · rw [State.banksOk_iff] at hs ⊢
    exact step_kept (allDevices_preserved Cartridge.banksOk_kept Card.pageOk_kept) hs hn
  · rw [State.cardBitsOk_iff] at hs ⊢
    exact step_kept cardFits_preserved hs hn

end Sys2Proof.Machine
end

section
/-! What reset does (R170, R1000): it keeps every byte of memory, and its two vector reads are quiet reads of console ROM or overlay
RAM 0, which the reset of the devices leaves alone. -/

namespace Sys2Proof.Machine

/-! ## Addresses below 0x2000 (R222) -/

theorem regionOf_low (s : State) {a : Word} (ha : a.toNat < 0x2000) :
    regionOf s a = if s.overlay0 then .overlay0 else .rom := by
  unfold regionOf
  dsimp only
  rw [if_pos ha]

theorem even_low {a : Word} (ha : a.toNat < 0x2000) : (even a).toNat < 0x2000 := by
  rw [even_toNat]
  omega

/-- A read below 0x2000 delivers what the inspection path shows and only charges WAIT_ROM (R222, R241). -/
theorem busRead_low (s : State) {a : Word} (ha : a.toNat < 0x2000) :
    busRead s a = (fastRead s a, s.charge Config.waitRom) := by
  have hr := regionOf_low s (even_low ha)
  have hq : quietRead s a = true := by unfold quietRead; rw [hr]; cases s.overlay0 <;> rfl
  have hw : waitOf (regionOf s (even a)) = Config.waitRom := by rw [hr]; cases s.overlay0 <;> rfl
  refine Prod.ext rfl ?_
  rw [busRead_quiet hq, hw]

/-- The cell behind an address below 0x2000 depends on the overlay flag alone. -/
theorem locate_low {s t : State} {a : Word} (ha : a.toNat < 0x2000) (ho : t.overlay0 = s.overlay0) :
    locate t a = locate s a := by
  unfold locate
  rw [regionOf_low s (even_low ha), regionOf_low t (even_low ha), ho]
  cases s.overlay0 <;> rfl

/-- With every byte and the overlay flag kept, an address below 0x2000 shows the same word. -/
theorem fastRead_low {s t : State} {a : Word} (ha : a.toNat < 0x2000) (ho : t.overlay0 = s.overlay0)
    (hc : ∀ c, cellAt t c = cellAt s c) : fastRead t a = fastRead s a := by
  have hp : ∀ u : State, (regionOf u (even a)).isPort = false := fun u => by
    rw [regionOf_low u (even_low ha)]; cases u.overlay0 <;> rfl
  have hodd : (even a + 1).toNat < 0x2000 := by
    rw [even_add_one_toNat]
    omega
  rw [fastRead_backed (hp t), fastRead_backed (hp s)]
  unfold backedWord
  rw [backedByte_keep (locate_low (even_low ha) ho) fun c _ => hc c, backedByte_keep (locate_low hodd ho) fun c _ => hc c]

/-! ## Reset -/

/-- A card's reset keeps its memories (R810, R1000). -/
theorem Card.memoryParts_reset (c : Card) : c.reset.memoryParts = c.memoryParts := by
  rcases hh : c.horizon with _ | z <;> simp [Card.memoryParts, Card.reset, Horizon.reset, Horizon.paged, hh]

/-- The reset of the devices keeps every byte of memory (R1000). -/
theorem cellAt_resetDevices (s : State) (c : CellRef) : cellAt s.resetDevices c = cellAt s c := by
  refine cellAt_of_memories (s := s) (t := s.resetDevices) rfl rfl rfl rfl rfl ?_ (fun i => ?_) c
  · show (s.cart.map Cartridge.reset).map _ = _
    rw [Option.map_map]
    rfl
  · show ((s.cards.map Card.reset)[i]?).map _ = _
    rw [List.getElem?_map, Option.map_map]
    exact congrArg (fun f => (s.cards[i]?).map f) (funext Card.memoryParts_reset)

/-- Reset: the devices, two wait charges, and WP and PC from the words at 0 and 2, which the devices' reset leaves (R1000). -/
theorem hostReset_eq (s : State) :
    hostReset s =
      (((s.resetDevices.charge Config.waitRom).charge Config.waitRom).setWp (fastRead s 0)).setPc (fastRead s 2) := by
  have h0 : fastRead s.resetDevices 0 = fastRead s 0 := fastRead_low (by decide) rfl (cellAt_resetDevices s)
  have h2 : fastRead s.resetDevices 2 = fastRead s 2 := fastRead_low (by decide) rfl (cellAt_resetDevices s)
  have hv : readVector s.resetDevices 0 =
      (fastRead s 0, fastRead s 2, (s.resetDevices.charge Config.waitRom).charge Config.waitRom) := by
    unfold readVector
    rw [busRead_low _ (by decide)]
    dsimp only
    rw [busRead_low _ (by decide), fastRead_charge, h0]
    exact congrArg (fun w => (fastRead s 0, w, _)) h2
  unfold hostReset
  rw [hv]

/-- Settles O17: `hostReset_eq` written out by fields, and every byte kept. -/
theorem resetValues : Obligations.ResetValues := by
  intro s
  rw [hostReset_eq]
  refine ⟨?_, memoryKept_of_cells fun c _ => cellAt_resetDevices s c⟩
  rw [Nat.two_mul, ← Nat.add_assoc]
  rfl

end Sys2Proof.Machine
end

section
/-! Which part of the state each instruction writes (R102, R105): what its accesses leave alone, the bits of ST a flag computation
writes, and the two put together for every shape and instruction. -/

namespace Sys2Proof.Machine

/-! ## What an instruction's accesses leave alone -/

/-- The state with everything blanked out that a bus access, a fetch, a CRU write or a jump can change. Two states with equal
`offAccess` agree on WP, ST, the run-control state, the configuration flags, the console ROM and the inputs. -/
def State.offAccess (s : State) : State := { s.offBus with pc := 0, cru := [] }

@[simp] theorem offAccess_wp (s : State) : s.offAccess.wp = s.wp := rfl
@[simp] theorem offAccess_st (s : State) : s.offAccess.st = s.st := rfl
@[simp] theorem offAccess_idle (s : State) : s.offAccess.idle = s.idle := rfl

theorem offAccess_of_offBus {s t : State} (h : t.offBus = s.offBus) : t.offAccess = s.offAccess :=
  congrArg (fun u : State => { u with pc := 0, cru := [] }) h

theorem st_of_offAccess {s u : State} (h : u.offAccess = s.offAccess) : u.st = s.st := by
  have hst := congrArg State.st h
  exact hst

@[simp] theorem offAccess_charge (s : State) (n : Nat) : (s.charge n).offAccess = s.offAccess := rfl
@[simp] theorem offAccess_emit (s : State) (e : Event) : (s.emit e).offAccess = s.offAccess := rfl
@[simp] theorem offAccess_draw (s : State) : s.draw.2.offAccess = s.offAccess := rfl
@[simp] theorem offAccess_setPc (s : State) (v : Word) : (s.setPc v).offAccess = s.offAccess := rfl
@[simp] theorem offAccess_setSt (s : State) (v : Word) : (s.setSt v).offAccess = { s.offAccess with st := v } := rfl
@[simp] theorem offAccess_setWp (s : State) (v : Word) : (s.setWp v).offAccess = { s.offAccess with wp := v } := rfl

@[simp] theorem offAccess_busRead (s : State) (a : Word) : (busRead s a).2.offAccess = s.offAccess :=
  offAccess_of_offBus (busRead_offBus s a)

@[simp] theorem offAccess_busWrite (s : State) (a v : Word) : (busWrite s a v).offAccess = s.offAccess :=
  offAccess_of_offBus (busWrite_offBus s a v)

@[simp] theorem offAccess_busWriteByte (s : State) (a : Word) (b : Byte) : (busWriteByte s a b).offAccess = s.offAccess := by
  simp [busWriteByte]

@[simp] theorem offAccess_readReg (s : State) (r : RegNo) : (readReg s r).2.offAccess = s.offAccess := offAccess_busRead s _

@[simp] theorem offAccess_writeReg (s : State) (r : RegNo) (v : Word) : (writeReg s r v).offAccess = s.offAccess :=
  offAccess_busWrite s _ v

@[simp] theorem offAccess_fetchWord (s : State) : (fetchWord s).2.offAccess = s.offAccess := by simp [fetchWord]

@[simp] theorem offAccess_ea (o : Operand) (n : Width) (s : State) : (ea o n s).2.offAccess = s.offAccess := by
  cases o <;> simp [ea]

@[simp] theorem offAccess_readWordOp (o : Operand) (s : State) : (readWordOp o s).after.offAccess = s.offAccess := by
  simp [readWordOp]

@[simp] theorem offAccess_readByteOp (o : Operand) (s : State) : (readByteOp o s).after.offAccess = s.offAccess := by
  simp [readByteOp]

@[simp] theorem offAccess_shiftAmount (c : ShiftCount) (s : State) : (shiftAmount c s).2.offAccess = s.offAccess := by
  cases c <;> simp [shiftAmount]

@[simp] theorem offAccess_cruWrite (s : State) (a : CruAddr) (v : Bool) : (cruWrite s a v).offAccess = s.offAccess := by
  have h := congrArg State.offAccess (cruWrite_offCru s a v)
  exact h

@[simp] theorem offAccess_cruSend (a : CruAddr) (v : Word) (n i : Nat) (s : State) :
    (cruSend a v n i s).offAccess = s.offAccess := by
  induction n generalizing i s with
  | zero => rfl
  | succ n ih => rw [cruSend, ih, offAccess_cruWrite]

/-- A context switch writes WP beside its accesses (R600). -/
@[simp] theorem offAccess_contextSwitch (s : State) (nwp npc : Word) :
    (contextSwitch s nwp npc).offAccess = { s.offAccess with wp := nwp } := by
  rw [contextSwitch_eq]
  simp

theorem offAccess_switchThrough (s : State) (a : Word) :
    (switchThrough s a).offAccess = { s.offAccess with wp := (switchThrough s a).wp } := by
  simp [switchThrough, offAccess_of_offBus (readVector_offBus s a)]

/-! ## The bits of ST that each flag computation writes (R440 to R445) -/

theorem agreeOff_all (a b : Word) : agreeOff 0xFFFF a b := by
  unfold agreeOff
  simp

theorem agreeOff_cmpZero16_lae (st r : Word) : agreeOff 0xE000 st (cmpZero16 st r) :=
  agreeOff_cmpZero16 _ st r (by decide) (by decide) (by decide)

theorem agreeOff_cmpZero8_laeOp (st : Word) (b : Byte) : agreeOff 0xE400 st (cmpZero8 st b) :=
  agreeOff_cmpZero8 _ st b (by decide) (by decide) (by decide) (by decide)

theorem agreeOff_cmp16 (st x y : Word) : agreeOff 0xE000 st (cmp16 st x y) :=
  agreeOff_putLAE _ st _ _ _ (by decide) (by decide) (by decide)

/-- CB: the comparison and OP (R501). -/
theorem agreeOff_cmp8_putOP (st : Word) (x y : Byte) (v : Bool) : agreeOff 0xE400 st (putOP (cmp8 st x y) v) :=
  (agreeOff_putLAE _ st _ _ _ (by decide) (by decide) (by decide)).trans (agreeOff_putBit _ _ 10 v (by decide) (by decide))

theorem agreeOff_sumFlags16 (st : Word) (r : Sum 16) : agreeOff 0xF800 st (sumFlags16 st r) := by
  obtain ⟨-, -, h⟩ := sumFlags16_spec st r
  exact h

theorem agreeOff_sumFlags8 (st : Word) (r : Sum 8) : agreeOff 0xFC00 st (sumFlags8 st r) := by
  obtain ⟨-, -, h⟩ := sumFlags8_spec st r
  exact h

theorem agreeOff_addWord (d x st : Word) : agreeOff 0xF800 st (addWord d x st).2 := agreeOff_sumFlags16 st _

theorem agreeOff_subWord (d x st : Word) : agreeOff 0xF800 st (subWord d x st).2 := agreeOff_sumFlags16 st _

theorem agreeOff_addByte (d x : Byte) (st : Word) : agreeOff 0xFC00 st (addByte d x st).2 := agreeOff_sumFlags8 st _

theorem agreeOff_subByte (d x : Byte) (st : Word) : agreeOff 0xFC00 st (subByte d x st).2 := agreeOff_sumFlags8 st _

theorem agreeOff_logicWord (r st : Word) : agreeOff 0xE000 st (logicWord r st).2 := agreeOff_cmpZero16_lae st r

theorem agreeOff_logicByte (r : Byte) (st : Word) : agreeOff 0xE400 st (logicByte r st).2 := agreeOff_cmpZero8_laeOp st r

/-- ABS: L, A and EQ of the operand, then C and OV (R468). -/
theorem agreeOff_absFlags (st r : Word) (c v : Bool) : agreeOff 0xF800 st (putCOV (cmpZero16 st r) c v) :=
  (agreeOff_cmpZero16 _ st r (by decide) (by decide) (by decide)).trans (agreeOff_putCOV _ _ c v (by decide) (by decide))

theorem agreeOff_shiftFlags (st : Word) (r : Word × Bool) : agreeOff 0xF000 st (shiftFlags st r) :=
  (agreeOff_putBit _ st 12 r.2 (by decide) (by decide)).trans
    (agreeOff_cmpZero16 _ _ r.1 (by decide) (by decide) (by decide))

theorem agreeOff_slaFlags (st : Word) (r : Word × Bool × Bool) : agreeOff 0xF800 st (slaFlags st r) :=
  (agreeOff_putCOV _ st r.2.1 r.2.2 (by decide) (by decide)).trans
    (agreeOff_cmpZero16 _ _ r.1 (by decide) (by decide) (by decide))

theorem agreeOff_putEQ (st : Word) (v : Bool) : agreeOff 0x2000 st (putEQ st v) :=
  agreeOff_putBit _ st 13 v (by decide) (by decide)

theorem agreeOff_putOV (st : Word) (v : Bool) : agreeOff 0x0800 st (putOV st v) :=
  agreeOff_putBit _ st 11 v (by decide) (by decide)

theorem agreeOff_putX (st : Word) (v : Bool) : agreeOff 0x0200 st (putX st v) :=
  agreeOff_putBit _ st 9 v (by decide) (by decide)

/-! ## Shapes that write ST alone -/

/-- Beside what its accesses change, `t` differs from `s` in ST alone, and there in bits of `mask` alone. -/
structure WritesSt (mask : Word) (s t : State) : Prop where
  st : agreeOff mask s.st t.st
  rest : t.offAccess = { s.offAccess with st := t.st }

variable {s t u : State} {m : Word}

/-- ST written after accesses: the end of most meanings. -/
theorem finishWith_writesSt {st : Word} {k : Nat} (hn : finishWith u st k = .next t) (hu : u.offAccess = s.offAccess)
    (hst : agreeOff m s.st st) : WritesSt m s t := by
  injection hn with e
  subst e
  refine ⟨hst, ?_⟩
  rw [offAccess_charge, offAccess_setSt, hu]
  rfl

/-- Accesses and nothing else. -/
theorem access_writesSt (hn : (.next u : Result) = .next t) (hu : u.offAccess = s.offAccess) : WritesSt 0 s t := by
  injection hn with e
  subst e
  have hst := st_of_offAccess hu
  refine ⟨by rw [hst]; exact .refl 0 _, ?_⟩
  rw [hst]
  exact hu

theorem dualWord_writesSt {src dst : Operand} {op : Word → Word → Word → Word × Word}
    (hn : dualWord src dst op s = .next t) (hop : ∀ x d, agreeOff m s.st (op x d s.st).2) : WritesSt m s t :=
  finishWith_writesSt hn (by simp) (hop _ _)

theorem dualByte_writesSt {src dst : Operand} {op : Byte → Byte → Word → Byte × Word}
    (hn : dualByte src dst op s = .next t) (hop : ∀ x d, agreeOff m s.st (op x d s.st).2) : WritesSt m s t :=
  finishWith_writesSt hn (by simp [writeByteOp]) (hop _ _)

theorem compareWord_writesSt {src dst : Operand} {op : Word → Word → Word → Word}
    (hn : compareWord src dst op s = .next t) (hop : ∀ x d, agreeOff m s.st (op x d s.st)) : WritesSt m s t :=
  finishWith_writesSt hn (by simp) (hop _ _)

theorem compareByte_writesSt {src dst : Operand} {op : Byte → Byte → Word → Word}
    (hn : compareByte src dst op s = .next t) (hop : ∀ x d, agreeOff m s.st (op x d s.st)) : WritesSt m s t :=
  finishWith_writesSt hn (by simp) (hop _ _)

theorem singleWord_writesSt {o : Operand} {k : Nat} {op : Word → Word → Word × Word}
    (hn : singleWord o k op s = .next t) (hop : ∀ x, agreeOff m s.st (op x s.st).2) : WritesSt m s t :=
  finishWith_writesSt hn (by simp) (hop _)

theorem storeConst_writesSt {o : Operand} {v : Word} (hn : storeConst o v s = .next t) : WritesSt 0 s t :=
  finishWith_writesSt hn (by simp) (.refl 0 _)

theorem immediateWord_writesSt {w : RegNo} {op : Word → Word → Word → Word × Word}
    (hn : immediateWord w op s = .next t) (hop : ∀ x i, agreeOff m s.st (op x i s.st).2) : WritesSt m s t :=
  finishWith_writesSt hn (by simp) (hop _ _)

theorem compareReg_writesSt {src : Operand} {d : RegNo} {op : Word → Word → Word → Word}
    (hn : compareReg src d op s = .next t) (hop : ∀ x w, agreeOff m s.st (op x w s.st)) : WritesSt m s t :=
  finishWith_writesSt hn (by simp) (hop _ _)

theorem shiftReg_writesSt {c : ShiftCount} {w : RegNo} {op : Nat → Word → Word → Word × Word}
    (hn : shiftReg c w op s = .next t) (hop : ∀ n x, agreeOff m s.st (op n x s.st).2) : WritesSt m s t :=
  finishWith_writesSt hn (by simp) (hop _ _)

theorem jumpIf_writesSt {c : Word → Bool} {d : Byte} (hn : jumpIf c d s = .next t) : WritesSt 0 s t :=
  access_writesSt hn (by split <;> simp)

theorem externalControl_writesSt {op : ExternalOp} (hn : externalControl op s = .next t) : WritesSt 0 s t :=
  access_writesSt hn (by simp)

theorem setCruBit_writesSt {d : Byte} {v : Bool} (hn : setCruBit d v s = .next t) : WritesSt 0 s t :=
  access_writesSt hn (by simp)

/-! ## Meanings of no shape that write ST alone -/

theorem execAbs_writesSt {o : Operand} (hn : execAbs o s = .next t) : WritesSt 0xF800 s t :=
  finishWith_writesSt hn (by split <;> simp) (agreeOff_absFlags _ _ _ _)

theorem execDiv_writesSt {o : Operand} {d : RegNo} (hn : execDiv o d s = .next t) : WritesSt 0x0800 s t := by
  unfold execDiv at hn
  dsimp only at hn
  split at hn
  · exact finishWith_writesSt hn (by simp) (agreeOff_putOV _ _)
  · exact finishWith_writesSt hn (by simp) (agreeOff_putOV _ _)

theorem execLdcr_writesSt {o : Operand} {c : Nat} (hn : execLdcr o c s = .next t) :
    WritesSt (stWritten (.ldcr o c)) s t := by
  by_cases hc : c ≤ 8 <;> simp only [execLdcr, cruWidth, stWritten, hc, if_true, if_false] at hn ⊢
  · exact finishWith_writesSt hn (by simp) (agreeOff_cmpZero8_laeOp _ _)
  · exact finishWith_writesSt hn (by simp) (agreeOff_cmpZero16_lae _ _)

theorem execStcr_writesSt {o : Operand} {c : Nat} (hn : execStcr o c s = .next t) :
    WritesSt (stWritten (.stcr o c)) s t := by
  by_cases hc : c ≤ 8 <;> simp only [execStcr, cruWidth, stWritten, hc, if_true, if_false] at hn ⊢
  · exact finishWith_writesSt hn (by simp) (agreeOff_cmpZero8_laeOp _ _)
  · exact finishWith_writesSt hn (by simp) (agreeOff_cmpZero16_lae _ _)

theorem execRset_writesSt (hn : execRset s = .next t) : WritesSt 0x000F s t := by
  injection hn with e
  subst e
  exact ⟨agreeOff_putMask s.st 0, rfl⟩

/-! ## Every instruction -/

/-- What an instruction other than X writes beside its accesses: the bits of ST listed for it (R105), WP if it is one of R102, and
`idle` if it is IDLE (R125). -/
structure WritesOwn (i : Instr) (s t : State) : Prop where
  st : agreeOff (stWritten i) s.st t.st
  wp : writesWp i = false → t.wp = s.wp
  idle : t.idle = s.idle ∨ i = .idle
  rest : t.offAccess = { s.offAccess with wp := t.wp, st := t.st, idle := t.idle }

theorem WritesOwn.of_writesSt {i : Instr} (h : WritesSt (stWritten i) s t) : WritesOwn i s t := by
  obtain ⟨hst, hrest⟩ := h
  have hwp : t.wp = s.wp := by simpa using congrArg State.wp hrest
  have hidle : t.idle = s.idle := by simpa using congrArg State.idle hrest
  exact ⟨hst, fun _ => hwp, .inl hidle, by rw [hwp, hidle]; exact hrest⟩

/-- Accesses, a new WP and a new ST: the instructions of R102. -/
theorem writesOwn_of_wp {i : Instr} {st : Word} {k : Nat} (hn : finishWith u st k = .next t) (hi : writesWp i = true)
    (hu : u.offAccess = { s.offAccess with wp := u.wp }) (hst : agreeOff (stWritten i) s.st st) : WritesOwn i s t := by
  injection hn with e
  subst e
  have hidle : u.idle = s.idle := by simpa using congrArg State.idle hu
  refine ⟨hst, fun h => ?_, .inl hidle, ?_⟩
  · rw [hi] at h
    cases h
  · rw [offAccess_charge, offAccess_setSt, hu]
    simp [hidle]

theorem execLwpi_writesOwn (hn : execLwpi s = .next t) : WritesOwn .lwpi s t := by
  have hst := st_of_offAccess (offAccess_fetchWord s)
  refine writesOwn_of_wp (u := (fetchWord s).2.setWp (fetchWord s).1) (st := (fetchWord s).2.st) hn rfl ?_ ?_
  · simp
  · rw [hst]
    exact .refl 0 _

theorem execBlwp_writesOwn {o : Operand} (hn : execBlwp o s = .next t) : WritesOwn (.blwp o) s t := by
  have hst := st_of_offAccess (offAccess_ea o .word s)
  let u := switchThrough (ea o .word s).2 (ea o .word s).1
  refine writesOwn_of_wp (u := u) (st := u.st) hn rfl ?_ ?_
  · rw [offAccess_switchThrough, offAccess_ea]
  · rw [switchThrough_st, hst]
    exact .refl 0 _

theorem execXop_writesOwn {o : Operand} {n : BitVec 4} (hn : execXop o n s = .next t) : WritesOwn (.xop o n) s t := by
  have hst := st_of_offAccess (offAccess_ea o .word s)
  refine writesOwn_of_wp hn rfl ?_ ?_
  · simp [writeReg, offAccess_switchThrough]
  · simp only [writeReg, busWrite_st, switchThrough_st, dummyRead_eq, busRead_st, hst]
    exact agreeOff_putX s.st true

theorem execRtwp_writesOwn (hn : execRtwp s = .next t) : WritesOwn .rtwp s t := by
  let p := busRead s (s.wp + 30)
  let q := busRead p.2 (s.wp + 28)
  let r := busRead q.2 (s.wp + 26)
  refine writesOwn_of_wp (u := (r.2.setPc q.1).setWp r.1) (st := stValue p.1) hn rfl ?_ (agreeOff_all _ _)
  simp [p, q, r]

theorem execIdle_writesOwn (hn : execIdle s = .next t) : WritesOwn .idle s t := by
  injection hn with e
  subst e
  exact ⟨.refl _ _, fun _ => rfl, .inr rfl, rfl⟩

/-- The case analysis over the instructions: each writes ST as its shape does, or is one of R102, or IDLE. -/
theorem exec_writesOwn (i : Instr) (hx : isX i = false) (hn : exec i s = .next t) : WritesOwn i s t := by
  cases i with simp only [exec] at hn
  | x o => cases hx
  | lwpi => exact execLwpi_writesOwn hn
  | blwp o => exact execBlwp_writesOwn hn
  | xop o n => exact execXop_writesOwn hn
  | rtwp => exact execRtwp_writesOwn hn
  | idle => exact execIdle_writesOwn hn
  | a o p => exact .of_writesSt (dualWord_writesSt hn fun _ _ => agreeOff_addWord _ _ _)
  | s o p => exact .of_writesSt (dualWord_writesSt hn fun _ _ => agreeOff_subWord _ _ _)
  | szc o p | soc o p => exact .of_writesSt (dualWord_writesSt hn fun _ _ => agreeOff_logicWord _ _)
  | ab o p => exact .of_writesSt (dualByte_writesSt hn fun _ _ => agreeOff_addByte _ _ _)
  | sb o p => exact .of_writesSt (dualByte_writesSt hn fun _ _ => agreeOff_subByte _ _ _)
  | szcb o p | socb o p => exact .of_writesSt (dualByte_writesSt hn fun _ _ => agreeOff_logicByte _ _)
  | c o p => exact .of_writesSt (compareWord_writesSt hn fun _ _ => agreeOff_cmp16 _ _ _)
  | cb o p => exact .of_writesSt (compareByte_writesSt hn fun _ _ => agreeOff_cmp8_putOP _ _ _ _)
  | inc o | inct o => exact .of_writesSt (singleWord_writesSt hn fun _ => agreeOff_addWord _ _ _)
  | dec o | dect o | neg o => exact .of_writesSt (singleWord_writesSt hn fun _ => agreeOff_subWord _ _ _)
  | inv o => exact .of_writesSt (singleWord_writesSt hn fun _ => agreeOff_logicWord _ _)
  | swpb o => exact .of_writesSt (singleWord_writesSt hn fun _ => .refl 0 _)
  | clr o | seto o => exact .of_writesSt (storeConst_writesSt hn)
  | ai w => exact .of_writesSt (immediateWord_writesSt hn fun _ _ => agreeOff_addWord _ _ _)
  | andi w | ori w => exact .of_writesSt (immediateWord_writesSt hn fun _ _ => agreeOff_logicWord _ _)
  | coc o d | czc o d => exact .of_writesSt (compareReg_writesSt hn fun _ _ => agreeOff_putEQ _ _)
  | sra c w | srl c w | src c w => exact .of_writesSt (shiftReg_writesSt hn fun _ _ => agreeOff_shiftFlags _ _)
  | sla c w => exact .of_writesSt (shiftReg_writesSt hn fun _ _ => agreeOff_slaFlags _ _)
  | jmp d | jlt d | jle d | jeq d | jhe d | jgt d | jne d | jnc d | joc d | jno d | jl d | jh d | jop d =>
    exact .of_writesSt (jumpIf_writesSt hn)
  | ckon | ckof | lrex => exact .of_writesSt (externalControl_writesSt hn)
  | sbo d | sbz d => exact .of_writesSt (setCruBit_writesSt hn)
  | rset => exact .of_writesSt (execRset_writesSt hn)
  | abs o => exact .of_writesSt (execAbs_writesSt hn)
  | div o d => exact .of_writesSt (execDiv_writesSt hn)
  | ldcr o c => exact .of_writesSt (execLdcr_writesSt hn)
  | stcr o c => exact .of_writesSt (execStcr_writesSt hn)
  | ci w => exact .of_writesSt (finishWith_writesSt hn (by simp) (agreeOff_cmp16 _ _ _))
  | li w => exact .of_writesSt (finishWith_writesSt hn (by simp) (agreeOff_cmpZero16_lae _ _))
  | limi => exact .of_writesSt (finishWith_writesSt hn (by simp) (agreeOff_putMask _ _))
  | xor o d => exact .of_writesSt (finishWith_writesSt hn (by simp) (agreeOff_cmpZero16_lae _ _))
  | mov o p => exact .of_writesSt (finishWith_writesSt hn (by simp) (agreeOff_cmpZero16_lae _ _))
  | movb o p => exact .of_writesSt (finishWith_writesSt hn (by simp) (agreeOff_cmpZero8_laeOp _ _))
  | mpy o d => exact .of_writesSt (finishWith_writesSt hn (by simp) (.refl 0 _))
  | tb d => exact .of_writesSt (finishWith_writesSt hn (by simp) (agreeOff_putEQ _ _))
  | stwp w | stst w => exact .of_writesSt (access_writesSt hn (by simp))
  | b o | bl o => exact .of_writesSt (access_writesSt hn (by simp))

/-- Settles O56: what `offAccess` holds beside WP, ST and `idle` is as it was. -/
theorem writersOfState : Obligations.WritersOfState := by
  intro i s t hx hn
  obtain ⟨hst, hwp, hidle, hrest⟩ := exec_writesOwn i hx hn
  simp only [State.offAccess, State.offBus, State.mk.injEq, true_and] at hrest
  obtain ⟨hstop, hbreak, haux, hillegal, hexp, h0, h1, h2, h3, hrom, hgrom, htimer, hwiring, -⟩ := hrest
  exact ⟨hst, hwp, hrom, hbreak, haux, hstop, hillegal, hexp, h0, h1, h2, h3, htimer, hwiring, hgrom, hidle⟩

end Sys2Proof.Machine
end

section
/-! The bus by address: the region of every address range of R221, its wait cycles, and a bus access as the effect of its
region and one charge (R220, R221, R240, R241). -/

namespace Sys2Proof.Machine

/-! ## The region of an address range (R221) -/

/-- Both bytes of a word lie in one region: every bound of R221 is even. -/
theorem regionOf_even (s : State) (a : Word) : regionOf s (even a) = regionOf s a := by
  have hb : ∀ k, k % 2 = 0 → ((even a).toNat < k ↔ a.toNat < k) := fun k hk => by
    rw [even_toNat]
    omega
  unfold regionOf
  simp only [hb 0x2000 rfl, hb 0x4000 rfl, hb 0x6000 rfl, hb 0x8000 rfl, hb 0x8400 rfl, hb 0x8800 rfl, hb 0x8C00 rfl,
    hb 0x9000 rfl, hb 0x9400 rfl, hb 0x9800 rfl, hb 0x9C00 rfl, hb 0xA000 rfl]

theorem regionOf_expansionRange (s : State) {a : Word} (h : (0x2000 ≤ a.toNat ∧ a.toNat < 0x4000) ∨ 0xA000 ≤ a.toNat) :
    regionOf s a = expansionRegion s := by
  unfold regionOf
  rcases h with ⟨hl, hu⟩ | hl <;> simp (disch := omega) only [if_neg, if_pos]

theorem regionOf_dsrWindow (s : State) {a : Word} (hl : 0x4000 ≤ a.toNat) (hu : a.toNat < 0x6000) :
    regionOf s a = dsrRegion s := by
  unfold regionOf
  simp (disch := omega) only [if_neg, if_pos]

theorem regionOf_cartWindow (s : State) {a : Word} (hl : 0x6000 ≤ a.toNat) (hu : a.toNat < 0x8000) :
    regionOf s a = cartRegion s := by
  unfold regionOf
  simp (disch := omega) only [if_neg, if_pos]

theorem regionOf_scratchpad (s : State) {a : Word} (hl : 0x8000 ≤ a.toNat) (hu : a.toNat < 0x8400) :
    regionOf s a = .scratchpad := by
  unfold regionOf
  simp (disch := omega) only [if_neg, if_pos]

theorem regionOf_sound (s : State) {a : Word} (hl : 0x8400 ≤ a.toNat) (hu : a.toNat < 0x8800) :
    regionOf s a = .sound := by
  unfold regionOf
  simp (disch := omega) only [if_neg, if_pos]

theorem regionOf_vdpRead (s : State) {a : Word} (hl : 0x8800 ≤ a.toNat) (hu : a.toNat < 0x8C00) :
    regionOf s a = .vdpRead := by
  unfold regionOf
  simp (disch := omega) only [if_neg, if_pos]

theorem regionOf_vdpWrite (s : State) {a : Word} (hl : 0x8C00 ≤ a.toNat) (hu : a.toNat < 0x9000) :
    regionOf s a = .vdpWrite := by
  unfold regionOf
  simp (disch := omega) only [if_neg, if_pos]

theorem regionOf_speechRead (s : State) {a : Word} (hl : 0x9000 ≤ a.toNat) (hu : a.toNat < 0x9400) :
    regionOf s a = .speechRead := by
  unfold regionOf
  simp (disch := omega) only [if_neg, if_pos]

theorem regionOf_speechWrite (s : State) {a : Word} (hl : 0x9400 ≤ a.toNat) (hu : a.toNat < 0x9800) :
    regionOf s a = .speechWrite := by
  unfold regionOf
  simp (disch := omega) only [if_neg, if_pos]

theorem regionOf_gromRead (s : State) {a : Word} (hl : 0x9800 ≤ a.toNat) (hu : a.toNat < 0x9C00) :
    regionOf s a = .gromRead := by
  unfold regionOf
  simp (disch := omega) only [if_neg, if_pos]

theorem regionOf_gromWrite (s : State) {a : Word} (hl : 0x9C00 ≤ a.toNat) (hu : a.toNat < 0xA000) :
    regionOf s a = .gromWrite := by
  unfold regionOf
  simp (disch := omega) only [if_neg, if_pos]

/-! ## An access is its region's effect and one charge (R240) -/

theorem busRead_of_region {s : State} {a : Word} {r : Region} (h : regionOf s a = r) :
    busRead s a = ((readRegion s (even a) r).1, (readRegion s (even a) r).2.charge (waitOf r)) := by
  rw [← h, ← regionOf_even]
  rfl

theorem busWrite_of_region {s : State} {a : Word} {r : Region} (v : Word) (h : regionOf s a = r) :
    busWrite s a v = (writeRegion s (even a) v r).charge (waitOf r) := by
  rw [← h, ← regionOf_even]
  rfl

/-! ## Wait cycles (R241) -/

theorem waitOf_expansionRegion (s : State) :
    waitOf (expansionRegion s) = if s.expRamPresent then Config.waitRam else Config.waitUnmapped := by
  unfold expansionRegion
  split <;> rfl

theorem waitOf_dsrRegion (s : State) : waitOf (dsrRegion s) = Config.waitDsr := by
  unfold dsrRegion
  split
  · rfl
  · split <;> rfl

/-- A card or the cartridge in the cartridge window charges WAIT_CART, nobody there WAIT_UNMAPPED (log 20). -/
theorem waitOf_cartRegion (s : State) :
    waitOf (cartRegion s) =
      if s.cart.isSome || s.cards.any Card.servesCart then Config.waitCart else Config.waitUnmapped := by
  have hany : s.cards.any Card.servesCart = (s.cards.findIdx? Card.servesCart).isSome := List.findIdx?_isSome.symm
  unfold cartRegion
  rw [hany]
  cases s.cards.findIdx? Card.servesCart with
  | some i => simp [waitOf]
  | none => cases s.cart <;> rfl

/-- The wait cycles of an address's region are those of its address range. -/
theorem waitOf_regionOf (s : State) (a : Word) : waitOf (regionOf s a) = waitAt s a := by
  unfold waitAt
  rcases Nat.lt_or_ge a.toNat 0x2000 with h0 | h0
  · rw [regionOf_low s h0, if_pos h0]
    cases s.overlay0 <;> rfl
  rcases Nat.lt_or_ge a.toNat 0x4000 with h1 | h1
  · rw [regionOf_expansionRange s (.inl ⟨h0, h1⟩), waitOf_expansionRegion]
    simp (disch := omega) only [if_neg, if_pos]
  rcases Nat.lt_or_ge a.toNat 0x6000 with h2 | h2
  · rw [regionOf_dsrWindow s h1 h2, waitOf_dsrRegion]
    simp (disch := omega) only [if_neg, if_pos]
  rcases Nat.lt_or_ge a.toNat 0x8000 with h3 | h3
  · rw [regionOf_cartWindow s h2 h3, waitOf_cartRegion]
    simp (disch := omega) only [if_neg, if_pos]
  rcases Nat.lt_or_ge a.toNat 0xA000 with h4 | h4
  · unfold regionOf
    simp (disch := omega) only [if_neg, if_pos h4]
    repeat' split
    all_goals first | rfl | omega
  · rw [regionOf_expansionRange s (.inr h4), waitOf_expansionRegion]
    simp (disch := omega) only [if_neg, if_pos]

/-- Every port's wait exceeds WAIT_RAM (R241). -/
theorem waitRam_lt_of_isPort {r : Region} (h : r.isPort = true) : Config.waitRam < waitOf r := by
  cases r <;> try cases h
  all_goals
    simp only [waitOf, Config.waitSound, Config.waitVdp, Config.waitSpeech, Config.waitGrom]
    omega

/-! ## What an access does to the cycles -/

theorem readRegion_consumed (s : State) (e : Word) (r : Region) : (readRegion s e r).2.consumed = s.consumed := by
  cases r with
  | gromRead =>
    unfold readRegion
    dsimp only
    split <;> rfl
  | _ => rfl

theorem storeByte_consumed (s : State) (a : Word) (b : Byte) : (storeByte s a b).consumed = s.consumed := by
  unfold storeByte
  split
  · rename_i st o _
    split
    · cases st <;> rfl
    · rfl
  · rfl

theorem writeBacked_consumed (s : State) (e v : Word) : (writeBacked s e v).consumed = s.consumed := by
  have hw : (storeWord s e v).consumed = s.consumed := by
    unfold storeWord
    rw [storeByte_consumed, storeByte_consumed]
  have hp : ∀ i, (emitPersist (storeWord s e v) i).consumed = s.consumed := fun i => by
    unfold emitPersist
    split <;> exact hw
  unfold writeBacked
  split
  · rfl
  · split
    · split
      · exact hp _
      · exact hw
    · rfl
  · rfl

theorem writeRegion_consumed (s : State) (e v : Word) (r : Region) : (writeRegion s e v r).consumed = s.consumed := by
  have hg : ∀ sel b, (s.gromStore sel b).consumed = s.consumed := fun sel b => by
    unfold State.gromStore
    split <;> rfl
  cases r with
  | gromWrite =>
    unfold writeRegion
    dsimp only
    split
    · rfl
    · exact hg _ _
  | sound | vdpRead | vdpWrite | speechRead | speechWrite | gromRead => rfl
  | _ => exact writeBacked_consumed s e v

/-- A bus read charges the wait cycles of its address and nothing else (R240). -/
theorem busRead_consumed (s : State) (a : Word) : (busRead s a).2.consumed = s.consumed + waitAt s a := by
  rw [busRead_of_region rfl, waitOf_regionOf]
  exact congrArg (· + waitAt s a) (readRegion_consumed s (even a) _)

/-- A bus write charges the wait cycles of its address and nothing else (R240). -/
theorem busWrite_consumed (s : State) (a v : Word) : (busWrite s a v).consumed = s.consumed + waitAt s a := by
  rw [busWrite_of_region v rfl, waitOf_regionOf]
  exact congrArg (· + waitAt s a) (writeRegion_consumed s (even a) v _)

/-! ## The frames -/

/-- Settles O19: bytes, core registers, cycles, memory map and devices by the bus's own laws. -/
theorem busWriteFrame : Obligations.BusWriteFrame := fun s a v =>
  ⟨busWrite_kept s a v, busWrite_offBus s a v, busWrite_consumed s a v, busWrite_map s a v, fun h => busWrite_offRam h v⟩

/-- Settles O20: as for the write; what is read is the inspection path's word by definition, and a port's wait by its region. -/
theorem busReadFrame : Obligations.BusReadFrame := by
  intro s a
  refine ⟨busRead_kept s a, busRead_offBus s a, busRead_map s a, busRead_value s a, rfl, busRead_consumed s a, fun hp => ?_,
    fun hq => ?_⟩
  · rw [← waitOf_regionOf, ← regionOf_even]
    exact waitRam_lt_of_isPort ((regionOf_isPort s a).trans hp)
  · rw [busRead_quiet hq, regionOf_even, waitOf_regionOf]
    rfl

end Sys2Proof.Machine
end

section
/-! Read after write in every RAM, and the scratchpad's mirrors (R224, R256). -/

namespace Sys2Proof.Machine

/-! ## Words that a RAM backs -/

/-- Where a RAM backs the even byte of a word, a write stores the word: what else it does, a persist event and the charge, touches
no byte. -/
theorem cellAt_busWrite_ram {s : State} {a : Word} (v : Word) {c : CellRef} (hp : isPort a = false)
    (hc : locate s (even a) = some c) (hr : c.1.isRam = true) (x : CellRef) :
    cellAt (busWrite s a v) x = cellAt (storeWord s (even a) v) x := by
  obtain ⟨st, o⟩ := c
  have hb : cellAt (writeBacked s (even a) v) x = cellAt (storeWord s (even a) v) x := by
    unfold writeBacked
    rw [hc]
    cases st with
    | rom | cartRom | dsrRom i => cases hr
    | horizonDsr i | horizonPaged i => exact cellAt_emitPersist _ i x
    | _ => rfl
  rw [← hb]
  have hreg := (regionOf_isPort s a).trans hp
  show cellAt (writeRegion s (even a) v (regionOf s (even a))) x = _
  generalize regionOf s (even a) = r at hreg ⊢
  cases r <;> first | rfl | cases hreg

/-- A word written where RAM backs both its bytes, in different cells, is the word shown there (R256). -/
theorem fastRead_busWrite_ram {s : State} {a v : Word} {c d : CellRef} (hp : isPort a = false)
    (hc : locate s (even a) = some c) (hd : locate s (even a + 1) = some d) (hrc : c.1.isRam = true) (hrd : d.1.isRam = true)
    (hcd : c ≠ d) : fastRead (busWrite s a v) a = v := by
  have hm : SameMap s (busWrite s a v) := busWrite_map s a v fun o ho => by
    rw [hc] at ho
    cases ho
    cases hrc
  have hcells := cellAt_storeWord s a v c d hc hd hcd hrc hrd
  have hhi : backedByte (busWrite s a v) (even a) = hiByte v := by
    unfold backedByte
    rw [(hm _).2, hc]
    exact (cellAt_busWrite_ram v hp hc hrc c).trans hcells.1
  have hlo : backedByte (busWrite s a v) (even a + 1) = loByte v := by
    unfold backedByte
    rw [(hm _).2, hd]
    exact (cellAt_busWrite_ram v hp hc hrc d).trans hcells.2
  rw [fastRead_backed ((regionOf_isPort _ a).trans hp)]
  unfold backedWord
  rw [hhi, hlo, wordOf_hi_lo]

/-! ## The scratchpad (R224) -/

/-- An address of the scratchpad range reaches the byte of its low eight bits. -/
theorem locate_scratchpad (s : State) {a : Word} (hl : 0x8000 ≤ a.toNat) (hu : a.toNat < 0x8400) :
    locate s a = some (.scratchpad, a.toNat % 256) := by
  have ho : (even a).toNat % 0x100 + (a.getLsbD 0).toNat = a.toNat % 256 := by
    rw [even_toNat, lsb_eq]
    rcases Nat.mod_two_eq_zero_or_one a.toNat with h | h <;> simp [h] <;> omega
  unfold locate
  rw [regionOf_even, regionOf_scratchpad s hl hu]
  simp only [locateIn, ho]

theorem plainRam_scratchpad (s : State) {a : Word} (hl : 0x8000 ≤ a.toNat) (hu : a.toNat < 0x8400) : plainRam s a = true := by
  unfold plainRam
  rw [regionOf_even, regionOf_scratchpad s hl hu]

/-- Mirrors of a scratchpad word show the same word. -/
theorem fastRead_scratchpad_mirror (s : State) {a b : Word} (hal : 0x8000 ≤ a.toNat) (hau : a.toNat < 0x8400)
    (hbl : 0x8000 ≤ b.toNat) (hbu : b.toNat < 0x8400) (hab : a.toNat % 256 = b.toNat % 256) :
    fastRead s b = fastRead s a := by
  have hae := even_toNat a
  have hbe := even_toNat b
  have hao := even_add_one_toNat a
  have hbo := even_add_one_toNat b
  have heven : (even b).toNat % 256 = (even a).toNat % 256 := by omega
  have hodd : (even b + 1).toNat % 256 = (even a + 1).toNat % 256 := by omega
  rw [fastRead_backed (plainRam_not_port (plainRam_scratchpad s hal hau)),
    fastRead_backed (plainRam_not_port (plainRam_scratchpad s hbl hbu))]
  unfold backedWord backedByte
  rw [locate_scratchpad s (a := even b) (by omega) (by omega), locate_scratchpad s (a := even a) (by omega) (by omega),
    locate_scratchpad s (a := even b + 1) (by omega) (by omega), locate_scratchpad s (a := even a + 1) (by omega) (by omega),
    heven, hodd]

/-- Settles O18: RAM-backed words by the cells stored to, mirrors by the cell they share. -/
theorem readAfterWrite : Obligations.ReadAfterWrite := by
  refine ⟨fun s a v c d hp hc hd hrc hrd hcd => ?_, fun s a b v hal hau hbl hbu hab => ?_⟩
  · have h := fastRead_busWrite_ram (v := v) hp hc hd hrc hrd hcd
    exact ⟨h, h⟩
  · refine ⟨locate_scratchpad s hal hau, ?_⟩
    rw [fastRead_scratchpad_mirror _ hal hau hbl hbu hab]
    exact fastRead_busWrite_same (plainRam_scratchpad s hal hau)

end Sys2Proof.Machine
end

section
/-! Accesses that nothing answers (R222, R223, R225, R227, R228): console ROM discards writes, and an address that no store backs
reads 0 as well. -/

namespace Sys2Proof.Machine

/-- Writes to console ROM charge WAIT_ROM and do nothing else (R222). -/
theorem busWrite_consoleRom {s : State} {a : Word} (v : Word) (h : regionOf s a = .rom) :
    busWrite s a v = s.charge Config.waitRom := by
  have hl : locate s (even a) = some (.rom, (even a).toNat + 0) := by
    rw [(locate_eq_locateIn s a).1, regionOf_even, h]
    rfl
  rw [busWrite_of_region v h]
  show (writeBacked s (even a) v).charge _ = _
  unfold writeBacked
  rw [hl]
  rfl

/-- The regions that no store backs and no port takes (R228). -/
def Region.isUnmapped : Region → Bool
  | .unmapped | .dsrNone | .cartNone => true
  | _ => false

/-- No store backs an address of an unmapped region. -/
theorem locateIn_unmapped (s : State) (e : Word) (k : Nat) {r : Region} (h : r.isUnmapped = true) : locateIn s e k r = none := by
  cases r <;> first | rfl | cases h

/-- At an unmapped address a read gives 0, a write is discarded, and each charges the region's wait cycles alone (R228). -/
theorem unmapped_access {s : State} {a : Word} {r : Region} (v : Word) (hr : regionOf s a = r) (hu : r.isUnmapped = true) :
    busRead s a = (0, s.charge (waitOf r)) ∧ fastRead s a = 0 ∧ busWrite s a v = s.charge (waitOf r) := by
  have hregion : regionOf s (even a) = r := (regionOf_even s a).trans hr
  have hl0 : locate s (even a) = none := by
    rw [(locate_eq_locateIn s a).1, hregion, locateIn_unmapped _ _ _ hu]
  have hl1 : locate s (even a + 1) = none := by
    rw [(locate_eq_locateIn s a).2, hregion, locateIn_unmapped _ _ _ hu]
  have hread : readRegion s (even a) r = (0, s) := by
    have hzero : backedWord s (even a) = 0 := by
      unfold backedWord backedByte
      rw [hl0, hl1]
      show wordOf 0 0 = 0
      decide
    rw [← hzero]
    cases r <;> first | rfl | cases hu
  have hwrite : writeRegion s (even a) v r = s := by
    have hnone : writeBacked s (even a) v = s := by
      unfold writeBacked
      rw [hl0]
    cases r <;> first | exact hnone | cases hu
  refine ⟨?_, ?_, ?_⟩
  · rw [busRead_of_region hr, hread]
  · rw [fastRead, hregion, hread]
  · rw [busWrite_of_region v hr, hwrite]

/-! ## The windows with nobody in them -/

/-- A card takes no DSR-window access when it is disabled or has neither capability (R225). -/
theorem Card.servesDsr_eq_false {c : Card} (h : c.enabled = false ∨ (c.dsr = none ∧ c.horizon = none)) :
    c.servesDsr = false := by
  unfold Card.servesDsr
  rcases h with h | ⟨hd, hh⟩
  · rw [h, Bool.false_and]
  · rw [hd, hh]
    exact Bool.and_false _

/-- A card takes no cartridge-window access when it is disabled or its RAMBO flag is not set (R815, log 12). -/
theorem Card.servesCart_eq_false {c : Card} (h : c.enabled = false ∨ ∀ z, c.horizon = some z → z.rambo = false) :
    c.servesCart = false := by
  unfold Card.servesCart
  rcases h with h | h
  · rw [h, Bool.false_and]
  · cases hz : c.horizon with
    | none => exact Bool.and_false _
    | some z => simp [Horizon.cartCondition, h z hz]

theorem dsrRegion_none {s : State} (ho : s.overlay1 = false) (hc : ∀ c ∈ s.cards, c.servesDsr = false) :
    dsrRegion s = .dsrNone := by
  unfold dsrRegion
  rw [ho, List.findIdx?_eq_none_iff.mpr hc]
  rfl

theorem cartRegion_none {s : State} (ho : s.cart = none) (hc : ∀ c ∈ s.cards, c.servesCart = false) :
    cartRegion s = .cartNone := by
  unfold cartRegion
  rw [ho, List.findIdx?_eq_none_iff.mpr hc]
  rfl

/-- Settles O21: console ROM, and the three address ranges whose region is unmapped under the clause's hypotheses. -/
theorem discardedWrites : Obligations.DiscardedWrites := by
  intro s a v
  refine ⟨fun ha ho => ?_, fun ha hx => ?_, fun hl hu ho hc => ?_, fun hl hu ho hc => ?_⟩
  · exact busWrite_consoleRom v (by rw [regionOf_low s ha, ho]; rfl)
  · have hr : regionOf s a = .unmapped := by rw [regionOf_expansionRange s ha, expansionRegion, hx]; rfl
    exact unmapped_access v hr rfl
  · have hr : regionOf s a = .dsrNone :=
      (regionOf_dsrWindow s hl hu).trans (dsrRegion_none ho fun c h => Card.servesDsr_eq_false (hc c h))
    exact unmapped_access v hr rfl
  · have hr : regionOf s a = .cartNone :=
      (regionOf_cartWindow s hl hu).trans (cartRegion_none ho fun c h => Card.servesCart_eq_false (hc c h))
    exact unmapped_access v hr rfl

end Sys2Proof.Machine
end

section
/-! The sound and speech ports (R236, R237). -/

namespace Sys2Proof.Machine

/-- Settles O26: each port's region, and what an access to that region does. -/
theorem soundSpeechPorts : Obligations.SoundSpeechPorts := by
  intro s a v
  refine ⟨fun hl hu => ?_, fun hl hu => ?_, fun hl hu => ?_⟩
  · have hr := regionOf_sound s hl hu
    exact ⟨busWrite_of_region v hr, busRead_of_region hr⟩
  · have hr := regionOf_speechRead s hl hu
    exact ⟨busRead_of_region hr, busWrite_of_region v hr⟩
  · have hr := regionOf_speechWrite s hl hu
    exact ⟨busWrite_of_region v hr, busRead_of_region hr⟩

end Sys2Proof.Machine
end

section
/-! The enable flag of a card and who serves the DSR window (R225, R652, R802). -/

namespace Sys2Proof.Machine

/-- An entry whose range does not contain the bit gets nothing: a CRU write reaches the entries that cover its address alone
(R652). -/
theorem foldl_cruDeliver_covers (a : CruAddr) (v : Bool) (l : List CruEntry) (s : State) :
    l.foldl (cruDeliver a v) s = (l.filter fun e => e.covers a).foldl (cruDeliver a v) s := by
  have hskip : cruDeliver a v = fun s e => if e.covers a then cruDeliver a v s e else s := by
    funext s e
    split
    · rfl
    · rename_i hc
      rw [cruDeliver, if_neg hc]
  rw [List.foldl_filter, ← hskip]

/-- A CRU bit that one entry alone covers, a card's bit 0: the card's enable flag is set to the value written (R802). -/
theorem cruWrite_cards_enable {s : State} {e : CruEntry} {id : Nat} {a : CruAddr} (v : Bool)
    (he : s.cru.filter (fun x => x.covers a) = [e]) (hd : e.dev = .card id) (hb : e.base = a.toNat) :
    (cruWrite s a v).cards = s.cards.map fun c => if c.id = id then { c with enabled := v } else c := by
  have hc : e.covers a = true := by
    have hm : e ∈ s.cru.filter fun x => x.covers a := by rw [he]; exact List.mem_singleton_self e
    exact (List.mem_filter.mp hm).2
  have hdeliver : (cruDeliver a v s e).cards = s.cards.map fun c => if c.id = id then c.writeBit 0 v else c := by
    rw [cruDeliver, if_pos hc, hd, hb, Nat.sub_self]
  show (s.cru.foldl (cruDeliver a v) s).cards = _
  rw [foldl_cruDeliver_covers, he]
  exact hdeliver

/-- The DSR window with no overlay RAM goes to the first card that serves it (R225). -/
theorem dsrRegion_cards {s : State} (ho : s.overlay1 = false) :
    dsrRegion s = ((s.cards.findIdx? Card.servesDsr).map Region.dsrCard).getD .dsrNone := by
  unfold dsrRegion
  rw [ho]
  cases s.cards.findIdx? Card.servesDsr <;> rfl

/-- Settles O28: the enable flags by `cruWrite_cards_enable`, the window by the region table. -/
theorem cardEnable : Obligations.CardEnable := by
  intro s e id a v he hd hb
  refine ⟨cruWrite_cards_enable v he hd hb, fun b i hl hu ho => ?_⟩
  rw [regionOf_dsrWindow _ hl hu, dsrRegion_cards ho]
  exact ⟨fun h => congrArg (fun o => (o.map Region.dsrCard).getD .dsrNone) h,
    fun h => congrArg (fun o => (o.map Region.dsrCard).getD .dsrNone) h⟩

end Sys2Proof.Machine
end

section
/-! Bit fields of addresses and port bytes, as numbers. -/

namespace Sys2Proof.Machine

/-! ## The address bits that select a port (R231 to R234, R784) -/

/-- Address bit 1 of a word: data or address port. -/
theorem even_bit1 (a : Word) : (even a).getLsbD 1 = decide (a.toNat / 2 % 2 = 1) := by
  rw [BitVec.getLsbD, Nat.testBit_eq_decide_div_mod_eq, even_toNat]
  simp

/-- Address bits 2:1 of a word: which video write port. -/
theorem even_bits21 (a : Word) : ((even a).extractLsb' 1 2 : BitVec 2).toNat = a.toNat / 2 % 4 := by
  rw [BitVec.extractLsb'_toNat, even_toNat, Nat.shiftRight_eq_div_pow]
  omega

/-- Address bits 5:2 of a word: which GROM chip. -/
theorem gromSelect_even (a : Word) : gromSelect (even a) = a.toNat / 4 % 16 := by
  unfold gromSelect
  rw [BitVec.extractLsb'_toNat, even_toNat, Nat.shiftRight_eq_div_pow]
  omega

/-! ## The address port's byte (R864) -/

theorem byte_bit7 (b : Byte) : b.getLsbD 7 = decide (128 ≤ b.toNat) := by
  have := b.isLt
  rw [BitVec.getLsbD, Nat.testBit_eq_decide_div_mod_eq, decide_eq_decide]
  omega

theorem byte_bit6 (b : Byte) (h : b.toNat < 128) : b.getLsbD 6 = decide (64 ≤ b.toNat) := by
  rw [BitVec.getLsbD, Nat.testBit_eq_decide_div_mod_eq, decide_eq_decide]
  omega

/-- The six high bits and the eight low bits of a VRAM address. -/
theorem vramAddr_append (h : BitVec 6) (l : Byte) : (h ++ l : VramAddr) = BitVec.ofNat 14 (h.toNat * 256 + l.toNat) := by
  have := h.isLt
  have := l.isLt
  apply BitVec.eq_of_toNat_eq
  rw [BitVec.toNat_append, BitVec.toNat_ofNat, ← Nat.shiftLeft_add_eq_or_of_lt l.isLt, Nat.shiftLeft_eq]
  omega

/-- The first byte of an address replaces the low half of the one in force. -/
theorem vramAddr_low (v : VramAddr) (b : Byte) :
    (v.extractLsb' 8 6 ++ b : VramAddr) = BitVec.ofNat 14 (v.toNat / 256 * 256 + b.toNat) := by
  have := v.isLt
  have hm : v.toNat / 2 ^ 8 % 2 ^ 6 = v.toNat / 256 := by omega
  rw [vramAddr_append, BitVec.extractLsb'_toNat, Nat.shiftRight_eq_div_pow, hm]

/-- The second byte gives the six high bits over the first one. -/
theorem vramAddr_setup (b l : Byte) :
    (b.extractLsb' 0 6 ++ l : VramAddr) = BitVec.ofNat 14 (b.toNat % 64 * 256 + l.toNat) := by
  rw [vramAddr_append, BitVec.extractLsb'_toNat]
  rfl

end Sys2Proof.Machine
end

section
/-! The video ports (R231, R232, R861 to R866): what a byte at the address port does, by the phase and by the byte's two high
bits, and which port an address selects. -/

namespace Sys2Proof.Machine

/-! ## The address port (R864) -/

theorem Vdp.addressWrite_first {d : Vdp} (b : Byte) (hl : d.vLatch = false) :
    d.addressWrite b =
      { d with vLatchByte := b, vLatch := true, vAddr := BitVec.ofNat 14 (d.vAddr.toNat / 256 * 256 + b.toNat) } := by
  unfold Vdp.addressWrite
  rw [hl, vramAddr_low]
  rfl

theorem Vdp.addressWrite_register {d : Vdp} {b : Byte} (hl : d.vLatch = true) (hb : 128 ≤ b.toNat) :
    d.addressWrite b =
      { d with vLatch := false, vr := d.vr.set (b.toNat % 8) d.vLatchByte (Nat.mod_lt _ (by decide)) } := by
  have hn : ((b.extractLsb' 0 3 : BitVec 3).toFin : Nat) = b.toNat % 8 := BitVec.extractLsb'_toNat 0 3 b
  unfold Vdp.addressWrite
  rw [if_pos hl, byte_bit7, decide_eq_true hb, if_pos rfl]
  simp only [Vdp.registerWrite, hn]

/-- A set-up for writing loads the address alone. -/
theorem Vdp.addressWrite_forWriting {d : Vdp} {b : Byte} (hl : d.vLatch = true) (hb : 64 ≤ b.toNat) (hu : b.toNat < 128) :
    d.addressWrite b =
      { d with vLatch := false, vAddr := BitVec.ofNat 14 (b.toNat % 64 * 256 + d.vLatchByte.toNat) } := by
  unfold Vdp.addressWrite
  rw [if_pos hl, byte_bit7, decide_eq_false (Nat.not_le.mpr hu), byte_bit6 b hu, decide_eq_true hb, vramAddr_setup]
  rfl

/-- A set-up for reading prefetches. -/
theorem Vdp.addressWrite_forReading {d : Vdp} {b : Byte} (hl : d.vLatch = true) (hu : b.toNat < 64) :
    d.addressWrite b =
      { d with
        vLatch := false
        vBuffer := d.vram.read (BitVec.ofNat 14 (b.toNat % 64 * 256 + d.vLatchByte.toNat)).toNat
        vAddr := BitVec.ofNat 14 (b.toNat % 64 * 256 + d.vLatchByte.toNat) + 1 } := by
  have h7 : ¬ 128 ≤ b.toNat := by omega
  unfold Vdp.addressWrite
  rw [if_pos hl, byte_bit7, decide_eq_false h7, byte_bit6 b (by omega), decide_eq_false (Nat.not_le.mpr hu), vramAddr_setup]
  rfl

/-! ## The ports on the bus -/

theorem busRead_vdpRead {s : State} {a : Word} (hr : regionOf s a = .vdpRead) :
    busRead s a = (portWord (vdpPortRead s.vdp (even a)).1,
      { s with vdp := (vdpPortRead s.vdp (even a)).2, consumed := s.consumed + Config.waitVdp }) := busRead_of_region hr

theorem busWrite_vdpWrite {s : State} {a : Word} (v : Word) (hr : regionOf s a = .vdpWrite) :
    busWrite s a v =
      { s with vdp := vdpPortWrite s.vdp (even a) (hiByte v), consumed := s.consumed + Config.waitVdp } := busWrite_of_region v hr

theorem vdpPortRead_data (d : Vdp) {a : Word} (h : a.toNat / 2 % 2 = 0) : vdpPortRead d (even a) = d.dataRead := by
  unfold vdpPortRead
  rw [even_bit1, h]
  rfl

theorem vdpPortRead_status (d : Vdp) {a : Word} (h : a.toNat / 2 % 2 = 1) : vdpPortRead d (even a) = d.statusRead := by
  unfold vdpPortRead
  rw [even_bit1, h]
  rfl

theorem vdpPortWrite_data (d : Vdp) {a : Word} (b : Byte) (h : a.toNat / 2 % 4 = 0) :
    vdpPortWrite d (even a) b = d.dataWrite b := by
  unfold vdpPortWrite
  rw [even_bits21, h]
  rfl

theorem vdpPortWrite_address (d : Vdp) {a : Word} (b : Byte) (h : a.toNat / 2 % 4 = 1) :
    vdpPortWrite d (even a) b = d.addressWrite b := by
  unfold vdpPortWrite
  rw [even_bits21, h]
  rfl

/-- The palette and the indirect-register port discard the byte (R866). -/
theorem vdpPortWrite_discarded (d : Vdp) {a : Word} (b : Byte) (h : 2 ≤ a.toNat / 2 % 4) : vdpPortWrite d (even a) b = d := by
  unfold vdpPortWrite
  rw [even_bits21]
  split <;> first | omega | rfl

/-- Settles O23: the port that the address selects, then what the chip does with the access. -/
theorem vdpPorts : Obligations.VdpPorts := by
  intro s a v
  refine ⟨fun hl hu => ?_, fun hl hu => ?_⟩
  · have hr := regionOf_vdpRead s hl hu
    refine ⟨fun hp => ?_, fun hp => ?_, busWrite_of_region v hr⟩
    · rw [busRead_vdpRead hr, vdpPortRead_data _ hp]
      rfl
    · rw [busRead_vdpRead hr, vdpPortRead_status _ hp]
      rfl
  · have hr := regionOf_vdpWrite s hl hu
    refine ⟨fun hp => ?_, fun hp hf => ?_, fun hp hf hb => ?_, fun hp hf hb hb' => ?_, fun hp hf hb => ?_, fun hp => ?_,
      busRead_of_region hr⟩ <;> rw [busWrite_vdpWrite v hr]
    · rw [vdpPortWrite_data _ _ hp]
      rfl
    · rw [vdpPortWrite_address _ _ hp, Vdp.addressWrite_first _ hf]
    · rw [vdpPortWrite_address _ _ hp, Vdp.addressWrite_register hf hb]
    · rw [vdpPortWrite_address _ _ hp, Vdp.addressWrite_forWriting hf hb hb']
    · rw [vdpPortWrite_address _ _ hp, Vdp.addressWrite_forReading hf hb]
    · rw [vdpPortWrite_discarded _ _ hp]

end Sys2Proof.Machine
end

section
/-! The GROM ports (R233 to R235, R781 to R785): each operation on a set's latches written out, and what both sets do together. -/

namespace Sys2Proof.Machine

/-! ## One set -/

/-- The high three bits of one word over the low thirteen of another. -/
theorem chip_append (g h : Word) :
    (g &&& 0xE000) ||| (h &&& 0x1FFF) = (g.extractLsb' 13 3 : BitVec 3) ++ (h.extractLsb' 0 13 : BitVec 13) := by
  have hhigh : ∀ k : Fin 16, (0xE000 : Word)[k.val] = decide (13 ≤ k.val) := by decide
  have hlow : ∀ k : Fin 16, (0x1FFF : Word)[k.val] = decide (k.val < 13) := by decide
  ext i hi
  rw [BitVec.getElem_or, BitVec.getElem_and, BitVec.getElem_and, hhigh ⟨i, hi⟩, hlow ⟨i, hi⟩, BitVec.getElem_append]
  rcases Nat.lt_or_ge i 13 with h13 | h13
  · simp [h13, Nat.not_le.mpr h13, BitVec.getLsbD_eq_getElem hi]
  · simp [h13, Nat.not_lt.mpr h13, Nat.add_sub_cancel' h13, BitVec.getLsbD_eq_getElem hi]

/-- R781: the step of a GROM address stays within its 8 KiB chip. -/
theorem gromInc_eq (g : Word) : gromInc g = BitVec.ofNat 16 (g.toNat / 0x2000 * 0x2000 + (g.toNat + 1) % 0x2000) := by
  have hg := g.isLt
  have hlo : ((g + 1).extractLsb' 0 13 : BitVec 13).toNat = (g.toNat + 1) % 0x2000 := by
    rw [BitVec.extractLsb'_toNat, BitVec.toNat_add]
    simp
  have hhi : (g.extractLsb' 13 3 : BitVec 3).toNat = g.toNat / 0x2000 := by
    rw [BitVec.extractLsb'_toNat, Nat.shiftRight_eq_div_pow]
    omega
  apply BitVec.eq_of_toNat_eq
  rw [gromInc, chip_append, BitVec.toNat_append, ← Nat.shiftLeft_add_eq_or_of_lt (BitVec.isLt _), hlo, hhi, Nat.shiftLeft_eq,
    BitVec.toNat_ofNat]
  omega

/-- A data access prefetches and clears the phase (R782). -/
theorem GromLatch.dataAccess_eq (l : GromLatch) (mem : Word → Byte) :
    l.dataAccess mem =
      ⟨BitVec.ofNat 16 (l.addr.toNat / 0x2000 * 0x2000 + (l.addr.toNat + 1) % 0x2000), mem l.addr, false⟩ := by
  rw [← gromInc_eq]
  rfl

/-- An address write loads the half that the phase names, and the second one prefetches (R782). -/
theorem GromLatch.addressWrite_eq (l : GromLatch) (mem : Word → Byte) (b : Byte) :
    l.addressWrite mem b =
      if l.phase then
        ⟨BitVec.ofNat 16 ((wordOf (hiByte l.addr) b).toNat / 0x2000 * 0x2000 + ((wordOf (hiByte l.addr) b).toNat + 1) % 0x2000),
          mem (wordOf (hiByte l.addr) b), false⟩
      else ⟨wordOf b (loByte l.addr), l.buf, true⟩ := by
  rw [← gromInc_eq]
  rfl

/-! ## The cartridge's chips (R784) -/

/-- With one chip the select bits are ignored; with none there is nothing at either index. -/
theorem Cartridge.groms_gromIndex (c : Cartridge) (sel : Nat) :
    c.groms[c.gromIndex sel]? = c.groms[if c.groms.length = 1 then 0 else sel]? := by
  unfold Cartridge.gromIndex
  cases h : c.groms with
  | nil => rfl
  | cons m rest => cases rest <;> simp

theorem Cartridge.gromIndex_of_ne_nil {c : Cartridge} (sel : Nat) (h : c.groms ≠ []) :
    c.gromIndex sel = if c.groms.length = 1 then 0 else sel := by
  have hpos := List.length_pos_iff.mpr h
  unfold Cartridge.gromIndex
  split <;> split <;> first | rfl | omega

/-- The cartridge set's memory through the chip that `sel` selects, 0 below 0x6000 and where no chip is (R780, R784). -/
theorem Cartridge.gromByte_eq (c : Cartridge) (sel : Nat) (g : Word) :
    c.gromByte sel g =
      if g.toNat < 0x6000 then 0
      else ((c.groms[if c.groms.length = 1 then 0 else sel]?).map fun m => m.read (g.toNat - 0x6000)).getD 0 := by
  rw [← c.groms_gromIndex]
  unfold Cartridge.gromByte
  cases c.groms[c.gromIndex sel]? <;> rfl

theorem Cartridge.hasGrom_of_nil {c : Cartridge} (h : c.groms = []) : c.hasGrom = false := by
  rw [Cartridge.hasGrom, h]
  rfl

theorem Cartridge.hasGrom_of_ne_nil {c : Cartridge} (h : c.groms ≠ []) : c.hasGrom = true := by
  rw [Cartridge.hasGrom, List.isEmpty_eq_false_iff.mpr h]
  rfl

/-! ## Both sets (R783) -/

/-- One operation on both sets: `f` on the console's latches, and on the cartridge's with a chip, its memory read as `cm`. -/
theorem gromBoth_eq (s : State) (sel : Nat) {f g : GromLatch → (Word → Byte) → GromLatch} {cm : Cartridge → Word → Byte}
    (hf : ∀ l mem, f l mem = g l mem) (hm : ∀ (c : Cartridge) x, c.gromByte sel x = cm c x) :
    s.gromBoth sel f = { s with
      grom := g s.grom fun x => s.gromMem.read x.toNat
      cart := s.cart.map fun c => if c.groms = [] then c else { c with cg := g c.cg (cm c) } } := by
  obtain rfl : f = g := funext fun l => funext (hf l)
  obtain rfl : (fun c : Cartridge => c.gromByte sel) = cm := funext fun c => funext (hm c)
  refine congrArg (fun k : Cartridge → Cartridge => { s with grom := f s.grom s.gromByte, cart := s.cart.map k })
    (funext fun c => ?_)
  by_cases hg : c.groms = []
  · rw [Cartridge.hasGrom_of_nil hg, if_pos hg]
    rfl
  · rw [if_pos (Cartridge.hasGrom_of_ne_nil hg), if_neg hg]

/-- Without GROM_WRITABLE a data write stores nothing (R782). -/
theorem gromStore_readOnly {s : State} (sel : Nat) (b : Byte) (h : s.gromWritable = false) : s.gromStore sel b = s := by
  unfold State.gromStore
  rw [h]
  rfl

/-- With GROM_WRITABLE it stores one below the address of each set: in the console's memory, and in the chip of the cartridge
(R782, R784; log 14). -/
theorem gromStore_writable {s : State} (sel : Nat) (b : Byte) (h : s.gromWritable = true) :
    s.gromStore sel b = { s with
      gromMem := s.gromMem.write (s.grom.addr - 1).toNat b
      cart := s.cart.map fun c =>
        if c.groms = [] ∨ (c.cg.addr - 1).toNat < 0x6000 then c
        else { c with
          groms := c.groms.modify (if c.groms.length = 1 then 0 else sel) fun m =>
            m.write ((c.cg.addr - 1).toNat - 0x6000) b } } := by
  unfold State.gromStore
  rw [if_pos h]
  refine congrArg (fun k : Cartridge → Cartridge =>
    { s with gromMem := s.gromMem.write (s.grom.addr - 1).toNat b, cart := s.cart.map k }) (funext fun c => ?_)
  by_cases hg : c.groms = []
  · rw [Cartridge.hasGrom_of_nil hg, if_pos (Or.inl hg)]
    rfl
  · rw [if_pos (Cartridge.hasGrom_of_ne_nil hg), Cartridge.gromStore, c.gromIndex_of_ne_nil sel hg]
    simp only [hg, false_or]

/-! ## The byte of a data read (R785) -/

theorem gromDataByte_cart {s : State} {c : Cartridge} (hc : s.cart = some c) (hg : c.groms ≠ []) :
    s.gromDataByte = s.grom.buf ||| c.cg.buf := by
  unfold State.gromDataByte State.cartGromBuf
  rw [hc]
  exact congrArg (s.grom.buf ||| ·) (if_pos (Cartridge.hasGrom_of_ne_nil hg))

theorem gromDataByte_console {s : State} (h : ∀ c, s.cart = some c → c.groms = []) : s.gromDataByte = s.grom.buf := by
  have hbuf : s.cartGromBuf = 0 := by
    unfold State.cartGromBuf
    cases hc : s.cart with
    | none => rfl
    | some c => exact if_neg (by rw [Cartridge.hasGrom_of_nil (h c hc)]; exact Bool.false_ne_true)
  rw [State.gromDataByte, hbuf]
  exact BitVec.or_zero

/-! ## The ports on the bus -/

theorem busRead_gromData {s : State} {a : Word} (hr : regionOf s a = .gromRead) (hp : a.toNat / 2 % 2 = 0) :
    busRead s a = (portWord s.gromDataByte,
      (s.gromBoth (a.toNat / 4 % 16) GromLatch.dataAccess).charge Config.waitGrom) := by
  rw [busRead_of_region hr, readRegion, even_bit1, hp, gromSelect_even]
  rfl

theorem busRead_gromAddress {s : State} {a : Word} (hr : regionOf s a = .gromRead) (hp : a.toNat / 2 % 2 = 1) :
    busRead s a = (portWord s.grom.addressByte,
      (s.gromBoth (a.toNat / 4 % 16) fun l _ => l.addressRead).charge Config.waitGrom) := by
  rw [busRead_of_region hr, readRegion, even_bit1, hp, gromSelect_even]
  rfl

theorem busWrite_gromData {s : State} {a : Word} (v : Word) (hr : regionOf s a = .gromWrite) (hp : a.toNat / 2 % 2 = 0) :
    busWrite s a v =
      ((s.gromStore (a.toNat / 4 % 16) (hiByte v)).gromBoth (a.toNat / 4 % 16) GromLatch.dataAccess).charge Config.waitGrom := by
  rw [busWrite_of_region v hr, writeRegion, even_bit1, hp, gromSelect_even]
  rfl

theorem busWrite_gromAddress {s : State} {a : Word} (v : Word) (hr : regionOf s a = .gromWrite) (hp : a.toNat / 2 % 2 = 1) :
    busWrite s a v =
      (s.gromBoth (a.toNat / 4 % 16) fun l mem => l.addressWrite mem (hiByte v)).charge Config.waitGrom := by
  rw [busWrite_of_region v hr, writeRegion, even_bit1, hp, gromSelect_even]
  rfl

/-- Settles O25: the port that the address selects, then its operation on both sets written out. -/
theorem gromPorts : Obligations.GromPorts := by
  intro s a v
  have hm := fun (c : Cartridge) x => c.gromByte_eq (a.toNat / 4 % 16) x
  refine ⟨fun hl hu => ?_, fun hl hu => ?_⟩
  · have hr := regionOf_gromRead s hl hu
    refine ⟨fun hp => ?_, fun hp => ?_, busWrite_of_region v hr⟩
    · rw [busRead_gromData hr hp, gromBoth_eq s _ GromLatch.dataAccess_eq hm]
      exact ⟨fun c hc hg => by rw [gromDataByte_cart hc hg]; rfl, fun hn => by rw [gromDataByte_console hn]; rfl, rfl⟩
    · rw [busRead_gromAddress hr hp, gromBoth_eq s _ (fun _ _ => rfl) hm]
      rfl
  · have hr := regionOf_gromWrite s hl hu
    refine ⟨fun hp hw => ?_, fun hp hw => ?_, fun hp => ?_, busRead_of_region hr⟩
    · rw [busWrite_gromData v hr hp, gromStore_readOnly _ _ hw, gromBoth_eq s _ GromLatch.dataAccess_eq hm]
      rfl
    · rw [busWrite_gromData v hr hp, gromStore_writable _ _ hw, gromBoth_eq _ _ GromLatch.dataAccess_eq hm]
      rfl
    · rw [busWrite_gromAddress v hr hp, gromBoth_eq s _ (fun l mem => l.addressWrite_eq mem (hiByte v)) hm]
      rfl

end Sys2Proof.Machine
end

section
/-! The fields of the formats R301 to R309: what each field of an encoded word is, and every word put together from its fields. -/

namespace Sys2Proof.Machine

/-! ## Operands and counts -/

theorem decodeOperand_of_wf {o : Operand} (ho : o.wf = true) : decodeOperand o.mode o.regNo = o := by
  cases o with
  | idx r => exact if_neg (bne_iff_ne.1 ho)
  | _ => rfl

/-- A mode and a register field are the fields of the operand they stand for, and there is no indexing by R0 (R310). -/
theorem decodeOperand_fields (t : BitVec 2) (r : RegNo) :
    (decodeOperand t r).wf = true ∧ (decodeOperand t r).mode = t ∧ (decodeOperand t r).regNo = r := by
  obtain h | h | h | h : t = 0 ∨ t = 1 ∨ t = 2 ∨ t = 3 := by revert t; decide
  all_goals subst h
  · exact ⟨rfl, rfl, rfl⟩
  · exact ⟨rfl, rfl, rfl⟩
  · by_cases hr : r = 0
    · subst hr
      exact ⟨rfl, rfl, rfl⟩
    · rw [show decodeOperand 2 r = .idx r from if_neg hr]
      exact ⟨bne_iff_ne.2 hr, rfl, rfl⟩
  · exact ⟨rfl, rfl, rfl⟩

theorem srcOf_fields (w : Word) :
    (srcOf w).wf = true ∧ (srcOf w).mode = w.extractLsb' 4 2 ∧ (srcOf w).regNo = w.extractLsb' 0 4 := decodeOperand_fields _ _

theorem dstOf_fields (w : Word) :
    (dstOf w).wf = true ∧ (dstOf w).mode = w.extractLsb' 10 2 ∧ (dstOf w).regNo = w.extractLsb' 6 4 := decodeOperand_fields _ _

/-- The count field of a shift word, 0 for "from R0" (R313). -/
theorem shiftCountOf_field (w : Word) : (shiftCountOf w).wf = true ∧ (shiftCountOf w).field = w.extractLsb' 4 4 := by
  unfold shiftCountOf
  dsimp only
  split
  next h => exact ⟨rfl, h.symm⟩
  next h => exact ⟨bne_iff_ne.2 h, rfl⟩

/-- The count field of a CRU word, 0 for 16 (R314). -/
theorem cruCountOf_field (w : Word) : cruCountWf (cruCountOf w) = true ∧ BitVec.ofNat 4 (cruCountOf w) = dOf w := by
  unfold cruCountOf
  generalize dOf w = c
  revert c
  decide

theorem cruCountWf_iff (n : Nat) : cruCountWf n = true ↔ 1 ≤ n ∧ n ≤ 16 := by
  rw [cruCountWf, Bool.and_eq_true, decide_eq_true_iff, decide_eq_true_iff]

/-! ## The fields of an encoded word -/

section
variable (o p : Operand) (r : RegNo)

theorem opcode_formatI (op : BitVec 4) : (formatI op o p).extractLsb' 12 4 = op := BitVec.extractLsb'_append_eq_left

theorem opcode_formatII (op : BitVec 8) (d : Byte) {k n : Nat} (h : 8 ≤ k) :
    (formatII op d).extractLsb' k n = op.extractLsb' (k - 8) n := BitVec.extractLsb'_append_eq_of_le h

theorem opcode_formatIII (op : BitVec 6) (d : BitVec 4) {k n : Nat} (h : 10 ≤ k) :
    (formatIII op d o).extractLsb' k n = op.extractLsb' (k - 10) n := BitVec.extractLsb'_append_eq_of_le h

theorem opcode_formatV (op : BitVec 8) (c : ShiftCount) {k n : Nat} (h : 8 ≤ k) :
    (formatV op c r).extractLsb' k n = op.extractLsb' (k - 8) n := BitVec.extractLsb'_append_eq_of_le h

theorem opcode_formatVI (op : BitVec 10) {k n : Nat} (h : 6 ≤ k) :
    (formatVI op o).extractLsb' k n = op.extractLsb' (k - 6) n := BitVec.extractLsb'_append_eq_of_le h

theorem opcode_formatVII (op : BitVec 11) {k n : Nat} (h : 5 ≤ k) :
    (formatVII op).extractLsb' k n = op.extractLsb' (k - 5) n := BitVec.extractLsb'_append_eq_of_le h

theorem opcode_formatVIII (op : BitVec 11) {k n : Nat} (h : 5 ≤ k) :
    (formatVIII op r).extractLsb' k n = op.extractLsb' (k - 5) n := BitVec.extractLsb'_append_eq_of_le h

theorem unused_formatVII (op : BitVec 11) : (formatVII op).extractLsb' 0 5 = 0 := BitVec.extractLsb'_append_eq_right

theorem dispOf_formatII (op : BitVec 8) (d : Byte) : dispOf (formatII op d) = d := BitVec.extractLsb'_append_eq_right

/-- The bits of a concatenation that lie in its right part, whose own bits are known. -/
theorem extract_right {a b k n : Nat} (x : BitVec a) {y : BitVec b} {z : BitVec n} (hy : y.extractLsb' k n = z) (h : k + n ≤ b) :
    (x ++ y).extractLsb' k n = z := (BitVec.extractLsb'_append_eq_of_add_le h).trans hy

theorem operand_mode : (o.mode ++ o.regNo).extractLsb' 4 2 = o.mode := BitVec.extractLsb'_append_eq_left

theorem operand_regNo : (o.mode ++ o.regNo).extractLsb' 0 4 = o.regNo := BitVec.extractLsb'_append_eq_right

theorem operand_of_fields {o : Operand} (ho : o.wf = true) {t : BitVec 2} {r : RegNo} (ht : t = o.mode) (hr : r = o.regNo) :
    decodeOperand t r = o := by rw [ht, hr, decodeOperand_of_wf ho]

theorem srcOf_formatI (op : BitVec 4) {o : Operand} (ho : o.wf = true) : srcOf (formatI op o p) = o :=
  operand_of_fields ho
    (extract_right _ (extract_right _ (extract_right _ (operand_mode o) (by decide)) (by decide)) (by decide))
    (extract_right _ (extract_right _ (extract_right _ (operand_regNo o) (by decide)) (by decide)) (by decide))

theorem dstOf_formatI (op : BitVec 4) {p : Operand} (hp : p.wf = true) : dstOf (formatI op o p) = p :=
  operand_of_fields hp
    (extract_right _ BitVec.extractLsb'_append_eq_left (by decide))
    (extract_right _ (extract_right _ BitVec.extractLsb'_append_eq_left (by decide)) (by decide))

theorem srcOf_formatIII (op : BitVec 6) (d : BitVec 4) {o : Operand} (ho : o.wf = true) : srcOf (formatIII op d o) = o :=
  operand_of_fields ho (extract_right _ (extract_right _ (operand_mode o) (by decide)) (by decide))
    (extract_right _ (extract_right _ (operand_regNo o) (by decide)) (by decide))

theorem dOf_formatIII (op : BitVec 6) (d : BitVec 4) : dOf (formatIII op d o) = d :=
  extract_right _ BitVec.extractLsb'_append_eq_left (by decide)

theorem cruCountOf_formatIII (op : BitVec 6) {n : Nat} (hn : cruCountWf n = true) :
    cruCountOf (formatIII op (BitVec.ofNat 4 n) o) = n := by
  obtain ⟨hl, hu⟩ := (cruCountWf_iff n).1 hn
  unfold cruCountOf
  rw [dOf_formatIII]
  interval_cases n <;> rfl

theorem shiftCountOf_formatV (op : BitVec 8) {c : ShiftCount} (hc : c.wf = true) : shiftCountOf (formatV op c r) = c := by
  have hC : (formatV op c r).extractLsb' 4 4 = c.field := extract_right _ BitVec.extractLsb'_append_eq_left (by decide)
  unfold shiftCountOf
  rw [hC]
  cases c with
  | imm n => exact if_neg (bne_iff_ne.1 hc)
  | fromR0 => rfl

theorem wOf_formatV (op : BitVec 8) (c : ShiftCount) : wOf (formatV op c r) = r :=
  extract_right _ BitVec.extractLsb'_append_eq_right (by decide)

theorem srcOf_formatVI (op : BitVec 10) {o : Operand} (ho : o.wf = true) : srcOf (formatVI op o) = o :=
  operand_of_fields ho (extract_right _ (operand_mode o) (by decide)) (extract_right _ (operand_regNo o) (by decide))

theorem wOf_formatVIII (op : BitVec 11) : wOf (formatVIII op r) = r :=
  extract_right _ BitVec.extractLsb'_append_eq_right (by decide)

theorem unused_formatVIII (op : BitVec 11) : (formatVIII op r)[4] = false := by
  rw [← BitVec.getLsbD_eq_getElem, formatVIII, BitVec.getLsbD_append, BitVec.getLsbD_append]
  rfl

end

/-! ## A word from its fields -/

theorem formatI_fields (w : Word) : formatI (w.extractLsb' 12 4) (srcOf w) (dstOf w) = w := by
  obtain ⟨-, hTs, hS⟩ := srcOf_fields w
  obtain ⟨-, hTd, hD⟩ := dstOf_fields w
  rw [formatI, hTs, hS, hTd, hD]
  simp only [BitVec.extractLsb'_append_extractLsb'_eq_extractLsb', BitVec.extractLsb'_eq_self]

theorem formatII_fields (w : Word) : formatII (w.extractLsb' 12 4 ++ w.extractLsb' 8 4) (dispOf w) = w := by
  unfold formatII dispOf
  simp only [BitVec.extractLsb'_append_extractLsb'_eq_extractLsb', BitVec.extractLsb'_eq_self]

theorem formatIII_fields (w : Word) : formatIII (w.extractLsb' 13 3 ++ w.extractLsb' 10 3) (dOf w) (srcOf w) = w := by
  obtain ⟨-, hT, hS⟩ := srcOf_fields w
  rw [formatIII, dOf, hT, hS]
  simp only [BitVec.extractLsb'_append_extractLsb'_eq_extractLsb', BitVec.extractLsb'_eq_self]

theorem formatV_fields (w : Word) : formatV (w.extractLsb' 12 4 ++ w.extractLsb' 8 4) (shiftCountOf w) (wOf w) = w := by
  obtain ⟨-, hC⟩ := shiftCountOf_field w
  rw [formatV, wOf, hC]
  simp only [BitVec.extractLsb'_append_extractLsb'_eq_extractLsb', BitVec.extractLsb'_eq_self]

theorem formatVI_fields (w : Word) : formatVI (w.extractLsb' 10 6 ++ w.extractLsb' 6 4) (srcOf w) = w := by
  obtain ⟨-, hT, hS⟩ := srcOf_fields w
  rw [formatVI, hT, hS]
  simp only [BitVec.extractLsb'_append_extractLsb'_eq_extractLsb', BitVec.extractLsb'_eq_self]

/-- Formats VII and VIII-b give the word with its unused bits 4:0 cleared (R331). -/
theorem formatVII_clears (w : Word) : formatVII (w.extractLsb' 9 7 ++ w.extractLsb' 5 4) = w &&& 0xFFE0 := by
  have hw : (w &&& 0xFFE0).extractLsb' 5 11 ++ (w &&& 0xFFE0).extractLsb' 0 5 = w &&& 0xFFE0 :=
    BitVec.extractLsb'_append_extractLsb'_eq_extractLsb' rfl |>.trans BitVec.extractLsb'_eq_self
  have hop : (0xFFE0 : Word).extractLsb' 5 11 = BitVec.allOnes 11 := by decide
  have hun : (0xFFE0 : Word).extractLsb' 0 5 = 0 := by decide
  rw [BitVec.extractLsb'_and, BitVec.extractLsb'_and, hop, hun, BitVec.and_allOnes] at hw
  rw [← hw, BitVec.extractLsb'_append_extractLsb'_eq_extractLsb' (by rfl)]
  exact congrArg (_ ++ ·) BitVec.and_zero.symm

/-- Format VIII-a gives the word with its unused bit 4 cleared (R331). -/
theorem formatVIII_clears (w : Word) : formatVIII (w.extractLsb' 9 7 ++ w.extractLsb' 5 4) (wOf w) = w &&& 0xFFEF := by
  have hw : (w &&& 0xFFEF).extractLsb' 5 11 ++ ((w &&& 0xFFEF).extractLsb' 4 1 ++ (w &&& 0xFFEF).extractLsb' 0 4) =
      w &&& 0xFFEF := by
    rw [BitVec.extractLsb'_append_extractLsb'_eq_extractLsb' (by rfl)]
    exact BitVec.extractLsb'_append_extractLsb'_eq_extractLsb' rfl |>.trans BitVec.extractLsb'_eq_self
  have hop : (0xFFEF : Word).extractLsb' 5 11 = BitVec.allOnes 11 := by decide
  have hun : (0xFFEF : Word).extractLsb' 4 1 = 0 := by decide
  have hreg : (0xFFEF : Word).extractLsb' 0 4 = BitVec.allOnes 4 := by decide
  rw [BitVec.extractLsb'_and, BitVec.extractLsb'_and, BitVec.extractLsb'_and, hop, hun, hreg, BitVec.and_allOnes,
    BitVec.and_allOnes] at hw
  rw [← hw, BitVec.extractLsb'_append_extractLsb'_eq_extractLsb' (by rfl)]
  exact congrArg (fun x => _ ++ (x ++ wOf w)) BitVec.and_zero.symm

/-! ## A field as a number -/

theorem field_toNat (w : Word) (j n : Nat) : (w.extractLsb' j n).toNat = w.toNat / 2 ^ j % 2 ^ n := by
  rw [BitVec.extractLsb'_toNat, Nat.shiftRight_eq_div_pow]

/-- A field's value from the word's, to go from a range of words to the field that the decoder looks at. -/
theorem field_eq {w : Word} {j n k : Nat} (h : w.toNat / 2 ^ j % 2 ^ n = k) : w.extractLsb' j n = BitVec.ofNat n k := by
  rw [← h, ← field_toNat, BitVec.ofNat_toNat, BitVec.setWidth_eq]

theorem exists_field (w : Word) (j n : Nat) :
    ∃ k, w.toNat / 2 ^ j % 2 ^ n = k ∧ k < 2 ^ n ∧ w.extractLsb' j n = BitVec.ofNat n k :=
  ⟨_, rfl, Nat.mod_lt _ (Nat.two_pow_pos n), field_eq rfl⟩

/-! ## The unused bits (R307, R308, R331) -/

/-- Masking off bits changes nothing exactly when they are 0. -/
theorem and_not_eq_self_iff (w m : Word) : w &&& ~~~m = w ↔ w &&& m = 0 := by
  constructor
  · intro h
    rw [← h, BitVec.and_assoc, BitVec.and_comm (~~~m), BitVec.and_not_self]
    exact BitVec.and_zero
  · intro h
    have hs : w &&& (m ||| ~~~m) = w := by rw [BitVec.or_not_self, BitVec.and_allOnes]
    rw [BitVec.and_or_distrib_left, h] at hs
    exact BitVec.zero_or.symm.trans hs

theorem and_FFEF_eq_self_iff (w : Word) : w &&& 0xFFEF = w ↔ w.getLsbD 4 = false := by
  rw [show (0xFFEF : Word) = ~~~ BitVec.twoPow 16 4 by decide, and_not_eq_self_iff, BitVec.and_twoPow]
  cases w.getLsbD 4 <;> decide

theorem and_001F_toNat (w : Word) : (w &&& 0x001F).toNat = w.toNat % 32 := by
  rw [BitVec.toNat_and]
  exact Nat.and_two_pow_sub_one_eq_mod _ 5

theorem and_FFE0_eq_self_iff (w : Word) : w &&& 0xFFE0 = w ↔ w &&& 0x001F = 0 := by
  rw [show (0xFFE0 : Word) = ~~~ 0x001F by decide, and_not_eq_self_iff]

theorem low5_eq_zero_iff (w : Word) : w.extractLsb' 0 5 = 0 ↔ w &&& 0x001F = 0 := by
  rw [← BitVec.toNat_inj, ← BitVec.toNat_inj, field_toNat, and_001F_toNat, Nat.pow_zero, Nat.div_one]
  rfl

theorem and_FFE0_toNat (w : Word) : (w &&& 0xFFE0).toNat = w.toNat / 32 * 32 := by
  have hw := w.isLt
  rw [← formatVII_clears, formatVII, BitVec.extractLsb'_append_extractLsb'_eq_extractLsb' (by rfl)]
  refine (BitVec.toNat_append _ _).trans ?_
  rw [field_toNat, Nat.shiftLeft_eq]
  refine (Nat.or_zero _).trans ?_
  omega

end Sys2Proof.Machine
end

section
/-! What the decoder answers, word by word: the ranges of R330, the alternate words of R331, the rows of R320. -/

namespace Sys2Proof.Machine

/-- `i` is a well-formed instruction of word `w`. -/
def StandsFor (i : Instr) (w : Word) : Prop := i.wf = true ∧ encodeWord i = w

/-- The four ranges of R330. -/
def IllegalRange (w : Word) : Prop :=
  w.toNat ≤ 0x01FF ∨ (0x0320 ≤ w.toNat ∧ w.toNat ≤ 0x033F) ∨ (0x0780 ≤ w.toNat ∧ w.toNat ≤ 0x07FF) ∨
    (0x0C00 ≤ w.toNat ∧ w.toNat ≤ 0x0FFF)

/-- The word with the unused bits of formats VII and VIII cleared: bit 4 of VIII-a, bits 4:0 of VII and VIII-b (R307, R308,
R331). -/
def canonicalWord (w : Word) : Word :=
  if 0x0200 ≤ w.toNat ∧ w.toNat < 0x02E0 then w &&& 0xFFEF
  else if 0x02E0 ≤ w.toNat ∧ w.toNat < 0x0400 then w &&& 0xFFE0
  else w

/-! ## Which part of the map a word belongs to -/

section
variable {w : Word}

theorem decodeWord_of_low (h : w.toNat < 0x1000) : decodeWord w = decodeLow w := by
  unfold decodeWord
  rw [field_eq (w := w) (j := 12) (n := 4) (k := 0) (by omega)]
  rfl

theorem decodeWord_of_control (h : 0x0200 ≤ w.toNat) (h' : w.toNat < 0x0400) : decodeWord w = decodeControl w := by
  rw [decodeWord_of_low (by omega)]
  unfold decodeLow
  obtain ⟨k, hk, -, hn⟩ := exists_field w 8 4
  rw [hn]
  obtain rfl | rfl : k = 2 ∨ k = 3 := by omega
  all_goals rfl

theorem decodeWord_of_single (h : 0x0400 ≤ w.toNat) (h' : w.toNat < 0x0800) : decodeWord w = decodeSingle w := by
  rw [decodeWord_of_low (by omega)]
  unfold decodeLow
  obtain ⟨k, hk, -, hn⟩ := exists_field w 8 4
  rw [hn]
  obtain rfl | rfl | rfl | rfl : k = 4 ∨ k = 5 ∨ k = 6 ∨ k = 7 := by omega
  all_goals rfl

theorem decodeWord_of_jump (h : 0x1000 ≤ w.toNat) (h' : w.toNat < 0x2000) : decodeWord w = .instr (decodeJump w) := by
  unfold decodeWord
  rw [field_eq (w := w) (j := 12) (n := 4) (k := 1) (by omega)]
  rfl

theorem decodeWord_of_sourceReg (h : 0x2000 ≤ w.toNat) (h' : w.toNat < 0x4000) : decodeWord w = .instr (decodeSourceReg w) := by
  unfold decodeWord
  obtain ⟨k, hk, -, hn⟩ := exists_field w 12 4
  rw [hn]
  obtain rfl | rfl : k = 2 ∨ k = 3 := by omega
  all_goals rfl

end

/-- Below format VIII and above format V the opcode map has no row (R330). -/
theorem decodeLow_unlisted {w : Word} (h : w.toNat < 0x0200 ∨ (0x0C00 ≤ w.toNat ∧ w.toNat < 0x1000)) :
    decodeLow w = .illegal := by
  unfold decodeLow
  obtain ⟨k, hk, -, hn⟩ := exists_field w 8 4
  rw [hn]
  obtain rfl | rfl | rfl | rfl | rfl | rfl : k = 0 ∨ k = 1 ∨ k = 12 ∨ k = 13 ∨ k = 14 ∨ k = 15 := by omega
  all_goals rfl

/-- The words of R330 are illegal. -/
theorem decodeWord_of_illegalRange {w : Word} (h : IllegalRange w) : decodeWord w = .illegal := by
  obtain h | h | h | h := h
  · exact (decodeWord_of_low (by omega)).trans (decodeLow_unlisted (by omega))
  · rw [decodeWord_of_control (by omega) (by omega), decodeControl, field_eq (w := w) (j := 5) (n := 4) (k := 9) (by omega)]
    rfl
  · rw [decodeWord_of_single (by omega) (by omega)]
    unfold decodeSingle
    obtain ⟨k, hk, -, hn⟩ := exists_field w 6 4
    rw [hn]
    obtain rfl | rfl : k = 14 ∨ k = 15 := by omega
    all_goals rfl
  · exact (decodeWord_of_low (by omega)).trans (decodeLow_unlisted (by omega))

/-! ## The rows of each part of the opcode map (R320) -/

/-- Format II. -/
theorem decodeJump_row (w : Word) : StandsFor (decodeJump w) (formatII (1#4 ++ w.extractLsb' 8 4) (dispOf w)) := by
  unfold decodeJump
  obtain ⟨k, -, hk, hn⟩ := exists_field w 8 4
  rw [hn]
  interval_cases k <;> exact ⟨rfl, rfl⟩

/-- Formats III, IV and IX. -/
theorem decodeSourceReg_row (w : Word) :
    StandsFor (decodeSourceReg w) (formatIII (1#3 ++ w.extractLsb' 10 3) (dOf w) (srcOf w)) := by
  obtain ⟨hc, hd⟩ := cruCountOf_field w
  obtain ⟨hs, -⟩ := srcOf_fields w
  have hcru : ((srcOf w).wf && cruCountWf (cruCountOf w)) = true := by rw [hs, hc]; rfl
  unfold decodeSourceReg
  obtain ⟨k, -, hk, hn⟩ := exists_field w 10 3
  rw [hn]
  obtain hcount | hreg : (k = 4 ∨ k = 5) ∨ (k = 0 ∨ k = 1 ∨ k = 2 ∨ k = 3 ∨ k = 6 ∨ k = 7) := by omega
  · obtain rfl | rfl := hcount <;> exact ⟨hcru, congrArg (formatIII _ · _) hd⟩
  · obtain rfl | rfl | rfl | rfl | rfl | rfl := hreg <;> exact ⟨hs, rfl⟩

/-- Format I. -/
theorem decodeWord_dual_row {w : Word} (h : 0x4000 ≤ w.toNat) :
    ∃ i, decodeWord w = .instr i ∧ StandsFor i (formatI (w.extractLsb' 12 4) (srcOf w) (dstOf w)) := by
  obtain ⟨hs, -⟩ := srcOf_fields w
  obtain ⟨hd, -⟩ := dstOf_fields w
  have hwf : ((srcOf w).wf && (dstOf w).wf) = true := by rw [hs, hd]; rfl
  have h4 : 4 ≤ w.toNat / 2 ^ 12 % 2 ^ 4 := by have := w.isLt; omega
  unfold decodeWord
  obtain ⟨k, hk, hk', hn⟩ := exists_field w 12 4
  rw [hk] at h4
  rw [hn]
  interval_cases k <;> exact ⟨_, rfl, hwf, rfl⟩

/-- Format V. -/
theorem decodeLow_shift_row {w : Word} (h : 0x0800 ≤ w.toNat) (h' : w.toNat < 0x0C00) :
    ∃ i, decodeLow w = .instr i ∧ StandsFor i (formatV (0#4 ++ w.extractLsb' 8 4) (shiftCountOf w) (wOf w)) := by
  obtain ⟨hc, -⟩ := shiftCountOf_field w
  unfold decodeLow
  obtain ⟨k, hk, -, hn⟩ := exists_field w 8 4
  rw [hn]
  obtain rfl | rfl | rfl | rfl : k = 8 ∨ k = 9 ∨ k = 10 ∨ k = 11 := by omega
  all_goals exact ⟨_, rfl, hc, rfl⟩

/-- Format VI. -/
theorem decodeSingle_row {w : Word} (h : w.toNat / 2 ^ 6 % 2 ^ 4 < 14) :
    ∃ i, decodeSingle w = .instr i ∧ StandsFor i (formatVI (1#6 ++ w.extractLsb' 6 4) (srcOf w)) := by
  obtain ⟨hs, -⟩ := srcOf_fields w
  unfold decodeSingle
  obtain ⟨k, hk, -, hn⟩ := exists_field w 6 4
  rw [hk] at h
  rw [hn]
  interval_cases k <;> exact ⟨_, rfl, hs, rfl⟩

/-- Format VIII-a: an instruction when the unused bit 4 is 0, an alternate of it otherwise. -/
theorem decodeControl_reg_row {w : Word} (h : w.toNat / 2 ^ 5 % 2 ^ 4 < 7) :
    ∃ i, decodeControl w = (if w.getLsbD 4 then .alternate i else .instr i) ∧
      StandsFor i (formatVIII (1#7 ++ w.extractLsb' 5 4) (wOf w)) := by
  unfold decodeControl
  obtain ⟨k, hk, -, hn⟩ := exists_field w 5 4
  rw [hk] at h
  rw [hn]
  interval_cases k <;> exact ⟨_, rfl, rfl, rfl⟩

/-- Formats VII and VIII-b: an instruction when the unused bits 4:0 are 0, an alternate of it otherwise. -/
theorem decodeControl_bare_row {w : Word} (h : 7 ≤ w.toNat / 2 ^ 5 % 2 ^ 4) (h9 : w.toNat / 2 ^ 5 % 2 ^ 4 ≠ 9) :
    ∃ i, decodeControl w = (if w.extractLsb' 0 5 = 0 then .instr i else .alternate i) ∧
      StandsFor i (formatVII (1#7 ++ w.extractLsb' 5 4)) := by
  unfold decodeControl
  obtain ⟨k, hk, hk', hn⟩ := exists_field w 5 4
  rw [hk] at h h9
  rw [hn]
  obtain hlow | hhigh := Nat.lt_or_gt_of_ne h9
  · interval_cases k <;> exact ⟨_, rfl, rfl, rfl⟩
  · interval_cases k <;> exact ⟨_, rfl, rfl, rfl⟩

/-! ## Encoding and decoding back (R320) -/

/-- Format by format, the decoder finds the opcode of the row and reads the operands back. -/
theorem decodeWord_encodeWord (i : Instr) (h : i.wf = true) : decodeWord (encodeWord i) = .instr i := by
  cases i with
  | szc o p | szcb o p | s o p | sb o p | c o p | cb o p | a o p | ab o p | mov o p | movb o p | soc o p | socb o p =>
    obtain ⟨ho, hp⟩ := Bool.and_eq_true_iff.1 h
    simp [encodeWord, decodeWord, opcode_formatI, srcOf_formatI, dstOf_formatI, ho, hp]
  | jmp d | jlt d | jle d | jeq d | jhe d | jgt d | jne d | jnc d | joc d | jno d | jl d | jh d | jop d | sbo d | sbz d
  | tb d => simp [encodeWord, decodeWord, decodeJump, opcode_formatII, dispOf_formatII]
  | coc o d | czc o d | xor o d | xop o d | mpy o d | div o d =>
    simp [encodeWord, decodeWord, decodeSourceReg, opcode_formatIII, dOf_formatIII, srcOf_formatIII, show o.wf = true from h]
  | ldcr o n | stcr o n =>
    obtain ⟨ho, hn⟩ := Bool.and_eq_true_iff.1 h
    simp [encodeWord, decodeWord, decodeSourceReg, opcode_formatIII, cruCountOf_formatIII, srcOf_formatIII, ho, hn]
  | sra k r | srl k r | sla k r | src k r =>
    simp [encodeWord, decodeWord, decodeLow, opcode_formatV, shiftCountOf_formatV, wOf_formatV, show k.wf = true from h]
  | blwp o | b o | x o | clr o | neg o | inv o | inc o | inct o | dec o | dect o | bl o | swpb o | seto o | abs o =>
    simp [encodeWord, decodeWord, decodeLow, decodeSingle, opcode_formatVI, srcOf_formatVI, show o.wf = true from h]
  | lwpi | limi | idle | rset | rtwp | ckon | ckof | lrex =>
    simp [encodeWord, decodeWord, decodeLow, decodeControl, opcode_formatVII, unused_formatVII]
  | li r | ai r | andi r | ori r | ci r | stwp r | stst r =>
    simp [encodeWord, decodeWord, decodeLow, decodeControl, opcode_formatVIII, wOf_formatVIII, unused_formatVIII]

/-- Settles O2. -/
theorem decodeEncode : Obligations.DecodeEncode := decodeWord_encodeWord

/-! ## The canonical word -/

theorem canonicalWord_of_reg {w : Word} (hl : 0x0200 ≤ w.toNat) (hu : w.toNat < 0x02E0) : canonicalWord w = w &&& 0xFFEF :=
  if_pos ⟨hl, hu⟩

theorem canonicalWord_of_bare {w : Word} (hl : 0x02E0 ≤ w.toNat) (hu : w.toNat < 0x0400) : canonicalWord w = w &&& 0xFFE0 :=
  (if_neg (by omega)).trans (if_pos ⟨hl, hu⟩)

theorem canonicalWord_of_used {w : Word} (h : w.toNat < 0x0200 ∨ 0x0400 ≤ w.toNat) : canonicalWord w = w :=
  (if_neg (by omega)).trans (if_neg (by omega))

/-- The words with unused bits, by their format, and the others. -/
theorem unused_cases (w : Word) :
    (0x0200 ≤ w.toNat ∧ w.toNat < 0x02E0) ∨ (0x02E0 ≤ w.toNat ∧ w.toNat < 0x0400) ∨ w.toNat < 0x0200 ∨ 0x0400 ≤ w.toNat := by
  omega

/-- Outside formats VII and VIII every word but those of R330 is an instruction's, part of the map by part. -/
theorem decodeWord_used {w : Word} (h : ¬ IllegalRange w) (hu : w.toNat < 0x0200 ∨ 0x0400 ≤ w.toNat) :
    ∃ i, decodeWord w = .instr i ∧ StandsFor i w := by
  unfold IllegalRange at h
  have hw := w.isLt
  obtain h' | h' | h' | h' | h' : (0x0400 ≤ w.toNat ∧ w.toNat < 0x0780) ∨ (0x0800 ≤ w.toNat ∧ w.toNat < 0x0C00) ∨
    (0x1000 ≤ w.toNat ∧ w.toNat < 0x2000) ∨ (0x2000 ≤ w.toNat ∧ w.toNat < 0x4000) ∨ 0x4000 ≤ w.toNat := by omega
  · obtain ⟨i, hi, hf⟩ := decodeSingle_row (w := w) (by omega)
    rw [← field_eq (w := w) (j := 10) (by omega), formatVI_fields] at hf
    exact ⟨i, (decodeWord_of_single (by omega) (by omega)).trans hi, hf⟩
  · obtain ⟨i, hi, hf⟩ := decodeLow_shift_row (w := w) (by omega) (by omega)
    rw [← field_eq (w := w) (j := 12) (by omega), formatV_fields] at hf
    exact ⟨i, (decodeWord_of_low (by omega)).trans hi, hf⟩
  · have hf := decodeJump_row w
    rw [← field_eq (w := w) (j := 12) (by omega), formatII_fields] at hf
    exact ⟨_, decodeWord_of_jump (by omega) (by omega), hf⟩
  · have hf := decodeSourceReg_row w
    rw [← field_eq (w := w) (j := 13) (by omega), formatIII_fields] at hf
    exact ⟨_, decodeWord_of_sourceReg (by omega) (by omega), hf⟩
  · obtain ⟨i, hi, hf⟩ := decodeWord_dual_row (w := w) (by omega)
    rw [formatI_fields] at hf
    exact ⟨i, hi, hf⟩

/-- What the decoder answers outside the ranges of R330: the one instruction of the canonical word, by name as an alternate when unused
bits are set. -/
theorem decodeWord_row {w : Word} (h : ¬ IllegalRange w) :
    ∃ i, StandsFor i (canonicalWord w) ∧ decodeWord w = if canonicalWord w = w then .instr i else .alternate i := by
  obtain ⟨hl, hu⟩ | ⟨hl, hu⟩ | hu := unused_cases w
  · obtain ⟨i, hi, hf⟩ := decodeControl_reg_row (w := w) (by omega)
    rw [← field_eq (w := w) (j := 9) (by omega), formatVIII_clears, ← canonicalWord_of_reg hl hu] at hf
    refine ⟨i, hf, ?_⟩
    rw [decodeWord_of_control (by omega) (by omega), hi, canonicalWord_of_reg hl hu]
    simp only [and_FFEF_eq_self_iff]
    cases w.getLsbD 4 <;> rfl
  · unfold IllegalRange at h
    obtain ⟨i, hi, hf⟩ := decodeControl_bare_row (w := w) (by omega) (by omega)
    rw [← field_eq (w := w) (j := 9) (by omega), formatVII_clears, ← canonicalWord_of_bare hl hu] at hf
    refine ⟨i, hf, ?_⟩
    rw [decodeWord_of_control (by omega) (by omega), hi, canonicalWord_of_bare hl hu]
    simp only [low5_eq_zero_iff, and_FFE0_eq_self_iff]
  · obtain ⟨i, hi, hf⟩ := decodeWord_used h hu
    rw [canonicalWord_of_used hu]
    exact ⟨i, hf, hi.trans (if_pos rfl).symm⟩

/-- An instruction word is canonical, and the instruction is its own. -/
theorem decodeWord_instr {w : Word} {i : Instr} (h : decodeWord w = .instr i) : StandsFor i w := by
  have hw : ¬ IllegalRange w := fun hr => by cases (decodeWord_of_illegalRange hr).symm.trans h
  obtain ⟨j, hj, hd⟩ := decodeWord_row hw
  rw [hd] at h
  split at h
  next hc =>
    cases h
    exact hc ▸ hj
  next => cases h

/-- An alternate word is a word that is not canonical, of the instruction of its canonical word. -/
theorem decodeWord_eq_alternate_iff (w : Word) (i : Instr) :
    decodeWord w = .alternate i ↔ ¬ IllegalRange w ∧ canonicalWord w ≠ w ∧ decodeWord (canonicalWord w) = .instr i := by
  by_cases hw : IllegalRange w
  · rw [decodeWord_of_illegalRange hw]
    exact iff_of_false (by simp) (fun h => h.1 hw)
  · obtain ⟨j, ⟨hwf, henc⟩, hd⟩ := decodeWord_row hw
    have hj : decodeWord (canonicalWord w) = .instr j := henc ▸ decodeWord_encodeWord j hwf
    rw [hd, hj]
    by_cases hc : canonicalWord w = w
    · simp [hc]
    · simp [hc, hw]

/-! ## The statements -/

/-- Settles O3. -/
theorem encodeDecode : Obligations.EncodeDecode := fun _ _ h => decodeWord_instr h

/-- Settles O4: outside the ranges the decoder names an instruction. -/
theorem illegalWords : Obligations.IllegalWords := by
  intro w
  refine ⟨fun h => ?_, decodeWord_of_illegalRange⟩
  by_contra hw
  obtain ⟨i, -, hd⟩ := decodeWord_row hw
  rw [hd] at h
  split at h <;> cases h

/-- Clearing the unused bits of a word of R330 leaves it there. -/
theorem IllegalRange.clear {w : Word} (h : IllegalRange w) (hl : 0x02E0 ≤ w.toNat) (hu : w.toNat < 0x0400) :
    IllegalRange (w &&& 0xFFE0) := by
  unfold IllegalRange at h ⊢
  rw [and_FFE0_toNat]
  omega

/-- Settles O5: the canonical word is the word with bit 4 or bits 4:0 cleared, so it differs where those bits are set. -/
theorem aliasWords : Obligations.AliasWords := by
  intro w i
  rw [decodeWord_eq_alternate_iff]
  constructor
  · rintro ⟨-, hc, hd⟩
    obtain ⟨hl, hu⟩ | ⟨hl, hu⟩ | hu := unused_cases w
    · rw [canonicalWord_of_reg hl hu] at hc hd
      rw [Ne, and_FFEF_eq_self_iff, Bool.not_eq_false] at hc
      exact .inl ⟨hl, hu, hc, hd⟩
    · rw [canonicalWord_of_bare hl hu] at hc hd
      rw [Ne, and_FFE0_eq_self_iff] at hc
      exact .inr ⟨hl, hu, hc, hd⟩
    · exact absurd (canonicalWord_of_used hu) hc
  · rintro (⟨hl, hu, hbit, hd⟩ | ⟨hl, hu, hbits, hd⟩)
    · rw [canonicalWord_of_reg hl hu, Ne, and_FFEF_eq_self_iff, Bool.not_eq_false]
      exact ⟨fun h => by unfold IllegalRange at h; omega, hbit, hd⟩
    · rw [canonicalWord_of_bare hl hu, Ne, and_FFE0_eq_self_iff]
      refine ⟨fun h => ?_, hbits, hd⟩
      cases (decodeWord_of_illegalRange (h.clear hl hu)).symm.trans hd

/-- Settles O1. -/
theorem decodeSamples : Obligations.DecodeSamples := by
  unfold Obligations.DecodeSamples
  decide

end Sys2Proof.Machine
end

section
/-! Every meaning completes, X apart: a step is refused for an alternate word only, the one it fetches or the one that X reads (R331,
R612, R950; log 5). -/

namespace Sys2Proof.Machine

/-! ## Alternate words are refused (R331) -/

theorem runWord_instr {w : Word} {i : Instr} (h : decodeWord w = .instr i) (s : State) : runWord w s = exec i s := by
  rw [runWord, h]
  rfl

theorem runWord_illegal {w : Word} (h : decodeWord w = .illegal) (s : State) : runWord w s = .next (illegalOpcode s w) := by
  rw [runWord, h]
  rfl

theorem runWord_alternate {w : Word} {i : Instr} (h : decodeWord w = .alternate i) (s : State) :
    runWord w s = .refused (.aliasWord w) := by
  rw [runWord, h]
  rfl

theorem executeWord_instr {w : Word} {i : Instr} (h : decodeWord w = .instr i) (s : State) :
    executeWord w s = executeRead w i s := by
  rw [executeWord, h]
  rfl

theorem executeWord_illegal {w : Word} (h : decodeWord w = .illegal) (s : State) :
    executeWord w s = .next (illegalOpcode s w) := by
  rw [executeWord, h]
  rfl

theorem executeWord_alternate {w : Word} {i : Instr} (h : decodeWord w = .alternate i) (s : State) :
    executeWord w s = .refused (.aliasWord w) := by
  rw [executeWord, h]
  rfl

/-! ## Every other meaning completes -/

theorem execLdcr_completes (o : Operand) (c : Nat) (s : State) : ∃ t, execLdcr o c s = .next t := by
  unfold execLdcr
  cases cruWidth c <;> exact ⟨_, rfl⟩

theorem execStcr_completes (o : Operand) (c : Nat) (s : State) : ∃ t, execStcr o c s = .next t := by
  unfold execStcr
  cases cruWidth c <;> exact ⟨_, rfl⟩

theorem execDiv_completes (o : Operand) (d : RegNo) (s : State) : ∃ t, execDiv o d s = .next t := by
  unfold execDiv
  dsimp only
  split <;> exact ⟨_, rfl⟩

/-- Executed through X, every instruction completes; an X that X reads is left pending (R612). -/
theorem executeRead_completes (w : Word) (i : Instr) (s : State) : ∃ t, executeRead w i s = .next t := by
  cases i with
  | ldcr o c => exact execLdcr_completes o c s
  | stcr o c => exact execStcr_completes o c s
  | div o d => exact execDiv_completes o d s
  | _ => exact ⟨_, rfl⟩

/-- The word that X reads is executed, or refused as an alternate word. -/
theorem executeWord_safe (w : Word) (s : State) :
    (∃ t, executeWord w s = .next t) ∨ ∃ i, decodeWord w = .alternate i ∧ executeWord w s = .refused (.aliasWord w) := by
  cases h : decodeWord w with
  | instr i => exact .inl (executeWord_instr h s ▸ executeRead_completes w i s)
  | illegal => exact .inl ⟨_, executeWord_illegal h s⟩
  | alternate i => exact .inr ⟨i, rfl, executeWord_alternate h s⟩

/-- An instruction completes, or it is an X that has read an alternate word. -/
theorem exec_safe (i : Instr) (s : State) :
    (∃ t, exec i s = .next t) ∨
      ∃ o j, i = .x o ∧ decodeWord (readWordOp o s).val = .alternate j ∧
        exec i s = .refused (.aliasWord (readWordOp o s).val) := by
  cases hx : isX i with
  | false => exact .inl (executeRead_eq_exec 0 i s hx ▸ executeRead_completes 0 i s)
  | true =>
    cases i with
    | x o =>
      obtain hn | ⟨j, hj, hr⟩ := executeWord_safe (readWordOp o s).val
        ((readWordOp o s).after.charge (cyclesX + addrCycles o .word))
      · exact .inl hn
      · exact .inr ⟨o, j, rfl, hj, hr⟩
    | _ => cases hx

/-- `v` is the word `w` or, where `w` is an X, the word that this X reads in `s` (R612). -/
def ReadBy (w : Word) (s : State) (v : Word) : Prop :=
  v = w ∨ ∃ o, decodeWord w = .instr (.x o) ∧ v = (readWordOp o s).val

/-- A word completes, or it is refused for an alternate word: itself, or what it reads as an X. -/
theorem runWord_safe (w : Word) (s : State) :
    (∃ t, runWord w s = .next t) ∨
      ∃ v i, runWord w s = .refused (.aliasWord v) ∧ decodeWord v = .alternate i ∧ ReadBy w s v := by
  cases h : decodeWord w with
  | illegal => exact .inl ⟨_, runWord_illegal h s⟩
  | alternate i => exact .inr ⟨w, i, runWord_alternate h s, h, .inl rfl⟩
  | instr i =>
    rw [runWord_instr h]
    obtain hn | ⟨o, j, rfl, hj, hr⟩ := exec_safe i s
    · exact .inl hn
    · exact .inr ⟨_, j, hr, hj, .inr ⟨o, h, rfl⟩⟩

/-! ## The step -/

theorem step_idle {s : State} (hx : s.xPending = none) (hi : s.idle = true) : step s = .next (interruptCheck (idlePass s)) := by
  rw [step, hx, hi]
  rfl

theorem step_fetch {s : State} (hx : s.xPending = none) (hi : s.idle = false) :
    step s = completeStep (runWord (fetchWord s).1 (fetchWord s).2) := by
  rw [step, hx, hi]
  rfl

theorem step_pending {s : State} {w : Word} (hx : s.xPending = some w) :
    step s = completeStep (runWord w { s with xPending := none }) := by
  rw [step, hx]

theorem completeStep_runWord_safe (w : Word) (s : State) :
    (∃ t, completeStep (runWord w s) = .next t) ∨
      ∃ v i, completeStep (runWord w s) = .refused (.aliasWord v) ∧ decodeWord v = .alternate i ∧ ReadBy w s v := by
  obtain ⟨t, ht⟩ | ⟨v, i, hr, hv, hw⟩ := runWord_safe w s
  · exact .inl ⟨_, congrArg completeStep ht⟩
  · exact .inr ⟨v, i, congrArg completeStep hr, hv, hw⟩

/-- Settles O57: an idle step completes, and the other two kinds of step run one word. -/
theorem stepSafe : Obligations.StepSafe := by
  intro s
  cases hx : s.xPending with
  | some w =>
    rw [step_pending hx]
    obtain hn | ⟨v, i, hr, hv, hw⟩ := completeStep_runWord_safe w { s with xPending := none }
    · exact .inl hn
    · exact .inr ⟨v, i, hr, hv, .inr ⟨w, rfl, hw⟩⟩
  | none =>
    cases hi : s.idle with
    | true => exact .inl ⟨_, step_idle hx hi⟩
    | false =>
      rw [step_fetch hx hi]
      obtain hn | ⟨v, i, hr, hv, hw⟩ := completeStep_runWord_safe (fetchWord s).1 (fetchWord s).2
      · exact .inl hn
      · exact .inr ⟨v, i, hr, hv, .inl ⟨rfl, rfl, hw⟩⟩

/-- Settles O8: the word fetched is the alternate word that `runWord` refuses. -/
theorem stepAliasRefused : Obligations.StepAliasRefused := by
  intro s i hx hi h
  rw [step_fetch hx hi, runWord_alternate h]
  rfl

end Sys2Proof.Machine
end

section
/-! One fetched word, run (R404, R412, R612, R958): what the fetch leaves, the illegal-opcode path, and what X does with the word it
reads. -/

namespace Sys2Proof.Machine

/-! ## The fetch (R404, R420) -/

/-- The word at PC as its bus read delivers it; PC, which the read leaves alone, has moved past it. -/
theorem fetchWord_eq (s : State) : fetchWord s = ((busRead s s.pc).1, (busRead s s.pc).2.setPc (s.pc + 2)) := by
  rw [fetchWord, busRead_pc]

/-- Settles O6. -/
theorem stepRunsInstruction : Obligations.StepRunsInstruction := by
  intro s i hx hi _ hd
  refine ⟨?_, busRead_value s s.pc, ?_⟩
  · rw [step_fetch hx hi, runWord_instr hd]
  · rw [fetchWord_eq]

/-! ## The illegal-opcode path (R412) -/

/-- The path logs, counts and charges, each by one field; only the log depends on the count. -/
theorem illegalOpcode_eq (s : State) (w : Word) :
    illegalOpcode s w = { s with
      trace := s.trace ++ (if s.illegalCount < 256 then [Event.log (s.pc - 2) w] else [])
      illegalCount := s.illegalCount + 1
      consumed := s.consumed + Config.illegalCycles } := by
  by_cases h : s.illegalCount < 256
  · rw [illegalOpcode, if_pos (show s.illegalCount < Config.illegalLogBound from h), if_pos h]
    rfl
  · rw [illegalOpcode, if_neg (show ¬ s.illegalCount < Config.illegalLogBound from h), if_neg h, List.append_nil]
    rfl

/-- The interrupt check follows every completed instruction (R958). -/
theorem afterInstr_of_none {s : State} (h : s.xPending = none) : afterInstr s = interruptCheck s := by
  rw [afterInstr, h]
  rfl

/-- Settles O7: the state is the illegal-opcode path's, run on what the fetch leaves. -/
theorem stepIllegalWord : Obligations.StepIllegalWord := by
  intro s hx hi hd
  have hnone : (illegalOpcode (fetchWord s).2 (fetchWord s).1).xPending = none := by
    rw [illegalOpcode_eq]
    exact (busRead_xPending s s.pc).trans hx
  have hstep : step s = .next (interruptCheck (illegalOpcode (fetchWord s).2 (fetchWord s).1)) := by
    rw [step_fetch hx hi, runWord_illegal hd]
    exact congrArg Host.Outcome.next (afterInstr_of_none hnone)
  rw [illegalOpcode_eq, fetchWord_eq] at hstep
  refine ⟨_, hstep, rfl, congrArg (· + 1) (busRead_illegalCount s s.pc), ?_, rfl, rfl⟩
  simp only [State.setPc_pc, State.setPc_trace, State.setPc_illegalCount, pcValue_keep, busRead_illegalCount,
    BitVec.add_sub_cancel, fetchWord_eq]

/-! ## X (R612) -/

/-- X evaluates and reads its operand, charges its own part of the cycles (R433) and hands the word over. -/
theorem exec_x (o : Operand) (s : State) :
    exec (.x o) s = executeWord (readWordOp o s).val ((readWordOp o s).after.charge (4 + addrCycles o .word)) := rfl

/-- A step that finds the word of an X pending runs that X, with no fetch before it (log 18). -/
theorem step_pending_x {s : State} {w : Word} {o : Operand} (hx : s.xPending = some w) (hd : decodeWord w = .instr (.x o)) :
    step s = completeStep (exec (.x o) { s with xPending := none }) := by
  rw [step_pending hx, runWord_instr hd]

/-- Settles O47: the word that X reads is executed as `exec` executes it, left pending, or taken to the illegal-opcode path. -/
theorem executeX : Obligations.ExecuteX := by
  intro o s
  refine ⟨(Laws.MatchesRow.x o).1, fun i hd hi => ?_, fun o' hd => ?_, fun hd => ?_⟩
  · rw [exec_x, executeWord_instr hd]
    exact ⟨executeRead_eq_exec _ i _ hi, executeRead_completes _ i _⟩
  · refine ⟨_, ?_, rfl, step_pending_x rfl hd⟩
    rw [exec_x, executeWord_instr hd]
    rfl
  · rw [exec_x, executeWord_illegal hd]

end Sys2Proof.Machine
end

section
/-! Workspace registers, the operand forms and the halves of words (R110, R201, R210 to R213, R420 to R426). -/

namespace Sys2Proof.Machine

/-! ## Register addresses (R12, R110) -/

theorem regOffset_toNat (r : RegNo) : (2 * r.setWidth 16 : Word).toNat = 2 * r.toNat := by
  have hr := r.isLt
  rw [BitVec.toNat_mul, BitVec.toNat_setWidth]
  change 2 * (r.toNat % 2 ^ 16) % 2 ^ 16 = 2 * r.toNat
  omega

theorem regAddr_eq (s : State) (r : RegNo) : regAddr s r = BitVec.ofNat 16 ((s.wp.toNat + 2 * r.toNat) % 65536) := by
  apply BitVec.eq_of_toNat_eq
  rw [regAddr, regAddrAt, BitVec.toNat_add, regOffset_toNat, BitVec.toNat_ofNat, Nat.mod_mod]

/-- The registers of one workspace are sixteen different words, whatever WP is and wherever it wraps. -/
theorem regAddr_apart (s : State) {r d : RegNo} (h : r ≠ d) :
    (even (regAddr s r)).toNat % 256 ≠ (even (regAddr s d)).toNat % 256 := by
  have hr := r.isLt
  have hd := d.isLt
  have hne : r.toNat ≠ d.toNat := fun e => h (BitVec.eq_of_toNat_eq e)
  apply even_add_ne <;> simp only [regOffset_toNat] <;> omega

/-- In a workspace in plain RAM a register holds what was written to it. -/
theorem regValue_writeReg_same {s : State} (hp : PlainWorkspace s) (d : RegNo) (v : Word) :
    regValue (writeReg s d v) d = v := by
  rw [regValue, writeReg, regAddr_busWrite, fastRead_busWrite_same (hp d)]

/-- In a workspace in plain RAM a register write leaves the other registers alone. -/
theorem regValue_writeReg_other {s : State} (hp : PlainWorkspace s) {r d : RegNo} (h : r ≠ d) (v : Word) :
    regValue (writeReg s d v) r = regValue s r := by
  rw [regValue, writeReg, regAddr_busWrite, fastRead_busWrite_other (hp d) (hp r) (regAddr_apart s h), regValue]

/-! ## Operand forms (R310, R421) -/

theorem ea_idx (r : RegNo) (n : Width) (s : State) :
    ea (.idx r) n s =
      ((fetchWord s).1 + (busRead (fetchWord s).2 (regAddr s r)).1, (busRead (fetchWord s).2 (regAddr s r)).2) := by
  rw [← regAddr_fetchWord s r]
  rfl

theorem ea_inc (r : RegNo) (n : Width) (s : State) :
    ea (.inc r) n s =
      ((busRead s (regAddr s r)).1,
        busWrite (busRead s (regAddr s r)).2 (regAddr s r) ((busRead s (regAddr s r)).1 + n.step)) := by
  rw [ea, readReg, writeReg, regAddr_busRead]

/-! ## Words and their halves (R201, R210, R212, R213) -/

theorem even_eq_ofNat (a : Word) : BitVec.ofNat 16 (a.toNat / 2 * 2) = even a := by
  rw [← even_toNat, BitVec.ofNat_toNat, BitVec.setWidth_eq]

/-- A word read ignores bit 0 of the address (R210). -/
theorem busRead_even (s : State) (a : Word) : busRead s (even a) = busRead s a := by
  unfold busRead
  rw [even_even]

/-- A word write ignores bit 0 of the address (R210). -/
theorem busWrite_even (s : State) (a v : Word) : busWrite s (even a) v = busWrite s a v := by
  unfold busWrite
  rw [even_even]

theorem hiByte_toNat (w : Word) : (hiByte w).toNat = w.toNat / 256 := by
  have hw := w.isLt
  rw [hiByte, field_toNat]
  omega

theorem loByte_toNat (w : Word) : (loByte w).toNat = w.toNat % 256 := by
  rw [loByte, field_toNat, Nat.pow_zero, Nat.div_one]
  rfl

theorem wordOf_toNat (h l : Byte) : (wordOf h l).toNat = h.toNat * 256 + l.toNat := by
  rw [wordOf, BitVec.toNat_append, ← Nat.shiftLeft_add_eq_or_of_lt l.isLt, Nat.shiftLeft_eq]

theorem lsb_iff (a : Word) : a.getLsbD 0 = true ↔ ¬ a.toNat % 2 = 0 := by
  rw [lsb_eq, decide_eq_true_iff, Nat.mod_two_not_eq_zero]

theorem byteOf_toNat (a w : Word) : (byteOf a w).toNat = if a.toNat % 2 = 0 then w.toNat / 256 else w.toNat % 256 := by
  simp only [byteOf, lsb_iff, ite_not, apply_ite BitVec.toNat, hiByte_toNat, loByte_toNat]

theorem mergeByte_toNat (a : Word) (b : Byte) (w : Word) :
    (mergeByte a b w).toNat =
      if a.toNat % 2 = 0 then b.toNat * 256 + w.toNat % 256 else w.toNat / 256 * 256 + b.toNat := by
  simp only [mergeByte, lsb_iff, ite_not, apply_ite BitVec.toNat, wordOf_toNat, hiByte_toNat, loByte_toNat]

/-- Settles O22. -/
theorem registersAndOperands : Obligations.RegistersAndOperands := by
  refine ⟨fun s d v hp => ?_, fun s r n => ?_, fun s o => ?_, fun s a w b => ?_⟩
  · exact ⟨regValue_writeReg_same hp d v, busWrite_wp s _ v, fun r h => regValue_writeReg_other hp h v⟩
  · have hidx := ea_idx r n s
    rw [fetchWord_eq] at hidx
    rw [← regAddr_eq]
    refine ⟨rfl, rfl, fun _ => rfl, rfl, rfl, fetchWord_eq s, hidx, ?_⟩
    cases n <;> exact ea_inc r _ s
  · exact ⟨rfl, rfl, rfl, rfl, byteOf_toNat _ _⟩
  · rw [even_eq_ofNat, busRead_even, busWrite_even]
    exact ⟨mergeByte_toNat a b w, rfl, rfl, byteOf_toNat a _, rfl, rfl⟩

end Sys2Proof.Machine
end

section
/-! The run call (R400 to R405): the passes by their kind, and what a call that returns gives. -/

namespace Sys2Proof.Machine

/-! ## Kinds of passes (R400) -/

/-- The pass ends the call: the budget is consumed, and no X is in progress. -/
def CallEnded (budget : Int) (s : State) : Prop := s.xPending = none ∧ budget ≤ s.consumed

/-- PC is at one of the two breakpoints (R122, R123). -/
def AtBreakpoint (s : State) : Prop := s.breakpoint = some s.pc ∨ s.auxBreakpoint = some s.pc

/-- The pass looks at the breakpoints and finds one hit. -/
def StopsAtBreakpoint (checked : Bool) (s : State) : Prop :=
  s.xPending = none ∧ s.idle = false ∧ checked = true ∧ AtBreakpoint s

theorem callEnded_iff (budget : Int) (s : State) :
    (s.xPending.isNone && decide (budget ≤ s.consumed)) = true ↔ CallEnded budget s := by
  rw [Bool.and_eq_true, Option.isNone_iff_eq_none, decide_eq_true_iff, CallEnded]

theorem breakpointHit_iff (s : State) : breakpointHit s = true ↔ AtBreakpoint s := by
  rw [breakpointHit, Bool.or_eq_true, beq_iff_eq, beq_iff_eq, AtBreakpoint]

theorem stopsAtBreakpoint_iff (checked : Bool) (s : State) :
    (s.xPending.isNone && !s.idle && checked && breakpointHit s) = true ↔ StopsAtBreakpoint checked s := by
  simp only [Bool.and_eq_true, Option.isNone_iff_eq_none, Bool.not_eq_true', breakpointHit_iff, and_assoc, StopsAtBreakpoint]

section
variable {budget : Int} {fuel : Nat} {checked : Bool} {s t : State}

theorem runLoop_ended (he : CallEnded budget s) :
    runLoop budget (fuel + 1) checked s = .returned (s.consumed - budget) s := by
  rw [runLoop, if_pos ((callEnded_iff budget s).2 he), overshoot]

theorem runLoop_breakpoint (he : ¬ CallEnded budget s) (hb : StopsAtBreakpoint checked s) :
    runLoop budget (fuel + 1) checked s = .returned (s.consumed - budget) (takeBreakpoint s) := by
  rw [runLoop, if_neg (mt (callEnded_iff budget s).1 he), if_pos ((stopsAtBreakpoint_iff checked s).2 hb), overshoot]

theorem runLoop_next (he : ¬ CallEnded budget s) (hb : ¬ StopsAtBreakpoint checked s) (hn : step s = .next t) :
    runLoop budget (fuel + 1) checked s = runLoop budget fuel true t := by
  rw [runLoop, if_neg (mt (callEnded_iff budget s).1 he), if_neg (mt (stopsAtBreakpoint_iff checked s).1 hb), hn]

theorem runLoop_refused {r : Refusal} (he : ¬ CallEnded budget s) (hb : ¬ StopsAtBreakpoint checked s)
    (hn : step s = .refused r) : runLoop budget (fuel + 1) checked s = .refused r s := by
  rw [runLoop, if_neg (mt (callEnded_iff budget s).1 he), if_neg (mt (stopsAtBreakpoint_iff checked s).1 hb), hn]

end

/-! ## What a call returns (R403) -/

/-- Only the run call itself writes `stopped` (R121). -/
theorem stopped_preserved : Preserved fun s => s.stopped = false where
  core _ _ _ _ _ _ _ _ _ _ hs := hs
  read s a hs := (busRead_stopped s a).trans hs
  write s a v hs := (busWrite_stopped s a v).trans hs
  cru s a v hs := (congrArg State.stopped (cruWrite_offCru s a v)).trans hs

/-- At a normal end the budget is consumed; at a breakpoint it is not, and `stopped` tells the two apart. -/
theorem runLoop_returned {budget r : Int} {t : State} (fuel : Nat) (checked : Bool) (s : State) (hs : s.stopped = false)
    (h : runLoop budget fuel checked s = .returned r t) :
    r = t.consumed - budget ∧ (t.stopped = false → 0 ≤ r) ∧ (t.stopped = true → r ≤ 0) := by
  induction fuel generalizing checked s with
  | zero => cases h
  | succ fuel ih =>
    by_cases he : CallEnded budget s
    · have hc : budget ≤ s.consumed := he.2
      rw [runLoop_ended he] at h
      cases h
      exact ⟨rfl, fun _ => by omega, fun hst => by rw [hs] at hst; cases hst⟩
    by_cases hb : StopsAtBreakpoint checked s
    · have hc : ¬ budget ≤ s.consumed := fun hc => he ⟨hb.1, hc⟩
      rw [runLoop_breakpoint he hb] at h
      cases h
      exact ⟨rfl, (nomatch ·), fun _ => by omega⟩
    cases hn : step s with
    | next u => exact ih true u (step_kept stopped_preserved hs hn) (runLoop_next he hb hn ▸ h)
    | fault f => cases f
    | refused f => rw [runLoop_refused he hb hn] at h; cases h

/-! ## How a call starts (R400) -/

/-- The state in which the first pass finds the machine. -/
def callStart (s : State) : State := { s with consumed := 0, stopped := false }

theorem run_eq (fuel : Nat) (budget : Int) (skip : Bool) (s : State) :
    run fuel budget skip s = runLoop budget fuel (!skip) (callStart s) := rfl

theorem callEnded_callStart_iff (budget : Int) (s : State) : CallEnded budget (callStart s) ↔ s.xPending = none ∧ budget ≤ 0 :=
  Iff.rfl

/-- A call that its first pass ends returns `-budget`: no cycles are consumed. -/
theorem returned_callStart (budget : Int) (s t : State) :
    RunResult.returned ((callStart s).consumed - budget) t = .returned (-budget) t :=
  congrArg (RunResult.returned · t) (Int.zero_sub budget)

/-- Settles O58: each pass is of one kind, and what a call returns follows by induction on the passes. -/
theorem runCall : Obligations.RunCall := by
  refine ⟨run_eq, fun fuel budget checked s => ?_, fun fuel budget skip s t r h => ?_,
    fun fuel budget skip s hx hb => ?_, fun fuel budget s hx hi hb hbp => ?_⟩
  · exact ⟨runLoop_ended, runLoop_breakpoint, fun he hb => ⟨fun _ => runLoop_next he hb, fun _ => runLoop_refused he hb⟩⟩
  · exact runLoop_returned fuel (!skip) _ rfl h
  · rw [run_eq, runLoop_ended ((callEnded_callStart_iff budget s).2 ⟨hx, hb⟩)]
    exact returned_callStart budget s _
  · have he : ¬ CallEnded budget (callStart s) := fun he => by
      have := (callEnded_callStart_iff budget s).1 he
      omega
    constructor
    · rw [run_eq, Bool.not_false, runLoop_breakpoint he ⟨hx, hi, rfl, hbp⟩]
      exact returned_callStart budget s _
    · intro t hn
      exact runLoop_next he (fun ⟨_, _, hc, _⟩ => nomatch hc) hn

end Sys2Proof.Machine
end

section
/-! The arithmetic instructions that write a sum or a difference: A, AB, S, SB, AI, INC, INCT, DEC, DECT and NEG (R445, R450 to R453,
R462 to R467). -/

namespace Sys2Proof.Machine

open Sys2Proof.Laws

/-- An instruction's word has the fixed bits of its row of the opcode table (R320). -/
theorem rowBits_tableRow {i : Instr} (h : MatchesRow.Statement i) : rowBits i (tableRow i).bits (tableRow i).mask := h.1

/-! ## Carry and overflow (R445) -/

theorem addN_carry_iff {n : Nat} (x y : BitVec n) : (addN x y).carry = true ↔ 2 ^ n ≤ x.toNat + y.toNat := decide_eq_true_iff

theorem subN_carry_iff {n : Nat} (d x : BitVec n) : (subN d x).carry = true ↔ x.toNat ≤ d.toNat := decide_eq_true_iff

theorem outOfRange_word_iff (x : Int) : outOfRange 16 x ↔ x < -32768 ∨ 32768 ≤ x := Iff.rfl

/-- The signed range of a word. -/
theorem word_toInt_range (x : Word) : -32768 ≤ x.toInt ∧ x.toInt < 32768 := ⟨x.le_toInt, x.toInt_lt⟩

/-- A new ST that a word sum gave, with its C and OV stated as `c` and `v`. -/
theorem flags_of_sum16 {st st' : Word} {r : Sum 16} {c v : Prop} (h : st' = sumFlags16 st r) (hc : r.carry = true ↔ c)
    (hv : r.ovf = true ↔ v) : laeOf16 st' r.val ∧ carryOverflow st' c v ∧ agreeOff 0xF800 st st' := by
  subst h
  obtain ⟨hlae, hcov, hoff⟩ := sumFlags16_spec st r
  exact ⟨hlae, carryOverflow_iff hcov hc hv, hoff⟩

/-- A new ST that a byte sum gave, with its C and OV stated as `c` and `v`. -/
theorem flags_of_sum8 {st st' : Word} {r : Sum 8} {c v : Prop} (h : st' = sumFlags8 st r) (hc : r.carry = true ↔ c)
    (hv : r.ovf = true ↔ v) : laeOf8 st' r.val ∧ carryOverflow st' c v ∧ agreeOff 0xFC00 st st' := by
  subst h
  obtain ⟨hlae, hcov, hoff⟩ := sumFlags8_spec st r
  exact ⟨hlae, carryOverflow_iff hcov hc hv, hoff⟩

/-! ## The shapes with a sum as their operation -/

theorem dualWord_sum (src dst : Operand) (f : Word → Word → Sum 16) (s : State) {c v : Prop} :
    let p := readWordOp src s
    let q := readWordOp dst p.after
    let r := f q.val p.val
    (r.carry = true ↔ c) → (r.ovf = true ↔ v) →
    ∃ t, dualWord src dst (fun x d st => ((f d x).val, sumFlags16 st (f d x))) s = .next t ∧
      endsAs (busWrite q.after q.addr r.val) (14 + addrCycles src .word + addrCycles dst .word) t ∧ laeOf16 t.st r.val ∧
      carryOverflow t.st c v ∧ agreeOff 0xF800 s.st t.st ∧
      Framed s t (src.extWords + dst.extWords) (incCells src s ++ incCells dst p.after ++ storedCells q.after q.addr)
        (readCalm src p.addr s && readCalm dst q.addr p.after && plainRam q.after q.addr) := by
  intro p q r hc hv
  obtain ⟨t, hn, hst, hend, hframe⟩ := dualWord_spec src dst (fun x d st => ((f d x).val, sumFlags16 st (f d x))) s
  obtain ⟨hlae, hcov, hoff⟩ := flags_of_sum16 hst hc hv
  exact ⟨t, hn, hend, hlae, hcov, hoff, hframe⟩

theorem dualByte_sum (src dst : Operand) (f : Byte → Byte → Sum 8) (s : State) {c v : Prop} :
    let p := readByteOp src s
    let q := readByteOp dst p.after
    let r := f q.val p.val
    (r.carry = true ↔ c) → (r.ovf = true ↔ v) →
    ∃ t, dualByte src dst (fun x d st => ((f d x).val, sumFlags8 st (f d x))) s = .next t ∧
      endsAs (busWrite q.after q.addr (mergeByte q.addr r.val q.old)) (14 + addrCycles src .byte + addrCycles dst .byte) t ∧
      laeOf8 t.st r.val ∧ carryOverflow t.st c v ∧ agreeOff 0xFC00 s.st t.st ∧
      Framed s t (src.extWords + dst.extWords) (incCells src s ++ incCells dst p.after ++ storedCells q.after q.addr)
        (readCalm src p.addr s && readCalm dst q.addr p.after && plainRam q.after q.addr) := by
  intro p q r hc hv
  obtain ⟨t, hn, hst, hend, hframe⟩ := dualByte_spec src dst (fun x d st => ((f d x).val, sumFlags8 st (f d x))) s
  obtain ⟨hlae, hcov, hoff⟩ := flags_of_sum8 hst hc hv
  exact ⟨t, hn, hend, hlae, hcov, hoff, hframe⟩

theorem singleWord_sum (o : Operand) (k : Nat) (f : Word → Sum 16) (s : State) {c v : Prop} :
    let p := readWordOp o s
    let r := f p.val
    (r.carry = true ↔ c) → (r.ovf = true ↔ v) →
    ∃ t, singleWord o k (fun x st => ((f x).val, sumFlags16 st (f x))) s = .next t ∧
      endsAs (busWrite p.after p.addr r.val) (k + addrCycles o .word) t ∧ laeOf16 t.st r.val ∧ carryOverflow t.st c v ∧
      agreeOff 0xF800 s.st t.st ∧
      Framed s t o.extWords (incCells o s ++ storedCells p.after p.addr)
        (readCalm o p.addr s && plainRam p.after p.addr) := by
  intro p r hc hv
  obtain ⟨t, hn, hst, hend, hframe⟩ := singleWord_spec o k (fun x st => ((f x).val, sumFlags16 st (f x))) s
  obtain ⟨hlae, hcov, hoff⟩ := flags_of_sum16 hst hc hv
  exact ⟨t, hn, hend, hlae, hcov, hoff, hframe⟩

theorem immediateWord_sum (w : RegNo) (f : Word → Word → Sum 16) (s : State) {c v : Prop} :
    let i := fetchWord s
    let x := readReg i.2 w
    let r := f x.1 i.1
    (r.carry = true ↔ c) → (r.ovf = true ↔ v) →
    ∃ t, immediateWord w (fun x i st => ((f x i).val, sumFlags16 st (f x i))) s = .next t ∧
      endsAs (writeReg x.2 w r.val) 14 t ∧ laeOf16 t.st r.val ∧ carryOverflow t.st c v ∧ agreeOff 0xF800 s.st t.st ∧
      Framed s t 1 (storedCells s (regAddr s w)) (quietRead s s.pc && plainRam s (regAddr s w)) := by
  intro i x r hc hv
  obtain ⟨t, hn, hst, hend, hframe⟩ := immediateWord_spec w (fun x i st => ((f x i).val, sumFlags16 st (f x i))) s
  obtain ⟨hlae, hcov, hoff⟩ := flags_of_sum16 hst hc hv
  exact ⟨t, hn, hend, hlae, hcov, hoff, hframe⟩

/-! ## A, S, AI, AB and SB (R450 to R453, R462) -/

/-- Settles O29: the two-operand and the immediate shape, with `addN` and `subN` as their sums. -/
theorem addSubWords : Obligations.AddSubWords := by
  refine ⟨fun src dst s => ⟨?_, ?_, ?_, ?_⟩, fun w s => ⟨?_, ?_⟩⟩
  · exact rowBits_tableRow (MatchesRow.a src dst)
  · exact rowBits_tableRow (MatchesRow.s src dst)
  · exact dualWord_sum src dst addN s (addN_carry_iff _ _) (addN_ovf_iff _ _)
  · exact dualWord_sum src dst subN s (subN_carry_iff _ _) (subN_ovf_iff _ _)
  · exact rowBits_tableRow (MatchesRow.ai w)
  · exact immediateWord_sum w addN s (addN_carry_iff _ _) (addN_ovf_iff _ _)

/-- Settles O30: the byte shape, with `addN` and `subN` as its sums. -/
theorem addSubBytes : Obligations.AddSubBytes := by
  refine fun src dst s => ⟨?_, ?_, ?_, ?_⟩
  · exact rowBits_tableRow (MatchesRow.ab src dst)
  · exact rowBits_tableRow (MatchesRow.sb src dst)
  · exact dualByte_sum src dst addN s (addN_carry_iff _ _) (addN_ovf_iff _ _)
  · exact dualByte_sum src dst subN s (subN_carry_iff _ _) (subN_ovf_iff _ _)

/-! ## INC, INCT, DEC, DECT and NEG (R463 to R467) -/

theorem addN_one_carry_iff (x : Word) : (addN x 1).carry = true ↔ x.toNat = 0xFFFF := by
  have hx := x.isLt
  rw [addN_carry_iff, show (1 : Word).toNat = 1 from rfl]
  omega

theorem addN_two_carry_iff (x : Word) : (addN x 2).carry = true ↔ 0xFFFE ≤ x.toNat := by
  rw [addN_carry_iff, show (2 : Word).toNat = 2 from rfl]
  omega

theorem subN_one_carry_iff (x : Word) : (subN x 1).carry = true ↔ x.toNat ≠ 0 := by
  rw [subN_carry_iff, show (1 : Word).toNat = 1 from rfl]
  omega

theorem zero_subN_carry_iff (x : Word) : (subN 0 x).carry = true ↔ x.toNat = 0 := by
  rw [subN_carry_iff, show (0 : Word).toNat = 0 from rfl]
  omega

theorem addN_one_ovf_iff (x : Word) : (addN x 1).ovf = true ↔ x.toInt = 32767 := by
  have hx := word_toInt_range x
  rw [addN_ovf_iff, outOfRange_word_iff, show (1 : Word).toInt = 1 from rfl]
  omega

theorem addN_two_ovf_iff (x : Word) : (addN x 2).ovf = true ↔ 32766 ≤ x.toInt := by
  have hx := word_toInt_range x
  rw [addN_ovf_iff, outOfRange_word_iff, show (2 : Word).toInt = 2 from rfl]
  omega

theorem subN_one_ovf_iff (x : Word) : (subN x 1).ovf = true ↔ x.toInt = -32768 := by
  have hx := word_toInt_range x
  rw [subN_ovf_iff, outOfRange_word_iff, show (1 : Word).toInt = 1 from rfl]
  omega

theorem subN_two_ovf_iff (x : Word) : (subN x 2).ovf = true ↔ x.toInt ≤ -32767 := by
  have hx := word_toInt_range x
  rw [subN_ovf_iff, outOfRange_word_iff, show (2 : Word).toInt = 2 from rfl]
  omega

theorem zero_subN_ovf_iff (x : Word) : (subN 0 x).ovf = true ↔ x.toInt = -32768 := by
  have hx := word_toInt_range x
  rw [subN_ovf_iff, outOfRange_word_iff, show (0 : Word).toInt = 0 from rfl]
  omega

theorem zero_subN_val (x : Word) : (subN 0 x).val = -x := BitVec.zero_sub x

/-- Settles O31: the one-operand shape, with a sum whose other term is a constant. -/
theorem incDecNeg : Obligations.IncDecNeg := by
  refine fun o s => ⟨?_, ?_, ?_, ?_, ?_, ?_, ?_, ?_, ?_, ?_⟩
  · exact rowBits_tableRow (MatchesRow.inc o)
  · exact rowBits_tableRow (MatchesRow.inct o)
  · exact rowBits_tableRow (MatchesRow.dec o)
  · exact rowBits_tableRow (MatchesRow.dect o)
  · exact rowBits_tableRow (MatchesRow.neg o)
  · exact singleWord_sum o 10 (addN · 1) s (addN_one_carry_iff _) (addN_one_ovf_iff _)
  · exact singleWord_sum o 10 (addN · 2) s (addN_two_carry_iff _) (addN_two_ovf_iff _)
  · exact singleWord_sum o 10 (subN · 1) s (subN_one_carry_iff _) (subN_one_ovf_iff _)
  · exact singleWord_sum o 10 (subN · 2) s (subN_carry_iff _ _) (subN_two_ovf_iff _)
  · rw [← zero_subN_val]
    exact singleWord_sum o 12 (subN 0) s (zero_subN_carry_iff _) (zero_subN_ovf_iff _)

end Sys2Proof.Machine
end

section
/-! ABS (R468): the flags, the negative operand that is replaced by its magnitude and the other that is not written. -/

namespace Sys2Proof.Machine

open Sys2Proof.Laws

/-- The new ST of ABS. -/
theorem absFlags_spec (st x : Word) :
    laeOf16 (putCOV (cmpZero16 st x) false (decide (x = 0x8000))) x ∧
    carryOverflow (putCOV (cmpZero16 st x) false (decide (x = 0x8000))) False (x = 0x8000) :=
  ⟨laeAre_putCOV _ _ (laeOf16_cmpZero16 st x),
    carryOverflow_iff (carryOverflow_putCOV _ _ _) Bool.false_eq_true.to_iff decide_eq_true_iff⟩

/-- Bit 15 is the sign. -/
theorem getLsbD_15_eq (x : Word) : x.getLsbD 15 = decide (x.toInt < 0) := BitVec.msb_eq_toInt (x := x)

theorem execAbs_of_nonneg {o : Operand} {s : State} (h : 0 ≤ (readWordOp o s).val.toInt) :
    let p := readWordOp o s
    execAbs o s =
      finishWith p.after (putCOV (cmpZero16 s.st p.val) false (decide (p.val = 0x8000))) (12 + addrCycles o .word) := by
  have hsign : (readWordOp o s).val.getLsbD 15 = false := (getLsbD_15_eq _).trans (decide_eq_false (Int.not_lt.mpr h))
  simp only [execAbs, cyclesAbs, hsign, Bool.false_eq_true, if_false]

theorem execAbs_of_neg {o : Operand} {s : State} (h : (readWordOp o s).val.toInt < 0) :
    let p := readWordOp o s
    execAbs o s =
      finishWith (busWrite p.after p.addr (0 - p.val)) (putCOV (cmpZero16 s.st p.val) false (decide (p.val = 0x8000)))
        (14 + addrCycles o .word) := by
  have hsign : (readWordOp o s).val.getLsbD 15 = true := (getLsbD_15_eq _).trans (decide_eq_true h)
  simp only [execAbs, cyclesAbs, hsign, if_true]

/-- The negation of a negative word is its magnitude; that of 0x8000 is 0x8000. -/
theorem zero_sub_eq_natAbs {x : Word} (h : x.toInt < 0) : 0 - x = BitVec.ofNat 16 x.toInt.natAbs := by
  apply BitVec.eq_of_toNat_eq
  have hx := x.isLt
  rw [BitVec.toInt_eq_toNat_cond] at h ⊢
  rw [BitVec.toNat_sub, BitVec.toNat_ofNat, show (0 : Word).toNat = 0 from rfl]
  split at h <;> omega

/-- Settles O32, by the sign of the operand. -/
theorem absValue : Obligations.AbsValue := by
  intro o s p
  refine ⟨rowBits_tableRow (MatchesRow.abs o), ?_⟩
  have hread := readWordOp_part o s
  obtain ⟨hlae, hcov⟩ := absFlags_spec s.st p.val
  have hoff := agreeOff_absFlags s.st p.val false (decide (p.val = 0x8000))
  by_cases hneg : p.val.toInt < 0
  · refine ⟨_, execAbs_of_neg hneg, hlae, hcov, hoff, fun h => absurd hneg (Int.not_lt.mpr h), fun _ => ?_⟩
    rw [← zero_sub_eq_natAbs hneg]
    exact ⟨endsAs_finish _ _ _, (hread.trans (Part.write _ _ _)).finish _ _⟩
  · exact ⟨_, execAbs_of_nonneg (Int.not_lt.mp hneg), hlae, hcov, hoff,
      fun _ => ⟨endsAs_finish _ _ _, hread.finish _ _⟩, fun h => absurd h hneg⟩

end Sys2Proof.Machine
end

section
/-! MPY and DIV (R112, R472 to R474): the 32-bit numbers they compute with, and the two writes of the register pair. -/

namespace Sys2Proof.Machine

open Sys2Proof.Laws

/-! ## The register pair (R112) -/

/-- Two words written one after the other. -/
theorem Part.write_two (s : State) (a b v w : Word) :
    Part s (busWrite (busWrite s a v) b w) 0 (storedCells s a ++ storedCells (busWrite s a v) b)
      (plainRam s a && plainRam (busWrite s a v) b) :=
  (Part.write s a v).trans (Part.write _ b w)

/-- W[D] and W[D+1] written, in a state with the WP of `s`. -/
theorem writePair_eq {s u : State} {d : RegNo} (h : regAddr u d = regAddr s d) (v w : Word) :
    busWrite (writeReg u d v) (pairAddr (writeReg u d v) d) w =
      busWrite (busWrite u (regAddr s d) v) (regAddr s d + 2) w := by
  rw [pairAddr, writeReg, regAddr_busWrite, h]

/-- A word operand and register `d` read, then W[D] and W[D+1] written: what MPY does (R472). -/
theorem sourcePair_part (src : Operand) (d : RegNo) (s : State) (v w : Word) :
    let p := readWordOp src s
    let x := readReg p.after d
    Part s (busWrite (busWrite x.2 (regAddr s d) v) (regAddr s d + 2) w) src.extWords
      (incCells src s ++ (storedCells x.2 (regAddr s d) ++ storedCells (busWrite x.2 (regAddr s d) v) (regAddr s d + 2)))
      (readCalm src p.addr s &&
        (plainRam x.2 (regAddr s d) && plainRam (busWrite x.2 (regAddr s d) v) (regAddr s d + 2))) := by
  intro p x
  refine ((sourceReg_part src d s).trans (Part.write_two x.2 (regAddr s d) (regAddr s d + 2) v w)).calm fun hcalm => ?_
  have hmap : plainRam x.2 (regAddr s d) = plainRam p.after (regAddr s d) := (busRead_map _ _).plainRam _
  simp only [Bool.and_eq_true] at hcalm ⊢
  obtain ⟨hsrc, hhi, hlo⟩ := hcalm
  exact ⟨⟨hsrc, plainRam_quiet (hmap ▸ hhi)⟩, hhi, hlo⟩

/-- A word operand, W[D] and W[D+1] read, then both written: the bytes that DIV keeps (R473). -/
theorem sourcePairRead_kept (src : Operand) (d : RegNo) (s : State) (v w : Word) :
    let p := readWordOp src s
    let x := readReg p.after d
    let y := busRead x.2 (regAddr s d + 2)
    MemoryKept s (busWrite (busWrite y.2 (regAddr s d) v) (regAddr s d + 2) w)
      (incCells src s ++ storedCells y.2 (regAddr s d) ++
        storedCells (busWrite y.2 (regAddr s d) v) (regAddr s d + 2)) := by
  intro p x y
  obtain ⟨hread, -, -⟩ := (sourceReg_part src d s).trans (Part.read x.2 (regAddr s d + 2))
  rw [List.append_nil] at hread
  exact (hread.trans (busWrite_kept _ _ _)).trans (busWrite_kept _ _ _)

theorem setSt_self (s : State) : s.setSt s.st = s := rfl

/-! ## MPY (R472) -/

/-- The two halves of a 32-bit number. -/
theorem halves_toNat (x : BitVec 32) :
    (x.extractLsb' 16 16).toNat * 65536 + (x.extractLsb' 0 16).toNat = x.toNat := by
  have hx := x.isLt
  rw [BitVec.extractLsb'_toNat, BitVec.extractLsb'_toNat, Nat.shiftRight_eq_div_pow, Nat.shiftRight_zero]
  omega

/-- The product of two words fits in 32 bits. -/
theorem product_toNat (x y : Word) : (x.setWidth 32 * y.setWidth 32 : BitVec 32).toNat = x.toNat * y.toNat := by
  have hx := x.isLt
  have hy := y.isLt
  have hxy : x.toNat * y.toNat < 65536 * 65536 := Nat.mul_lt_mul'' hx hy
  rw [BitVec.toNat_mul, BitVec.toNat_setWidth, BitVec.toNat_setWidth, Nat.mod_eq_of_lt (a := x.toNat) (by omega),
    Nat.mod_eq_of_lt (a := y.toNat) (by omega), Nat.mod_eq_of_lt (by omega)]

theorem execMpy_eq (src : Operand) (d : RegNo) (s : State) :
    let p := readWordOp src s
    let x := readReg p.after d
    let prod : BitVec 32 := x.1.setWidth 32 * p.val.setWidth 32
    execMpy src d s = .next
      ((busWrite (busWrite x.2 (regAddr s d) (prod.extractLsb' 16 16)) (regAddr s d + 2) (prod.extractLsb' 0 16)).charge
        (52 + addrCycles src .word)) := by
  intro p x prod
  have hst := (sourcePair_part src d s (prod.extractLsb' 16 16) (prod.extractLsb' 0 16)).st_eq
  unfold execMpy finishWith
  dsimp only
  rw [writePair_eq ((sourceReg_part src d s).regAddr_eq d), ← hst, setSt_self]
  rfl

/-- Settles O33: the product is its two halves, and the frame is that of the reads and the two writes. -/
theorem multiply : Obligations.Multiply := by
  intro src d s p x
  refine ⟨rowBits_tableRow (MatchesRow.mpy src d), _, _, _, execMpy_eq src d s, ?_, rfl, ?_⟩
  · rw [halves_toNat, product_toNat]
  · exact (sourcePair_part src d s _ _).framed (endsAs_charge _ _)

/-! ## DIV (R473, R474) -/

theorem le_divCycles (n : Nat) (hi lo x : Word) : 92 ≤ Config.divCycles n hi lo x := Nat.le_add_right 92 _

theorem divCycles_le (n : Nat) (hi lo x : Word) : Config.divCycles n hi lo x ≤ 124 := by
  unfold Config.divCycles
  omega

theorem stOV_putOV (st : Word) (v : Bool) : stOV (putOV st v) = v := by
  rw [stOV, putOV_getLsbD, if_pos rfl]

/-- With the high word below the divisor, quotient and remainder fit in a word. -/
theorem div_words {hi lo x : Word} (h : hi.toNat < x.toNat) :
    let n := hi.toNat * 65536 + lo.toNat
    (BitVec.ofNat 16 (n / x.toNat)).toNat = n / x.toNat ∧ (BitVec.ofNat 16 (n % x.toNat)).toNat = n % x.toNat := by
  intro n
  have hlo := lo.isLt
  have hx := x.isLt
  have hquot : n / x.toNat < 65536 := by
    rw [Nat.div_lt_iff_lt_mul (Nat.zero_lt_of_lt h)]
    omega
  have hrem : n % x.toNat < x.toNat := Nat.mod_lt _ (Nat.zero_lt_of_lt h)
  rw [BitVec.toNat_ofNat, BitVec.toNat_ofNat, Nat.mod_eq_of_lt (by omega), Nat.mod_eq_of_lt (by omega)]
  exact ⟨rfl, rfl⟩

theorem execDiv_of_le {src : Operand} {d : RegNo} {s : State}
    (h : (readWordOp src s).val.toNat ≤ (readReg (readWordOp src s).after d).1.toNat) :
    execDiv src d s =
      finishWith (readReg (readWordOp src s).after d).2 (putOV s.st true) (16 + addrCycles src .word) := if_pos h

theorem execDiv_of_lt {src : Operand} {d : RegNo} {s : State}
    (h : (readReg (readWordOp src s).after d).1.toNat < (readWordOp src s).val.toNat) :
    let p := readWordOp src s
    let x := readReg p.after d
    let y := busRead x.2 (regAddr s d + 2)
    let n := x.1.toNat * 65536 + y.1.toNat
    let k := (busWrite (busWrite y.2 (regAddr s d) (BitVec.ofNat 16 (n / p.val.toNat))) (regAddr s d + 2)
      (BitVec.ofNat 16 (n % p.val.toNat))).draw
    execDiv src d s =
      finishWith k.2 (putOV s.st false) (Config.divCycles k.1 x.1 y.1 p.val + addrCycles src .word) := by
  intro p x y n k
  have hx : regAddr x.2 d = regAddr s d := (sourceReg_part src d s).regAddr_eq d
  have hy : regAddr y.2 d = regAddr s d := (regAddr_busRead x.2 _ d).trans hx
  have hpair : pairAddr x.2 d = regAddr s d + 2 := by rw [pairAddr, hx]
  unfold execDiv
  dsimp only
  rw [if_neg (Nat.not_le.mpr h), hpair, writePair_eq hy]

/-- Settles O34, by whether the divisor is above the high word. -/
theorem divide : Obligations.Divide := by
  intro src d s p x y
  refine ⟨rowBits_tableRow (MatchesRow.div src d), ?_⟩
  have hread := sourceReg_part src d s
  by_cases hle : p.val.toNat ≤ x.1.toNat
  · refine ⟨_, execDiv_of_le hle, agreeOff_putOV _ _, ?_, fun _ => ⟨endsAs_finish _ _ _, hread.finish _ _⟩,
      fun hlt => absurd hle (Nat.not_le.mpr hlt)⟩
    exact iff_of_true (stOV_putOV _ _) hle
  · have hlt : x.1.toNat < p.val.toNat := Nat.lt_of_not_le hle
    obtain ⟨hquot, hrem⟩ := div_words (lo := y.1) hlt
    refine ⟨_, execDiv_of_lt hlt, agreeOff_putOV _ _, ?_, fun h => absurd h hle,
      fun _ => ⟨_, _, _, ?_, ?_, le_divCycles _ _ _ _, divCycles_le _ _ _ _, endsAs_finish _ _ _, ?_⟩⟩
    · rw [State.charge_st, State.setSt_st, stOV_putOV]
      exact iff_of_false Bool.false_ne_true hle
    · rw [hquot, hrem, Nat.div_add_mod']
    · rw [hrem]
      exact Nat.mod_lt _ (Nat.zero_lt_of_lt hlt)
    · exact memoryKept_of_cells fun c hc => memoryKept_iff.1 (sourcePairRead_kept src d s _ _) c hc

end Sys2Proof.Machine
end

section
/-! The compares C, CB, CI, COC and CZC (R500 to R504). -/

namespace Sys2Proof.Machine

open Sys2Proof.Laws

/-! ## C, CB and CI (R500 to R502) -/

/-- The new ST of C and CI. -/
theorem cmp16_spec (st x y : Word) :
    laeAre (cmp16 st x y) (y.toNat < x.toNat) (y.toInt < x.toInt) (x = y) ∧ agreeOff 0xE000 st (cmp16 st x y) :=
  ⟨laeAre_cmp 16 st x y, agreeOff_cmp16 st x y⟩

/-- Writing OP leaves L, A and EQ. -/
theorem laeAre_putOP {st : Word} {l a e : Prop} (v : Bool) (h : laeAre st l a e) : laeAre (putOP st v) l a e := by
  unfold laeAre stL stA stEQ at *
  rw [putOP_getLsbD, putOP_getLsbD, putOP_getLsbD]
  exact h

theorem stOP_putOP (st : Word) (v : Bool) : stOP (putOP st v) = v := by
  rw [stOP, putOP_getLsbD, if_pos rfl]

theorem parity8_iff (b : Byte) : parity8 b = true ↔ popcount8 b % 2 = 1 := beq_iff_eq

/-- The new ST of CB: the comparison, and OP of the source byte (R501). -/
theorem cmp8_putOP_spec (st : Word) (x y : Byte) :
    let st' := putOP (cmp8 st x y) (parity8 x)
    laeAre st' (y.toNat < x.toNat) (y.toInt < x.toInt) (x = y) ∧ (stOP st' = true ↔ popcount8 x % 2 = 1) ∧
    agreeOff 0xE400 st st' := by
  refine ⟨laeAre_putOP _ (laeAre_cmp 8 st x y), ?_, agreeOff_cmp8_putOP st x y _⟩
  rw [stOP_putOP]
  exact parity8_iff x

/-- An immediate fetched and register `w` read. -/
theorem immediateRead_part (w : RegNo) (s : State) :
    Part s (readReg (fetchWord s).2 w).2 1 [] (quietRead s s.pc && quietRead s (regAddr s w)) := by
  have hpart := (Part.fetch s).trans (Part.read (fetchWord s).2 (regAddr s w))
  rw [(fetchWord_map s).quietRead] at hpart
  rw [readReg, regAddr_fetchWord]
  exact hpart

/-- Settles O35: each compare makes its reads and writes ST alone. -/
theorem compares : Obligations.Compares := by
  refine ⟨fun src dst s => ⟨rowBits_tableRow (MatchesRow.c src dst), ?_⟩,
    fun src dst s => ⟨rowBits_tableRow (MatchesRow.cb src dst), ?_⟩,
    fun w s => ⟨rowBits_tableRow (MatchesRow.ci w), ?_⟩⟩
  · obtain ⟨t, hn, hst, hend, hframe⟩ := compareWord_spec src dst (fun x d st => cmp16 st x d) s
    obtain ⟨hlae, hoff⟩ := cmp16_spec s.st (readWordOp src s).val (readWordOp dst (readWordOp src s).after).val
    rw [← hst] at hlae hoff
    exact ⟨t, hn, hend, hlae, hoff, hframe⟩
  · obtain ⟨t, hn, hst, hend, hframe⟩ := compareByte_spec src dst (fun x d st => putOP (cmp8 st x d) (parity8 x)) s
    obtain ⟨hlae, hop, hoff⟩ := cmp8_putOP_spec s.st (readByteOp src s).val (readByteOp dst (readByteOp src s).after).val
    rw [← hst] at hlae hop hoff
    exact ⟨t, hn, hend, hlae, hop, hoff, hframe⟩
  · obtain ⟨hlae, hoff⟩ := cmp16_spec s.st (readReg (fetchWord s).2 w).1 (fetchWord s).1
    exact ⟨_, rfl, endsAs_finish _ _ _, hlae, hoff, (immediateRead_part w s).finish _ _⟩

/-! ## COC and CZC (R503, R504) -/

theorem stEQ_putEQ (st : Word) (v : Bool) : stEQ (putEQ st v) = v := by
  rw [stEQ, putEQ_getLsbD, if_pos rfl]

/-- The test of COC: every one bit of `x` is one in `y`. -/
theorem word_and_eq_self_iff (x y : Word) :
    x &&& y = x ↔ ∀ i, i < 16 → x.getLsbD i = true → y.getLsbD i = true := by
  constructor
  · intro h i _ hx
    rw [← h, BitVec.getLsbD_and, Bool.and_eq_true] at hx
    exact hx.2
  · intro h
    apply BitVec.eq_of_getLsbD_eq
    intro i hi
    rw [BitVec.getLsbD_and, Bool.and_eq_left_iff_imp]
    exact h i hi

/-- The test of CZC: every one bit of `x` is zero in `y`. -/
theorem word_and_eq_zero_iff (x y : Word) :
    x &&& y = 0 ↔ ∀ i, i < 16 → x.getLsbD i = true → y.getLsbD i = false := by
  constructor
  · intro h i _ hx
    have hi := congrArg (·.getLsbD i) h
    simpa [hx] using hi
  · intro h
    apply BitVec.eq_of_getLsbD_eq
    intro i hi
    cases hx : x.getLsbD i
    · simp [hx]
    · simp [h i hi hx]

/-- A source operand tested bit by bit against register `d`: EQ is the test's outcome. -/
theorem compareReg_putEQ (src : Operand) (d : RegNo) (f : Word → Word → Bool) (s : State) {e : Prop} :
    let p := readWordOp src s
    let x := readReg p.after d
    (f p.val x.1 = true ↔ e) →
    ∃ t, compareReg src d (fun x w st => putEQ st (f x w)) s = .next t ∧ endsAs x.2 (14 + addrCycles src .word) t ∧
      agreeOff 0x2000 s.st t.st ∧
      Framed s t src.extWords (incCells src s) (readCalm src p.addr s && quietRead p.after (regAddr s d)) ∧
      (stEQ t.st = true ↔ e) := by
  intro p x he
  obtain ⟨t, hn, hst, hend, hframe⟩ := compareReg_spec src d (fun x w st => putEQ st (f x w)) s
  refine ⟨t, hn, hend, ?_, hframe, ?_⟩
  · rw [hst]
    exact agreeOff_putEQ _ _
  · rw [hst, stEQ_putEQ]
    exact he

/-- Settles O36: one shape, with the two tests stated bit by bit. -/
theorem bitCompares : Obligations.BitCompares := by
  refine fun src d s => ⟨?_, ?_, ?_, ?_⟩
  · exact rowBits_tableRow (MatchesRow.coc src d)
  · exact rowBits_tableRow (MatchesRow.czc src d)
  · exact compareReg_putEQ src d (fun x w => decide (x &&& w = x)) s (decide_eq_true_iff.trans (word_and_eq_self_iff _ _))
  · exact compareReg_putEQ src d (fun x w => decide (x &&& w = 0)) s (decide_eq_true_iff.trans (word_and_eq_zero_iff _ _))

end Sys2Proof.Machine
end

section
/-! The logic instructions that write a result: SOC, SZC, XOR, SOCB, SZCB, ANDI, ORI, LI, INV, and SWPB, CLR and SETO, which leave
ST alone (R510 to R519, R554, R556). -/

namespace Sys2Proof.Machine

open Sys2Proof.Laws

/-! ## The shapes with a word or byte result and its comparison with 0 -/

/-- A new ST that a word result gave. -/
theorem flags_of_logicWord {st st' r : Word} (h : st' = (logicWord r st).2) : laeOf16 st' r ∧ agreeOff 0xE000 st st' := by
  subst h
  exact ⟨laeOf16_cmpZero16 st r, agreeOff_logicWord r st⟩

/-- A new ST that a byte result gave. -/
theorem flags_of_logicByte {st st' : Word} {r : Byte} (h : st' = (logicByte r st).2) :
    laeOf8 st' r ∧ agreeOff 0xE400 st st' := by
  subst h
  exact ⟨laeOf8_cmpZero8 st r, agreeOff_logicByte r st⟩

theorem dualWord_logic (src dst : Operand) (f : Word → Word → Word) (s : State) :
    let p := readWordOp src s
    let q := readWordOp dst p.after
    let r := f q.val p.val
    ∃ t, dualWord src dst (fun x d st => logicWord (f d x) st) s = .next t ∧
      endsAs (busWrite q.after q.addr r) (14 + addrCycles src .word + addrCycles dst .word) t ∧ laeOf16 t.st r ∧
      agreeOff 0xE000 s.st t.st ∧
      Framed s t (src.extWords + dst.extWords) (incCells src s ++ incCells dst p.after ++ storedCells q.after q.addr)
        (readCalm src p.addr s && readCalm dst q.addr p.after && plainRam q.after q.addr) := by
  intro p q r
  obtain ⟨t, hn, hst, hend, hframe⟩ := dualWord_spec src dst (fun x d st => logicWord (f d x) st) s
  obtain ⟨hlae, hoff⟩ := flags_of_logicWord hst
  exact ⟨t, hn, hend, hlae, hoff, hframe⟩

theorem dualByte_logic (src dst : Operand) (f : Byte → Byte → Byte) (s : State) :
    let p := readByteOp src s
    let q := readByteOp dst p.after
    let r := f q.val p.val
    ∃ t, dualByte src dst (fun x d st => logicByte (f d x) st) s = .next t ∧
      endsAs (busWrite q.after q.addr (mergeByte q.addr r q.old)) (14 + addrCycles src .byte + addrCycles dst .byte) t ∧
      laeOf8 t.st r ∧ agreeOff 0xE400 s.st t.st ∧
      Framed s t (src.extWords + dst.extWords) (incCells src s ++ incCells dst p.after ++ storedCells q.after q.addr)
        (readCalm src p.addr s && readCalm dst q.addr p.after && plainRam q.after q.addr) := by
  intro p q r
  obtain ⟨t, hn, hst, hend, hframe⟩ := dualByte_spec src dst (fun x d st => logicByte (f d x) st) s
  obtain ⟨hlae, hoff⟩ := flags_of_logicByte hst
  exact ⟨t, hn, hend, hlae, hoff, hframe⟩

theorem immediateWord_logic (w : RegNo) (f : Word → Word → Word) (s : State) :
    let i := fetchWord s
    let x := readReg i.2 w
    let r := f x.1 i.1
    ∃ t, immediateWord w (fun x i st => logicWord (f x i) st) s = .next t ∧ endsAs (writeReg x.2 w r) 14 t ∧
      laeOf16 t.st r ∧ agreeOff 0xE000 s.st t.st ∧
      Framed s t 1 (storedCells s (regAddr s w)) (quietRead s s.pc && plainRam s (regAddr s w)) := by
  intro i x r
  obtain ⟨t, hn, hst, hend, hframe⟩ := immediateWord_spec w (fun x i st => logicWord (f x i) st) s
  obtain ⟨hlae, hoff⟩ := flags_of_logicWord hst
  exact ⟨t, hn, hend, hlae, hoff, hframe⟩

/-! ## SOC, SZC, XOR, SOCB and SZCB (R510 to R513, R516) -/

/-- A word operand and register `d` read, then register `d` written: what XOR does (R516). -/
theorem sourceRegWrite_part (src : Operand) (d : RegNo) (s : State) (v : Word) :
    let p := readWordOp src s
    let x := readReg p.after d
    Part s (busWrite x.2 (regAddr s d) v) src.extWords (incCells src s ++ storedCells x.2 (regAddr s d))
      (readCalm src p.addr s && plainRam x.2 (regAddr s d)) := by
  intro p x
  refine ((sourceReg_part src d s).trans (Part.write x.2 (regAddr s d) v)).calm fun hcalm => ?_
  have hmap : plainRam x.2 (regAddr s d) = plainRam p.after (regAddr s d) := (busRead_map _ _).plainRam _
  simp only [Bool.and_eq_true] at hcalm ⊢
  obtain ⟨hsrc, hreg⟩ := hcalm
  exact ⟨⟨hsrc, plainRam_quiet (hmap ▸ hreg)⟩, hreg⟩

theorem execXor_eq (src : Operand) (d : RegNo) (s : State) :
    let p := readWordOp src s
    let x := readReg p.after d
    let r := x.1 ^^^ p.val
    execXor src d s =
      finishWith (busWrite x.2 (regAddr s d) r) (cmpZero16 s.st r) (14 + addrCycles src .word) := by
  intro p x r
  have hreg : regAddr x.2 d = regAddr s d := (sourceReg_part src d s).regAddr_eq d
  rw [← hreg]
  rfl

/-- Settles O37: the two-operand shape with OR and AND NOT, and XOR with its register written after it is read. -/
theorem logicWords : Obligations.LogicWords := by
  refine ⟨fun src dst s => ⟨?_, ?_, ?_, ?_⟩, fun src d s => ⟨?_, ?_⟩⟩
  · exact rowBits_tableRow (MatchesRow.soc src dst)
  · exact rowBits_tableRow (MatchesRow.szc src dst)
  · exact dualWord_logic src dst (fun d x => d ||| x) s
  · exact dualWord_logic src dst (fun d x => d &&& ~~~x) s
  · exact rowBits_tableRow (MatchesRow.xor src d)
  · exact ⟨_, execXor_eq src d s, endsAs_finish _ _ _, laeOf16_cmpZero16 _ _, agreeOff_cmpZero16_lae _ _,
      (sourceRegWrite_part src d s _).finish _ _⟩

/-- Settles O38: the byte shape with OR and AND NOT. -/
theorem logicBytes : Obligations.LogicBytes := by
  refine fun src dst s => ⟨?_, ?_, ?_, ?_⟩
  · exact rowBits_tableRow (MatchesRow.socb src dst)
  · exact rowBits_tableRow (MatchesRow.szcb src dst)
  · exact dualByte_logic src dst (fun d x => d ||| x) s
  · exact dualByte_logic src dst (fun d x => d &&& ~~~x) s

/-! ## ANDI, ORI and LI (R514, R515, R556) -/

/-- An immediate fetched and register `w` written: what LI does (R556). -/
theorem immediateWrite_part (w : RegNo) (s : State) (v : Word) :
    Part s (writeReg (fetchWord s).2 w v) 1 (storedCells s (regAddr s w))
      (quietRead s s.pc && plainRam s (regAddr s w)) := by
  have hpart := (Part.fetch s).trans (Part.write (fetchWord s).2 (regAddr s w) v)
  rw [(fetchWord_map s).storedCells, (fetchWord_map s).plainRam] at hpart
  rw [writeReg, regAddr_fetchWord]
  exact hpart

/-- Settles O39: the immediate shape with AND and OR, and LI. -/
theorem logicImmediate : Obligations.LogicImmediate := by
  refine fun w s => ⟨?_, ?_, ?_, ?_, ?_, ?_⟩
  · exact rowBits_tableRow (MatchesRow.andi w)
  · exact rowBits_tableRow (MatchesRow.ori w)
  · exact rowBits_tableRow (MatchesRow.li w)
  · exact immediateWord_logic w (fun x i => x &&& i) s
  · exact immediateWord_logic w (fun x i => x ||| i) s
  · exact ⟨_, rfl, endsAs_finish _ _ _, laeOf16_cmpZero16 _ _, agreeOff_cmpZero16_lae _ _,
      (immediateWrite_part w s _).finish _ _⟩

/-! ## INV, SWPB, CLR and SETO (R517 to R519, R554) -/

/-- SWPB's exchange of the two bytes is a rotation by eight. -/
theorem wordOf_swap (x : Word) : wordOf (loByte x) (hiByte x) = x.rotateLeft 8 := by
  apply BitVec.eq_of_getLsbD_eq
  intro i hi
  rw [wordOf, loByte, hiByte, BitVec.getLsbD_append, BitVec.getLsbD_rotateLeft, BitVec.getLsbD_extractLsb',
    BitVec.getLsbD_extractLsb']
  by_cases h : i < 8
  · simp [h]
  · have hlow : i - 8 < 8 := by omega
    simp [h, hi, hlow]

/-- Settles O40: the one-operand shape for INV and SWPB, the constant store for CLR and SETO. -/
theorem singleOperand : Obligations.SingleOperand := by
  refine fun o s => ⟨?_, ?_, ?_, ?_, ?_, ?_, ?_, ?_⟩
  · exact rowBits_tableRow (MatchesRow.inv o)
  · exact rowBits_tableRow (MatchesRow.swpb o)
  · exact rowBits_tableRow (MatchesRow.clr o)
  · exact rowBits_tableRow (MatchesRow.seto o)
  · obtain ⟨t, hn, hst, hend, hframe⟩ := singleWord_spec o 10 (fun x st => logicWord (~~~x) st) s
    obtain ⟨hlae, hoff⟩ := flags_of_logicWord hst
    exact ⟨t, hn, hend, hlae, hoff, hframe⟩
  · obtain ⟨t, hn, hst, hend, hframe⟩ := singleWord_spec o 10 (fun x st => (wordOf (loByte x) (hiByte x), st)) s
    rw [wordOf_swap] at hend
    exact ⟨t, hn, hend, hst, hframe⟩
  · obtain ⟨t, hn, hst, hend, hframe⟩ := storeConst_spec o 0x0000 s
    exact ⟨t, hn, hend, hst, hframe⟩
  · obtain ⟨t, hn, hst, hend, hframe⟩ := storeConst_spec o 0xFFFF s
    exact ⟨t, hn, hend, hst, hframe⟩

end Sys2Proof.Machine
end

section
/-! The moves MOV and MOVB, and the loads and stores of the core's registers: LIMI, LWPI, STST and STWP (R550, R551, R555, R557 to
R559). -/

namespace Sys2Proof.Machine

open Sys2Proof.Laws

/-! ## MOV and MOVB (R550, R551) -/

/-- MOV is the two-operand shape whose result is the source word: the shape's read of the destination is the unused read of the
tms9900 profile (R425). -/
theorem exec_mov_eq_dualWord (src dst : Operand) (s : State) :
    exec (.mov src dst) s = dualWord src dst (fun x _ st => logicWord x st) s := rfl

/-- MOVB is the two-operand byte shape whose result is the source byte: the shape's read of the destination is the read for the
merge (R213). -/
theorem exec_movb_eq_dualByte (src dst : Operand) (s : State) :
    exec (.movb src dst) s = dualByte src dst (fun x _ st => logicByte x st) s := rfl

/-- Settles O41: the two-operand shapes, with the source as their result. -/
theorem moves : Obligations.Moves := by
  refine ⟨fun src dst s => ⟨rowBits_tableRow (MatchesRow.mov src dst), ?_⟩,
    fun src dst s => ⟨rowBits_tableRow (MatchesRow.movb src dst), ?_⟩⟩
  · rw [exec_mov_eq_dualWord]
    exact dualWord_logic src dst (fun _ x => x) s
  · rw [exec_movb_eq_dualByte]
    exact dualByte_logic src dst (fun _ x => x) s

/-! ## LIMI, LWPI, STST and STWP (R555, R557 to R559) -/

/-- The mask that LIMI writes is the immediate modulo 16, and no other bit of ST changes. -/
theorem putMask_low_spec (st i : Word) :
    let st' := putMask st (i.extractLsb' 0 4)
    (stMask st').toNat = i.toNat % 16 ∧ agreeOff 0x000F st st' := by
  refine ⟨?_, agreeOff_putMask _ _⟩
  rw [stMask_putMask, BitVec.extractLsb'_toNat, Nat.shiftRight_zero]

/-- WP and the cycles are no part of memory. -/
theorem MemoryKept.setWp_charge {s t : State} {l : List CellRef} (h : MemoryKept s t l) (v : Word) (n : Nat) :
    MemoryKept s ((t.setWp v).charge n) l :=
  memoryKept_of_cells fun c hc => memoryKept_iff.1 h c hc

/-- A register written: what STST and STWP do. -/
theorem framed_writeReg_charge (s : State) (w : RegNo) (v : Word) (n : Nat) :
    Framed s ((writeReg s w v).charge n) 0 (storedCells s (regAddr s w)) (plainRam s (regAddr s w)) :=
  (Part.write s (regAddr s w) v).framed (endsAs_charge _ n)

/-- Settles O42: one fetch for LIMI and LWPI, one register write for STST and STWP. -/
theorem loadStoreStatus : Obligations.LoadStoreStatus := by
  intro s
  have hfetch := Part.fetch s
  refine ⟨?_, ?_, fun w => ⟨?_, ?_⟩, ?_, ?_, fun w => ?_, fun w => ?_⟩
  · exact rowBits_tableRow MatchesRow.limi
  · exact rowBits_tableRow MatchesRow.lwpi
  · exact rowBits_tableRow (MatchesRow.stst w)
  · exact rowBits_tableRow (MatchesRow.stwp w)
  · obtain ⟨hmask, hoff⟩ := putMask_low_spec s.st (fetchWord s).1
    exact ⟨_, rfl, endsAs_finish _ _ _, hmask, hoff, hfetch.finish _ _⟩
  · obtain ⟨hkept, -, -⟩ := hfetch
    exact ⟨_, rfl, rfl, rfl, hkept.setWp_charge _ _⟩
  · exact ⟨_, rfl, rfl, framed_writeReg_charge s w s.st 8⟩
  · exact ⟨_, rfl, rfl, framed_writeReg_charge s w s.wp 8⟩

end Sys2Proof.Machine
end

section
/-! The shifts SRA, SRL, SLA and SRC: the single-bit loops in closed form, and what the instructions leave (R580 to R584). -/

namespace Sys2Proof.Machine

open Sys2Proof.Laws

/-! ## The count and its cycles (R580, R581) -/

theorem shiftAmount_imm (k : BitVec 4) (s : State) : shiftAmount (.imm k) s = (k.toNat, s) := rfl

/-- The count from R0: the low four bits as a remainder, 0 standing for 16. -/
theorem shiftAmount_fromR0 (s : State) :
    shiftAmount .fromR0 s =
      (if (readReg s 0).1.toNat % 16 = 0 then 16 else (readReg s 0).1.toNat % 16, (readReg s 0).2) := by
  simp only [shiftAmount, BitVec.extractLsb'_toNat, Nat.shiftRight_zero, Nat.reducePow]

/-- The part of a shift's cycles that does not depend on the count. -/
def shiftBaseCycles : ShiftCount → Nat
  | .imm _ => 12
  | .fromR0 => 20

theorem cyclesShift_eq (c : ShiftCount) (n : Nat) : cyclesShift c n = shiftBaseCycles c + 2 * n := by
  cases c <;> rfl

/-! ## The right shifts as loops of one-bit shifts (R581, R582, R584) -/

/-- `loop` shifts right by one bit at a time and keeps the bit that left last; `op x n` is its value after `n` bits. -/
structure RightShift (loop : Nat → Word → Bool → Word × Bool) (op : Word → Nat → Word) : Prop where
  loop_zero : ∀ x c, loop 0 x c = (x, c)
  loop_succ : ∀ n x c, loop (n + 1) x c = loop n (op x 1) (x.getLsbD 0)
  op_zero : ∀ x, op x 0 = x
  op_succ : ∀ x n, op x (n + 1) = op (op x 1) n
  op_lsb : ∀ x n, n < 16 → (op x n).getLsbD 0 = x.getLsbD n

/-- The last bit shifted out is bit 0 of the value one step before the end. -/
theorem RightShift.loop_eq {loop op} (h : RightShift loop op) (n : Nat) (x : Word) (c : Bool) :
    loop (n + 1) x c = (op x (n + 1), (op x n).getLsbD 0) := by
  induction n generalizing x c with
  | zero => rw [h.loop_succ, h.loop_zero, h.op_zero]
  | succ n ih => rw [h.loop_succ, ih, ← h.op_succ, ← h.op_succ]

/-- The loop in closed form, for the counts there are. -/
theorem RightShift.loop_of_count {loop op} (h : RightShift loop op) {n : Nat} (h1 : 1 ≤ n) (h16 : n ≤ 16) (x : Word)
    (c : Bool) : loop n x c = (op x n, x.getLsbD (n - 1)) := by
  obtain ⟨m, rfl⟩ := Nat.exists_eq_add_of_le' h1
  rw [h.loop_eq, h.op_lsb x m (by omega), Nat.add_sub_cancel]

/-- 0x8000 has the sign bit alone. -/
theorem getLsbD_signMask (i : Nat) : (0x8000 : Word).getLsbD i = decide (i = 15) := by
  have htwoPow : (0x8000 : Word) = BitVec.twoPow 16 15 := rfl
  rw [htwoPow, BitVec.getLsbD_twoPow]
  simp [eq_comm]

/-- SRA's one-bit step copies the sign bit. -/
theorem sraStep_eq (x : Word) : (x >>> 1) ||| (x &&& 0x8000) = x.sshiftRight 1 := by
  apply BitVec.eq_of_getLsbD_eq
  intro i hi
  rw [BitVec.getLsbD_or, BitVec.getLsbD_and, BitVec.getLsbD_ushiftRight, BitVec.getLsbD_sshiftRight,
    getLsbD_signMask, BitVec.msb_eq_getLsbD_last]
  by_cases htop : i = 15
  · simp [htop]
  · have hin : 1 + i < 16 := by omega
    simp [hin, hi, htop]

theorem rightShift_sra : RightShift sraLoop BitVec.sshiftRight where
  loop_zero _ _ := rfl
  loop_succ n x c := by rw [sraLoop, sraStep_eq]
  op_zero _ := BitVec.sshiftRight_zero
  op_succ x n := by rw [Nat.add_comm, BitVec.sshiftRight_add]
  op_lsb x n hn := by rw [BitVec.getLsbD_sshiftRight, Nat.add_zero, if_pos hn]; rfl

theorem rightShift_srl : RightShift srlLoop (fun x n => x >>> n) where
  loop_zero _ _ := rfl
  loop_succ _ _ _ := rfl
  op_zero := BitVec.ushiftRight_zero
  op_succ x n := by rw [Nat.add_comm, BitVec.shiftRight_add]
  op_lsb x n _ := by rw [BitVec.getLsbD_ushiftRight, Nat.add_zero]

/-- A rotation moves bit `n + i`, counted modulo 16, to bit `i`. -/
theorem getLsbD_rotateRight_word (x : Word) (n : Nat) {i : Nat} (hi : i < 16) :
    (x.rotateRight n).getLsbD i = x.getLsbD ((n + i) % 16) := by
  rw [BitVec.getLsbD_rotateRight]
  by_cases hlow : i < 16 - n % 16
  · have hidx : (n + i) % 16 = n % 16 + i := by omega
    simp [hlow, hidx]
  · have hidx : (n + i) % 16 = i - (16 - n % 16) := by omega
    simp [hlow, hi, hidx]

/-- SRC's one-bit step puts bit 0 back as the sign bit. -/
theorem srcStep_eq (x : Word) : (x >>> 1) ||| (if x.getLsbD 0 then 0x8000 else 0) = x.rotateRight 1 := by
  apply BitVec.eq_of_getLsbD_eq
  intro i hi
  rw [getLsbD_rotateRight_word x 1 hi, BitVec.getLsbD_or, BitVec.getLsbD_ushiftRight]
  by_cases htop : i = 15
  · subst htop
    rw [BitVec.getLsbD_of_ge x (1 + 15) (by omega), Bool.false_or]
    cases x.getLsbD 0 <;> rfl
  · have hmod : (1 + i) % 16 = 1 + i := by omega
    rw [hmod]
    cases x.getLsbD 0 with
    | false => simp
    | true => rw [if_pos rfl, getLsbD_signMask, decide_eq_false htop, Bool.or_false]

theorem rightShift_src : RightShift srcLoop BitVec.rotateRight where
  loop_zero _ _ := rfl
  loop_succ n x c := by rw [srcLoop, srcStep_eq]
  op_zero x := by
    apply BitVec.eq_of_getLsbD_eq
    intro i hi
    rw [getLsbD_rotateRight_word x 0 hi, Nat.zero_add, Nat.mod_eq_of_lt hi]
  op_succ x n := by
    apply BitVec.eq_of_getLsbD_eq
    intro i hi
    rw [getLsbD_rotateRight_word _ _ hi, getLsbD_rotateRight_word _ _ hi,
      getLsbD_rotateRight_word x 1 (Nat.mod_lt _ (by omega))]
    congr 1
    omega
  op_lsb x n hn := by rw [getLsbD_rotateRight_word x n (by omega), Nat.add_zero, Nat.mod_eq_of_lt hn]

/-! ## SRA, SRL and SRC -/

theorem stC_cmpZero16 (st r : Word) : stC (cmpZero16 st r) = stC st := by
  rw [stC, cmpZero16, putLAE_getLsbD]
  rfl

/-- A new ST that a right shift's loop gave. -/
theorem flags_of_rightShift {loop op} (h : RightShift loop op) {st st' x : Word} {n : Nat}
    (hst : st' = shiftFlags st (loop n x false)) (h1 : 1 ≤ n) (h16 : n ≤ 16) :
    laeOf16 st' (op x n) ∧ (stC st' = true ↔ x.getLsbD (n - 1) = true) ∧ agreeOff 0xF000 st st' := by
  rw [h.loop_of_count h1 h16] at hst
  subst hst
  refine ⟨laeOf16_cmpZero16 _ _, ?_, agreeOff_shiftFlags _ _⟩
  rw [shiftFlags, stC_cmpZero16, stC, putC_getLsbD, if_pos rfl]

/-- A right shift as an instruction: the register, the flags, the cycles and the frame. -/
theorem shiftReg_right {loop op} (h : RightShift loop op) {c : ShiftCount} (hc : c.wf = true) (w : RegNo) (s : State) :
    let n := (shiftAmount c s).1
    let x := readReg (shiftAmount c s).2 w
    ∃ t, shiftReg c w (fun n x st => ((loop n x false).1, shiftFlags st (loop n x false))) s = .next t ∧
      endsAs (writeReg x.2 w (op x.1 n)) (shiftBaseCycles c + 2 * n) t ∧ laeOf16 t.st (op x.1 n) ∧
      (stC t.st = true ↔ x.1.getLsbD (n - 1) = true) ∧ agreeOff 0xF000 s.st t.st ∧
      MemoryKept s t (storedCells s (regAddr s w)) ∧ t.offBus = { s.offBus with st := t.st } := by
  intro n x
  obtain ⟨t, hn, hst, hend, hkept, hoffBus⟩ :=
    shiftReg_spec c w (fun n x st => ((loop n x false).1, shiftFlags st (loop n x false))) s
  obtain ⟨h1, h16⟩ := shiftAmount_range c s hc
  obtain ⟨hlae, hcarry, hoff⟩ := flags_of_rightShift h hst h1 h16
  rw [h.loop_of_count h1 h16, cyclesShift_eq] at hend
  exact ⟨t, hn, hend, hlae, hcarry, hoff, hkept, hoffBus⟩

/-- Settles O43: the count's two forms, and the right-shift rule for each of the three loops. -/
theorem shiftsRight : Obligations.ShiftsRight := by
  intro c w s hc
  obtain ⟨h1, h16⟩ := shiftAmount_range c s hc
  refine ⟨?_, ?_, h1, h16, ?_, ?_, ?_, ?_, ?_, ?_⟩
  · rintro k rfl
    exact shiftAmount_imm k s
  · rintro rfl
    exact shiftAmount_fromR0 s
  · exact rowBits_tableRow (MatchesRow.sra c w)
  · exact rowBits_tableRow (MatchesRow.srl c w)
  · exact rowBits_tableRow (MatchesRow.src c w)
  · exact shiftReg_right rightShift_sra hc w s
  · exact shiftReg_right rightShift_srl hc w s
  · exact shiftReg_right rightShift_src hc w s

/-! ## SLA's loop (R583) -/

theorem shiftLeft_one_eq_add (x : Word) : x <<< 1 = x + x := by
  rw [BitVec.shiftLeft_eq_mul_twoPow, BitVec.twoPow, ← BitVec.mul_two]
  rfl

/-- The sign changes in a one-bit left shift exactly when the doubled value leaves the signed range. -/
theorem slaStep_signChange_iff (x : Word) :
    ((x <<< 1).getLsbD 15 != x.getLsbD 15) = true ↔ outOfRange 16 (x.toInt + x.toInt) := by
  rw [← addN_ovf_iff, addN, shiftLeft_one_eq_add, BitVec.msb_eq_getLsbD_last, BitVec.msb_eq_getLsbD_last]
  simp

/-- A one-bit left shift that keeps the sign doubles the value. -/
theorem slaStep_toInt {x : Word} (h : ¬ outOfRange 16 (x.toInt + x.toInt)) : (x <<< 1).toInt = x.toInt + x.toInt := by
  rw [outOfRange_word_iff] at h
  rw [shiftLeft_one_eq_add, BitVec.toInt_add, Int.bmod_eq_of_le] <;> omega

/-- A value that has left the signed range stays outside it when it is doubled again. -/
theorem outOfRange_mul_two_pow {x : Int} (h : outOfRange 16 x) (n : Nat) : outOfRange 16 (x * 2 ^ n) := by
  have hpos : (1 : Int) ≤ 2 ^ n := one_le_pow₀ (by omega)
  rw [outOfRange_word_iff] at h ⊢
  rcases h with h | h
  · exact .inl (by nlinarith)
  · exact .inr (by nlinarith)

/-- The sign changes at the first step or at a later one. -/
theorem outOfRange_double_mul_iff (x : Word) (n : Nat) :
    outOfRange 16 (x.toInt * 2 ^ (n + 1)) ↔
      outOfRange 16 (x.toInt + x.toInt) ∨ outOfRange 16 ((x <<< 1).toInt * 2 ^ n) := by
  have hpow : x.toInt * 2 ^ (n + 1) = (x.toInt + x.toInt) * 2 ^ n := by ring
  rw [hpow]
  by_cases hout : outOfRange 16 (x.toInt + x.toInt)
  · exact iff_of_true (outOfRange_mul_two_pow hout n) (.inl hout)
  · rw [slaStep_toInt hout, or_iff_right hout]

theorem slaLoop_value (n : Nat) (x : Word) (c v : Bool) : (slaLoop n x c v).1 = x <<< n := by
  induction n generalizing x c v with
  | zero => exact (BitVec.shiftLeft_zero x).symm
  | succ n ih => rw [slaLoop, ih, ← BitVec.shiftLeft_add, Nat.add_comm]

/-- The last bit shifted out is the sign bit one step before the end. -/
theorem slaLoop_carry (n : Nat) (x : Word) (c v : Bool) : (slaLoop (n + 1) x c v).2.1 = (x <<< n).getLsbD 15 := by
  induction n generalizing x c v with
  | zero => rw [BitVec.shiftLeft_zero]; rfl
  | succ n ih => rw [slaLoop, ih, ← BitVec.shiftLeft_add, Nat.add_comm]

/-- The sign has changed at some step exactly when the value times 2^n is outside the signed range. -/
theorem slaLoop_overflow (n : Nat) (x : Word) (c v : Bool) :
    (slaLoop n x c v).2.2 = true ↔ v = true ∨ outOfRange 16 (x.toInt * 2 ^ n) := by
  induction n generalizing x c v with
  | zero =>
    have hin : ¬ outOfRange 16 (x.toInt * 2 ^ 0) := by
      have := word_toInt_range x
      rw [outOfRange_word_iff]
      omega
    rw [or_iff_left hin, slaLoop]
  | succ n ih =>
    rw [slaLoop, ih, Bool.or_eq_true, slaStep_signChange_iff, or_assoc, ← outOfRange_double_mul_iff]

/-- The carry of SLA, for the counts there are. -/
theorem slaLoop_carry_of_count {n : Nat} (h1 : 1 ≤ n) (h16 : n ≤ 16) (x : Word) (c v : Bool) :
    (slaLoop n x c v).2.1 = x.getLsbD (16 - n) := by
  obtain ⟨m, rfl⟩ := Nat.exists_eq_add_of_le' h1
  have hm : ¬ 15 < m := by omega
  have hidx : 16 - (m + 1) = 15 - m := by omega
  rw [slaLoop_carry, BitVec.getLsbD_shiftLeft, hidx, decide_eq_false hm]
  rfl

/-! ## SLA -/

theorem stOV_cmpZero16 (st r : Word) : stOV (cmpZero16 st r) = stOV st := by
  rw [stOV, cmpZero16, putLAE_getLsbD]
  rfl

theorem carryOverflow_cmpZero16 {st : Word} {c v : Prop} (r : Word) (h : carryOverflow st c v) :
    carryOverflow (cmpZero16 st r) c v := by
  rw [carryOverflow, stC_cmpZero16, stOV_cmpZero16]
  exact h

/-- A new ST that SLA's loop gave. -/
theorem flags_of_sla {st st' x : Word} {n : Nat} (h : st' = slaFlags st (slaLoop n x false false)) (h1 : 1 ≤ n)
    (h16 : n ≤ 16) :
    laeOf16 st' (x <<< n) ∧ carryOverflow st' (x.getLsbD (16 - n) = true) (outOfRange 16 (x.toInt * 2 ^ n)) ∧
    agreeOff 0xF800 st st' := by
  subst h
  have hcov := carryOverflow_putCOV st (slaLoop n x false false).2.1 (slaLoop n x false false).2.2
  have hcarry := slaLoop_carry_of_count h1 h16 x false false
  have hovf := (slaLoop_overflow n x false false).trans (or_iff_right Bool.false_ne_true)
  refine ⟨?_, carryOverflow_cmpZero16 _ (carryOverflow_iff hcov (by rw [hcarry]) hovf), agreeOff_slaFlags _ _⟩
  rw [← slaLoop_value n x false false]
  exact laeOf16_cmpZero16 _ _

/-- Settles O44: the shape of a shift with SLA's loop, whose three results are known in closed form. -/
theorem shiftLeft : Obligations.ShiftLeft := by
  intro c w s hc n x
  obtain ⟨h1, h16⟩ := shiftAmount_range c s hc
  obtain ⟨t, hn, hst, hend, hkept, hoffBus⟩ := shiftReg_spec c w
    (fun n x st => ((slaLoop n x false false).1, slaFlags st (slaLoop n x false false))) s
  obtain ⟨hlae, hcov, hoff⟩ := flags_of_sla hst h1 h16
  rw [slaLoop_value, cyclesShift_eq] at hend
  exact ⟨rowBits_tableRow (MatchesRow.sla c w), t, hn, hend, hlae, hcov, hoff, hkept, hoffBus⟩

end Sys2Proof.Machine
end

section
/-! Control transfer (45_control_transfer.md): the context switch through a vector and the return from it, B and BL, and the jumps (R600
to R642). -/

namespace Sys2Proof.Machine

open Sys2Proof.Laws

/-! ## The part of an instruction before it transfers control -/

theorem Part.idle_eq {s t : State} {k : Nat} {l : List CellRef} {c : Bool} (h : Part s t k l c) : t.idle = s.idle := by
  have hidle := congrArg State.idle h.2.1
  exact hidle

/-- The reads of a vector fetch no word and store nothing. -/
theorem Part.readVector {s u : State} {k : Nat} {l : List CellRef} {c : Bool} (h : Part s u k l c) (a : Word) :
    Part s (readVector u a).2.2 k l false := by
  have hreads := (h.trans (Part.read u a)).trans (Part.read (busRead u a).2 (a + 2))
  rw [List.append_nil, List.append_nil] at hreads
  exact hreads.calm (fun hf => absurd hf Bool.false_ne_true)

/-- A switch in the middle of an instruction saves the WP and ST it began with, and the PC after the words fetched so far (R600). -/
theorem Part.contextSwitch_eq {s u : State} {k : Nat} {l : List CellRef} {c : Bool} (h : Part s u k l c) (nwp npc : Word) :
    contextSwitch u nwp npc =
      (busWrite (busWrite (busWrite (u.setWp nwp) (nwp + 26) s.wp) (nwp + 28) (s.pc + BitVec.ofNat 16 (2 * k))) (nwp + 30)
        s.st).setPc npc := by
  rw [Machine.contextSwitch_eq, h.wp_eq, h.pc_eq, h.st_eq]

/-- What only changes registers and cycles keeps the memory. -/
theorem MemoryKept.of_cells_eq {s t u : State} {l : List CellRef} (h : MemoryKept s t l) (hu : ∀ c, cellAt u c = cellAt t c) :
    MemoryKept s u l :=
  memoryKept_of_cells fun c hc => (hu c).trans (memoryKept_iff.1 h c hc)

/-! ## BLWP and XOP (R604, R615) -/

/-- Settles O12: the vector reads are a part of the instruction that the switch ends. -/
theorem blwpSwitches : Obligations.BlwpSwitches := by
  intro o s e r1 r2
  have hvec : Part s r2.2 o.extWords (incCells o s) false := (ea_part o .word s).readVector e.1
  refine ⟨rowBits_tableRow (MatchesRow.blwp o), (contextSwitch r2.2 r1.1 r2.1).charge (26 + addrCycles o .word), rfl,
    ?_, ?_, ?_, ?_, ?_, fun h13 h14 h15 => ?_⟩
  · rw [hvec.contextSwitch_eq]
  · exact contextSwitch_wp r2.2 r1.1 r2.1
  · exact contextSwitch_pc r2.2 r1.1 r2.1
  · exact (contextSwitch_st r2.2 r1.1 r2.1).trans hvec.st_eq
  · exact (contextSwitch_idle r2.2 r1.1 r2.1).trans hvec.idle_eq
  · obtain ⟨-, hsaves, -⟩ := contextSwitch_plain r2.2 r1.1 r2.1 h13 h14 h15
    rw [← List.append_assoc (storedCells _ _)] at hsaves
    obtain ⟨hkept, -, -⟩ := hvec
    exact (hkept.trans hsaves).of_cells_eq fun _ => rfl

/-- The vector of XOP n by its two addresses (R615). -/
theorem readVector_xopVector (s : State) (n : BitVec 4) :
    let r1 := busRead s (BitVec.ofNat 16 (0x0040 + 4 * n.toNat))
    let r2 := busRead r1.2 (BitVec.ofNat 16 (0x0042 + 4 * n.toNat))
    readVector s (xopVector n) = (r1.1, r2.1, r2.2) := by
  have hwp : xopVector n = BitVec.ofNat 16 (0x0040 + 4 * n.toNat) := by
    unfold xopVector
    bv_omega
  have hpc : xopVector n + 2 = BitVec.ofNat 16 (0x0042 + 4 * n.toNat) := by
    unfold xopVector
    bv_omega
  unfold readVector
  rw [hpc, hwp]

/-- XOP reads its operand, switches through its vector, writes R11 of the new workspace and sets X. -/
theorem exec_xop (o : Operand) (n : BitVec 4) (s : State) :
    let p := readWordOp o s
    let v := readVector p.after (xopVector n)
    let u := busWrite (contextSwitch v.2.2 v.1 v.2.1) (v.1 + 22) p.addr
    exec (.xop o n) s = .next ((u.setSt (putX u.st true)).charge (36 + addrCycles o .word)) := by
  intro p v u
  have hr11 : writeReg (contextSwitch v.2.2 v.1 v.2.1) 11 p.addr = u := by
    rw [writeReg, regAddr, contextSwitch_wp]
    rfl
  rw [← hr11]
  rfl

theorem stX_putX (st : Word) (v : Bool) : stX (putX st v) = v := by
  rw [stX, putX_getLsbD, if_pos rfl]

/-- Settles O13: as BLWP after the unused operand read; the R11 write and X come last. -/
theorem xopSwitches : Obligations.XopSwitches := by
  intro o n s e d r1 r2
  have hvec : Part s (readVector d (xopVector n)).2.2 o.extWords (incCells o s) false := (readWordOp_part o s).readVector _
  have hexec : exec (.xop o n) s = .next _ := exec_xop o n s
  have hreads : readVector d (xopVector n) = (r1.1, r2.1, r2.2) := readVector_xopVector d n
  have hafter : (readWordOp o s).after = d := rfl
  rw [hafter, hreads] at hexec
  rw [hreads] at hvec
  have hst : (busWrite (contextSwitch r2.2 r1.1 r2.1) (r1.1 + 22) e.1).st = s.st := by
    rw [busWrite_st, contextSwitch_st, hvec.st_eq]
  refine ⟨rowBits_tableRow (MatchesRow.xop o n), _, hexec, ?_, ?_, ?_, ?_, ?_, ?_⟩
  · rw [← hvec.contextSwitch_eq]
    exact endsAs_finish _ _ _
  · exact (busWrite_wp _ _ _).trans (contextSwitch_wp r2.2 r1.1 r2.1)
  · exact (busWrite_pc _ _ _).trans (contextSwitch_pc r2.2 r1.1 r2.1)
  · exact stX_putX _ true
  · rw [← hst]
    exact agreeOff_putX _ true
  · exact (busWrite_idle _ _ _).trans ((contextSwitch_idle r2.2 r1.1 r2.1).trans hvec.idle_eq)

/-! ## RTWP (R605) -/

/-- ST_RESERVED decides bits 8:4 of a loaded ST and no other bit (R104). -/
theorem stValue_spec (v : Word) :
    agreeOff 0x01F0 v (stValue v) ∧ (Config.stReserved = .stored → stValue v = v) ∧
    (Config.stReserved = .zero → stValue v &&& 0x01F0 = 0) := by
  unfold stValue
  cases Config.stReserved with
  | stored => exact ⟨.refl _ _, fun _ => rfl, nofun⟩
  | zero =>
    refine ⟨?_, nofun, fun _ => ?_⟩
    · change v &&& 0xFE0F &&& 0xFE0F = v &&& 0xFE0F
      rw [BitVec.and_assoc, BitVec.and_self]
    · change v &&& 0xFE0F &&& 0x01F0 = 0
      rw [BitVec.and_assoc]
      exact BitVec.and_zero

/-- An ST whose bits 8:4 are 0 is loaded as it is, whatever ST_RESERVED says. -/
theorem stValue_of_reserved_zero {v : Word} (h : v &&& 0x01F0 = 0) : stValue v = v := by
  have hv : v &&& 0xFE0F = v := (and_not_eq_self_iff v 0x01F0).2 h
  unfold stValue
  cases Config.stReserved with
  | stored => rfl
  | zero => exact hv

/-- Settles O14: three bus reads, which store nothing, and ST as ST_RESERVED has it. -/
theorem rtwpReloads : Obligations.RtwpReloads := by
  intro s r15 r14 r13
  obtain ⟨hoff, hstored, hzero⟩ := stValue_spec r15.1
  have hkept : MemoryKept s r13.2 [] := ((busRead_kept s _).trans (busRead_kept r15.2 _)).trans (busRead_kept r14.2 _)
  exact ⟨rowBits_tableRow MatchesRow.rtwp, _, rfl, rfl, rfl, hoff, hstored, hzero, rfl, hkept.of_cells_eq fun _ => rfl⟩

/-- With R13 and R14 in plain RAM, RTWP reloads what R13 to R15 show: its first reads do not disturb the later ones. -/
theorem exec_rtwp_of_saved {t : State} {wp pc st : Word} (h13 : plainRam t (t.wp + 26) = true)
    (h14 : plainRam t (t.wp + 28) = true) (hwp : fastRead t (t.wp + 26) = wp) (hpc : fastRead t (t.wp + 28) = pc)
    (hst : fastRead t (t.wp + 30) = st) :
    ∃ u, exec .rtwp t = .next u ∧ u.wp = wp ∧ u.pc = pc ∧ agreeOff 0x01F0 st u.st ∧ (st &&& 0x01F0 = 0 → u.st = st) := by
  have hport14 := plainRam_not_port h14
  have hport13 := plainRam_not_port h13
  subst hwp hpc hst
  refine ⟨_, rfl, ?_, ?_, ?_, ?_⟩
  · exact (fastRead_busRead (by rwa [(busRead_map t _ _).1])).trans (fastRead_busRead hport13)
  · exact fastRead_busRead hport14
  · exact (stValue_spec _).1
  · exact stValue_of_reserved_zero

/-- Settles O15: the switch leaves in R13 to R15 what RTWP reloads. -/
theorem blwpThenRtwp : Obligations.BlwpThenRtwp := by
  intro o s t hn h13 h14 h15
  let v := readVector (ea o .word s).2 (ea o .word s).1
  let c := contextSwitch v.2.2 v.1 v.2.1
  have hvec : Part s v.2.2 o.extWords (incCells o s) false := (ea_part o .word s).readVector _
  have ht : t = c.charge (26 + addrCycles o .word) := (Host.Outcome.next.inj hn).symm
  have hwp : t.wp = v.1 := by rw [ht, State.charge_wp, contextSwitch_wp]
  have hplain : ∀ k, plainRam t (t.wp + k) = plainRam v.2.2 (v.1 + k) := fun k => by
    rw [hwp, ht, (charge_map c _).plainRam, contextSwitch_plainRam]
  have hread : ∀ k, fastRead t (t.wp + k) = fastRead c (v.1 + k) := fun k => by rw [hwp, ht, fastRead_charge]
  obtain ⟨-, -, hr13, hr14, hr15⟩ := contextSwitch_plain v.2.2 v.1 v.2.1 ((hplain 26).symm.trans h13)
    ((hplain 28).symm.trans h14) ((hplain 30).symm.trans h15)
  exact exec_rtwp_of_saved h13 h14 ((hread 26).trans (hr13.trans hvec.wp_eq))
    ((hread 28).trans (hr14.trans hvec.pc_eq)) ((hread 30).trans (hr15.trans hvec.st_eq))

/-! ## B and BL (R601, R602) -/

/-- Settles O45: the operand's unused read is `readWordOp`'s, and R11 is written where WP, unchanged, has it. -/
theorem branchLink : Obligations.BranchLink := by
  intro o s p
  have hpart : Part s p.after o.extWords (incCells o s) _ := readWordOp_part o s
  have hlink : writeReg p.after 11 p.after.pc =
      busWrite p.after (regAddr s 11) (s.pc + BitVec.ofNat 16 (2 * o.extWords)) := by
    rw [writeReg, hpart.regAddr_eq, hpart.pc_eq]
  have hwritten := hpart.trans (Part.write p.after (regAddr s 11) (s.pc + BitVec.ofNat 16 (2 * o.extWords)))
  have ⟨hkept, _, _⟩ := hpart
  have ⟨hlinkKept, _, _⟩ := hwritten
  refine ⟨rowBits_tableRow (MatchesRow.b o), rowBits_tableRow (MatchesRow.bl o),
    ⟨_, rfl, rfl, rfl, hpart.st_eq, hpart.wp_eq, hkept.of_cells_eq fun _ => rfl⟩,
    ⟨_, ?_, rfl, rfl, hwritten.st_eq, hwritten.wp_eq, hlinkKept.of_cells_eq fun _ => rfl⟩⟩
  rw [← hlink]
  rfl

/-! ## The jumps (R620, R630 to R642) -/

/-- The displacement counts words and is signed (R620). -/
theorem jump_target (pc : Word) (d : Byte) : pc + 2 * sext16 d = BitVec.ofInt 16 (pc.toNat + 2 * d.toInt) := by
  rw [BitVec.ofInt_add, BitVec.ofInt_mul, BitVec.ofInt_natCast, BitVec.ofNat_toNat, BitVec.setWidth_eq]
  rfl

/-- A jump on a condition that the flag test `f` decides. -/
theorem jump_spec {i : Instr} {bits : Word} {cond : Prop} {d : Byte} {s : State} (f : Word → Bool)
    (hrow : rowBits i bits 0xFF00) (hexec : exec i s = jumpIf f d s) (hf : f s.st = true ↔ cond) :
    rowBits i bits 0xFF00 ∧
    (cond → exec i s = .next { s with
      pc := BitVec.ofInt 16 (s.pc.toNat + 2 * d.toInt), consumed := s.consumed + 10 }) ∧
    (¬ cond → exec i s = .next { s with consumed := s.consumed + 8 }) := by
  rw [hexec, ← jump_target, ← hf]
  refine ⟨hrow, fun htaken => ?_, fun hnot => ?_⟩
  · rw [jumpIf, htaken]
    rfl
  · rw [Bool.not_eq_true] at hnot
    rw [jumpIf, hnot]
    rfl

/-- Settles O46: one rule for the thirteen; each condition is its flag test. -/
theorem jumps : Obligations.Jumps := by
  intro d s l a e _
  refine ⟨?_, ?_, ?_, ?_, ?_, ?_, ?_, ?_, ?_, ?_, ?_, ?_, ?_⟩
  · exact jump_spec (fun _ => true) (rowBits_tableRow (MatchesRow.jmp d)) rfl (by simp)
  · exact jump_spec (fun st => !stA st && !stEQ st) (rowBits_tableRow (MatchesRow.jlt d)) rfl (by simp [a, e])
  · exact jump_spec (fun st => !stL st || stEQ st) (rowBits_tableRow (MatchesRow.jle d)) rfl (by simp [l, e])
  · exact jump_spec stEQ (rowBits_tableRow (MatchesRow.jeq d)) rfl .rfl
  · exact jump_spec (fun st => stL st || stEQ st) (rowBits_tableRow (MatchesRow.jhe d)) rfl Bool.or_eq_true_iff
  · exact jump_spec stA (rowBits_tableRow (MatchesRow.jgt d)) rfl .rfl
  · exact jump_spec (fun st => !stEQ st) (rowBits_tableRow (MatchesRow.jne d)) rfl (by simp [e])
  · exact jump_spec (fun st => !stC st) (rowBits_tableRow (MatchesRow.jnc d)) rfl (by simp)
  · exact jump_spec stC (rowBits_tableRow (MatchesRow.joc d)) rfl .rfl
  · exact jump_spec (fun st => !stOV st) (rowBits_tableRow (MatchesRow.jno d)) rfl (by simp)
  · exact jump_spec (fun st => !stL st && !stEQ st) (rowBits_tableRow (MatchesRow.jl d)) rfl (by simp [l, e])
  · exact jump_spec (fun st => stL st && !stEQ st) (rowBits_tableRow (MatchesRow.jh d)) rfl (by simp [l, e])
  · exact jump_spec stOP (rowBits_tableRow (MatchesRow.jop d)) rfl .rfl

end Sys2Proof.Machine
end

section
/-! The CRU bus (R650 to R652): what a read returns, which devices a write reaches and what it does to them. -/

namespace Sys2Proof.Machine

/-! ## Reads -/

theorem CruEntry.covers_iff (e : CruEntry) (a : CruAddr) :
    e.covers a = true ↔ e.base ≤ a.toNat ∧ a.toNat < e.base + e.size := by
  rw [covers, Bool.and_eq_true, decide_eq_true_iff, decide_eq_true_iff]

/-- Only a device outside the block reads true (R766, R802, R813). -/
theorem CruDevice.readBit_iff (d : CruDevice) (off : Nat) :
    d.readBit off = true ↔ ∃ o, d = .outside o ∧ outsideRead o off = true := by
  cases d <;> simp [CruDevice.readBit]

theorem cruRead_iff (s : State) (a : CruAddr) :
    cruRead s a = true ↔ ∃ e ∈ s.cru, (e.base ≤ a.toNat ∧ a.toNat < e.base + e.size) ∧
      ∃ d, e.dev = .outside d ∧ outsideRead d (a.toNat - e.base) = true := by
  simp only [cruRead, List.any_eq_true, Bool.and_eq_true, CruEntry.covers_iff, CruDevice.readBit_iff]

/-! ## Writes to the devices of the block -/

/-- The entry registers the device `d`, and its range contains the bit. -/
def CruEntry.reaches (d : CruDevice) (a : CruAddr) (e : CruEntry) : Bool :=
  decide (e.dev = d) && decide (e.base ≤ a.toNat) && decide (a.toNat < e.base + e.size)

theorem CruEntry.reaches_eq (d : CruDevice) (a : CruAddr) (e : CruEntry) :
    e.reaches d a = (decide (e.dev = d) && e.covers a) := Bool.and_assoc _ _ _

/-- What a write delivered to one entry does to the inserted cartridge (R766). -/
def CruEntry.toCart (e : CruEntry) (a : CruAddr) (v : Bool) (c : Cartridge) : Cartridge :=
  if e.reaches .cartridge a then c.writeBit (a.toNat - e.base) v else c

/-- What a write delivered to one entry does to a card (R802). -/
def CruEntry.toCard (e : CruEntry) (a : CruAddr) (v : Bool) (c : Card) : Card :=
  if e.reaches (.card c.id) a then c.writeBit (a.toNat - e.base) v else c

/-- One delivery, as what it does to the cartridge and to each card. -/
theorem cruDeliver_eq (a : CruAddr) (v : Bool) (s : State) (e : CruEntry) :
    cruDeliver a v s e = { s with cart := s.cart.map (e.toCart a v), cards := s.cards.map (e.toCard a v) } := by
  unfold cruDeliver CruEntry.toCart CruEntry.toCard
  simp only [CruEntry.reaches_eq]
  by_cases hc : e.covers a
  · cases hd : e.dev with
    | cartridge => simp [hc, State.mapCart]
    | card id => simp [hc, eq_comm]
    | outside d => simp [hc]
  · simp [hc]

/-- Deliveries to a list of entries, one after the other. -/
theorem foldl_cruDeliver_eq (a : CruAddr) (v : Bool) (l : List CruEntry) (s : State) :
    l.foldl (cruDeliver a v) s = { s with
      cart := s.cart.map fun c => l.foldl (fun k e => e.toCart a v k) c
      cards := s.cards.map fun c => l.foldl (fun k e => e.toCard a v k) c } := by
  induction l generalizing s with
  | nil => simp
  | cons e rest ih =>
    rw [List.foldl_cons, ih, cruDeliver_eq]
    simp [Function.comp_def]

/-- The cartridge takes the write once for each of its entries that contain the bit. -/
theorem foldl_toCart (a : CruAddr) (v : Bool) (l : List CruEntry) (c : Cartridge) :
    l.foldl (fun k e => e.toCart a v k) c =
      (l.filter (CruEntry.reaches .cartridge a)).foldl (fun k e => k.writeBit (a.toNat - e.base) v) c :=
  List.foldl_filter.symm

theorem CruEntry.toCard_id (e : CruEntry) (a : CruAddr) (v : Bool) (c : Card) : (e.toCard a v c).id = c.id := by
  obtain ⟨hid, -⟩ := c.writeBit_memories (a.toNat - e.base) v
  unfold toCard
  split
  · exact hid
  · rfl

/-- A card takes the write once for each entry of its identifier that contains the bit (log 31). -/
theorem foldl_toCard (a : CruAddr) (v : Bool) (l : List CruEntry) (c : Card) :
    l.foldl (fun k e => e.toCard a v k) c =
      (l.filter (CruEntry.reaches (.card c.id) a)).foldl (fun k e => k.writeBit (a.toNat - e.base) v) c := by
  rw [List.foldl_filter]
  induction l generalizing c with
  | nil => rfl
  | cons e rest ih =>
    rw [List.foldl_cons, ih, CruEntry.toCard_id]
    rfl

/-! ## Writes to the devices outside the block -/

/-- An entry after a write: a device outside the block takes the bit if its range contains it (R650). -/
theorem CruEntry.latch_eq (e : CruEntry) (a : CruAddr) (v : Bool) :
    e.latch a v =
      match e.dev with
      | .outside d =>
        if e.base ≤ a.toNat ∧ a.toNat < e.base + e.size then
          { e with dev := .outside (outsideWrite (a.toNat - e.base) v d) }
        else e
      | _ => e := by
  unfold latch
  cases e.dev with
  | outside d => exact if_congr (e.covers_iff a) rfl rfl
  | cartridge | card => rfl

theorem CruEntry.latch_of_not_covers {e : CruEntry} {a : CruAddr} (v : Bool) (h : ¬ e.covers a = true) : e.latch a v = e := by
  unfold latch
  split
  · exact if_neg h
  · rfl

/-! ## The whole write -/

/-- What a CRU write changes: each device with an entry whose range contains the bit, and nothing else (R652). -/
theorem cruWrite_eq (s : State) (a : CruAddr) (v : Bool) :
    cruWrite s a v = { s with
      cart := s.cart.map fun c =>
        (s.cru.filter (CruEntry.reaches .cartridge a)).foldl (fun k e => k.writeBit (a.toNat - e.base) v) c
      cards := s.cards.map fun c =>
        (s.cru.filter (CruEntry.reaches (.card c.id) a)).foldl (fun k e => k.writeBit (a.toNat - e.base) v) c
      cru := s.cru.map fun e => e.latch a v } := by
  unfold cruWrite
  simp only [foldl_cruDeliver_eq, foldl_toCart, foldl_toCard]

/-- A write to a bit in no range changes nothing. -/
theorem cruWrite_unmapped {s : State} {a : CruAddr} (v : Bool) (h : ∀ e ∈ s.cru, ¬ e.covers a = true) :
    cruWrite s a v = s := by
  have hlatch : s.cru.map (fun e => e.latch a v) = s.cru :=
    (List.map_congr_left fun e he => e.latch_of_not_covers v (h e he)).trans (List.map_id s.cru)
  unfold cruWrite
  rw [foldl_cruDeliver_covers, List.filter_eq_nil_iff.mpr h, hlatch]
  rfl

theorem cruRead_unmapped {s : State} {a : CruAddr} (h : ∀ e ∈ s.cru, ¬ e.covers a = true) : cruRead s a = false :=
  List.any_eq_false.mpr fun e he hc => h e he (Bool.and_eq_true_iff.mp hc).1

/-! ## A device that holds bits (R650) -/

theorem outsideRead_bits (l : List Config.CruBit) (k : Nat) : outsideRead (.bits l) k = (l[k]?.map bitInput).getD false := rfl

theorem outsideOutput_bits (l : List Config.CruBit) (k : Nat) :
    outsideOutput (.bits l) k = (l[k]?.map bitOutput).getD false := rfl

/-- The bit written. -/
theorem outsideWrite_bits_same {l : List Config.CruBit} {n : Nat} {b : Config.CruBit} (v : Bool) (h : l[n]? = some b) :
    outsideRead (outsideWrite n v (.bits l)) n = bitInput (bitWritten v b) ∧
    outsideOutput (outsideWrite n v (.bits l)) n = bitOutput (bitWritten v b) := by
  have hn : (l.modify n (bitWritten v))[n]? = some (bitWritten v b) := by rw [List.getElem?_modify_eq, h]; rfl
  rw [outsideWrite, outsideRead_bits, outsideOutput_bits, hn]
  exact ⟨rfl, rfl⟩

/-- Every other bit. -/
theorem outsideWrite_bits_other (l : List Config.CruBit) {n k : Nat} (v : Bool) (h : k ≠ n) :
    outsideRead (outsideWrite n v (.bits l)) k = outsideRead (.bits l) k ∧
    outsideOutput (outsideWrite n v (.bits l)) k = outsideOutput (.bits l) k := by
  have hk : (l.modify n (bitWritten v))[k]? = l[k]? := List.getElem?_modify_ne _ _ h.symm
  rw [outsideWrite, outsideRead_bits, outsideOutput_bits, hk]
  exact ⟨rfl, rfl⟩

/-- A bit the device does not hold. -/
theorem outsideWrite_bits_none {l : List Config.CruBit} {n : Nat} (v : Bool) (h : l[n]? = none) :
    outsideWrite n v (.bits l) = .bits l :=
  congrArg Config.OutsideDevice.bits (List.modify_eq_self (List.getElem?_eq_none_iff.mp h))

end Sys2Proof.Machine
end

section
/-! The bit addresses of the CRU instructions, and SBO, SBZ and TB (R653, R660 to R662). -/

namespace Sys2Proof.Machine

open Sys2Proof.Laws

/-! ## Bit addresses (R653) -/

theorem cruBase_eq_ofNat (r12 : Word) : cruBase r12 = BitVec.ofNat 12 (r12.toNat / 2) := by
  apply BitVec.eq_of_toNat_eq
  rw [cruBase, BitVec.extractLsb'_toNat, BitVec.toNat_ofNat, Nat.shiftRight_eq_div_pow]

/-- The address of bit `i` of a transfer. -/
theorem cruBase_add (r12 : Word) (i : Nat) : cruBase r12 + BitVec.ofNat 12 i = BitVec.ofNat 12 (r12.toNat / 2 + i) := by
  rw [cruBase_eq_ofNat, ← BitVec.ofNat_add]

/-- The displacement counts bits and is signed. -/
theorem cruBitAddr_eq_ofInt (r12 : Word) (d : Byte) : cruBitAddr r12 d = BitVec.ofInt 12 (r12.toNat / 2 + d.toInt) := by
  have hhalf : (r12.toNat : Int) / 2 = (r12.toNat / 2 : Nat) := (Int.natCast_ediv _ 2).symm
  rw [cruBitAddr, cruBase_eq_ofNat, BitVec.ofInt_add, hhalf, BitVec.ofInt_natCast]
  rfl

/-! ## SBO, SBZ and TB (R660 to R662) -/

/-- SBO and SBZ are one instruction but for the value written. -/
theorem exec_setBit (d : Byte) (v : Bool) (s : State) :
    exec (if v then .sbo d else .sbz d) s = .next ((cruWrite (readReg s 12).2 (cruBitAddr (readReg s 12).1 d) v).charge 12) := by
  cases v <;> rfl

theorem readReg_cruWrite_kept (s : State) (a : CruAddr) (v : Bool) (n : Nat) :
    MemoryKept s ((cruWrite (readReg s 12).2 a v).charge n) [] :=
  ((busRead_kept s _).trans (cruWrite_memoryKept _ a v)).of_cells_eq fun _ => rfl

/-- Settles O49: the instructions by the address of their bit, the bus by `cruRead_iff` and `cruWrite_eq`, the bits a device
holds by what a write does to the bit written and to the others. -/
theorem singleBitCru : Obligations.SingleBitCru := by
  refine ⟨fun d s => ?_, fun s a v => ?_, fun l n k i o v b => ?_⟩
  · dsimp only
    rw [← cruBitAddr_eq_ofInt]
    refine ⟨rowBits_tableRow (MatchesRow.sbo d), rowBits_tableRow (MatchesRow.sbz d), rowBits_tableRow (MatchesRow.tb d),
      fun v => ⟨exec_setBit d v s, readReg_cruWrite_kept s _ v 12, ?_, ?_, ?_⟩,
      _, rfl, endsAs_finish _ _ _, ?_, agreeOff_putEQ _ _, (busRead_kept s _).of_cells_eq fun _ => rfl⟩
    · exact (cruWrite_pc _ _ _).trans (busRead_pc s _)
    · exact (cruWrite_wp _ _ _).trans (busRead_wp s _)
    · exact (cruWrite_st _ _ _).trans (busRead_st s _)
    · exact Bool.eq_iff_iff.mp (stEQ_putEQ _ _)
  · refine ⟨cruRead_iff s a, fun hno => ?_, ?_⟩
    · have hcovers : ∀ e ∈ s.cru, ¬ e.covers a = true := fun e he hc => hno e he ((e.covers_iff a).mp hc)
      exact ⟨cruRead_unmapped hcovers, cruWrite_unmapped v hcovers⟩
    · simp only [cruWrite_eq, CruEntry.latch_eq]
      rfl
  · refine ⟨fun hbit => ?_, fun hbit => ?_, fun hbit => ?_, fun hk => outsideWrite_bits_other l v hk⟩
    · exact ⟨by rw [outsideRead_bits, hbit]; rfl, outsideWrite_bits_same v hbit⟩
    · exact ⟨by rw [outsideRead_bits, hbit]; rfl, outsideWrite_bits_same v hbit⟩
    · exact ⟨by rw [outsideRead_bits, hbit]; rfl, outsideWrite_bits_none v hbit⟩

end Sys2Proof.Machine
end

section
/-! LDCR and STCR: the transfers of several bits, and what the instructions leave (R314, R653, R663, R664). -/

namespace Sys2Proof.Machine

open Sys2Proof.Laws

/-! ## LDCR (R663) -/

/-- LDCR's writes as a fold over the numbers of the bits. -/
theorem cruSend_eq_foldl (r12 v : Word) (c i : Nat) (s : State) :
    cruSend (cruBase r12) v c i s =
      (List.range' i c).foldl (fun u j => cruWrite u (BitVec.ofNat 12 (r12.toNat / 2 + j)) (v.getLsbD j)) s := by
  induction c generalizing i s with
  | zero => rfl
  | succ c ih => rw [cruSend, ih, cruBase_add, List.range'_succ, List.foldl_cons]

theorem cruSend_word (r12 v : Word) (c : Nat) (s : State) :
    cruSend (cruBase r12) v c 0 s =
      (List.range c).foldl (fun u i => cruWrite u (BitVec.ofNat 12 (r12.toNat / 2 + i)) (v.getLsbD i)) s := by
  rw [cruSend_eq_foldl, List.range_eq_range']

theorem getLsbD_byteInWord (b : Byte) (i : Nat) : (b.setWidth 16 : Word).getLsbD i = b.getLsbD i := by
  rw [BitVec.getLsbD_setWidth, Bool.and_eq_right_iff_imp, decide_eq_true_iff]
  intro h
  exact (BitVec.lt_of_getLsbD h).trans (by decide)

theorem cruSend_byte (r12 : Word) (b : Byte) (c : Nat) (s : State) :
    cruSend (cruBase r12) (b.setWidth 16) c 0 s =
      (List.range c).foldl (fun u i => cruWrite u (BitVec.ofNat 12 (r12.toNat / 2 + i)) (b.getLsbD i)) s := by
  simp only [cruSend_word, getLsbD_byteInWord]

theorem exec_ldcr_byte {c : Nat} (h : c ≤ 8) (o : Operand) (s : State) :
    let p := readByteOp o s
    let r := readReg p.after 12
    exec (.ldcr o c) s = finishWith (cruSend (cruBase r.1) (p.val.setWidth 16) c 0 r.2) (cmpZero8 s.st p.val)
      (20 + 2 * c + addrCycles o .byte) := by
  have hwidth : cruWidth c = .byte := if_pos h
  show execLdcr o c s = _
  rw [execLdcr, hwidth]
  rfl

theorem exec_ldcr_word {c : Nat} (h : 8 < c) (o : Operand) (s : State) :
    let p := readWordOp o s
    let r := readReg p.after 12
    exec (.ldcr o c) s = finishWith (cruSend (cruBase r.1) p.val c 0 r.2) (cmpZero16 s.st p.val)
      (20 + 2 * c + addrCycles o .word) := by
  have hwidth : cruWidth c = .word := if_neg (Nat.not_le.mpr h)
  show execLdcr o c s = _
  rw [execLdcr, hwidth]
  rfl

/-- R12 read and the bits sent, after a part of the instruction: WP stays, and no more cells are stored to. -/
theorem Part.sendBits {s u : State} {k : Nat} {l : List CellRef} {calm : Bool} (h : Part s u k l calm) (a : CruAddr)
    (v : Word) (c : Nat) (st : Word) (n : Nat) :
    let t := ((cruSend a v c 0 (readReg u 12).2).setSt st).charge n
    t.wp = s.wp ∧ MemoryKept s t l := by
  obtain ⟨hkept, hwp, -, -⟩ := cruSend_keeps a v c 0 (readReg u 12).2
  have ⟨hpart, _, _⟩ := h
  have hall := (hpart.trans (busRead_kept u (regAddr u 12))).trans hkept
  rw [List.append_nil, List.append_nil] at hall
  exact ⟨hwp.trans ((busRead_wp u _).trans h.wp_eq), hall.of_cells_eq fun _ => rfl⟩

/-- Settles O50, by the width of the source. -/
theorem ldcrSends : Obligations.LdcrSends := by
  refine fun o c s _ => ⟨rowBits_tableRow (MatchesRow.ldcr o c), fun hbyte => ?_, fun hword => ?_⟩
  · refine ⟨_, exec_ldcr_byte hbyte o s, ?_, laeOf8_cmpZero8 _ _, agreeOff_cmpZero8_laeOp _ _,
      (readByteOp_part o s).sendBits _ _ _ _ _⟩
    rw [← cruSend_byte]
    exact endsAs_finish _ _ _
  · refine ⟨_, exec_ldcr_word hword o s, ?_, laeOf16_cmpZero16 _ _, agreeOff_cmpZero16_lae _ _,
      (readWordOp_part o s).sendBits _ _ _ _ _⟩
    rw [← cruSend_word]
    exact endsAs_finish _ _ _

/-! ## STCR (R664) -/

theorem getLsbD_cruReceive (s : State) (r12 : Word) {c : Nat} (hc : c ≤ 16) (i : Nat) :
    (cruReceive s (cruBase r12) c).getLsbD i = (decide (i < c) && cruRead s (BitVec.ofNat 12 (r12.toNat / 2 + i))) := by
  rw [cruReceive_getLsbD s _ c i hc, cruBase_add]

theorem getLsbD_loByte (w : Word) {i : Nat} (h : i < 8) : (loByte w).getLsbD i = w.getLsbD i := by
  simp [loByte, h]

theorem cyclesStcr_byte {c : Nat} (h : c ≤ 8) : cyclesStcr c = if c = 8 then 44 else 42 := by
  unfold cyclesStcr
  split <;> split <;> omega

theorem cyclesStcr_word {c : Nat} (h : 8 < c) (h16 : c ≤ 16) : cyclesStcr c = if c = 16 then 60 else 58 := by
  rw [cyclesStcr, if_neg (by omega), if_neg (by omega)]
  split <;> split <;> omega

theorem exec_stcr_byte {c : Nat} (h : c ≤ 8) (o : Operand) (s : State) :
    let e := ea o .byte s
    let r := readReg e.2 12
    let m := busRead r.2 e.1
    let v := loByte (cruReceive r.2 (cruBase r.1) c)
    exec (.stcr o c) s = finishWith (busWrite m.2 e.1 (mergeByte e.1 v m.1)) (cmpZero8 s.st v)
      ((if c = 8 then 44 else 42) + addrCycles o .byte) := by
  have hwidth : cruWidth c = .byte := if_pos h
  show execStcr o c s = _
  rw [execStcr, hwidth, cyclesStcr_byte h]
  rfl

theorem exec_stcr_word {c : Nat} (h : 8 < c) (h16 : c ≤ 16) (o : Operand) (s : State) :
    let p := readWordOp o s
    let r := readReg p.after 12
    let v := cruReceive r.2 (cruBase r.1) c
    exec (.stcr o c) s = finishWith (busWrite r.2 p.addr v) (cmpZero16 s.st v)
      ((if c = 16 then 60 else 58) + addrCycles o .word) := by
  have hwidth : cruWidth c = .word := if_neg (Nat.not_le.mpr h)
  show execStcr o c s = _
  rw [execStcr, hwidth, cyclesStcr_word h h16]
  rfl

/-- A byte operand's address evaluated, R12 read, and the operand's word read and written: what STCR does for up to 8 bits. -/
theorem eaRegMerge_part (o : Operand) (d : RegNo) (s : State) (v : Word) :
    let e := ea o .byte s
    let r := readReg e.2 d
    let m := busRead r.2 e.1
    Part s (busWrite m.2 e.1 v) o.extWords (incCells o s ++ storedCells m.2 e.1)
      (operandCalm o s && (quietRead e.2 (regAddr s d) && plainRam m.2 e.1)) := by
  intro e r m
  have hea : Part s e.2 o.extWords (incCells o s) (operandCalm o s) := ea_part o .byte s
  have hall := ((hea.trans (Part.read e.2 (regAddr e.2 d))).trans (Part.read r.2 e.1)).trans (Part.write m.2 e.1 v)
  rw [List.append_nil, List.append_nil, hea.regAddr_eq] at hall
  refine hall.calm fun hcalm => ?_
  have hmap : plainRam m.2 e.1 = plainRam r.2 e.1 := (busRead_map r.2 e.1).plainRam _
  simp only [Bool.and_eq_true] at hcalm ⊢
  obtain ⟨hop, hreg, hplain⟩ := hcalm
  exact ⟨⟨⟨hop, hreg⟩, plainRam_quiet (hmap ▸ hplain)⟩, hplain⟩

/-- A word operand evaluated and read, register `d` read, and the operand written: what STCR does for more than 8 bits. -/
theorem readRegWrite_part (o : Operand) (d : RegNo) (s : State) (v : Word) :
    let p := readWordOp o s
    let r := readReg p.after d
    Part s (busWrite r.2 p.addr v) o.extWords (incCells o s ++ storedCells r.2 p.addr)
      (readCalm o p.addr s && (quietRead p.after (regAddr s d) && plainRam r.2 p.addr)) := by
  intro p r
  rw [← Bool.and_assoc]
  exact (sourceReg_part o d s).trans (Part.write r.2 p.addr v)

/-- Settles O51, by the width of the operand. -/
theorem stcrCollects : Obligations.StcrCollects := by
  intro o c s hc
  obtain ⟨-, h16⟩ := (cruCountWf_iff c).mp hc
  refine ⟨rowBits_tableRow (MatchesRow.stcr o c), fun hbyte => ?_, fun hword => ?_⟩
  · refine ⟨_, _, exec_stcr_byte hbyte o s, fun i hi => ?_, endsAs_finish _ _ _, laeOf8_cmpZero8 _ _,
      agreeOff_cmpZero8_laeOp _ _, (eaRegMerge_part o 12 s _).finish _ _⟩
    rw [getLsbD_loByte _ hi, getLsbD_cruReceive _ _ h16]
  · refine ⟨_, _, exec_stcr_word hword h16 o s, fun i _ => getLsbD_cruReceive _ _ h16 i, endsAs_finish _ _ _,
      laeOf16_cmpZero16 _ _, agreeOff_cmpZero16_lae _ _, (readRegWrite_part o 12 s _).finish _ _⟩

end Sys2Proof.Machine
end

section
/-! The external-control instructions IDLE, RSET, CKON, CKOF and LREX: the event, IDLE's flag and RSET's mask (R700 to R705). -/

namespace Sys2Proof.Machine

open Sys2Proof.Laws

/-- The event and its 12 cycles, and no other field: what the five instructions share. -/
theorem externalControl_eq (op : ExternalOp) (s : State) :
    externalControl op s =
      .next { s with trace := s.trace ++ [.external op], consumed := s.consumed + 12 } := rfl

/-- The core is set idle before the event is emitted, as the configuration's mode has IDLE wait for an interrupt (R700). -/
theorem exec_idle_eq_externalControl (s : State) : exec .idle s = externalControl .idle { s with idle := true } := rfl

/-- MASK is cleared before the event is emitted (R702). -/
theorem exec_rset_eq_externalControl (s : State) :
    exec .rset s = externalControl .rset (s.setSt (putMask s.st 0)) := rfl

/-- Settles O48: the shared event of the five, after IDLE's write of `idle` and RSET's write of MASK. The bare name is the
model's shared operation. -/
theorem externalControl_holds : Obligations.ExternalControl := by
  intro s done
  refine ⟨rowBits_tableRow MatchesRow.idle, rowBits_tableRow MatchesRow.rset, rowBits_tableRow MatchesRow.ckon,
    rowBits_tableRow MatchesRow.ckof, rowBits_tableRow MatchesRow.lrex, ?idle, ?ckon, ?ckof, ?lrex, ?rset⟩
  case idle => rw [exec_idle_eq_externalControl, externalControl_eq]
  case ckon => exact externalControl_eq .ckon s
  case ckof => exact externalControl_eq .ckof s
  case lrex => exact externalControl_eq .lrex s
  case rset =>
    rw [exec_rset_eq_externalControl, externalControl_eq]
    exact ⟨_, rfl, rfl, stMask_putMask s.st 0, agreeOff_putMask s.st 0⟩

end Sys2Proof.Machine
end

section
/-! What bus accesses and CRU writes do to the whole state, said once as a list of elementary effects: a property that each of them
keeps is kept by every step (`step_kept`). -/

namespace Sys2Proof.Machine

/-- The elementary effects: the core's registers and outputs, the video chip's ports, the GROM ports, a byte stored in a RAM that an
address reaches, a write to cartridge ROM, the CRU bits of the cartridge and of a card, and new
states of the devices on the CRU list. -/
structure KeptByEffects (P : State → Prop) : Prop where
  core : ∀ (s : State) (pc wp st : Word) (idle : Bool) (consumed illegalCount : Nat) (trace : List Event) (draws : Nat)
    (xPending : Option Word), P s →
      P { s with
          pc := pc, wp := wp, st := st, idle := idle, consumed := consumed, illegalCount := illegalCount, trace := trace
          draws := draws, xPending := xPending }
  vdpRead : ∀ (s : State) (e : Word), P s → P { s with vdp := (vdpPortRead s.vdp e).2 }
  vdpWrite : ∀ (s : State) (e : Word) (b : Byte), P s → P { s with vdp := vdpPortWrite s.vdp e b }
  gromAddressRead : ∀ (s : State) (sel : Nat), P s → P (s.gromAddressRead sel).2
  gromDataRead : ∀ (s : State) (sel : Nat), P s → P (s.gromDataRead sel).2
  gromAddressWrite : ∀ (s : State) (sel : Nat) (b : Byte), P s → P (s.gromAddressWrite sel b)
  gromDataWrite : ∀ (s : State) (sel : Nat) (b : Byte), P s → P (s.gromDataWrite sel b)
  store : ∀ (s : State) (a : Word) (st : Store) (o : Nat) (b : Byte), locate s a = some (st, o) → st.isRam = true → P s →
    P (writeStore s o b st)
  romWrite : ∀ (s : State) (e : Word), P s → P (s.mapCart fun c => c.romWrite e)
  cartBit : ∀ (s : State) (n : Nat) (v : Bool), P s → P (s.mapCart fun c => c.writeBit n v)
  cardBit : ∀ (s : State) (id n : Nat) (v : Bool), P s →
    P { s with cards := s.cards.map fun c => if c.id = id then c.writeBit n v else c }
  cruList : ∀ (s : State) (l : List CruEntry), P s → P { s with cru := l }

variable {P : State → Prop} {s : State}

theorem KeptByEffects.charge (h : KeptByEffects P) (n : Nat) (hs : P s) : P (s.charge n) := h.core s _ _ _ _ _ _ _ _ _ hs

theorem KeptByEffects.emit (h : KeptByEffects P) (e : Event) (hs : P s) : P (s.emit e) := h.core s _ _ _ _ _ _ _ _ _ hs

theorem KeptByEffects.draw (h : KeptByEffects P) (hs : P s) : P s.draw.2 := h.core s _ _ _ _ _ _ _ _ _ hs

theorem KeptByEffects.readRegion (h : KeptByEffects P) (e : Word) (r : Region) (hs : P s) : P (readRegion s e r).2 := by
  cases r with
  | vdpRead => exact h.vdpRead s e hs
  | speechRead => exact h.draw hs
  | gromRead =>
    unfold Machine.readRegion
    dsimp only
    split
    · exact h.gromAddressRead s _ hs
    · exact h.gromDataRead s _ hs
  | _ => exact hs

theorem KeptByEffects.storeByte (h : KeptByEffects P) (a : Word) (b : Byte) (hs : P s) : P (storeByte s a b) := by
  unfold Machine.storeByte
  split
  · rename_i st o hl
    split
    · exact h.store s a st o b hl ‹_› hs
    · exact hs
  · exact hs

theorem KeptByEffects.storeWord (h : KeptByEffects P) (e v : Word) (hs : P s) : P (storeWord s e v) :=
  h.storeByte _ _ (h.storeByte _ _ hs)

theorem KeptByEffects.emitPersist (h : KeptByEffects P) (i : Nat) (hs : P s) : P (emitPersist s i) := by
  unfold Machine.emitPersist
  split
  · exact h.emit _ hs
  · exact hs

theorem KeptByEffects.writeBacked (h : KeptByEffects P) (e v : Word) (hs : P s) : P (writeBacked s e v) := by
  unfold Machine.writeBacked
  split
  · exact h.romWrite s e hs
  · split
    · split
      · exact h.emitPersist _ (h.storeWord e v hs)
      · exact h.storeWord e v hs
    · exact hs
  · exact hs

theorem KeptByEffects.writeRegion (h : KeptByEffects P) (e v : Word) (r : Region) (hs : P s) : P (writeRegion s e v r) := by
  cases r with
  | sound | speechWrite => exact h.emit _ hs
  | vdpWrite => exact h.vdpWrite s e _ hs
  | vdpRead | speechRead | gromRead => exact hs
  | gromWrite =>
    unfold Machine.writeRegion
    dsimp only
    split
    · exact h.gromAddressWrite s _ _ hs
    · exact h.gromDataWrite s _ _ hs
  | _ => exact h.writeBacked e v hs

theorem KeptByEffects.cruDeliver (h : KeptByEffects P) (a : CruAddr) (v : Bool) (e : CruEntry) (hs : P s) :
    P (cruDeliver a v s e) := by
  unfold Machine.cruDeliver
  split
  · split
    · exact h.cartBit s _ v hs
    · exact h.cardBit s _ _ v hs
    · exact hs
  · exact hs

/-- What every elementary effect keeps, every bus access and every CRU write keeps. -/
theorem KeptByEffects.preserved (h : KeptByEffects P) : Preserved P where
  core := h.core
  read _ a hs := h.charge _ (h.readRegion (even a) _ hs)
  write _ a v hs := h.charge _ (h.writeRegion (even a) v _ hs)
  cru s a v hs :=
    h.cruList _ _ (List.foldlRecOn s.cru (Machine.cruDeliver a v) hs fun _ hu e _ => h.cruDeliver a v e hu)

end Sys2Proof.Machine
end

section
/-! The two GROM sets (R780, R783): every operation on the latches does to both addresses and both phases the same thing. -/

namespace Sys2Proof.Machine

/-- The addresses and the phases of two sets are equal; their buffers may differ, as their memories do (R783). -/
def GromLatch.Agrees (l m : GromLatch) : Prop := l.addr = m.addr ∧ l.phase = m.phase

/-- An operation that the GROM memory behind it steers in the buffer only. -/
def GromOpAgrees (f : GromLatch → (Word → Byte) → GromLatch) : Prop :=
  ∀ (l m : GromLatch) (x y : Word → Byte), l.Agrees m → (f l x).Agrees (f m y)

theorem dataAccess_agrees : GromOpAgrees GromLatch.dataAccess := fun _ _ _ _ ⟨ha, _⟩ => ⟨congrArg gromInc ha, rfl⟩

theorem addressRead_agrees : GromOpAgrees fun l _ => l.addressRead := fun _ _ _ _ ⟨ha, hp⟩ => ⟨ha, congrArg (!·) hp⟩

theorem addressWrite_agrees (b : Byte) : GromOpAgrees fun l mem => l.addressWrite mem b := by
  rintro ⟨a, _, p⟩ ⟨_, _, _⟩ x y ⟨rfl, rfl⟩
  cases p <;> exact ⟨rfl, rfl⟩

theorem State.gromSetsAgree_iff (s : State) :
    s.gromSetsAgree = true ↔ ∀ c, s.cart = some c → c.hasGrom = true → s.grom.Agrees c.cg := by
  cases hc : s.cart with
  | none => simp [State.gromSetsAgree, hc]
  | some c => cases hg : c.hasGrom <;> simp [State.gromSetsAgree, hc, hg, GromLatch.Agrees]

variable {s : State}

/-- One operation on both sets keeps them in agreement. -/
theorem gromSetsAgree_gromBoth {f : GromLatch → (Word → Byte) → GromLatch} (hf : GromOpAgrees f) (sel : Nat)
    (hs : s.gromSetsAgree = true) : (s.gromBoth sel f).gromSetsAgree = true := by
  rw [State.gromSetsAgree_iff] at hs ⊢
  intro d hd hg
  obtain ⟨c, hc, rfl⟩ := Option.map_eq_some_iff.1 hd
  cases h : c.hasGrom with
  | true =>
    rw [if_pos rfl]
    exact hf _ _ _ _ (hs c hc h)
  | false => simp [h] at hg

/-- A cartridge with the chips and the latches that another one has, its chips' contents apart. -/
def Cartridge.SameGrom (c d : Cartridge) : Prop := d.cg = c.cg ∧ d.hasGrom = c.hasGrom

/-- What leaves the latches and the presence of chips keeps the sets in agreement. -/
theorem gromSetsAgree_mapCart {f : Cartridge → Cartridge} (hf : ∀ c : Cartridge, c.SameGrom (f c))
    (hs : s.gromSetsAgree = true) : (s.mapCart f).gromSetsAgree = true := by
  rw [State.gromSetsAgree_iff] at hs ⊢
  intro d hd hg
  obtain ⟨c, hc, rfl⟩ := Option.map_eq_some_iff.1 hd
  obtain ⟨hcg, hhas⟩ := hf c
  rw [hcg]
  exact hs c hc (hhas ▸ hg)

theorem Cartridge.sameGrom_romWrite (c : Cartridge) (e : Word) : c.SameGrom (c.romWrite e) := by
  unfold Cartridge.romWrite
  split
  · exact ⟨rfl, rfl⟩
  · split <;> exact ⟨rfl, rfl⟩

theorem Cartridge.sameGrom_writeBit (c : Cartridge) (n : Nat) (v : Bool) : c.SameGrom (c.writeBit n v) := by
  unfold Cartridge.writeBit
  split <;> exact ⟨rfl, rfl⟩

theorem Cartridge.sameGrom_gromStore (c : Cartridge) (sel : Nat) (g : Word) (b : Byte) : c.SameGrom (c.gromStore sel g b) := by
  unfold Cartridge.gromStore
  split
  · exact ⟨rfl, rfl⟩
  · refine ⟨rfl, congrArg (!·) ?_⟩
    rw [Bool.eq_iff_iff, List.isEmpty_iff, List.isEmpty_iff, List.modify_eq_nil_iff]

/-- A byte stored in GROM leaves both sets' latches. -/
theorem gromSetsAgree_gromStore (sel : Nat) (b : Byte) (hs : s.gromSetsAgree = true) :
    (s.gromStore sel b).gromSetsAgree = true := by
  unfold State.gromStore
  split
  · refine gromSetsAgree_mapCart (fun c => ?_) hs
    split
    · exact c.sameGrom_gromStore sel _ b
    · exact ⟨rfl, rfl⟩
  · exact hs

theorem gromSetsAgree_writeStore (o : Nat) (b : Byte) (st : Store) (hs : s.gromSetsAgree = true) :
    (writeStore s o b st).gromSetsAgree = true := by
  cases st with
  | cartRom | cartRam => exact gromSetsAgree_mapCart (fun _ => ⟨rfl, rfl⟩) hs
  | _ => exact hs

theorem gromSetsAgree_keptByEffects : KeptByEffects fun s => s.gromSetsAgree = true where
  core _ _ _ _ _ _ _ _ _ _ h := h
  vdpRead _ _ h := h
  vdpWrite _ _ _ h := h
  gromAddressRead _ sel h := gromSetsAgree_gromBoth addressRead_agrees sel h
  gromDataRead _ sel h := gromSetsAgree_gromBoth dataAccess_agrees sel h
  gromAddressWrite _ sel b h := gromSetsAgree_gromBoth (addressWrite_agrees b) sel h
  gromDataWrite _ sel b h := gromSetsAgree_gromBoth dataAccess_agrees sel (gromSetsAgree_gromStore sel b h)
  store _ _ st o b _ _ h := gromSetsAgree_writeStore o b st h
  romWrite _ e h := gromSetsAgree_mapCart (fun c => c.sameGrom_romWrite e) h
  cartBit _ n v h := gromSetsAgree_mapCart (fun c => c.sameGrom_writeBit n v) h
  cardBit _ _ _ _ h := h
  cruList _ _ h := h

theorem gromSetsAgree_hostReset (s : State) : (hostReset s).gromSetsAgree = true := by
  have hdevices : s.resetDevices.gromSetsAgree = true := by
    rw [State.gromSetsAgree_iff]
    intro d hd _
    obtain ⟨c, -, rfl⟩ := Option.map_eq_some_iff.1 hd
    exact ⟨rfl, rfl⟩
  rw [hostReset_eq]
  exact hdevices

theorem gromSetsAgree_insertCartridge (s : State) (c : Cartridge) (base : Nat) :
    (insertCartridge s c base).gromSetsAgree = true := by
  rw [State.gromSetsAgree_iff]
  unfold insertCartridge
  dsimp only
  split
  all_goals
    intro d hd _
    obtain rfl := Option.some.inj hd
    exact ⟨rfl, rfl⟩

/-- Settles O54: every effect of a step keeps the agreement, and reset and insertion set the latches of both sets alike. -/
theorem gromSetsKept : Obligations.GromSetsKept :=
  ⟨fun _ _ hs hn => step_kept gromSetsAgree_keptByEffects.preserved hs hn, gromSetsAgree_hostReset, gromSetsAgree_insertCartridge⟩

end Sys2Proof.Machine
end

section
/-! The canonical form of the memories (R131, R140, R150, R780, R810; log 1): every store of a byte is below its memory's size. -/

namespace Sys2Proof.Machine

/-! ## The devices' memories -/

theorem Cartridge.memoriesOk_iff (c : Cartridge) :
    c.memoriesOk = true ↔ c.rom.wf = true ∧ (∀ m, c.ram = some m → m.wf = true) ∧ ∀ m ∈ c.groms, m.wf 0xA000 = true := by
  cases hr : c.ram <;> simp [Cartridge.memoriesOk, hr, and_assoc]

theorem Card.memoriesOk_iff (c : Card) :
    c.memoriesOk = true ↔
      (∀ d, c.dsr = some d → d.image.wf = true) ∧
      ∀ h, c.horizon = some h → h.dsrRam.wf = true ∧ h.paged.wf = true := by
  cases hd : c.dsr <;> cases hh : c.horizon <;> simp [Card.memoriesOk, Horizon.memoriesOk, hd, hh]

/-- What replaces no memory of a cartridge keeps their form. -/
theorem Cartridge.memoriesOk_congr {c d : Cartridge} (hrom : d.rom = c.rom) (hram : d.ram = c.ram) (hgroms : d.groms = c.groms)
    (h : c.memoriesOk = true) : d.memoriesOk = true := by
  rw [Cartridge.memoriesOk_iff] at h ⊢
  rwa [hrom, hram, hgroms]

theorem Cartridge.memoriesOk_romWrite (c : Cartridge) (e : Word) (h : c.memoriesOk = true) : (c.romWrite e).memoriesOk = true := by
  unfold Cartridge.romWrite
  split
  · exact h
  · split <;> exact memoriesOk_congr (c := c) rfl rfl rfl h

theorem Cartridge.memoriesOk_writeBit (c : Cartridge) (n : Nat) (v : Bool) (h : c.memoriesOk = true) :
    (c.writeBit n v).memoriesOk = true := by
  unfold Cartridge.writeBit
  split
  · exact memoriesOk_congr (c := c) rfl rfl rfl h
  · exact h

/-- An element of a modified list is an element of the list, or the new value of one. -/
theorem mem_modify {α : Type} {f : α → α} {l : List α} {i : Nat} {x : α} (h : x ∈ l.modify i f) : x ∈ l ∨ ∃ y ∈ l, x = f y := by
  obtain ⟨j, hj⟩ := List.mem_iff_getElem?.1 h
  rw [List.getElem?_modify] at hj
  obtain ⟨y, hy, hx⟩ := Option.map_eq_some_iff.1 hj
  have hmem : y ∈ l := List.mem_of_getElem? hy
  split at hx
  · exact .inr ⟨y, hmem, hx.symm⟩
  · exact .inl (hx ▸ hmem)

/-- A GROM address at or above 0x6000 lies in the 0xA000 bytes of the cartridge's space (R780). -/
theorem Cartridge.memoriesOk_gromStore (c : Cartridge) (sel : Nat) (g : Word) (b : Byte) (h : c.memoriesOk = true) :
    (c.gromStore sel g b).memoriesOk = true := by
  unfold Cartridge.gromStore
  split
  · exact h
  · rw [Cartridge.memoriesOk_iff] at h ⊢
    obtain ⟨hrom, hram, hgroms⟩ := h
    refine ⟨hrom, hram, fun m hm => ?_⟩
    rcases mem_modify hm with hm | ⟨k, hk, rfl⟩
    · exact hgroms m hm
    · have := g.isLt
      exact k.wf_write 0xA000 _ b (hgroms k hk) (by omega)

/-- A byte stored in a cartridge's RAM, beyond its end too: there nothing is stored. -/
theorem Cartridge.memoriesOk_ramWrite (c : Cartridge) (o : Nat) (b : Byte) (h : c.memoriesOk = true) :
    ({ c with ram := c.ram.map fun m => m.write o b } : Cartridge).memoriesOk = true := by
  rw [Cartridge.memoriesOk_iff] at h ⊢
  obtain ⟨hrom, hram, hgroms⟩ := h
  refine ⟨hrom, fun m hm => ?_, hgroms⟩
  obtain ⟨k, hk, rfl⟩ := Option.map_eq_some_iff.1 hm
  exact k.wf_write o b (hram k hk)

/-- A byte stored in either RAM of a Horizon card. -/
theorem Card.memoriesOk_mapHorizon {c : Card} {f : Horizon → Horizon} (h : c.memoriesOk = true)
    (hf : ∀ z, z.dsrRam.wf = true ∧ z.paged.wf = true → (f z).dsrRam.wf = true ∧ (f z).paged.wf = true) :
    ({ c with horizon := c.horizon.map f } : Card).memoriesOk = true := by
  rw [Card.memoriesOk_iff] at h ⊢
  obtain ⟨hdsr, hhorizon⟩ := h
  refine ⟨hdsr, fun z hz => ?_⟩
  obtain ⟨y, hy, rfl⟩ := Option.map_eq_some_iff.1 hz
  exact hf y (hhorizon y hy)

theorem Card.memoriesOk_writeBit (c : Card) (n : Nat) (v : Bool) (h : c.memoriesOk = true) : (c.writeBit n v).memoriesOk = true := by
  unfold Card.writeBit
  split
  · exact h
  · refine memoriesOk_mapHorizon h fun z hz => ?_
    obtain ⟨hram, hpaged⟩ := z.writeBit_memories n v
    rwa [hram, hpaged]

/-! ## All memories -/

/-- Every memory of the machine is canonical, the devices' as a property of all devices. -/
structure CanonicalMemories (s : State) : Prop where
  rom : s.rom.wf 0x2000 = true
  pad : s.pad.wf 0x100 = true
  exp : s.exp.wf 0x8000 = true
  ovl0 : s.ovl0.wf 0x2000 = true
  ovl1 : s.ovl1.wf 0x2000 = true
  gromMem : s.gromMem.wf 0x10000 = true
  vram : s.vdp.vram.wf 0x4000 = true
  devices : AllDevices (fun c => c.memoriesOk = true) (fun k => k.memoriesOk = true) s

theorem State.memoriesOk_iff (s : State) : s.memoriesOk = true ↔ CanonicalMemories s := by
  unfold State.memoriesOk
  simp only [Bool.and_eq_true, List.all_eq_true]
  constructor
  · rintro ⟨⟨⟨⟨⟨⟨⟨⟨rom, pad⟩, exp⟩, ovl0⟩, ovl1⟩, gromMem⟩, vram⟩, cart⟩, cards⟩
    exact ⟨rom, pad, exp, ovl0, ovl1, gromMem, vram, fun c hc => by rwa [hc] at cart, cards⟩
  · rintro ⟨rom, pad, exp, ovl0, ovl1, gromMem, vram, cart, cards⟩
    refine ⟨⟨⟨⟨⟨⟨⟨⟨rom, pad⟩, exp⟩, ovl0⟩, ovl1⟩, gromMem⟩, vram⟩, ?_⟩, cards⟩
    split
    · exact cart _ ‹_›
    · rfl

/-! ## Video memory -/

/-- A data write stores at a 14-bit address (R150, R863). -/
theorem Vdp.vram_dataWrite {d : Vdp} (b : Byte) (h : d.vram.wf 0x4000 = true) : (d.dataWrite b).vram.wf 0x4000 = true :=
  d.vram.wf_write 0x4000 _ b h d.vAddr.isLt

theorem Vdp.vram_addressWrite (d : Vdp) (b : Byte) : (d.addressWrite b).vram = d.vram := by
  unfold Vdp.addressWrite
  split
  · split
    · rfl
    · dsimp only
      split <;> rfl
  · rfl

theorem vram_vdpPortWrite {d : Vdp} (e : Word) (b : Byte) (h : d.vram.wf 0x4000 = true) :
    (vdpPortWrite d e b).vram.wf 0x4000 = true := by
  unfold vdpPortWrite
  split
  · exact Vdp.vram_dataWrite b h
  · rwa [Vdp.vram_addressWrite]
  · exact h

theorem vram_vdpPortRead (d : Vdp) (e : Word) : (vdpPortRead d e).2.vram = d.vram := by
  unfold vdpPortRead
  split <;> rfl

/-! ## The effects -/

variable {s : State}

theorem canonicalMemories_gromBoth (sel : Nat) (f : GromLatch → (Word → Byte) → GromLatch) (h : CanonicalMemories s) :
    CanonicalMemories (s.gromBoth sel f) := by
  refine { h with devices := h.devices.mapCart fun c hc => ?_ }
  split
  · exact c.memoriesOk_congr rfl rfl rfl hc
  · exact hc

theorem canonicalMemories_gromStore (sel : Nat) (b : Byte) (h : CanonicalMemories s) :
    CanonicalMemories (s.gromStore sel b) := by
  unfold State.gromStore
  split
  · refine { h with
      gromMem := s.gromMem.wf_write 0x10000 _ b h.gromMem (BitVec.isLt _)
      devices := h.devices.mapCart fun c hc => ?_ }
    split
    · exact c.memoriesOk_gromStore sel _ b hc
    · exact hc
  · exact h

/-- The sizes of the RAMs that are the console's own (R131). -/
def Store.consoleRam : Store → Option Nat
  | .overlay0 | .overlay1 => some 0x2000
  | .expansion => some 0x8000
  | .scratchpad => some 0x100
  | .rom | .cartRom | .cartRam | .dsrRom _ | .horizonDsr _ | .horizonPaged _ => none

theorem consoleRam_horizonStore (i : Nat) (l : HorizonLoc) : (horizonStore i l).1.consoleRam = none := by
  unfold horizonStore
  split <;> rfl

theorem consoleRam_of_dsrCard {e : Word} {k i : Nat} {p : Store × Nat} (h : locateIn s e k (.dsrCard i) = some p) :
    p.1.consoleRam = none := by
  unfold locateIn at h
  dsimp only at h
  split at h
  · cases h
  · split at h
    · obtain ⟨l, -, rfl⟩ := Option.map_eq_some_iff.1 h
      exact consoleRam_horizonStore i l
    · obtain ⟨d, -, rfl⟩ := Option.map_eq_some_iff.1 h
      rfl

theorem consoleRam_of_cartCard {e : Word} {k i : Nat} {p : Store × Nat} (h : locateIn s e k (.cartCard i) = some p) :
    p.1.consoleRam = none := by
  unfold locateIn at h
  dsimp only at h
  split at h
  · cases h
  · obtain ⟨z, -, hz⟩ := Option.bind_eq_some_iff.1 h
    obtain ⟨l, -, rfl⟩ := Option.map_eq_some_iff.1 hz
    exact consoleRam_horizonStore i l

theorem consoleRam_of_cartridge {e : Word} {k : Nat} {p : Store × Nat} (h : locateIn s e k .cartridge = some p) :
    p.1.consoleRam = none := by
  unfold locateIn at h
  dsimp only at h
  split at h
  · cases h
  · split at h
    · obtain ⟨m, -, hm⟩ := Option.bind_eq_some_iff.1 h
      obtain ⟨o, -, rfl⟩ := Option.map_eq_some_iff.1 hm
      rfl
    · obtain rfl := Option.some.inj h
      rfl

/-- An address reaches a RAM of the console below its size (R222 to R226). -/
theorem locate_lt_consoleRam {a : Word} {p : Store × Nat} {n : Nat} (h : locate s a = some p) (hn : p.1.consoleRam = some n) :
    p.2 < n := by
  obtain ⟨h0, h1, hx⟩ := regionOf_range (s := s) (a := even a) rfl
  have he := even_toNat a
  have hk : (a.getLsbD 0).toNat < 2 := Bool.toNat_lt _
  have hlt := (even a).isLt
  have hdevice : p.1.consoleRam ≠ none := fun e => by rw [e] at hn; cases hn
  unfold locate at h
  generalize regionOf s (even a) = r at h h0 h1 hx
  cases r with
  | dsrCard i => exact absurd (consoleRam_of_dsrCard h) hdevice
  | cartCard i => exact absurd (consoleRam_of_cartCard h) hdevice
  | cartridge => exact absurd (consoleRam_of_cartridge h) hdevice
  | rom =>
    obtain rfl := Option.some.inj h
    cases hn
  | overlay0 =>
    obtain rfl := Option.some.inj h
    cases hn
    have := h0 rfl
    dsimp only
    omega
  | overlay1 =>
    obtain rfl := Option.some.inj h
    cases hn
    have := h1 rfl
    dsimp only
    omega
  | expansion =>
    obtain rfl := Option.some.inj h
    cases hn
    have := hx rfl
    dsimp only
    split <;> omega
  | scratchpad =>
    obtain rfl := Option.some.inj h
    cases hn
    dsimp only
    omega
  | _ => cases h

/-- The card at a place with `f` applied, the others as they were. -/
theorem AllDevices.mapCard {C : Cartridge → Prop} {K : Card → Prop} {i : Nat} {f : Card → Card} (h : AllDevices C K s)
    (hf : ∀ k, K k → K (f k)) : AllDevices C K (s.mapCard i f) := by
  obtain ⟨hcart, hcards⟩ := h
  refine ⟨hcart, fun k hk => ?_⟩
  rcases mem_modify hk with hk | ⟨y, hy, rfl⟩
  · exact hcards k hk
  · exact hf y (hcards y hy)

/-- A byte stored in the RAM that an address reaches. -/
theorem canonicalMemories_writeStore {a : Word} {st : Store} {o : Nat} (b : Byte) (hl : locate s a = some (st, o))
    (hram : st.isRam = true) (h : CanonicalMemories s) : CanonicalMemories (writeStore s o b st) := by
  have hlt := fun n => locate_lt_consoleRam (n := n) hl
  dsimp only at hlt
  cases st with
  | rom | cartRom | dsrRom => cases hram
  | overlay0 => exact { h with ovl0 := s.ovl0.wf_write _ o b h.ovl0 (hlt _ rfl) }
  | overlay1 => exact { h with ovl1 := s.ovl1.wf_write _ o b h.ovl1 (hlt _ rfl) }
  | expansion => exact { h with exp := s.exp.wf_write _ o b h.exp (hlt _ rfl) }
  | scratchpad => exact { h with pad := s.pad.wf_write _ o b h.pad (hlt _ rfl) }
  | cartRam => exact { h with devices := h.devices.mapCart fun c hc => c.memoriesOk_ramWrite o b hc }
  | horizonDsr i =>
    refine { h with devices := h.devices.mapCard fun c hc => Card.memoriesOk_mapHorizon hc fun z hz => ?_ }
    obtain ⟨hdsr, hpaged⟩ := hz
    exact ⟨z.dsrRam.wf_write o b hdsr, hpaged⟩
  | horizonPaged i =>
    refine { h with devices := h.devices.mapCard fun c hc => Card.memoriesOk_mapHorizon hc fun z hz => ?_ }
    obtain ⟨hdsr, hpaged⟩ := hz
    rw [Horizon.paged_write]
    exact ⟨hdsr, z.paged.wf_write o b hpaged⟩

theorem canonicalMemories_cardBit (id n : Nat) (v : Bool) (h : CanonicalMemories s) :
    CanonicalMemories { s with cards := s.cards.map fun c => if c.id = id then c.writeBit n v else c } := by
  obtain ⟨hcart, hcards⟩ := h.devices
  refine { h with devices := ⟨hcart, fun k hk => ?_⟩ }
  obtain ⟨c, hc, rfl⟩ := List.mem_map.1 hk
  split
  · exact c.memoriesOk_writeBit n v (hcards c hc)
  · exact hcards c hc

theorem canonicalMemories_keptByEffects : KeptByEffects CanonicalMemories where
  core _ _ _ _ _ _ _ _ _ _ h := { h with }
  vdpRead s e h := { h with vram := (vram_vdpPortRead s.vdp e).symm ▸ h.vram }
  vdpWrite _ e b h := { h with vram := vram_vdpPortWrite e b h.vram }
  gromAddressRead _ sel h := canonicalMemories_gromBoth sel (fun l _ => l.addressRead) h
  gromDataRead _ sel h := canonicalMemories_gromBoth sel _ h
  gromAddressWrite _ sel b h := canonicalMemories_gromBoth sel (fun l mem => l.addressWrite mem b) h
  gromDataWrite _ sel b h := canonicalMemories_gromBoth sel _ (canonicalMemories_gromStore sel b h)
  store _ _ _ _ b hl hr h := canonicalMemories_writeStore b hl hr h
  romWrite _ e h := { h with devices := h.devices.mapCart fun c => c.memoriesOk_romWrite e }
  cartBit _ n v h := { h with devices := h.devices.mapCart fun c => c.memoriesOk_writeBit n v }
  cardBit _ id n v h := canonicalMemories_cardBit id n v h
  cruList _ _ h := { h with }

/-- Settles O52: every effect of a step keeps the form. -/
theorem memoryFormKept : Obligations.MemoryFormKept := by
  intro s t hs hn
  rw [State.memoriesOk_iff] at hs ⊢
  exact step_kept canonicalMemories_keptByEffects.preserved hs hn

/-- Settles O55: after reset every memory is empty, no cartridge is inserted and no card attached. -/
theorem invariantsAtReset : Obligations.InvariantsAtReset := ⟨rfl, rfl, rfl, rfl⟩

end Sys2Proof.Machine
end

section
/-! Bank selection (R750 to R766): by a write routed to cartridge ROM, by case of the cartridge's switching, and by its CRU bits. -/

namespace Sys2Proof.Machine

/-! ## The banks that a write to ROM selects (R753, R760, R763) -/

variable {c : Cartridge}

theorem Cartridge.romWrite_of_cruBankSwitched (e : Word) (h : c.cruBankSwitched = true) : c.romWrite e = c := by
  unfold Cartridge.romWrite
  rw [if_pos h]

/-- The words of PAGED_RAM_WINDOW select RAM banks by their index in it. -/
theorem Cartridge.romWrite_paged {e : Word} (h : c.cruBankSwitched = false) (hp : c.ramPaged = true)
    (hw : c.pagedWindow.first.toNat ≤ e.toNat ∧ e.toNat ≤ c.pagedWindow.last.toNat) :
    c.romWrite e = { c with ramBank := (e.toNat - c.pagedWindow.first.toNat) / 2 &&& (c.ramBankCount - 1) } := by
  have hin : (c.ramPaged && c.pagedWindow.contains e) = true := by simp [hp, PagedWindow.contains, hw]
  unfold Cartridge.romWrite
  rw [h, if_neg Bool.false_ne_true, if_pos hin]
  rfl

/-- Every other write selects a ROM bank by the word's index in the cartridge window. -/
theorem Cartridge.romWrite_bank {e : Word} (h : c.cruBankSwitched = false)
    (hp : ¬ (c.ramPaged = true ∧ c.pagedWindow.first.toNat ≤ e.toNat ∧ e.toNat ≤ c.pagedWindow.last.toNat)) :
    c.romWrite e = { c with
      romBank :=
        if c.inverted then c.bankCount - 1 - ((e.toNat - 0x6000) / 2 &&& (c.bankCount - 1))
        else (e.toNat - 0x6000) / 2 &&& (c.bankCount - 1) } := by
  have hout : ¬ (c.ramPaged && c.pagedWindow.contains e) = true := by simpa [PagedWindow.contains] using hp
  unfold Cartridge.romWrite
  rw [h, if_neg Bool.false_ne_true, if_neg hout]
  rfl

/-- RAM that is absent counts as one bank, as RAM of no bytes does (log 13). -/
theorem Cartridge.ramBankCount_eq (c : Cartridge) :
    c.ramBankCount = max 1 ((match c.ram with | some m => m.len | none => 0) / c.ramBankSize) := by
  unfold Cartridge.ramBankCount
  cases c.ram with
  | some m => rfl
  | none => simp

theorem Cartridge.romBank_romWrite_lt (c : Cartridge) (e : Word) (h : c.romBank < c.bankCount) :
    (c.romWrite e).romBank < (c.romWrite e).bankCount := by
  unfold Cartridge.romWrite
  split
  · exact h
  · split
    · exact h
    · exact c.bankFromAddress_lt e (Nat.zero_lt_of_lt h)

/-- A bank count that is a power of two masks with the remainder. -/
theorem and_pred_eq_mod {n k : Nat} (h : n = 2 ^ k) (x : Nat) : x &&& (n - 1) = x % n := by
  rw [h, Nat.and_two_pow_sub_one_eq_mod]

/-! ## The CRU bits (R766) -/

theorem Cartridge.writeBit_false (c : Cartridge) (n : Nat) : c.writeBit n false = c := if_neg fun h => nomatch h.2

theorem Cartridge.writeBit_zero (c : Cartridge) (v : Bool) : c.writeBit 0 v = c := if_neg fun h => h.1 rfl

theorem Cartridge.writeBit_true (c : Cartridge) {n : Nat} (h : n ≠ 0) :
    c.writeBit n true = { c with romBank := (n - 1) / 2 &&& (c.bankCount - 1) } := if_pos ⟨h, rfl⟩

/-! ## The write on the bus (R750, R753) -/

/-- A write routed to cartridge ROM is `romWrite` and one charge. -/
theorem busWrite_cartRom {s : State} {a : Word} (v : Word) (hc : s.cart = some c) (hr : regionOf s (even a) = .cartridge)
    (hrom : cartRoutesRam s c (even a) = false) :
    busWrite s a v = (s.mapCart fun c => c.romWrite (even a)).charge Config.waitCart := by
  have hl : locate s (even a) = some (.cartRom, c.romOffset (even a) + 0) := by
    rw [(locate_eq_locateIn s a).1, hr]
    unfold locateIn
    rw [hc]
    dsimp only
    rw [hrom, if_neg Bool.false_ne_true]
  have hw : writeBacked s (even a) v = s.mapCart fun c => c.romWrite (even a) := by
    unfold writeBacked
    rw [hl]
  rw [busWrite_of_region v ((regionOf_even s a).symm.trans hr), ← hw]
  rfl

theorem mapCart_of_some {s : State} (f : Cartridge → Cartridge) (hc : s.cart = some c) :
    s.mapCart f = { s with cart := some (f c) } := by
  unfold State.mapCart
  rw [hc]
  rfl

/-- Settles O27: the write by `busWrite_cartRom` and the three cases of `romWrite`, the CRU bits by their own equations. -/
theorem cartBanks : Obligations.CartBanks := by
  refine ⟨fun s c a v hc hr hrom => ?_, fun c bit => ?_⟩
  · intro t e i first paged ramLen holds
    have hwrite := busWrite_cartRom v hc hr hrom
    have hkept : MemoryKept s (busWrite s a v) [] := by
      rw [hwrite]
      exact memoryKept_of_cells fun x _ => cellAt_mapCart_romWrite s _ x
    have ht : holds (c.romWrite (even a)) := by
      rw [mapCart_of_some _ hc] at hwrite
      exact hwrite
    refine ⟨hkept, fun h => ?_, fun h hp => ?_, fun h hp => ?_, fun h => ?_, fun k h => ?_⟩
    · rwa [Cartridge.romWrite_of_cruBankSwitched _ h] at ht
    · rw [Cartridge.romWrite_paged h hp.1 hp.2, Cartridge.ramBankCount_eq] at ht
      exact ht
    · rwa [Cartridge.romWrite_bank h hp] at ht
    · exact ⟨_, congrArg State.cart ht, c.romBank_romWrite_lt _ h⟩
    · exact and_pred_eq_mod h _
  · exact ⟨c.writeBit_false bit, c.writeBit_zero true, c.writeBit_true, and_pred_lt _, fun k h => and_pred_eq_mod h _⟩

end Sys2Proof.Machine
end

section
/-! The interrupt request (R868, R956, R957): which levels a controller presents. -/

namespace Sys2Proof.Machine

/-! ## The video chip's request (R868) -/

/-- A byte masked with one of its bits. -/
theorem byte_and_bit_ne_zero (b : Byte) {i : Nat} (hi : i < 8) : b &&& BitVec.twoPow 8 i ≠ 0 ↔ b.getLsbD i = true := by
  have hbit : BitVec.twoPow 8 i ≠ 0#8 := fun h => by
    have hget := congrArg (BitVec.getLsbD · i) h
    simp [hi] at hget
  rw [BitVec.and_twoPow]
  cases b.getLsbD i <;> simp [hbit]

theorem Vdp.interrupt_iff (d : Vdp) : d.interrupt = true ↔ d.vStatus &&& 0x80 ≠ 0 ∧ d.vr[1] &&& 0x20 ≠ 0 := by
  have hf := byte_and_bit_ne_zero d.vStatus (i := 7) (by decide)
  have hie := byte_and_bit_ne_zero d.vr[1] (i := 5) (by decide)
  unfold Vdp.interrupt
  rw [Bool.and_eq_true, ← hf, ← hie]
  rfl

/-! ## The controllers (R957, log 15) -/

variable {s : State}

theorem intReq_default (h : s.wiring = .default) : intReq s = if s.vdp.interrupt || s.timerInt then some 0 else none := by
  unfold intReq
  rw [h]

theorem intReq_platform {m : Nat} (h : s.wiring = .platform m) :
    intReq s = Config.intController m s.vdp.interrupt s.timerInt (outsideDevices s) := by
  unfold intReq
  rw [h]

theorem intReq_masked {v t : Option IntSource} (h : s.wiring = .masked v t) :
    intReq s =
      lowestLevel (if s.vdp.interrupt then presented s v else none) (if s.timerInt then presented s t else none) := by
  unfold intReq
  rw [h]

theorem mem_outsideDevices (s : State) (b : Nat) (d : Config.OutsideDevice) :
    (b, d) ∈ outsideDevices s ↔ ∃ n, ⟨.outside d, b, n⟩ ∈ s.cru := by
  unfold outsideDevices
  rw [List.mem_filterMap]
  constructor
  · rintro ⟨⟨dev, base, n⟩, he, hd⟩
    cases dev with
    | outside x =>
      obtain ⟨rfl, rfl⟩ := Prod.mk.inj (Option.some.inj hd)
      exact ⟨n, he⟩
    | cartridge | card => cases hd
  · rintro ⟨n, hn⟩
    exact ⟨_, hn, rfl⟩

/-- A source is presented at its level unless its output bit masks it. -/
theorem presented_eq_some_iff (s : State) (src : Option IntSource) (l : IntLevel) :
    presented s src = some l ↔ ∃ x, src = some x ∧ x.level = l ∧ ∀ m, x.mask = some m → cruOutput s m = true := by
  cases src with
  | none => simp [presented]
  | some x =>
    obtain ⟨level, mask⟩ := x
    cases mask <;> simp [presented, and_comm]

theorem lowestLevel_eq_some_iff (a b : Option IntLevel) (l : IntLevel) :
    lowestLevel a b = some l ↔ (a = some l ∨ b = some l) ∧ ∀ k, a = some k ∨ b = some k → l ≤ k := by
  have hleast : ∀ x, some x = some l ↔ some x = some l ∧ ∀ k, some x = some k → l ≤ k := fun x =>
    ⟨fun h => ⟨h, fun k hk => (Option.some.inj (h.symm.trans hk)).le⟩, And.left⟩
  cases a with
  | none =>
    cases b with
    | none => simp [lowestLevel]
    | some y => simpa only [lowestLevel, reduceCtorEq, false_or] using hleast y
  | some x =>
    cases b with
    | none => simpa only [lowestLevel, reduceCtorEq, or_false] using hleast x
    | some y =>
      have hmin : lowestLevel (some x) (some y) = some (min x y) := congrArg some (min_def x y).symm
      rw [hmin]
      simp only [Option.some.injEq]
      constructor
      · rintro rfl
        refine ⟨(min_choice x y).imp Eq.symm Eq.symm, ?_⟩
        rintro k (rfl | rfl)
        · exact min_le_left x y
        · exact min_le_right x y
      · rintro ⟨rfl | rfl, hle⟩
        · exact min_eq_left (hle y (.inr rfl))
        · exact min_eq_right (hle x (.inl rfl))

/-- Settles O10: the request bit by bit, and each controller's definition; the masking one by what `presented` and `lowestLevel` give. -/
theorem interruptSource : Obligations.InterruptSource := by
  intro s
  refine ⟨s.vdp.interrupt_iff, fun h => ?_, fun m h => ⟨intReq_platform h, mem_outsideDevices s⟩, fun v t h => ?_⟩
  · rw [intReq_default h]
    cases s.vdp.interrupt <;> cases s.timerInt <;> simp [levelNumber]
  · intro shows presents l
    have hp : ∀ (on : Bool) src k, (if on then presented s src else none) = some k ↔ on = true ∧ shows k src := by
      intro on src k
      cases on <;> simp [presented_eq_some_iff, shows]
    rw [intReq_masked h, lowestLevel_eq_some_iff]
    simp only [hp]
    rfl

end Sys2Proof.Machine
end

section
/-! The interrupt check and taking an interrupt (R955, R958, R960), and what they leave for RTWP (R961, R962) and for an idle pass
(R966). -/

namespace Sys2Proof.Machine

variable {s : State} {l : IntLevel}

/-! ## The check (R958) -/

theorem interruptCheck_of_masked (h : ∀ l, intReq s = some l → (stMask s.st).toNat < levelNumber l) : interruptCheck s = s := by
  unfold interruptCheck
  split
  · exact if_neg (Nat.not_le.mpr (h _ ‹_›))
  · rfl

theorem interruptCheck_of_taken (hl : intReq s = some l) (hm : levelNumber l ≤ (stMask s.st).toNat) :
    interruptCheck s = acknowledge s l := by
  unfold interruptCheck
  rw [hl]
  exact if_pos hm

theorem stMask_acknowledge (s : State) (l : IntLevel) : stMask (acknowledge s l).st = BitVec.ofNat 4 l.val := by
  rw [acknowledge_st, stMask_putMask]

/-- Settles O9: an idle pass is one charge and the check, which takes the interrupt or leaves the state. -/
theorem stepIdle : Obligations.StepIdle := by
  intro s hx hi u
  refine ⟨_, step_idle hx hi, rfl, Nat.le_add_left 1 _, fun h => interruptCheck_of_masked h, fun l hl hm => ?_, ?_⟩
  · rw [interruptCheck_of_taken (s := idlePass s) hl hm]
    exact ⟨rfl, rfl, stMask_acknowledge _ l⟩
  · rw [hostReset_eq]
    rfl

/-! ## Taking an interrupt (R960) -/

/-- The vector reads are quiet: they deliver what the inspection path shows, and charge. -/
theorem readVector_vectorAddr (s : State) (l : IntLevel) :
    readVector s (vectorAddr l) =
      (fastRead s (vectorAddr l), fastRead s (vectorAddr l + 2), (s.charge Config.waitRom).charge Config.waitRom) := by
  have hv := vectorAddr_toNat l
  have hl := l.isLt
  have hpc : (vectorAddr l + 2).toNat < 0x2000 := by
    have htwo : (2 : Word).toNat = 2 := rfl
    rw [BitVec.toNat_add, hv, htwo]
    omega
  unfold readVector
  rw [busRead_low s (by omega)]
  dsimp only
  rw [busRead_low _ hpc, fastRead_charge]

/-- The context switch that taking an interrupt makes. -/
theorem switchThrough_vectorAddr (s : State) (l : IntLevel) :
    switchThrough s (vectorAddr l) =
      contextSwitch ((s.charge Config.waitRom).charge Config.waitRom) (fastRead s (vectorAddr l)) (fastRead s (vectorAddr l + 2)) := by
  unfold switchThrough
  rw [readVector_vectorAddr]

theorem acknowledge_wp (s : State) (l : IntLevel) : (acknowledge s l).wp = fastRead s (vectorAddr l) := by
  show (switchThrough s (vectorAddr l)).wp = _
  rw [switchThrough_vectorAddr, contextSwitch_wp]

theorem acknowledge_pc (s : State) (l : IntLevel) : (acknowledge s l).pc = fastRead s (vectorAddr l + 2) := by
  show (switchThrough s (vectorAddr l)).pc = _
  rw [switchThrough_vectorAddr, contextSwitch_pc]

/-- ST, `idle` and the cycles are no part of what the inspection path shows. -/
theorem fastRead_st_idle_charge (u : State) (st : Word) (idle : Bool) (n : Nat) (a : Word) :
    fastRead (({ u with st := st, idle := idle } : State).charge n) a = fastRead u a :=
  fastRead_of_parts rfl (by
    generalize regionOf u (even a) = r
    cases r with
    | gromRead =>
      unfold readRegion
      dsimp only
      split <;> rfl
    | _ => rfl)

theorem fastRead_acknowledge (s : State) (l : IntLevel) (a : Word) :
    fastRead (acknowledge s l) a = fastRead (switchThrough s (vectorAddr l)) a := fastRead_st_idle_charge _ _ _ _ a

theorem acknowledge_plainRam (s : State) (l : IntLevel) (a : Word) : plainRam (acknowledge s l) a = plainRam s a :=
  switchThrough_plainRam s (vectorAddr l) a

/-- With the save slots of the new workspace in plain RAM, they show the old WP, PC and ST, and no other byte is stored to. -/
theorem acknowledge_plain (h13 : plainRam s ((acknowledge s l).wp + 26) = true)
    (h14 : plainRam s ((acknowledge s l).wp + 28) = true) (h15 : plainRam s ((acknowledge s l).wp + 30) = true) :
    let t := acknowledge s l
    fastRead t (t.wp + 26) = s.wp ∧ fastRead t (t.wp + 28) = s.pc ∧ fastRead t (t.wp + 30) = s.st ∧
    MemoryKept s t (storedCells s (t.wp + 26) ++ storedCells s (t.wp + 28) ++ storedCells s (t.wp + 30)) := by
  intro t
  rw [acknowledge_wp] at h13 h14 h15
  obtain ⟨-, hkept, hr13, hr14, hr15⟩ := contextSwitch_plain ((s.charge Config.waitRom).charge Config.waitRom)
    (fastRead s (vectorAddr l)) (fastRead s (vectorAddr l + 2)) h13 h14 h15
  rw [← switchThrough_vectorAddr] at hkept hr13 hr14 hr15
  rw [← List.append_assoc] at hkept
  have hwp : t.wp = fastRead s (vectorAddr l) := acknowledge_wp s l
  rw [fastRead_acknowledge, fastRead_acknowledge, fastRead_acknowledge, hwp]
  have hcharge : MemoryKept s ((s.charge Config.waitRom).charge Config.waitRom) [] := memoryKept_of_cells fun _ _ => rfl
  exact ⟨hr13, hr14, hr15, (hcharge.trans hkept).of_cells_eq fun _ => rfl⟩

/-- Settles O11: the check's two cases; the whole state after taking an interrupt from the saves of the context switch. The
bare name is the model's function. -/
theorem interruptCheck_holds : Obligations.InterruptCheck := by
  intro s
  refine ⟨interruptCheck_of_masked, fun l hl hm => ?_⟩
  rw [interruptCheck_of_taken hl hm]
  intro t v r1 r2 u
  have hl15 := l.isLt
  have hmask : (stMask t.st).toNat = levelNumber l - 1 := by
    rw [stMask_acknowledge, BitVec.toNat_ofNat, Nat.mod_eq_of_lt (by omega)]
    rfl
  have hu : switchThrough s (vectorAddr l) = u := by
    obtain ⟨hpc, hwp, hst, -⟩ := offBus_fields (readVector_offBus s (vectorAddr l))
    unfold switchThrough
    rw [contextSwitch_eq, hwp, hpc, hst]
    rfl
  refine ⟨?_, acknowledge_wp s l, acknowledge_pc s l, hmask, ?_, fun h13 h14 h15 => acknowledge_plain h13 h14 h15⟩
  · rw [← hu]
    rfl
  · rw [acknowledge_st]
    exact agreeOff_putMask s.st _

/-- Settles O16: the switch leaves in R13 to R15 what RTWP reloads. -/
theorem interruptThenRtwp : Obligations.InterruptThenRtwp := by
  intro s l hl hm
  rw [interruptCheck_of_taken hl hm]
  intro t h13 h14 h15
  have hplain := acknowledge_plainRam s l
  obtain ⟨hr13, hr14, hr15, -⟩ := acknowledge_plain ((hplain _).symm.trans h13) ((hplain _).symm.trans h14)
    ((hplain _).symm.trans h15)
  exact exec_rtwp_of_saved h13 h14 hr13 hr14 hr15

end Sys2Proof.Machine
end

section
/-! Two bytes at the video chip's address port (R863 to R865): an address set up for writing or for reading, and a register write. -/

namespace Sys2Proof.Machine

/-! ## The two bytes of an address -/

/-- The six high bits of an address, as the second byte carries them. -/
theorem vramAddr_hi_toNat (a : VramAddr) : ((a.extractLsb' 8 6).setWidth 8 : Byte).toNat = a.toNat / 256 := by
  have ha := a.isLt
  rw [BitVec.toNat_setWidth, BitVec.extractLsb'_toNat, Nat.shiftRight_eq_div_pow]
  omega

/-- Bit 6 of the second byte, which says that the address is for writing, is none of the six. -/
theorem vramAddr_hi_forWriting_toNat (a : VramAddr) :
    ((a.extractLsb' 8 6).setWidth 8 ||| 0x40 : Byte).toNat = 64 + a.toNat / 256 := by
  have ha := a.isLt
  have hor := Nat.two_pow_add_eq_or_of_lt (i := 6) (b := a.toNat / 256) (by omega) 1
  rw [BitVec.toNat_or, vramAddr_hi_toNat, Nat.or_comm]
  exact hor.symm

/-- The two bytes put together are the address. -/
theorem vramAddr_of_bytes {a : VramAddr} {hi : Nat} (h : hi % 64 = a.toNat / 256) :
    BitVec.ofNat 14 (hi % 64 * 256 + (a.extractLsb' 0 8 : Byte).toNat) = a := by
  apply BitVec.eq_of_toNat_eq
  rw [h, BitVec.extractLsb'_toNat, BitVec.toNat_ofNat, Nat.shiftRight_zero]
  omega

/-! ## The two accesses -/

variable {d : Vdp}

theorem Vdp.setUp_forWriting (a : VramAddr) (hl : d.vLatch = false) :
    (d.addressWrite (a.extractLsb' 0 8)).addressWrite ((a.extractLsb' 8 6).setWidth 8 ||| 0x40) =
      { d with vLatchByte := a.extractLsb' 0 8, vLatch := false, vAddr := a } := by
  have ha := a.isLt
  have hhi := vramAddr_hi_forWriting_toNat a
  rw [Vdp.addressWrite_first _ hl, Vdp.addressWrite_forWriting rfl (by omega) (by omega)]
  dsimp only
  rw [vramAddr_of_bytes (by omega)]

theorem Vdp.setUp_forReading (a : VramAddr) (hl : d.vLatch = false) :
    (d.addressWrite (a.extractLsb' 0 8)).addressWrite ((a.extractLsb' 8 6).setWidth 8) =
      { d with vLatchByte := a.extractLsb' 0 8, vLatch := false, vBuffer := d.vramAt a, vAddr := a + 1 } := by
  have ha := a.isLt
  have hhi := vramAddr_hi_toNat a
  rw [Vdp.addressWrite_first _ hl, Vdp.addressWrite_forReading rfl (by omega)]
  dsimp only
  rw [vramAddr_of_bytes (by omega)]
  rfl

/-- A register write leaves the first byte in the low half of the address (R864, R865). -/
theorem Vdp.setUp_register (x : Byte) {b : Byte} (hl : d.vLatch = false) (hb : b.getLsbD 7 = true) :
    (d.addressWrite x).addressWrite b =
      { d with
        vLatchByte := x, vLatch := false, vAddr := (d.vAddr.extractLsb' 8 6 : BitVec 6) ++ x
        vr := d.vr.set (b.toNat % 8) x (Nat.mod_lt _ (by decide)) } := by
  rw [byte_bit7, decide_eq_true_eq] at hb
  rw [Vdp.addressWrite_first x hl, Vdp.addressWrite_register rfl hb, vramAddr_low]

/-- Settles O24: the two set-ups with a data write between them, and the register write. -/
theorem vdpAddressPort : Obligations.VdpAddressPort := by
  refine ⟨fun v a b hl => ?_, fun v x n b hl hb hn => ?_⟩
  · intro lo hi w r
    have hw : w = { v with vLatchByte := lo, vLatch := false, vram := v.vram.write a.toNat b, vBuffer := b, vAddr := a + 1 } :=
      congrArg (Vdp.dataWrite · b) (Vdp.setUp_forWriting a hl)
    have hr : r = { w with vLatchByte := lo, vLatch := false, vBuffer := w.vramAt a, vAddr := a + 1 } :=
      Vdp.setUp_forReading a (by rw [hw])
    rw [hr, hw]
    refine ⟨Memory.read_write_same _ _ _, rfl, rfl, rfl, fun c hc => Memory.read_write_other _ _ _ _ fun h => ?_⟩
    exact hc (BitVec.eq_of_toNat_eq h)
  · intro t
    have ht : t = _ := Vdp.setUp_register x hl hb
    rw [ht]
    refine ⟨?_, fun m hm => ?_, rfl, rfl, rfl, rfl⟩
    · simp only [hn]
      exact Vector.getElem_set_self n.isLt
    · simp only [hn]
      exact Vector.getElem_set_ne n.isLt m.isLt fun h => hm (Fin.ext h.symm)

end Sys2Proof.Machine
end

section
/-! The status a line leaves (R885, R904, R905): sprites keep F, and clear neither 5S nor C. -/

namespace Sys2Proof.Machine

/-! ## The fifth sprite (R905) -/

theorem fifthSprite_of_set {s : Byte} (i : Nat) (h : s.getLsbD 6 = true) : fifthSprite i s = s := if_pos h

theorem fifthSprite_of_clear {s : Byte} (i : Nat) (h : s.getLsbD 6 = false) :
    fifthSprite i s = (s &&& 0xE0) ||| 0x40 ||| BitVec.ofNat 8 i := if_neg (by rw [h]; exact Bool.false_ne_true)

/-- The scan index fills the five low bits alone. -/
theorem fifthSprite_getLsbD {s : Byte} {i j : Nat} (hi : i < 32) (h : s.getLsbD 6 = false) (hj : 5 ≤ j) (hj8 : j < 8) :
    (fifthSprite i s).getLsbD j = (s.getLsbD j || decide (j = 6)) := by
  have hpow : i < 2 ^ j := Nat.lt_of_lt_of_le hi (Nat.pow_le_pow_right (n := 2) (i := 5) (by decide) hj)
  have hindex : i.testBit j = false := Nat.testBit_lt_two_pow hpow
  rw [fifthSprite_of_clear i h, BitVec.getLsbD_or, BitVec.getLsbD_or, BitVec.getLsbD_and, BitVec.getLsbD_ofNat, hindex]
  obtain rfl | rfl | rfl : j = 5 ∨ j = 6 ∨ j = 7 := by omega
  all_goals simp

theorem fifthSprite_index {s : Byte} {i : Nat} (hi : i < 32) (h : s.getLsbD 6 = false) : (fifthSprite i s).toNat % 32 = i := by
  have hlow : (s.toNat &&& 0xE0 ||| 0x40 ||| i) % 2 ^ 5 = i := by
    rw [Nat.or_mod_two_pow, Nat.or_mod_two_pow, Nat.and_mod_two_pow, Nat.mod_eq_of_lt (a := i) hi]
    exact (congrArg (· ||| 0 ||| i) (Nat.and_zero _)).trans (Nat.zero_or i)
  rw [fifthSprite_of_clear i h, BitVec.toNat_or, BitVec.toNat_or, BitVec.toNat_and, BitVec.toNat_ofNat,
    Nat.mod_eq_of_lt (b := 2 ^ 8) (by omega)]
  exact hlow

/-! ## What sprites do to the status (R904, R905) -/

/-- F is as it was, and 5S and C are set where they were. -/
def StatusKept (s t : Byte) : Prop :=
  t.getLsbD 7 = s.getLsbD 7 ∧ (s.getLsbD 6 = true → t.getLsbD 6 = true) ∧ (s.getLsbD 5 = true → t.getLsbD 5 = true)

theorem StatusKept.refl (s : Byte) : StatusKept s s := ⟨rfl, id, id⟩

theorem StatusKept.trans {s t u : Byte} (h : StatusKept s t) (k : StatusKept t u) : StatusKept s u := by
  obtain ⟨h7, h6, h5⟩ := h
  obtain ⟨k7, k6, k5⟩ := k
  exact ⟨k7.trans h7, k6 ∘ h6, k5 ∘ h5⟩

theorem statusKept_fifthSprite {i : Nat} (hi : i < 32) (s : Byte) : StatusKept s (fifthSprite i s) := by
  cases h : s.getLsbD 6 with
  | true =>
    rw [fifthSprite_of_set i h]
    exact .refl s
  | false =>
    have hbit := fun j => fifthSprite_getLsbD (j := j) hi h
    refine ⟨?_, fun h6 => absurd (h6.symm.trans h) (by decide), fun h5 => ?_⟩
    · rw [hbit 7 (by decide) (by decide)]
      exact Bool.or_false _
    · rw [hbit 5 (by decide) (by decide), h5]
      rfl

theorem statusKept_plot (l : SpriteLine) (px : Nat) (k : Colour) : StatusKept l.status (l.plot px k).status := by
  unfold SpriteLine.plot
  dsimp only
  split
  · refine ⟨?_, fun h => ?_, fun h => ?_⟩ <;> simp [*]
  · exact .refl _

/-- A pixel that is plotted where a condition holds. -/
theorem statusKept_ite_plot (p : Prop) [Decidable p] (l : SpriteLine) (px : Nat) (k : Colour) :
    StatusKept l.status (if p then l.plot px k else l).status := by
  split
  · exact statusKept_plot l px k
  · exact .refl _

theorem statusKept_plotSprite (v : Vdp) (x : Int) (k : Colour) (base n : Nat) :
    ∀ (dx : Nat) (l : SpriteLine), StatusKept l.status (v.plotSprite x k base n dx l).status := by
  induction n with
  | zero => exact fun _ l => .refl _
  | succ n ih =>
    intro dx l
    rw [Vdp.plotSprite]
    exact (statusKept_ite_plot _ l _ k).trans (ih (dx + 1) _)

/-- The scan stops at entry 31, so the index it records has five bits (R900, R905). -/
theorem statusKept_scanSprites (v : Vdp) (r n : Nat) :
    ∀ (i onLine : Nat) (l : SpriteLine), i + n ≤ 32 → StatusKept l.status (v.scanSprites r n i onLine l).status := by
  induction n with
  | zero => exact fun _ _ l _ => .refl _
  | succ n ih =>
    intro i onLine l hi
    unfold Vdp.scanSprites
    dsimp only
    split
    · exact .refl _
    · split
      · split
        · exact (statusKept_plotSprite v _ _ _ _ _ l).trans (ih _ _ _ (by omega))
        · exact statusKept_fifthSprite (by omega) _
      · exact ih _ _ _ (by omega)

theorem statusKept_spriteLine (v : Vdp) (r : Nat) (s : Byte) : StatusKept s (v.spriteLine r s).status := by
  unfold Vdp.spriteLine
  split
  · exact statusKept_scanSprites v r 32 0 0 ⟨[], [], s⟩ (by decide)
  · exact .refl s

/-! ## The status of a line (R880, R885) -/

theorem frameStart_of_pos {y : Nat} (h : 0 < y) (s : Byte) : frameStart y s = s := if_neg (by omega)

/-- Clearing 5S at row 0, where FIFTH_SPRITE_RESET asks for it, leaves every other bit (log 10). -/
theorem frameStart_getLsbD (y : Nat) (s : Byte) {j : Nat} (hj : j ≠ 6) : (frameStart y s).getLsbD j = s.getLsbD j := by
  unfold frameStart
  split
  · split
    · have hmask : ∀ k : Fin 8, k.val ≠ 6 → (~~~(0x40 : Byte)).getLsbD k.val = true := by decide
      rcases Nat.lt_or_ge j 8 with h | h
      · rw [BitVec.getLsbD_and, hmask ⟨j, h⟩ hj, Bool.and_true]
      · rw [BitVec.getLsbD_of_ge _ j h, BitVec.getLsbD_of_ge _ j h]
    · rfl
  · rfl

/-- The frame flag is the one bit that R885 sets. -/
theorem frameFlag_getLsbD (y h : Nat) (s : Byte) {j : Nat} (hj : j < 7) : (frameFlag y h s).getLsbD j = s.getLsbD j := by
  have hflag : ∀ k : Fin 7, (0x80 : Byte).getLsbD k.val = false := by decide
  unfold frameFlag
  split
  · rw [BitVec.getLsbD_or, hflag ⟨j, hj⟩, Bool.or_false]
  · rfl

/-- On its way through a line the status is marked by the frame rules and then by the sprites only. -/
theorem statusKept_drawLine (v : Vdp) (y w h : Nat) (s : Byte) :
    StatusKept (frameFlag y h (frameStart y s)) (v.drawLine y w h s).2 := by
  unfold Vdp.drawLine
  dsimp only
  split
  · exact .refl _
  · exact statusKept_spriteLine v _ _

/-- Settles O60: the recorded index bit by bit; the renderer by what it keeps of the status. -/
theorem spriteStatus : Obligations.SpriteStatus := by
  refine ⟨fun i s hi => ⟨fun h => ?_, fifthSprite_of_set i⟩, fun v y w h s => ?_⟩
  · have hbit := fun j => fifthSprite_getLsbD (j := j) hi h
    refine ⟨?_, fifthSprite_index hi h, ?_, ?_⟩
    · rw [hbit 6 (by decide) (by decide)]
      exact Bool.or_true _
    · rw [hbit 7 (by decide) (by decide)]
      exact Bool.or_false _
    · rw [hbit 5 (by decide) (by decide)]
      exact Bool.or_false _
  · obtain ⟨-, h6, h5⟩ := statusKept_drawLine v y w h s
    refine ⟨fun hs => h5 ?_, fun hy hs => h6 ?_⟩
    · rw [frameFlag_getLsbD y h _ (by decide), frameStart_getLsbD y s (by decide), hs]
    · rw [frameFlag_getLsbD y h _ (by decide), frameStart_of_pos hy, hs]

end Sys2Proof.Machine
end

section
/-! The pixels of a line, and the frame flag in the status it leaves (R872, R880 to R885). -/

namespace Sys2Proof.Machine

/-! ## Active rows and columns (R872) -/

theorem displayColumn_border {x w : Nat} (h : x < (w - 256) / 2 ∨ (w - 256) / 2 + 256 ≤ x) : displayColumn x w = none :=
  if_neg (by unfold leftBorder; omega)

/-- A border row, or any row with the display disabled, is no active row. -/
theorem Vdp.displayRow_border {d : Vdp} {y h : Nat}
    (hb : y < (h - 192) / 2 ∨ (h - 192) / 2 + 192 ≤ y ∨ d.vr[1].getLsbD 6 = false) : d.displayRow y h = none := by
  unfold Vdp.displayRow topBorder
  rw [if_neg]
  rintro ⟨hl, hu, hon⟩
  obtain hy | hy | hoff := hb
  · omega
  · omega
  · exact Bool.false_ne_true (hoff.symm.trans hon)

/-! ## The pixels (R880, R881, R884) -/

/-- Every pixel is made by `rgba`: a palette colour with alpha 0xFF (R884). -/
theorem Vdp.linePixel_palette (d : Vdp) (r w : Nat) (cols : List (Nat × Colour)) (x : Nat) :
    ∃ k, d.linePixel r w cols x = d.rgba k := by
  unfold Vdp.linePixel
  split <;> exact ⟨_, rfl⟩

theorem Vdp.linePixel_border {d : Vdp} {x w : Nat} (r : Nat) (cols : List (Nat × Colour))
    (h : x < (w - 256) / 2 ∨ (w - 256) / 2 + 256 ≤ x) : d.linePixel r w cols x = d.rgba d.backdrop := by
  unfold Vdp.linePixel
  rw [displayColumn_border h]

/-- The line as a function of its column. -/
def Vdp.pixelAt (d : Vdp) (y w h : Nat) (s : Byte) (x : Nat) : Rgba :=
  match d.displayRow y h with
  | none => d.rgba d.backdrop
  | some r => d.linePixel r w (d.spriteLine r (frameFlag y h (frameStart y s))).cols x

theorem Vdp.drawLine_pixels (d : Vdp) (y w h : Nat) (s : Byte) :
    (d.drawLine y w h s).1 = (List.range w).map (d.pixelAt y w h s) := by
  unfold Vdp.drawLine Vdp.pixelAt
  cases d.displayRow y h with
  | none =>
    have hrep := List.map_const' (l := List.range w) (b := d.rgba d.backdrop)
    rw [List.length_range] at hrep
    exact hrep.symm
  | some r => rfl

theorem Vdp.pixelAt_palette (d : Vdp) (y w h : Nat) (s : Byte) (x : Nat) : ∃ k, d.pixelAt y w h s x = d.rgba k := by
  unfold Vdp.pixelAt
  split
  · exact ⟨_, rfl⟩
  · exact d.linePixel_palette _ w _ x

theorem Vdp.pixelAt_border {d : Vdp} {y w h x : Nat} (s : Byte)
    (hb : x < (w - 256) / 2 ∨ (w - 256) / 2 + 256 ≤ x ∨ y < (h - 192) / 2 ∨ (h - 192) / 2 + 192 ≤ y ∨
      d.vr[1].getLsbD 6 = false) : d.pixelAt y w h s x = d.rgba d.backdrop := by
  unfold Vdp.pixelAt
  cases hr : d.displayRow y h with
  | none => rfl
  | some r =>
    have hrow : ¬ (y < (h - 192) / 2 ∨ (h - 192) / 2 + 192 ≤ y ∨ d.vr[1].getLsbD 6 = false) := fun hb => by
      rw [Vdp.displayRow_border hb] at hr
      cases hr
    exact Vdp.linePixel_border r _ (by tauto)

/-! ## The frame flag (R885) -/

theorem frameFlag_of_end (h : Nat) (s : Byte) : frameFlag ((h - 192) / 2 + 192) h s = s ||| 0x80 := if_pos rfl

theorem frameFlag_of_other {y h : Nat} (hy : y ≠ (h - 192) / 2 + 192) (s : Byte) : frameFlag y h s = s := if_neg hy

theorem Vdp.drawLine_status_border {d : Vdp} {y h : Nat} (w : Nat) (s : Byte) (hr : d.displayRow y h = none) :
    (d.drawLine y w h s).2 = frameFlag y h (frameStart y s) := by
  unfold Vdp.drawLine
  rw [hr]

/-- Settles O59: every pixel by `pixelAt`, the status by the frame rules and what sprites keep of it. -/
theorem borderAndFrame : Obligations.BorderAndFrame := by
  intro v y w h s _ p bd
  have hp : p.1 = (List.range w).map (v.pixelAt y w h s) := v.drawLine_pixels y w h s
  refine ⟨?_, fun x hx => ?_, fun x hx hb => ?_, ?_, fun hy => ?_⟩
  · rw [hp, List.length_map, List.length_range]
  · rw [hp] at hx
    obtain ⟨c, -, rfl⟩ := List.mem_map.1 hx
    obtain ⟨k, hk⟩ := v.pixelAt_palette y w h s c
    exact ⟨k.toFin, hk⟩
  · rw [hp, List.getElem?_map, List.getElem?_range hx]
    exact congrArg some (Vdp.pixelAt_border s hb)
  · rintro rfl
    have hborder := Vdp.drawLine_status_border (d := v) w s (Vdp.displayRow_border (h := h) (.inr (.inl le_rfl)))
    rw [frameFlag_of_end, frameStart_of_pos (by omega)] at hborder
    exact hborder
  · obtain ⟨h7, -⟩ := statusKept_drawLine v y w h s
    rw [h7, frameFlag_of_other hy, frameStart_getLsbD y s (by decide)]

end Sys2Proof.Machine
end
